-- ==== Sys2Proof/Word.lean ====
section
/-! DEFINITION. The words of the block: command and register words, bytes, samples. -/

namespace Sys2Proof

/-- A HOST-port word or a command word (R84, R110). -/
abbrev Word := BitVec 32

/-- One byte of the frame buffer (R80). -/
abbrev Byte := BitVec 8

/-- The samples the machine's State holds: the type `S` of the numerics record (R14), carried by a 32-bit label. R14 gives
every `S` an injection `S.enc` into `u32`, so 2^32 labels are enough; which labels stand for a value of `S` is the
record's `isSample`. The state and every operation are written over any `S`; this is the one a run is printed and compared
in. DEDUCED, entry 1; safe. -/
abbrev Sample := BitVec 32

/-- The label that stands for `S.zero`. Which label it is, is a naming convention. DESIGN CHOICE, entry 1;
safe, because the wire form of a sample is `S.enc` of it and not its label. -/
def Sample.zero : Sample := 0#32

end Sys2Proof
end

