-- ==== Sys2Proof/Syntax.lean ====
section
/-! DEFINITION. The command set: one constructor per row of the opcode map (R118), operands as R112 gives them. -/

namespace Sys2Proof

/-- A command (R110, R118). -/
inductive Instr where
  /-- R281. -/
  | nop
  /-- R282. -/
  | cfglock
  /-- R141: `loss` is the frame-loss indicator, `len` the frame's byte count. -/
  | finit (loss : Bool) (len : BitVec 9)
  /-- R283. -/
  | sreset
  /-- R147. -/
  | brbit
  /-- R148: `n` is the number of bits to read. -/
  | bruint (n : BitVec 6)
  /-- R149. -/
  | brsync
  /-- R167: `m` is a model id. -/
  | acdec (m : BitVec 8)
  /-- R169: `f` is the filter number. -/
  | actns (f : BitVec 1)
  /-- R171. -/
  | acpair
  /-- R191. -/
  | nfill
  /-- R241. -/
  | ggain
  /-- R201. -/
  | tnssyn
  /-- R211. -/
  | snssyn
  /-- R251. -/
  | imdct
  /-- R261. -/
  | ltpf
  deriving DecidableEq, Repr

/-- Why a word is not a command (R119): its opcode is not in the map, or a reserved bit of its format is set. -/
inductive DecodeError where
  | illop
  | badfield
  deriving DecidableEq, Repr

end Sys2Proof
end

