-- ==== Sys2Proof/Decode.lean ====
section
/-! DEFINITION. Decoding a command word (R111, R112, R118, R119; steps 2 and 3 of R120) and encoding a command. -/

namespace Sys2Proof

/-- Format `Z` (R111): bits [23:0] are reserved. -/
def decodeZ (i : Instr) (w : Word) : Except DecodeError Instr :=
  if w.extractLsb' 0 24 = 0#24 then .ok i else .error .badfield

/-- Format `L` (R111): `loss` is bit 16, `len` bits [8:0]; bits [23:17] and [15:9] are reserved. -/
def decodeL (i : Bool → BitVec 9 → Instr) (w : Word) : Except DecodeError Instr :=
  if w.extractLsb' 17 7 = 0#7 ∧ w.extractLsb' 9 7 = 0#7 then .ok (i (w.getLsbD 16) (w.extractLsb' 0 9))
  else .error .badfield

/-- Format `N` (R111): `n` is bits [5:0]; bits [23:6] are reserved. -/
def decodeN (i : BitVec 6 → Instr) (w : Word) : Except DecodeError Instr :=
  if w.extractLsb' 6 18 = 0#18 then .ok (i (w.extractLsb' 0 6)) else .error .badfield

/-- Format `M` (R111): `m` is bits [7:0]; bits [23:8] are reserved. -/
def decodeM (i : BitVec 8 → Instr) (w : Word) : Except DecodeError Instr :=
  if w.extractLsb' 8 16 = 0#16 then .ok (i (w.extractLsb' 0 8)) else .error .badfield

/-- Format `F` (R111): `f` is bit 0; bits [23:1] are reserved. -/
def decodeF (i : BitVec 1 → Instr) (w : Word) : Except DecodeError Instr :=
  if w.extractLsb' 1 23 = 0#23 then .ok (i (w.extractLsb' 0 1)) else .error .badfield

/-- R118 to R120: the command a word stands for. An opcode outside the map is `illop`, found before a reserved
bit, which is `badfield`. -/
def decode (w : Word) : Except DecodeError Instr :=
  match (w.extractLsb' 24 8).toNat with
  | 0x00 => decodeZ .nop w
  | 0x01 => decodeZ .cfglock w
  | 0x02 => decodeL .finit w
  | 0x0F => decodeZ .sreset w
  | 0x10 => decodeZ .brbit w
  | 0x11 => decodeN .bruint w
  | 0x12 => decodeZ .brsync w
  | 0x20 => decodeM .acdec w
  | 0x21 => decodeF .actns w
  | 0x22 => decodeZ .acpair w
  | 0x30 => decodeZ .nfill w
  | 0x31 => decodeZ .ggain w
  | 0x32 => decodeZ .tnssyn w
  | 0x33 => decodeZ .snssyn w
  | 0x40 => decodeZ .imdct w
  | 0x41 => decodeZ .ltpf w
  | _ => .error .illop

/-- A word of format `Z` (R111). -/
def encodeZ (opcode : BitVec 8) : Word := opcode ++ 0#24

/-- R111, R118: the word of a command. -/
def encode : Instr → Word
  | .nop => encodeZ 0x00#8
  | .cfglock => encodeZ 0x01#8
  | .finit loss len => 0x02#8 ++ 0#7 ++ BitVec.ofBool loss ++ 0#7 ++ len
  | .sreset => encodeZ 0x0F#8
  | .brbit => encodeZ 0x10#8
  | .bruint n => 0x11#8 ++ 0#18 ++ n
  | .brsync => encodeZ 0x12#8
  | .acdec m => 0x20#8 ++ 0#16 ++ m
  | .actns f => 0x21#8 ++ 0#23 ++ f
  | .acpair => encodeZ 0x22#8
  | .nfill => encodeZ 0x30#8
  | .ggain => encodeZ 0x31#8
  | .tnssyn => encodeZ 0x32#8
  | .snssyn => encodeZ 0x33#8
  | .imdct => encodeZ 0x40#8
  | .ltpf => encodeZ 0x41#8

/-- The command word whose low `nbits` bits are `w` and whose other bits are 0, numbered as
spec/opcode_table.json numbers them. -/
def tableWord (nbits w : Nat) : Word := BitVec.ofNat 32 (w % 2 ^ nbits)

/-- The command the decoder reads from that word. -/
def decodeTableWord (nbits w : Nat) : Option Instr := (decode (tableWord nbits w)).toOption

end Sys2Proof
end

