-- ==== Sys2Proof/Config.lean ====
section
/-! DEFINITION. What an implementation fixes: the numerics record NUM (R14), the table record ROM (R16, R17),
the parameters PARAM (R10, R334), and the free values. All are arguments of every operation of the model
(a value of `Env`); the one instance that `exec` and `step` run on is an opaque constant of which nothing is
known but the laws the spec states. -/

namespace Sys2Proof

namespace Over

/-- The numerics record NUM of R14 over a sample type `S`, written 0 where R14 writes `S.zero`. No rule assumes anything of
a field but that it depends on its arguments alone, and the laws of `Numerics.Laws`. -/
structure Numerics (S : Type) where
  /-- Which elements of the carrier stand for a value of `S`: all of them, where the carrier is `S` itself. -/
  isSample : S → Bool
  ofInt : Int → S
  ofRat : Rat → S
  add : S → S → S
  sub : S → S → S
  mul : S → S → S
  neg : S → S
  isZero : S → Bool
  /-- `2^v`. -/
  exp2 : S → S
  /-- `10^(e/28)`. -/
  pow10_28 : Int → S
  /-- `1/sqrt(n)`, `n` positive. -/
  rsqrtInt : Nat → S
  /-- The unscaled DCT-IV of R252 on an array of `n` samples. -/
  dct4 : (n : Nat) → Vector S n → Vector S n
  /-- The wire form of a sample on the HOST port (R83). -/
  enc : S → Word
  dec : Word → S

/-- "The only laws every `NUM` must satisfy" (R14). -/
structure Numerics.Laws {S : Type} [Zero S] (n : Numerics S) : Prop where
  isZero_zero : n.isZero 0 = true
  ofInt_zero : n.ofInt 0 = 0
  isZero_ofInt : ∀ z : Int, z.natAbs ≤ 32767 → (n.isZero (n.ofInt z) = true ↔ z = 0)

/-- The laws of R14 with the round trip of its wire form, and, because the type `S` is carried by labels, that `S.zero` and
every result of an operation is a value of `S`. -/
structure Numerics.Lawful (n : Numerics Sample) : Prop extends n.Laws where
  dec_enc : ∀ v, n.isSample v = true → n.dec (n.enc v) = v
  zero_mem : n.isSample Sample.zero = true
  ofInt_mem : ∀ z, n.isSample (n.ofInt z) = true
  ofRat_mem : ∀ q, n.isSample (n.ofRat q) = true
  add_mem : ∀ a b, n.isSample (n.add a b) = true
  sub_mem : ∀ a b, n.isSample (n.sub a b) = true
  mul_mem : ∀ a b, n.isSample (n.mul a b) = true
  neg_mem : ∀ a, n.isSample (n.neg a) = true
  exp2_mem : ∀ a, n.isSample (n.exp2 a) = true
  pow10_28_mem : ∀ e, n.isSample (n.pow10_28 e) = true
  rsqrtInt_mem : ∀ k, n.isSample (n.rsqrtInt k) = true
  dct4_mem : ∀ (k : Nat) (v : Vector Sample k) (i : Nat) (h : i < k), n.isSample ((n.dct4 k v)[i]) = true
  dec_mem : ∀ w, n.isSample (n.dec w) = true

end Over

/-- The numerics record of a run. -/
abbrev Numerics := Over.Numerics Sample

/-- One model of the arithmetic decoder (R16, R162). Entries are looked up by index; those outside the shape
of R16 are never consulted. -/
structure Model where
  nsym : Nat
  cumfreq : Nat → Nat
  symfreq : Nat → Nat
  lutshift : Nat
  lut : Nat → Nat

/-- R17: a well-formed model. -/
def Model.wf (m : Model) : Bool :=
  decide (1 ≤ m.nsym) && decide (m.nsym ≤ 32) && m.cumfreq 0 == 0
    && (List.range m.nsym).all (fun s => decide (1 ≤ m.symfreq s))
    && (List.range (m.nsym - 1)).all (fun s => m.cumfreq (s + 1) == m.cumfreq s + m.symfreq s)
    && m.cumfreq (m.nsym - 1) + m.symfreq (m.nsym - 1) == 1024
    && decide (m.lutshift ≤ 10)
    && (List.range 1024).all (fun slice =>
        decide (m.lut (slice >>> m.lutshift) < m.nsym)
          && decide (slice < m.cumfreq (m.lut (slice >>> m.lutshift)) + m.symfreq (m.lut (slice >>> m.lutshift))))

namespace Over

/-- The table record ROM of R16 over a sample type `S`. -/
structure Rom (S : Type) where
  nspec : Nat
  model : Nat → Model
  specLookup : Nat → Nat
  tnsRcTab : Nat → S
  snsLfcb : Nat → Nat → S
  snsHfcb : Nat → Nat → S
  snsGain : Nat → Nat → S
  snsD : Nat → Nat → S
  ltpfCnum : Nat → Nat → S
  ltpfCden : Nat → Nat → Nat → S

/-- R16 and R17: a well-formed ROM. `NSPEC` is positive, every model is well formed, every model below `NSPEC` has 17
symbols, and every entry of `SPEC_LOOKUP` is a model id below `NSPEC`. -/
def Rom.wf {S : Type} (r : Rom S) : Bool :=
  decide (1 ≤ r.nspec)
    && (List.range (r.nspec + 18)).all (fun m => (r.model m).wf)
    && (List.range r.nspec).all (fun m => (r.model m).nsym == 17)
    && (List.range 4096).all (fun i => decide (r.specLookup i < r.nspec))

/-- Every table entry of ROM that R16 gives the type `S` is a value of `S`. -/
structure Rom.InS (r : Rom Sample) (n : Numerics Sample) : Prop where
  tnsRcTab : ∀ i, n.isSample (r.tnsRcTab i) = true
  snsLfcb : ∀ i k, n.isSample (r.snsLfcb i k) = true
  snsHfcb : ∀ i k, n.isSample (r.snsHfcb i k) = true
  snsGain : ∀ i k, n.isSample (r.snsGain i k) = true
  snsD : ∀ i k, n.isSample (r.snsD i k) = true
  ltpfCnum : ∀ g k, n.isSample (r.ltpfCnum g k) = true
  ltpfCden : ∀ g f k, n.isSample (r.ltpfCden g f k) = true

end Over

/-- The table record of a run. -/
abbrev Rom := Over.Rom Sample

/-- The parameters PARAM of R10 that are neither NUM nor ROM. -/
structure Params where
  nsMax : Nat
  neMax : Nat
  lcgA : Nat
  lcgC : Nat

/-- The defaults R10 recommends. They are general knowledge and not the source's; no operation of the model uses
this value, it stands here for instances that are to be run (the tests use it). -/
def Params.recommended : Params := { nsMax := 480, neMax := 400, lcgA := 31821, lcgC := 13849 }

/-- R334 refuses `NS_MAX` and `NE_MAX` above 1024. The lower bounds say that the smallest geometry R24 calls legal
(`NS = 4`, `NE = 2`) is supported. DEDUCED, entry 4. -/
def Params.wf (p : Params) : Bool :=
  decide (4 ≤ p.nsMax) && decide (p.nsMax ≤ 1024) && decide (2 ≤ p.neMax) && decide (p.neMax ≤ 1024)

namespace Over

/-- The arguments of the step function (R38): NUM, ROM and PARAM. -/
structure Env (S : Type) where
  num : Numerics S
  rom : Rom S
  param : Params

/-- The records the model runs on (R17, R334): an ill-formed one is refused by this. -/
structure Env.Wf (e : Env Sample) : Prop where
  num : e.num.Lawful
  rom : e.rom.wf = true
  inS : e.rom.InS e.num
  param : e.param.wf = true

end Over

/-- The arguments of the step function of a run. -/
abbrev Env := Over.Env Sample

/-- An `Env` together with the proof that it is well formed: the model cannot be given an ill-formed one (R17, R334). -/
structure LawfulEnv where
  env : Env
  wf : env.Wf

/-- A model with one symbol-frequency pattern that is well formed; used only to show that lawful records exist. -/
def Config.witnessModel : Model where
  nsym := 17
  cumfreq s := 60 * s
  symfreq s := if s = 16 then 64 else 60
  lutshift := 10
  lut _ := 16

/-- Records that satisfy every law; used only to show that lawful records exist. -/
def Config.witnessEnv : Env where
  num :=
    { isSample := fun _ => true, ofInt := fun z => BitVec.ofInt 32 z, ofRat := fun _ => 0#32
      add := fun a b => a + b, sub := fun a b => a - b, mul := fun a b => a * b, neg := fun a => -a
      isZero := fun a => a == 0#32, exp2 := fun a => a, pow10_28 := fun _ => 0#32, rsqrtInt := fun _ => 0#32
      dct4 := fun _ v => v, enc := fun v => v, dec := fun w => w }
  rom :=
    { nspec := 1, model := fun _ => Config.witnessModel, specLookup := fun _ => 0
      tnsRcTab := fun _ => 0#32, snsLfcb := fun _ _ => 0#32, snsHfcb := fun _ _ => 0#32
      snsGain := fun _ _ => 0#32, snsD := fun _ _ => 0#32, ltpfCnum := fun _ _ => 0#32
      ltpfCden := fun _ _ _ => 0#32 }
  param := Params.recommended

theorem Config.witnessEnv_num_lawful : Config.witnessEnv.num.Lawful where
  isZero_zero := by decide
  ofInt_zero := by decide
  isZero_ofInt z h := by
    have key : BitVec.ofInt 32 z = 0#32 ↔ z = 0 := by
      rw [← BitVec.toNat_inj, BitVec.toNat_ofInt]
      simp only [BitVec.toNat_ofNat, Nat.zero_mod]
      omega
    simpa [Config.witnessEnv] using key
  dec_enc _ _ := rfl
  zero_mem := rfl
  ofInt_mem _ := rfl
  ofRat_mem _ := rfl
  add_mem _ _ := rfl
  sub_mem _ _ := rfl
  mul_mem _ _ := rfl
  neg_mem _ := rfl
  exp2_mem _ := rfl
  pow10_28_mem _ := rfl
  rsqrtInt_mem _ := rfl
  dct4_mem _ _ _ _ := rfl
  dec_mem _ := rfl

theorem Config.witnessEnv_rom_wf : Config.witnessEnv.rom.wf = true := by
  have h : Config.witnessModel.wf = true := by decide +kernel
  have hn : Config.witnessModel.nsym = 17 := rfl
  simp [Over.Rom.wf, Config.witnessEnv, h, hn]

/-- Lawful records exist. -/
def Config.witness : LawfulEnv where
  env := Config.witnessEnv
  wf :=
    { num := Config.witnessEnv_num_lawful
      rom := Config.witnessEnv_rom_wf
      inS := ⟨fun _ => rfl, fun _ _ => rfl, fun _ _ => rfl, fun _ _ => rfl, fun _ _ => rfl, fun _ _ => rfl, fun _ _ _ => rfl⟩
      param := by decide }

/-- NUM, ROM and PARAM of the implementation: nothing is known of them but `LawfulEnv.wf`. The argument says only
that lawful records exist. -/
opaque Config.implementation [Inhabited LawfulEnv] : LawfulEnv

/-- The implementation's records with their laws. Entries 2, 3 and 4. -/
def Config.lawfulEnv : LawfulEnv := @Config.implementation ⟨Config.witness⟩

/-- The implementation's records: the argument `exec` and `step` run on. -/
def Config.env : Env := Config.lawfulEnv.env

theorem Config.env_wf : Config.env.Wf := Config.lawfulEnv.wf

/-- FREE VALUE: the slice of a decode step whose `scale` is 0, by R164 a quotient by zero. No reachable state takes
such a step (R31, R332). Entry 12. -/
opaque Config.freeSlice : BitVec 24 → Nat

/-- FREE VALUE: the wire form of a sample the postfilter would read outside its history. No reachable state makes
such a read (R261, R264). Entry 14. -/
opaque Config.freeWire : Int → Word

/-- FREE VALUE: the wire form of the sample at an index below `YH[0]`, which R37 names for a HOST read of `OUT[n]`, `n < CFG_NS`,
while `CFG_LTPF_NBLK = 0`. Entry 23. -/
opaque Config.freeOut : Int → Word

end Sys2Proof
end

