-- ==== Sys2Proof/Machine/State.lean ====
section
/-! DEFINITION. The state of one instance (10_state.md), plain data, and its value after reset (R40, R331). -/

namespace Sys2Proof.Machine

open Sys2Proof

/-- The status codes of `STATUS.ERR` (R310). -/
inductive ErrCode where
  | ok
  | nocfg
  | badlen
  | illop
  | badfield
  | badstate
  deriving DecidableEq, Repr

/-- The corruption causes of `STATUS.CAUSE` (R301). -/
inductive Cause where
  | none
  | extloss
  | hostset
  | acinv
  | acslice
  | esclevel
  | collision
  | broverrun
  | tnsdata
  | snsidx
  | noframe
  deriving DecidableEq, Repr

/-- A memory with entries of type `V`: the entries that differ from what an unlisted index reads as, by rising index
(the canonical form `Memory.wf` of Machine/Ops.lean). -/
abbrev Memory (V : Type) := List (Nat × V)

namespace Over

/-- The configuration registers and tables (R24, R25), over a sample type `S`. -/
structure CfgRegs (S : Type) where
  ns : BitVec 10
  ne : BitVec 10
  nz : BitVec 10
  nb : BitVec 7
  maxbytes : BitVec 9
  nfstart : BitVec 10
  nfwidth : BitVec 4
  ltpfNblk : BitVec 4
  lden : BitVec 4
  tscale : S
  bands : Memory (BitVec 10)
  win : Memory S
  deriving DecidableEq, Repr

end Over

/-- The configuration of a run. -/
abbrev CfgRegs := Over.CfgRegs Sample

/-- The tail reader: `BR_CUR`, `BR_CACHE`, `BR_CNT` (R29). -/
structure TailReader where
  cur : BitVec 9
  cache : BitVec 32
  cnt : BitVec 6
  deriving DecidableEq, Repr

/-- The arithmetic coder: `AC_LOW`, `AC_RANGE`, `AC_CUR` (R29). -/
structure Coder where
  low : BitVec 24
  range : BitVec 24
  cur : BitVec 16
  deriving DecidableEq, Repr

/-- The four fields of `LTPF_CTL` and of `LTPF_MEM` (R32, R37). -/
structure LtpfParams where
  active : Bool
  gidx : BitVec 2
  pfr : BitVec 2
  pint : BitVec 10
  deriving DecidableEq, Repr

/-- The registers of one TNS filter: `TNS_ORDER[f]`, `TNS_RC[f][0..7]`, `TNS_START[f]`, `TNS_STOP[f]` (R32). -/
structure TnsFilter where
  order : BitVec 4
  rc : Vector (BitVec 5) 8
  start : BitVec 10
  stop : BitVec 10
  deriving DecidableEq, Repr

/-- The frame registers (R32), field by field; reserved bits read 0 and are not stored. -/
structure FrameRegs where
  lsbMode : Bool
  rateFlag : Bool
  lowRate : Bool
  zero : Bool
  ntns : BitVec 2
  specK : BitVec 10
  specCtx : BitVec 8
  lastnz : BitVec 10
  bwStop : BitVec 10
  nfSeed : BitVec 16
  nfLevel : BitVec 3
  ggInd : BitVec 8
  ggOff : BitVec 10
  tns0 : TnsFilter
  tns1 : TnsFilter
  snsLf : BitVec 5
  snsHf : BitVec 5
  snsShape : BitVec 2
  snsGain : BitVec 3
  snsLsa : Bool
  snsLsb : Bool
  snsIdxA : BitVec 25
  snsIdxB : BitVec 4
  ltpf : LtpfParams
  deriving DecidableEq, Repr

/-- One HOST access (R84), or the hardware reset input (R330). Offsets are byte offsets from the instance's base. -/
inductive HostOp where
  | write (addr : Nat) (v : Word)
  | read (addr : Nat)
  | reset
  deriving DecidableEq, Repr

namespace Over

/-- The state of one instance, and the two fields of the model that stand for the HOST's side of the port: the accesses
still to come (entry 5) and the word the last `HostRead` returned (entry 6). The sample memories are arrays of the
sample type `S` (R83). -/
structure State (S : Type) where
  /-- `CMD` (R28): the last command word written. -/
  cmd : Word
  /-- `STATUS.BEC` (R23). -/
  bec : Bool
  /-- `STATUS.SKIP` (R23). -/
  skip : Bool
  /-- `STATUS.CFGLOCK` (R23). -/
  cfglock : Bool
  /-- `STATUS.ERR` (R28, R310). -/
  err : ErrCode
  /-- `STATUS.CAUSE` (R28, R301). -/
  cause : Cause
  /-- `RES` (R28). -/
  res : Word
  /-- The configuration (R24, R25). -/
  cfg : CfgRegs S
  /-- `FB_LEN` (R29). -/
  fbLen : BitVec 9
  /-- `BR_CUR`, `BR_CACHE`, `BR_CNT` (R29). -/
  reader : TailReader
  /-- `AC_LOW`, `AC_RANGE`, `AC_CUR` (R29). -/
  coder : Coder
  /-- The frame registers (R32). -/
  frm : FrameRegs
  /-- The frame buffer `FB[0..399]` (R80). -/
  fb : Memory Byte
  /-- The spectral buffer `X[0..1023]` (R34). -/
  x : Memory S
  /-- The scale factors `SCF[0..15]` (R35). -/
  scf : Vector S 16
  /-- The time block `TBLK[0..1023]` (R36). -/
  tblk : Memory S
  /-- The overlap-add memory `OLA[0..1023]` (R36). -/
  ola : Memory S
  /-- The postfilter's output history `YH`, oldest first (R37). -/
  yh : Memory S
  /-- The postfilter's input history `XT[0..9]`, oldest first (R37). -/
  xt : Vector S 10
  /-- `LTPF_MEM` (R37). -/
  ltpfMem : LtpfParams
  /-- The model's own: the HOST accesses still to come, the next one first. -/
  host : List HostOp
  /-- The model's own: the word the last `HostRead` returned, if there was one. -/
  rdata : Option Word
  deriving DecidableEq, Repr

end Over

/-- The state of a run: plain data, its samples held as labels (entry 1). -/
abbrev State := Over.State Sample

/-- The block has no fault: R291 gives every command a defined outcome on every state. A corruption event (R303) and a
command error (R309) are next states. -/
inductive Fault where
  deriving DecidableEq, Repr

/-- Why a step has no next state. -/
inductive Refusal where
  /-- Raised by no instruction: every command has its meaning. Safe. -/
  | notModelled (mnemonic : String)
  /-- R85: a HOST access whose offset is not a multiple of 4. The run is refused. Safe. -/
  | misaligned (addr : Nat)
  /-- R85: a HOST access outside 0x0000 to 0x7FFF. The run is refused. Safe. -/
  | outOfSpace (addr : Nat)
  /-- R85: a HOST access to an offset R81 does not list. The run is refused. Safe. -/
  | unmapped (addr : Nat)
  deriving DecidableEq, Repr

/-- The configuration at reset (R24, R25). -/
def CfgRegs.reset {S : Type} [Zero S] : Over.CfgRegs S where
  ns := 0
  ne := 0
  nz := 0
  nb := 0
  maxbytes := 0
  nfstart := 0
  nfwidth := 0
  ltpfNblk := 0
  lden := 0
  tscale := 0
  bands := []
  win := []

/-- `LTPF_CTL` or `LTPF_MEM` holding 0. -/
def LtpfParams.reset : LtpfParams where
  active := false
  gidx := 0
  pfr := 0
  pint := 0

/-- The registers of a TNS filter holding 0. -/
def TnsFilter.reset : TnsFilter where
  order := 0
  rc := Vector.replicate 8 0#5
  start := 0
  stop := 0

/-- Every frame register holding 0 (R32): at reset, and after `FINIT`. -/
def FrameRegs.reset : FrameRegs where
  lsbMode := false
  rateFlag := false
  lowRate := false
  zero := false
  ntns := 0
  specK := 0
  specCtx := 0
  lastnz := 0
  bwStop := 0
  nfSeed := 0
  nfLevel := 0
  ggInd := 0
  ggOff := 0
  tns0 := TnsFilter.reset
  tns1 := TnsFilter.reset
  snsLf := 0
  snsHf := 0
  snsShape := 0
  snsGain := 0
  snsLsa := false
  snsLsb := false
  snsIdxA := 0
  snsIdxB := 0
  ltpf := LtpfParams.reset

/-- R40, R331: the state after hardware reset over any sample type. Everything is zero but `STATUS.BEC = 1` and
`STATUS.CAUSE = 15`. The model's own fields are empty. -/
def State.cleared {S : Type} [Zero S] : Over.State S where
  cmd := 0
  bec := true
  skip := false
  cfglock := false
  err := .ok
  cause := .noframe
  res := 0
  cfg := CfgRegs.reset
  fbLen := 0
  reader := { cur := 0, cache := 0, cnt := 0 }
  coder := { low := 0, range := 0, cur := 0 }
  frm := FrameRegs.reset
  fb := []
  x := []
  scf := Vector.replicate 16 0
  tblk := []
  ola := []
  yh := []
  xt := Vector.replicate 10 0
  ltpfMem := LtpfParams.reset
  host := []
  rdata := none

/-- R40, R331: the state of a run after hardware reset. -/
abbrev State.reset : State := State.cleared

end Sys2Proof.Machine
end

