-- ==== Sys2Proof/Machine/Ops.lean ====
section
/-! DEFINITION. The named operations every command is written over: memories, the frame buffer, the derived quantities
of the tail reader (R30), the corruption event (R303), the command error (R309), the skip (R290) and normal
completion (R120, step 8). -/

namespace Sys2Proof.Machine

open Sys2Proof

variable {S : Type}

/-! ### Memories -/

/-- What an index that is not listed reads as: 0, for a sample memory `S.zero`. It is the spec's reset value (R40). -/
def memUnlisted (V : Type) [Zero V] : V := 0

/-- The entry at index `a`. -/
def memRead {V : Type} [Zero V] (m : Memory V) (a : Nat) : V :=
  match m with
  | [] => memUnlisted V
  | (b, v) :: rest => if a = b then v else memRead rest a

/-- The memory with `v` at index `a`, in canonical form: writing what an unlisted index reads as removes the entry. -/
def memWrite {V : Type} [Zero V] [DecidableEq V] (m : Memory V) (a : Nat) (v : V) : Memory V :=
  match m with
  | [] => if v = memUnlisted V then [] else [(a, v)]
  | (b, u) :: rest =>
    if a < b then (if v = memUnlisted V then (b, u) :: rest else (a, v) :: (b, u) :: rest)
    else if a = b then (if v = memUnlisted V then rest else (a, v) :: rest)
    else (b, u) :: memWrite rest a v

/-- `for i = 0 .. n-1:  m[lo + i] <- f i`, upward. -/
def memFill {V : Type} [Zero V] [DecidableEq V] (m : Memory V) (lo : Nat) (f : Nat → V) : Nat → Memory V
  | 0 => m
  | n + 1 => memWrite (memFill m lo f n) (lo + n) (f n)

/-- Indices strictly rising from `lo`, all below `size`, no entry equal to what an unlisted index reads as. -/
def memWfFrom {V : Type} [Zero V] [DecidableEq V] (size lo : Nat) (m : Memory V) : Bool :=
  match m with
  | [] => true
  | (a, v) :: rest => decide (lo ≤ a) && decide (a < size) && decide (v ≠ memUnlisted V) && memWfFrom size (a + 1) rest

/-- The canonical form of a memory of `size` entries: equal memories are equal data. -/
def Memory.wf {V : Type} [Zero V] [DecidableEq V] (size : Nat) (m : Memory V) : Bool := memWfFrom size 0 m

/-- Entry `i` of a fixed bank of registers. -/
def vecAt {V : Type} [Zero V] {n : Nat} (v : Vector V n) (i : Nat) : V := v[i]?.getD 0

/-! ### The frame buffer -/

/-- `MemRead(FB, i)` (R12, R89): byte `i` of the frame buffer. -/
def fbByte (s : Over.State S) (i : Nat) : Byte := memRead s.fb i

/-- `MemReadAC(i)` (R90, R166): 0 at and above `FB_LEN`. -/
def acByte (s : Over.State S) (i : Nat) : Byte := if i < s.fbLen.toNat then fbByte s i else 0#8

/-! ### Derived quantities of the readers (R30) -/

/-- `BR_POS`, the tail bits consumed so far. -/
def brPos (s : Over.State S) : Int := 8 * ((s.fbLen.toNat : Int) - s.reader.cur.toNat) - s.reader.cnt.toNat

/-- `AC_FRONT`, the bytes the arithmetic decoder has shifted out. -/
def acFront (s : Over.State S) : Int := (s.coder.cur.toNat : Int) - 3

/-- `BITS_LEFT`, the bits neither reader has used; signed. -/
def bitsLeft (s : Over.State S) : Int := 8 * (s.fbLen.toNat : Int) - brPos s - 8 * acFront s

/-! ### How a command ends -/

/-- Normal completion (R120, step 8) with result `res`. -/
def finish (res : Word) (s : Over.State S) : Over.State S := { s with res := res, err := .ok, skip := false }

/-- `fail ERR(c)` (R309): the command error. -/
def failErr (c : ErrCode) (s : Over.State S) : Over.State S := { s with res := 0, err := c, skip := false }

/-- The skip of a gated command (R290). -/
def skipGated (s : Over.State S) : Over.State S := { s with res := 0, err := .ok, skip := true }

/-- The corruption flag is set and the first cause kept (R302): the part of R303 and R304 that touches `BEC`. -/
def setBec (c : Cause) (s : Over.State S) : Over.State S := { s with cause := if s.bec then s.cause else c, bec := true }

/-- `raise BEC(c)` (R303) by a command whose rule says `RES` keeps `res`. -/
def raiseKeep (c : Cause) (res : Word) (s : Over.State S) : Over.State S := finish res (setBec c s)

/-- `raise BEC(c)` (R303): the corruption event. -/
def raiseBec (c : Cause) (s : Over.State S) : Over.State S := raiseKeep c 0 s

/-- The counterpart of a return from a corruption event (R315) and the external loss flag (R141): what `FINIT` makes of
`BEC` and `CAUSE`. -/
def frameFlags (loss : Bool) (s : Over.State S) : Over.State S :=
  { s with bec := loss, cause := if loss then .extloss else .none }

/-! ### Steps of a command that may raise -/

/-- The outcome of a part of a command: a value and the state so far, or a corruption cause and the state it is raised
in. -/
inductive Ran (α : Type) (S : Type) where
  | ok (a : α) (s : Over.State S)
  | raised (c : Cause) (s : Over.State S)

/-- One part after another; a raise ends the command (R13). -/
def ranBind {α β : Type} (r : Ran α S) (k : α → Over.State S → Ran β S) : Ran β S :=
  match r with
  | .ok a s => k a s
  | .raised c s => .raised c s

/-! ### Sums -/

/-- `acc <- S.zero; for k = 0 .. n-1: acc <- S.add(acc, f k)`, the sum in ascending order. -/
def sumAsc [Zero S] (num : Over.Numerics S) (f : Nat → S) : Nat → S
  | 0 => 0
  | n + 1 => num.add (sumAsc num f n) (f n)

/-- A command always ends in a next state (R291). -/
def completed (s : State) : Host.Outcome State Fault Refusal := .next s

end Sys2Proof.Machine
end

