-- ==== Sys2Proof/Machine/Flags.lean ====
section
/-! DEFINITION. The flags and the STATUS register (R23, R28): code numbers (R301, R310), the word the HOST reads, and
the HOST's write (R304). -/

namespace Sys2Proof.Machine

open Sys2Proof

variable {S : Type}

/-- The numbers of R310. -/
def errBits : ErrCode → BitVec 4
  | .ok => 0
  | .nocfg => 1
  | .badlen => 2
  | .illop => 3
  | .badfield => 4
  | .badstate => 5

/-- The numbers of R301. -/
def causeBits : Cause → BitVec 4
  | .none => 0
  | .extloss => 1
  | .hostset => 2
  | .acinv => 3
  | .acslice => 4
  | .esclevel => 5
  | .collision => 6
  | .broverrun => 7
  | .tnsdata => 8
  | .snsidx => 9
  | .noframe => 15

/-- `STATUS` as the HOST reads it (R28): bit 0 `BEC`, bit 1 `SKIP`, bit 2 `CFGLOCK`, bits [7:4] `ERR`, bits [11:8]
`CAUSE`; reserved bits read 0. -/
def statusWord (s : Over.State S) : Word :=
  0#20 ++ causeBits s.cause ++ errBits s.err ++ 0#1 ++ BitVec.ofBool s.cfglock ++ BitVec.ofBool s.skip
    ++ BitVec.ofBool s.bec

/-- R304: a HOST write of `STATUS` raises `HOSTSET` when bit 0 of the word is 1 and does nothing otherwise. -/
def writeStatus (v : Word) (s : Over.State S) : Over.State S := if v.getLsbD 0 then setBec .hostset s else s

end Sys2Proof.Machine
end

