-- ==== Sys2Proof/WellFormed.lean ====
section
/-! DEFINITION. Which commands have their operands in range (R119, step 4 of R120). -/

namespace Sys2Proof

/-- R119: `BRUINT` takes `n ≤ 32`, `ACDEC` takes a model id below `NSPEC + 18`. `FINIT`'s length is not checked here
but by the command itself (R120, step 7). -/
def Instr.wellFormed (nspec : Nat) : Instr → Bool
  | .nop => true
  | .cfglock => true
  | .finit _ _ => true
  | .sreset => true
  | .brbit => true
  | .bruint n => decide (n.toNat ≤ 32)
  | .brsync => true
  | .acdec m => decide (m.toNat < nspec + 18)
  | .actns _ => true
  | .acpair => true
  | .nfill => true
  | .ggain => true
  | .tnssyn => true
  | .snssyn => true
  | .imdct => true
  | .ltpf => true

end Sys2Proof
end

