-- ==== Sys2Proof/Machine/Operands.lean ====
section
/-! DEFINITION. The operands of a command: admission (R120, steps 4 to 6), and the frame registers a command reads and
writes as operands (R32, R112). -/

namespace Sys2Proof.Machine

open Sys2Proof

variable {S : Type}

/-- The decode-class commands of R290, which the corruption flag gates. -/
def decodeClass : Instr → Bool
  | .nop => false
  | .cfglock => false
  | .finit _ _ => false
  | .sreset => false
  | .brbit => true
  | .bruint _ => true
  | .brsync => true
  | .acdec _ => true
  | .actns _ => true
  | .acpair => true
  | .nfill => true
  | .ggain => true
  | .tnssyn => true
  | .snssyn => true
  | .imdct => false
  | .ltpf => false

/-- The commands that need a locked configuration (R120, step 5). -/
def needsConfig : Instr → Bool
  | .nop => false
  | .cfglock => false
  | .finit _ _ => true
  | .sreset => false
  | .brbit => true
  | .bruint _ => true
  | .brsync => true
  | .acdec _ => true
  | .actns _ => true
  | .acpair => true
  | .nfill => true
  | .ggain => true
  | .tnssyn => true
  | .snssyn => true
  | .imdct => true
  | .ltpf => true

/-- Steps 4 to 6 of R120 before a command's own checks and effect: an operand out of range, the configuration not
locked, the gate. The first that is met decides (R311). -/
def admission (env : Over.Env S) (i : Instr) (body : Over.State S → Over.State S) (s : Over.State S) : Over.State S :=
  if i.wellFormed env.rom.nspec = false then failErr .badfield s
  else if needsConfig i && !s.cfglock then failErr .nocfg s
  else if decodeClass i && s.bec then skipGated s
  else body s

/-- Steps 2 and 3 of R120: how a word that is no command ends. -/
def rejectWord (e : DecodeError) (s : Over.State S) : Over.State S :=
  match e with
  | .illop => failErr .illop s
  | .badfield => failErr .badfield s

/-! ### Frame registers as operands -/

/-- The registers of TNS filter `f` (R32). -/
def tnsOf (s : Over.State S) (f : BitVec 1) : TnsFilter := if f = 0#1 then s.frm.tns0 else s.frm.tns1

/-- The state with the registers of TNS filter `f` replaced. -/
def setTns (s : Over.State S) (f : BitVec 1) (t : TnsFilter) : Over.State S :=
  if f = 0#1 then { s with frm := { s.frm with tns0 := t } } else { s with frm := { s.frm with tns1 := t } }

/-- `TNS_ORDER[f] <- order`. -/
def setTnsOrder (s : Over.State S) (f : BitVec 1) (order : Nat) : Over.State S :=
  setTns s f { tnsOf s f with order := BitVec.ofNat 4 order }

/-- `TNS_RC[f][j] <- v`. -/
def setTnsRc (s : Over.State S) (f : BitVec 1) (j v : Nat) : Over.State S :=
  setTns s f { tnsOf s f with rc := (tnsOf s f).rc.setIfInBounds j (BitVec.ofNat 5 v) }

/-- `GG_IND + sext_10(GG_OFF)` (R241, R284): the exponent of the global gain. -/
def gainExponent (s : Over.State S) : Int := s.frm.ggInd.toNat + s.frm.ggOff.toInt

end Sys2Proof.Machine
end

