-- ==== Sys2Proof/Machine/BitReader.lean ====
section
/-! DEFINITION. Frame start and the tail bit reader: FINIT (R141), the checked read (R144, R145), BRBIT (R147),
BRUINT (R148), BRSYNC (R149). -/

namespace Sys2Proof.Machine

open Sys2Proof

variable {S : Type}

/-- R161: initialisation of the arithmetic decoder, from the first three bytes, `FB[0]` most significant. -/
def coderInit (s : Over.State S) : Coder where
  low := fbByte s 0 ++ fbByte s 1 ++ fbByte s 2
  range := 0xFFFFFF#24
  cur := 3

/-- R141: what `FINIT loss, len` makes of the state once the length is accepted. -/
def startFrame [Zero S] [DecidableEq S] (loss : Bool) (len : BitVec 9) (s : Over.State S) : Over.State S :=
  frameFlags loss
    { s with
      fbLen := len
      reader := { cur := len, cache := 0, cnt := 0 }
      coder := coderInit s
      frm := FrameRegs.reset
      x := memFill s.x 0 (fun _ => 0) s.cfg.ne.toNat }

/-- R141: the effect of `FINIT loss, len`. -/
def finitBody [Zero S] [DecidableEq S] (loss : Bool) (len : BitVec 9) (s : Over.State S) : Over.State S :=
  if len.toNat < 20 ∨ s.cfg.maxbytes.toNat < len.toNat then failErr .badlen s
  else finish 0 (startFrame loss len s)

/-- R141. -/
def finit [Zero S] [DecidableEq S] (env : Over.Env S) (loss : Bool) (len : BitVec 9) (s : Over.State S) : Over.State S :=
  admission env (.finit loss len) (finitBody loss len) s

/-- R141: `FINIT loss, len`. -/
def execFinit (loss : Bool) (len : BitVec 9) (s : State) : Host.Outcome State Fault Refusal :=
  completed (finit Config.env loss len s)

/-- The `m` bytes a refill takes, `FB[cur-1]` in bits [7:0] (R86, R145). -/
def refillBytes (fb : Memory Byte) (cur : Nat) : Nat → BitVec 32
  | 0 => 0
  | j + 1 => refillBytes fb cur j ||| ((memRead fb (cur - 1 - j)).setWidth 32 <<< (8 * j))

/-- R145: `Refill()`. -/
def refill (fb : Memory Byte) (r : TailReader) : TailReader :=
  let m := min 4 r.cur.toNat
  { cur := r.cur - BitVec.ofNat 9 m, cache := refillBytes fb r.cur.toNat m, cnt := BitVec.ofNat 6 (8 * m) }

/-- One pass of the loop of R144: the reader after it, with the bit it took. -/
def takeBit (fb : Memory Byte) (r : TailReader) : Bool × TailReader :=
  let r := if r.cnt = 0#6 then refill fb r else r
  (r.cache.getLsbD 0, { r with cache := r.cache >>> 1, cnt := r.cnt - 1 })

/-- The first `n` passes of the loop of R144: the value assembled, first bit in bit 0, and the reader. -/
def takeBits (fb : Memory Byte) (r : TailReader) : Nat → BitVec 32 × TailReader
  | 0 => (0, r)
  | n + 1 =>
    let p := takeBits fb r n
    let q := takeBit fb p.2
    (p.1 ||| ((BitVec.ofBool q.1).setWidth 32 <<< n), q.2)

/-- R144: `BrRead(n)`, the checked read. It raises `BROVERRUN` and consumes nothing when fewer than `n` bits are left. -/
def brRead (n : Nat) (s : Over.State S) : Ran (BitVec 32) S :=
  if bitsLeft s < n then .raised .broverrun s
  else .ok (takeBits s.fb s.reader n).1 { s with reader := (takeBits s.fb s.reader n).2 }

/-- R147, R148: `RES <- BrRead(n)`. -/
def readResult (n : Nat) (s : Over.State S) : Over.State S :=
  match brRead n s with
  | .ok v s' => finish v s'
  | .raised c s' => raiseBec c s'

/-- R147. -/
def brbit (env : Over.Env S) (s : Over.State S) : Over.State S := admission env .brbit (readResult 1) s

/-- R147: `BRBIT`. -/
def execBrbit (s : State) : Host.Outcome State Fault Refusal := completed (brbit Config.env s)

/-- R148. -/
def bruint (env : Over.Env S) (n : BitVec 6) (s : Over.State S) : Over.State S := admission env (.bruint n) (readResult n.toNat) s

/-- R148: `BRUINT n`. -/
def execBruint (n : BitVec 6) (s : State) : Host.Outcome State Fault Refusal := completed (bruint Config.env n s)

/-- R149: the index of the byte that holds the next unread tail bit, -1 when all are consumed. -/
def syncOffset (s : Over.State S) : Int := (s.fbLen.toNat : Int) - 1 - brPos s / 8

/-- R149: that bit's mask within the byte. -/
def syncMask (s : Over.State S) : BitVec 8 := 1#8 <<< (brPos s % 8).toNat

/-- R149: the result word of `BRSYNC`. -/
def syncWord (s : Over.State S) : Word := 0#8 ++ syncMask s ++ BitVec.ofInt 16 (syncOffset s)

/-- R149: the effect of `BRSYNC`. -/
def brsyncBody (s : Over.State S) : Over.State S := finish (syncWord s) s

/-- R149. -/
def brsync (env : Over.Env S) (s : Over.State S) : Over.State S := admission env .brsync brsyncBody s

/-- R149: `BRSYNC`. -/
def execBrsync (s : State) : Host.Outcome State Fault Refusal := completed (brsync Config.env s)

end Sys2Proof.Machine
end

