-- ==== Sys2Proof/Machine/ArithDecoder.lean ====
section
/-! DEFINITION. The arithmetic (range) decoder: the decode step (R163 to R166), ACDEC (R167), ACTNS (R169), ACPAIR
(R170 to R177). -/

namespace Sys2Proof.Machine

open Sys2Proof

variable {S : Type}

/-! ### The decode step -/

/-- R164: `scale`. -/
def acScale (c : Coder) : Nat := c.range.toNat >>> 10

/-- R164: `slice`, the floor of `AC_LOW / scale`. With `scale = 0`, which no reachable state has (R31, R332), the
quotient is a free value (entry 12). -/
def acSlice (c : Coder) : Nat :=
  if acScale c = 0 then Config.freeSlice c.low else c.low.toNat / acScale c

/-- R164: the backward scan `while slice < cumfreq[s]: s <- s - 1`. -/
def scanBack (m : Model) (slice : Nat) : Nat → Nat
  | 0 => 0
  | s + 1 => if slice < m.cumfreq (s + 1) then scanBack m slice s else s + 1

/-- R164: the symbol of a slice. -/
def acSymbol (m : Model) (slice : Nat) : Nat := scanBack m slice (m.lut (slice >>> m.lutshift))

/-- R165, R166: one pass of `Renorm()`; `AC_CUR` stays at 0xFFFF rather than pass it. -/
def renormPass (s : Over.State S) (c : Coder) : Coder :=
  if c.range.toNat < 0x10000 then
    { low := (c.low <<< 8) ||| (acByte s c.cur.toNat).setWidth 24
      range := c.range <<< 8
      cur := if c.cur = 0xFFFF#16 then c.cur else c.cur + 1 }
  else c

/-- R165: `Renorm()`. Its loop runs at most twice (entry 13). -/
def renorm (s : Over.State S) (c : Coder) : Coder := renormPass s (renormPass s c)

/-- R164: the coder after symbol `sym` of model `m`, before renormalisation. -/
def acNarrow (m : Model) (sym : Nat) (c : Coder) : Coder :=
  { c with
    low := BitVec.ofNat 24 (c.low.toNat - acScale c * m.cumfreq sym)
    range := BitVec.ofNat 24 (acScale c * m.symfreq sym) }

/-- R163, R164: `AcStep(m)`. A raising step changes nothing (R168 (d)). -/
def acStep (env : Over.Env S) (m : Nat) (s : Over.State S) : Ran Nat S :=
  if s.coder.range ≤ s.coder.low then .raised .acinv s
  else if 1024 ≤ acSlice s.coder then .raised .acslice s
  else
    let sym := acSymbol (env.rom.model m) (acSlice s.coder)
    .ok sym { s with coder := renorm s (acNarrow (env.rom.model m) sym s.coder) }

/-! ### ACDEC -/

/-- R167: the effect of `ACDEC m`. -/
def acdecBody (env : Over.Env S) (m : BitVec 8) (s : Over.State S) : Over.State S :=
  match acStep env m.toNat s with
  | .ok sym s' => finish (BitVec.ofNat 32 sym) s'
  | .raised c s' => raiseBec c s'

/-- R167. -/
def acdec (env : Over.Env S) (m : BitVec 8) (s : Over.State S) : Over.State S := admission env (.acdec m) (acdecBody env m) s

/-- R167: `ACDEC m`. -/
def execAcdec (m : BitVec 8) (s : State) : Host.Outcome State Fault Refusal := completed (acdec Config.env m s)

/-! ### ACTNS -/

/-- R162: the TNS order model for `LOWRATE = lr`. -/
def tnsOrderModel (r : Over.Rom S) (lr : Nat) : Nat := r.nspec + lr

/-- R162: the TNS coefficient model for `LOWRATE = lr` at position `j`. -/
def tnsCoefModel (r : Over.Rom S) (lr j : Nat) : Nat := r.nspec + 2 + 8 * lr + j

/-- R169: the loop over the coefficients `0 .. n-1`. -/
def actnsCoefs (env : Over.Env S) (lr : Nat) (f : BitVec 1) (s : Over.State S) : Nat → Ran Unit S
  | 0 => .ok () s
  | j + 1 =>
    ranBind (actnsCoefs env lr f s j) fun _ s =>
    ranBind (acStep env (tnsCoefModel env.rom lr j) s) fun sym s =>
    if 16 < sym then .raised .tnsdata s else .ok () (setTnsRc s f j sym)

/-- R169: order, then coefficients; the value is the order. -/
def actnsRun (env : Over.Env S) (f : BitVec 1) (s : Over.State S) : Ran Nat S :=
  let lr := s.frm.lowRate.toNat
  ranBind (acStep env (tnsOrderModel env.rom lr) s) fun sym s =>
  let order := sym + 1
  if 8 < order then .raised .tnsdata s
  else ranBind (actnsCoefs env lr f (setTnsOrder s f order) order) fun _ s => .ok order s

/-- R169: the effect of `ACTNS f`. -/
def actnsBody (env : Over.Env S) (f : BitVec 1) (s : Over.State S) : Over.State S :=
  match actnsRun env f s with
  | .ok order s' => finish (BitVec.ofNat 32 order) s'
  | .raised c s' => raiseBec c s'

/-- R169. -/
def actns (env : Over.Env S) (f : BitVec 1) (s : Over.State S) : Over.State S := admission env (.actns f) (actnsBody env f) s

/-- R169: `ACTNS f`. -/
def execActns (f : BitVec 1) (s : State) : Host.Outcome State Fault Refusal := completed (actns Config.env f s)

/-! ### ACPAIR -/

/-- R172: the table index `t` of the pair at `SPEC_K`, 0 to 1023. -/
def pairTable (s : Over.State S) : Nat :=
  s.frm.specCtx.toNat + (if s.frm.rateFlag then 512 else 0)
    + (if s.frm.specK.toNat > s.cfg.ne.toNat / 2 then 256 else 0)

/-- R171, R172: the model of a pair's decode step at level `lev`. -/
def pairModel (r : Over.Rom S) (t lev : Nat) : Nat := r.specLookup (t + 1024 * min lev 3)

/-- R171, R176: the escape scan from level `lev` with `fuel` levels left before the bound of 14. Its value is the level and
the final symbol. -/
def escapeScan (env : Over.Env S) (t : Nat) : Nat → Nat → Over.State S → Ran (Nat × Nat) S
  | 0, _, s => .raised .esclevel s
  | fuel + 1, lev, s =>
    ranBind (acStep env (pairModel env.rom t lev) s) fun sym s =>
    if sym < 16 then .ok (lev, sym) s else escapeScan env t fuel (lev + 1) s

/-- R171: the number of raw bits of a pair; with `LSBMODE` plane 0 is not read (R177). -/
def rawBits (lsb : Bool) (lev : Nat) : Nat := if lsb.toNat < lev then 2 * (lev - lsb.toNat) else 0

/-- R171, R173: the excess magnitude of one coefficient, from the bits `2*j + odd` of `v`, `j < n`. -/
def deinterleave (v : BitVec 32) (odd first : Nat) : Nat → Nat
  | 0 => 0
  | j + 1 => deinterleave v odd first j + (v.getLsbD (2 * j + odd)).toNat <<< (j + first)

/-- R171, R173: the sign of a coefficient, one raw bit when it is not zero; 1 means negative. -/
def readSign (q : Nat) (s : Over.State S) : Ran Int S :=
  if 0 < q then ranBind (brRead 1 s) fun b s => .ok (if b = 1#32 then -(q : Int) else q) s else .ok (q : Int) s

/-- R171: the raw bits of a pair; no read is made when there are none (90_conflicts.md C12). -/
def readRaw (n : Nat) (s : Over.State S) : Ran (BitVec 32) S := if 0 < n then brRead n s else .ok 0#32 s

/-- A decoded pair (R171): level, symbol, and the two quantised values. -/
structure Pair where
  lev : Nat
  sym : Nat
  qa : Int
  qb : Int
  deriving DecidableEq, Repr

/-- R171, R173: raw bits and signs of a pair of level `lev` and symbol `sym`. -/
def pairValues (lev sym : Nat) (s : Over.State S) : Ran Pair S :=
  let lsb := s.frm.lsbMode
  let n := rawBits lsb lev
  ranBind (readRaw n s) fun v s =>
  ranBind (readSign ((sym &&& 3) <<< lev + deinterleave v 0 lsb.toNat (n / 2)) s) fun qa s =>
  ranBind (readSign (sym >>> 2 <<< lev + deinterleave v 1 lsb.toNat (n / 2)) s) fun qb s =>
  .ok { lev := lev, sym := sym, qa := qa, qb := qb } s

/-- R171: everything of `ACPAIR` that stands before the line `X[k] <- ...`. -/
def pairDecode (env : Over.Env S) (s : Over.State S) : Ran Pair S :=
  ranBind (escapeScan env (pairTable s) 14 0 s) fun p s => pairValues p.1 p.2 s

/-- R174: the class of a pair in the context. -/
def pairClass (p : Pair) : Nat :=
  let l3 := min p.lev 3
  if l3 ≤ 1 then 1 + ((p.sym &&& 3) + p.sym >>> 2) * (l3 + 1) else 12 + l3

/-- R174: the new context. -/
def nextContext (c : BitVec 8) (p : Pair) : BitVec 8 := BitVec.ofNat 8 ((c.toNat &&& 15) * 16 + pairClass p)

/-- R171: the pair is committed to `X`, `SPEC_K` and `SPEC_CTX`. -/
def pairCommit [Zero S] [DecidableEq S] (env : Over.Env S) (p : Pair) (s : Over.State S) : Over.State S :=
  let k := s.frm.specK.toNat
  { s with
    x := memWrite (memWrite s.x k (env.num.ofInt p.qa)) (k + 1) (env.num.ofInt p.qb)
    frm := { s.frm with specCtx := nextContext s.frm.specCtx p, specK := s.frm.specK + 2 } }

/-- R177: the result word of `ACPAIR`. -/
def pairResult (p : Pair) : Word := BitVec.ofNat 32 (p.lev ||| p.sym <<< 4)

/-- R175: the collision check that ends `ACPAIR`; `RES` keeps the pair's result (R303). -/
def pairFinish (p : Pair) (s : Over.State S) : Over.State S :=
  if bitsLeft s < 0 then raiseKeep .collision (pairResult p) s else finish (pairResult p) s

/-- R171: the effect of `ACPAIR`. -/
def acpairBody [Zero S] [DecidableEq S] (env : Over.Env S) (s : Over.State S) : Over.State S :=
  if s.frm.specK.toNat % 2 = 1 ∨ s.cfg.ne.toNat < s.frm.specK.toNat + 2 then failErr .badstate s
  else
    match pairDecode env s with
    | .ok p s' => pairFinish p (pairCommit env p s')
    | .raised c s' => raiseBec c s'

/-- R171. -/
def acpair [Zero S] [DecidableEq S] (env : Over.Env S) (s : Over.State S) : Over.State S := admission env .acpair (acpairBody env) s

/-- R171: `ACPAIR`. -/
def execAcpair (s : State) : Host.Outcome State Fault Refusal := completed (acpair Config.env s)

end Sys2Proof.Machine
end

