-- ==== Sys2Proof/Machine/GlobalGain.lean ====
section
/-! DEFINITION. The global gain: GGAIN (R240 to R242). -/

namespace Sys2Proof.Machine

open Sys2Proof

variable {S : Type} [Zero S]

/-- R241: `g`, in the order of the rule's two multiplications. -/
def globalGain (num : Over.Numerics S) (s : Over.State S) : S :=
  num.mul (num.mul (num.pow10_28 (gainExponent s)) (num.ofRat (mkRat 1 16))) s.cfg.tscale

/-- R241: bin `k` after `GGAIN`. -/
def gainBin (num : Over.Numerics S) (s : Over.State S) (k : Nat) : S :=
  if k < min s.frm.lastnz.toNat s.cfg.ne.toNat then num.mul (memRead s.x k) (globalGain num s) else 0

/-- R241: the effect of `GGAIN`. -/
def ggainBody [DecidableEq S] (env : Over.Env S) (s : Over.State S) : Over.State S :=
  finish 0 { s with x := memFill s.x 0 (gainBin env.num s) s.cfg.ne.toNat }

/-- R241. -/
def ggain [DecidableEq S] (env : Over.Env S) (s : Over.State S) : Over.State S := admission env .ggain (ggainBody env) s

/-- R241: `GGAIN`. -/
def execGgain (s : State) : Host.Outcome State Fault Refusal := completed (ggain Config.env s)

end Sys2Proof.Machine
end

