-- ==== Sys2Proof/Machine/Imdct.lean ====
section
/-! DEFINITION. The inverse transform: IMDCT (R250 to R256). -/

namespace Sys2Proof.Machine

open Sys2Proof

variable {S : Type} [Zero S]

/-- R251: the spectrum, zero-extended to the frame length. -/
def imdctInput (s : Over.State S) : Vector S s.cfg.ns.toNat :=
  Vector.ofFn fun k => if k.val < s.cfg.ne.toNat then memRead s.x k.val else 0

/-- R251, R252: the transform `u[0 .. NS-1]`. -/
def imdctTransform (num : Over.Numerics S) (s : Over.State S) : Vector S s.cfg.ns.toNat :=
  num.dct4 s.cfg.ns.toNat (imdctInput s)

/-- R251, R253: the unfolded sample `t[n]`, `0 <= n < 2*NS`. -/
def unfold (num : Over.Numerics S) (ns : Nat) (u : Vector S ns) (n : Nat) : S :=
  if n < ns / 2 then vecAt u (n + ns / 2)
  else if n < 3 * ns / 2 then num.neg (vecAt u (3 * ns / 2 - 1 - n))
  else num.neg (vecAt u (n - 3 * ns / 2))

/-- R251, R254: the windowed sample `th[n]`. -/
def windowed (num : Over.Numerics S) (s : Over.State S) (u : Vector S s.cfg.ns.toNat) (n : Nat) : S :=
  num.mul (memRead s.cfg.win n) (unfold num s.cfg.ns.toNat u n)

/-- R251, R255: the output sample `TBLK[n]`; the first `NS - NZ` add the old overlap memory. -/
def overlapAdd (num : Over.Numerics S) (s : Over.State S) (u : Vector S s.cfg.ns.toNat) (n : Nat) : S :=
  if n < s.cfg.ns.toNat - s.cfg.nz.toNat then num.add (memRead s.ola n) (windowed num s u (s.cfg.nz.toNat + n))
  else windowed num s u (s.cfg.nz.toNat + n)

/-- R251: the effect of `IMDCT`. Both memories are computed from the state before the command. -/
def imdctBody [DecidableEq S] (env : Over.Env S) (s : Over.State S) : Over.State S :=
  let u := imdctTransform env.num s
  finish 0
    { s with
      tblk := memFill s.tblk 0 (overlapAdd env.num s u) s.cfg.ns.toNat
      ola := memFill s.ola 0 (fun n => windowed env.num s u (s.cfg.ns.toNat + s.cfg.nz.toNat + n))
        (s.cfg.ns.toNat - s.cfg.nz.toNat) }

/-- R251. -/
def imdct [DecidableEq S] (env : Over.Env S) (s : Over.State S) : Over.State S := admission env .imdct (imdctBody env) s

/-- R251: `IMDCT`. -/
def execImdct (s : State) : Host.Outcome State Fault Refusal := completed (imdct Config.env s)

end Sys2Proof.Machine
end

