-- ==== Sys2Proof/Machine/Ltpf.lean ====
section
/-! DEFINITION. The long-term postfilter: LTPF (R260 to R265). -/

namespace Sys2Proof.Machine

open Sys2Proof

variable {S : Type} [Zero S]

/-- R37: `H = NBLK * NS`, the length of the output history. -/
def histLen (c : Over.CfgRegs S) : Nat := c.ltpfNblk.toNat * c.ns.toNat

/-- R261: `XF = NS / 4`, the transition quarter. -/
def fadeLen (c : Over.CfgRegs S) : Nat := c.ns.toNat / 4

/-- A sample outside the history (entry 14): a free value. -/
def freeSample (num : Over.Numerics S) (i : Int) : S := num.dec (Config.freeWire i)

/-- R261: `x(i)`, the filter input and its history. -/
def ltpfIn (num : Over.Numerics S) (s : Over.State S) (i : Int) : S :=
  if 0 ≤ i then memRead s.tblk i.toNat
  else if -10 ≤ i then vecAt s.xt (10 + i).toNat
  else freeSample num i

/-- R261: `y(i)` for `i < 0`, the output history as it is before the command. -/
def ltpfHist (num : Over.Numerics S) (s : Over.State S) (i : Int) : S :=
  if -(histLen s.cfg : Int) ≤ i then memRead s.yh (histLen s.cfg + i).toNat else freeSample num i

/-- A signal under construction: the samples built so far at `0, 1, ..`, and a history before them. -/
def signalAt (num : Over.Numerics S) (hist : Int → S) (built : List S) (i : Int) : S :=
  if i < 0 then hist i else built[i.toNat]?.getD (freeSample num i)

/-- R261: `NUM(g, src, n)`. That the sum starts from `S.zero` is DEDUCED, entry 15. -/
def ltpfNum (env : Over.Env S) (ld g : Nat) (src : Int → S) (n : Int) : S :=
  sumAsc env.num (fun k => env.num.mul (env.rom.ltpfCnum g k) (src (n - k))) (ld - 1)

/-- R261: `DEN(g, f, p, dst, n)`. That the sum starts from `S.zero` is DEDUCED, entry 15. -/
def ltpfDen (env : Over.Env S) (ld g f p : Nat) (dst : Int → S) (n : Int) : S :=
  sumAsc env.num (fun k => env.num.mul (env.rom.ltpfCden g f k) (dst (n - p + (ld / 2 : Nat) - k))) (ld + 1)

/-- The five transition cases of R261. -/
inductive LtpfCase where
  | inactive
  | activation
  | deactivation
  | samePitch
  | pitchChange
  deriving DecidableEq, Repr

/-- R261: which case a frame is. -/
def ltpfCase (s : Over.State S) : LtpfCase :=
  match s.frm.ltpf.active, s.ltpfMem.active with
  | false, false => .inactive
  | true, false => .activation
  | false, true => .deactivation
  | true, true =>
    if s.frm.ltpf.pint = s.ltpfMem.pint ∧ s.frm.ltpf.pfr = s.ltpfMem.pfr then .samePitch else .pitchChange

/-- R261: the case number that `RES` returns. -/
def caseNumber : LtpfCase → Word
  | .inactive => 1
  | .activation => 2
  | .deactivation => 3
  | .samePitch => 4
  | .pitchChange => 5

/-- The signals a frame builds: the output `y` and, in case 5, the intermediate signal `x'`. -/
structure LtpfAcc (S : Type) where
  y : List S
  xp : List S
  deriving DecidableEq, Repr

/-- R261: `NUM - DEN` of a filter with parameters `q` at sample `n`. -/
def filterDiff (env : Over.Env S) (s : Over.State S) (q : LtpfParams) (src dst : Int → S) (n : Nat) : S :=
  env.num.sub (ltpfNum env s.cfg.lden.toNat q.gidx.toNat src n)
    (ltpfDen env s.cfg.lden.toNat q.gidx.toNat q.pfr.toNat q.pint.toNat dst n)

/-- R261: the ramp `up(n)`. -/
def rampUp (num : Over.Numerics S) (s : Over.State S) (n : Nat) : S := num.ofRat (mkRat n (fadeLen s.cfg))

/-- R261: the ramp `dn(n)`. -/
def rampDown (num : Over.Numerics S) (s : Over.State S) (n : Nat) : S := num.ofRat (1 - mkRat n (fadeLen s.cfg))

/-- R261: the full filter `x(n) - NUM(g, x, n) + DEN(g, f, p, y, n)`, left to right. -/
def filterFull (env : Over.Env S) (s : Over.State S) (y : List S) (n : Nat) : S :=
  let q := s.frm.ltpf
  env.num.add
    (env.num.sub (ltpfIn env.num s n) (ltpfNum env s.cfg.lden.toNat q.gidx.toNat (ltpfIn env.num s) n))
    (ltpfDen env s.cfg.lden.toNat q.gidx.toNat q.pfr.toNat q.pint.toNat
      (signalAt env.num (ltpfHist env.num s) y) n)

/-- R261: one sample of the transition quarter. -/
def ltpfFade (env : Over.Env S) (s : Over.State S) (c : LtpfCase) (a : LtpfAcc S) (n : Nat) : LtpfAcc S :=
  let num := env.num
  let x := ltpfIn num s
  let y := signalAt num (ltpfHist num s) a.y
  match c with
  | .inactive => { a with y := a.y ++ [x n] }
  | .activation =>
    { a with y := a.y ++ [num.sub (x n) (num.mul (rampUp num s n) (filterDiff env s s.frm.ltpf x y n))] }
  | .deactivation =>
    { a with y := a.y ++ [num.sub (x n) (num.mul (rampDown num s n) (filterDiff env s s.ltpfMem x y n))] }
  | .samePitch => { a with y := a.y ++ [filterFull env s a.y n] }
  | .pitchChange =>
    let xd := signalAt num (ltpfHist num s) a.xp
    let x' := num.sub (x n) (num.mul (rampDown num s n) (filterDiff env s s.ltpfMem x xd n))
    let xn := signalAt num x (a.xp ++ [x'])
    { y := a.y ++ [num.sub x' (num.mul (rampUp num s n) (filterDiff env s s.frm.ltpf xn y n))]
      xp := a.xp ++ [x'] }

/-- R261: one sample of the rest of the frame. -/
def ltpfRest (env : Over.Env S) (s : Over.State S) (a : LtpfAcc S) (n : Nat) : LtpfAcc S :=
  { a with y := a.y ++ [if s.frm.ltpf.active then filterFull env s a.y n else ltpfIn env.num s n] }

/-- R261: the first `n` samples of the frame. -/
def ltpfRun (env : Over.Env S) (s : Over.State S) : Nat → LtpfAcc S
  | 0 => { y := [], xp := [] }
  | n + 1 =>
    if n < fadeLen s.cfg then ltpfFade env s (ltpfCase s) (ltpfRun env s n) n
    else ltpfRest env s (ltpfRun env s n) n

/-- R261, R264: the admission check of an active filter's lag. -/
def lagOk (c : Over.CfgRegs S) (q : LtpfParams) : Bool :=
  decide (c.lden.toNat / 2 + 1 ≤ q.pint.toNat) && decide (q.pint.toNat + c.lden.toNat / 2 ≤ histLen c)

/-- R261: entry `i` of the last `H` samples of `YH` followed by `y`. -/
def historyAfter (s : Over.State S) (y : List S) (i : Nat) : S :=
  let j := s.cfg.ns.toNat + i
  if j < histLen s.cfg then memRead s.yh j else y.getD (j - histLen s.cfg) 0

/-- R261: entry `i` of the last 10 samples of `XT` followed by `TBLK[0 .. NS-1]`. -/
def inputAfter (s : Over.State S) (i : Nat) : S :=
  let j := s.cfg.ns.toNat + i
  if j < 10 then vecAt s.xt j else memRead s.tblk (j - 10)

/-- R261: the effect of `LTPF`. -/
def ltpfBody [DecidableEq S] (env : Over.Env S) (s : Over.State S) : Over.State S :=
  if s.frm.ltpf.active && !lagOk s.cfg s.frm.ltpf then failErr .badstate s
  else
    let y := (ltpfRun env s s.cfg.ns.toNat).y
    finish (caseNumber (ltpfCase s))
      { s with
        yh := memFill s.yh 0 (historyAfter s y) (histLen s.cfg)
        xt := Vector.ofFn fun i => inputAfter s i.val
        ltpfMem := s.frm.ltpf }

/-- R261. -/
def ltpf [DecidableEq S] (env : Over.Env S) (s : Over.State S) : Over.State S := admission env .ltpf (ltpfBody env) s

/-- R261: `LTPF`. -/
def execLtpf (s : State) : Host.Outcome State Fault Refusal := completed (ltpf Config.env s)

/-- R37, R262: `OUT[n]`, the newest block of `YH`, for `CFG_LTPF_NBLK >= 1`; entries at and above `NS` read `S.zero` (R81).
What the HOST reads with `CFG_LTPF_NBLK = 0` is `outRead` (entry 23). -/
def outAt (s : Over.State S) (n : Nat) : S :=
  if n < s.cfg.ns.toNat then memRead s.yh ((s.cfg.ltpfNblk.toNat - 1) * s.cfg.ns.toNat + n) else 0

end Sys2Proof.Machine
end

