-- ==== Sys2Proof/Machine/NoiseFill.lean ====
section
/-! DEFINITION. Noise filling and its 16-bit generator: NFILL (R190 to R192). -/

namespace Sys2Proof.Machine

open Sys2Proof

variable {S : Type} [Zero S]

/-- R192: the 16-bit linear-congruential generator. -/
def lcg (p : Params) (seed : BitVec 16) : BitVec 16 := BitVec.ofNat 16 (p.lcgA * seed.toNat + p.lcgC)

/-- R191, phase 1: bin `k` is a gap of `x` when every bin within `w` of it, clipped to `0 .. stop-1`, is zero. The window
starts at `max(0, k-w)` and holds at most `2*w + 1` bins. -/
def isGap (num : Over.Numerics S) (x : Memory S) (w stop k : Nat) : Bool :=
  (List.range (2 * w + 1)).all fun d =>
    let i := k + d - w
    decide (k + d < w) || decide (stop ≤ i) || num.isZero (memRead x i)

/-- R191: the amplitude `L`. -/
def noiseLevel (s : Over.State S) : Nat := 8 - s.frm.nfLevel.toNat

/-- R191: the end of the bins that may be filled. -/
def noiseStop (s : Over.State S) : Nat := min s.frm.bwStop.toNat s.cfg.ne.toNat

/-- The running values of phase 2 of R191. -/
structure NoiseAcc (S : Type) where
  seed : BitVec 16
  x : Memory S
  count : Nat
  hi : Nat
  deriving DecidableEq, Repr

/-- R191, phase 2, one bin: when it is a gap of the unfilled spectrum `x0`, the generator advances and its new value gives the
sign. -/
def noiseBin [DecidableEq S] (env : Over.Env S) (x0 : Memory S) (level w stop : Nat) (a : NoiseAcc S) (k : Nat) : NoiseAcc S :=
  if isGap env.num x0 w stop k then
    let seed := lcg env.param a.seed
    { seed := seed
      x := memWrite a.x k (if seed.toNat < 0x8000 then env.num.ofInt level else env.num.ofInt (-(level : Int)))
      count := a.count + 1
      hi := k + 1 }
  else a

/-- R191, phase 2: the bins `start .. start+n-1`, upward. -/
def noiseFill [DecidableEq S] (env : Over.Env S) (s : Over.State S) : Nat → NoiseAcc S
  | 0 => { seed := s.frm.nfSeed, x := s.x, count := 0, hi := 0 }
  | n + 1 =>
    noiseBin env s.x (noiseLevel s) s.cfg.nfwidth.toNat (noiseStop s) (noiseFill env s n) (s.cfg.nfstart.toNat + n)

/-- R191: the effect of `NFILL`. -/
def nfillBody [DecidableEq S] (env : Over.Env S) (s : Over.State S) : Over.State S :=
  if s.frm.zero then finish 0 s
  else
    let a := noiseFill env s (noiseStop s - s.cfg.nfstart.toNat)
    finish (BitVec.ofNat 32 a.count)
      { s with
        x := a.x
        frm :=
          { s.frm with
            nfSeed := a.seed
            lastnz := if 0 < a.count then BitVec.ofNat 10 (max s.frm.lastnz.toNat a.hi) else s.frm.lastnz } }

/-- R191. -/
def nfill [DecidableEq S] (env : Over.Env S) (s : Over.State S) : Over.State S := admission env .nfill (nfillBody env) s

/-- R191: `NFILL`. -/
def execNfill (s : State) : Host.Outcome State Fault Refusal := completed (nfill Config.env s)

end Sys2Proof.Machine
end

