-- ==== Sys2Proof/Machine/Sns.lean ====
section
/-! DEFINITION. SNS synthesis, the spectral envelope: SNSSYN (R210 to R226). -/

namespace Sys2Proof.Machine

open Sys2Proof

variable {S : Type} [Zero S]

/-! ### The pulse vector -/

/-- R214: the row of `n` of the offset table from the row of `n - 1`: `prev` is `A(n-1, k-1)` and `left` is `A(n, k-1)`. -/
def mpvqNext (prev left : Nat) : List Nat → List Nat
  | [] => []
  | a :: rest => (a + prev + left) :: mpvqNext a (a + prev + left) rest

/-- R214: the row `A(n, 0 .. 11)`. -/
def mpvqRow : Nat → List Nat
  | 0 => [1, 0, 0, 0, 0, 0, 0, 0, 0, 0, 0, 0]
  | n + 1 =>
    match mpvqRow n with
    | [] => []
    | a :: rest => 0 :: mpvqNext a 0 rest

/-- R214: the offset table `A(n, k)`. -/
def mpvqA (n k : Nat) : Nat := (mpvqRow n).getD k 0

/-- R215: the scan `while idx < A(d, kacc): kacc <- kacc - 1`. -/
def pulseScan (row : List Nat) (idx : Nat) : Nat → Nat
  | 0 => 0
  | k + 1 => if idx < row.getD (k + 1) 0 then pulseScan row idx k else k + 1

/-- R215: `sign * k` as an integer, the sign negative when `neg`. -/
def signed (neg : Bool) (k : Nat) : Int := if neg then -(k : Int) else k

/-- R215: de-enumeration over the `d` dimensions left, with `kleft` pulses left, the running next-sign flag and the
index left. -/
def deenumFrom : Nat → Nat → Bool → Nat → List Int
  | 0, _, _, _ => []
  | d + 1, kleft, neg, idx =>
    if idx = 0 then signed neg kleft :: List.replicate d 0
    else
      let row := mpvqRow (d + 1)
      let kacc := pulseScan row idx kleft
      let rest := idx - row.getD kacc 0
      if kleft - kacc = 0 then 0 :: deenumFrom d kleft neg rest
      else signed neg (kleft - kacc) :: deenumFrom d kacc (rest % 2 == 1) (rest / 2)

/-- R215: `Deenum(n, k, ls, idx)`. -/
def deenum (n k : Nat) (ls : Bool) (idx : Nat) : List Int := deenumFrom n k ls idx

/-- R213: `SIZE_A` of a shape class, as R213 derives it from the offset table. -/
def sizeA (shape : Nat) : Nat :=
  match shape with
  | 0 => (mpvqA 10 10 + mpvqA 10 11) / 2
  | 1 => (mpvqA 10 10 + mpvqA 10 11) / 2
  | 2 => (mpvqA 16 8 + mpvqA 16 9) / 2
  | _ => (mpvqA 16 6 + mpvqA 16 7) / 2

/-- R213: the size of pulse set B. -/
def sizeB : Nat := (mpvqA 6 1 + mpvqA 6 2) / 2

/-- R213, R217: `NG`, the gain entries of a shape class. -/
def gainEntries (shape : Nat) : Nat :=
  match shape with
  | 0 => 2
  | 1 => 4
  | 2 => 4
  | _ => 8

/-- R213: the pulse vector `y[0..15]` of the shape class. -/
def pulseVector (s : Over.State S) : List Int :=
  match s.frm.snsShape.toNat with
  | 0 => deenum 10 10 s.frm.snsLsa s.frm.snsIdxA.toNat ++ deenum 6 1 s.frm.snsLsb s.frm.snsIdxB.toNat
  | 1 => deenum 10 10 s.frm.snsLsa s.frm.snsIdxA.toNat ++ List.replicate 6 0
  | 2 => deenum 16 8 s.frm.snsLsa s.frm.snsIdxA.toNat
  | _ => deenum 16 6 s.frm.snsLsa s.frm.snsIdxA.toNat

/-- R216: `E`, the energy of the pulse vector. -/
def pulseEnergy (y : List Int) : Nat := (y.map fun v => v.natAbs * v.natAbs).sum

/-- R216: `xq[c]`. -/
def normalised (num : Over.Numerics S) (y : List Int) (c : Nat) : S :=
  num.mul (num.ofInt (y.getD c 0)) (num.rsqrtInt (pulseEnergy y))

/-! ### The scale factors -/

/-- R212: stage 1. -/
def stageOne (rom : Over.Rom S) (s : Over.State S) (n : Nat) : S :=
  if n < 8 then rom.snsLfcb s.frm.snsLf.toNat n else rom.snsHfcb s.frm.snsHf.toNat (n - 8)

/-- R218: the scale factor `scfQ[n]`. -/
def scaleFactor (env : Over.Env S) (s : Over.State S) (y : List Int) (n : Nat) : S :=
  env.num.add (stageOne env.rom s n)
    (env.num.mul (env.rom.snsGain s.frm.snsShape.toNat s.frm.snsGain.toNat)
      (sumAsc env.num (fun c => env.num.mul (env.rom.snsD n c) (normalised env.num y c)) 16))

/-- R218, R219: the sixteen scale factors. -/
def scaleFactors (env : Over.Env S) (s : Over.State S) : Vector S 16 :=
  let y := pulseVector s
  Vector.ofFn fun n => scaleFactor env s y n.val

/-! ### Interpolation -/

/-- A point between two scale factors: `S.add(q[n], S.mul(S.ofRat(w), S.sub(q[m+1], q[m])))`. -/
def interpPoint (num : Over.Numerics S) (q : Vector S 16) (n m : Nat) (w : Rat) : S :=
  num.add (vecAt q n) (num.mul (num.ofRat w) (num.sub (vecAt q (m + 1)) (vecAt q m)))

/-- R220: `s64[i]`. -/
def grid64 (num : Over.Numerics S) (q : Vector S 16) (i : Nat) : S :=
  if i < 2 then vecAt q 0
  else if i < 62 then interpPoint num q ((i - 2) / 4) ((i - 2) / 4) (mkRat (2 * ((i - 2) % 4 : Nat) + 1) 8)
  else interpPoint num q 15 14 (mkRat (2 * ((i - 62 : Nat) : Int) + 1) 8)

/-- R222: `s32[i]`. -/
def grid32 (num : Over.Numerics S) (q : Vector S 16) (i : Nat) : S :=
  if i < 1 then vecAt q 0
  else if i < 31 then interpPoint num q ((i - 1) / 2) ((i - 1) / 2) (mkRat (2 * ((i - 1) % 2 : Nat) + 1) 4)
  else interpPoint num q 15 14 (mkRat 1 4)

/-- R221, R222: reduction of a grid to the bands: the lowest `2*n2` values merge in pairs. -/
def mergeLow (num : Over.Numerics S) (grid : Nat → S) (n2 b : Nat) : S :=
  if b < n2 then num.mul (num.ofRat (mkRat 1 2)) (num.add (grid (2 * b)) (grid (2 * b + 1))) else grid (n2 + b)

/-- R220 to R222: the interpolated scale factor of band `b` of `nb`. -/
def bandScale (num : Over.Numerics S) (q : Vector S 16) (nb b : Nat) : S :=
  if 32 ≤ nb then mergeLow num (grid64 num q) (64 - nb) b else mergeLow num (grid32 num q) (32 - nb) b

/-! ### Applying the envelope -/

/-- R223: the bands `0 .. n-1`, upward: every bin of a band is multiplied by the band's gain. -/
def applyBands [DecidableEq S] (num : Over.Numerics S) (bands : Memory (BitVec 10)) (scale : Nat → S) (x : Memory S) : Nat → Memory S
  | 0 => x
  | b + 1 =>
    let x' := applyBands num bands scale x b
    let lo := (memRead bands b).toNat
    memFill x' lo (fun i => num.mul (memRead x' (lo + i)) (num.exp2 (scale b))) ((memRead bands (b + 1)).toNat - lo)

/-- R211, R224: an index at or above its class size. -/
def pulseIndexBad (s : Over.State S) : Bool :=
  decide (sizeA s.frm.snsShape.toNat ≤ s.frm.snsIdxA.toNat)
    || s.frm.snsShape == 0#2 && decide (sizeB ≤ s.frm.snsIdxB.toNat)

/-- R211: the effect of `SNSSYN`. -/
def snssynBody [DecidableEq S] (env : Over.Env S) (s : Over.State S) : Over.State S :=
  if gainEntries s.frm.snsShape.toNat ≤ s.frm.snsGain.toNat then failErr .badstate s
  else if pulseIndexBad s then raiseBec .snsidx s
  else
    let q := scaleFactors env s
    finish 0
      { s with
        scf := q
        x := applyBands env.num s.cfg.bands (bandScale env.num q s.cfg.nb.toNat) s.x s.cfg.nb.toNat }

/-- R211. -/
def snssyn [DecidableEq S] (env : Over.Env S) (s : Over.State S) : Over.State S := admission env .snssyn (snssynBody env) s

/-- R211: `SNSSYN`. -/
def execSnssyn (s : State) : Host.Outcome State Fault Refusal := completed (snssyn Config.env s)

end Sys2Proof.Machine
end

