-- ==== Sys2Proof/Machine/System.lean ====
section
/-! DEFINITION. The system commands NOP (R281), CFGLOCK (R282), SRESET (R283), and the validity of a configuration
(R24, R26). -/

namespace Sys2Proof.Machine

open Sys2Proof

variable {S : Type}

/-- R26: `BANDS[0] = 0`, the band table does not decrease over `0 .. NB`, and `BANDS[NB] <= NE`. -/
def bandsValid (c : Over.CfgRegs S) : Bool :=
  memRead c.bands 0 == 0#10
    && (List.range c.nb.toNat).all (fun b => decide ((memRead c.bands b).toNat ≤ (memRead c.bands (b + 1)).toNat))
    && decide ((memRead c.bands c.nb.toNat).toNat ≤ c.ne.toNat)

/-- R24 ("legal at lock") and R26: the configuration is valid. -/
def cfgValid (p : Params) (c : Over.CfgRegs S) : Bool :=
  decide (4 ≤ c.ns.toNat) && decide (c.ns.toNat % 4 = 0) && decide (c.ns.toNat ≤ p.nsMax)
    && decide (2 ≤ c.ne.toNat) && decide (c.ne.toNat % 2 = 0) && decide (c.ne.toNat ≤ min c.ns.toNat p.neMax)
    && decide (c.nz.toNat < c.ns.toNat)
    && decide (16 ≤ c.nb.toNat) && decide (c.nb.toNat ≤ 64)
    && decide (20 ≤ c.maxbytes.toNat) && decide (c.maxbytes.toNat ≤ 400)
    && decide (c.nfstart.toNat ≤ c.ne.toNat)
    && (c.ltpfNblk == 2#4 || c.ltpfNblk == 3#4 || c.ltpfNblk == 4#4 || c.ltpfNblk == 8#4)
    && decide (4 ≤ c.lden.toNat) && decide (c.lden.toNat % 2 = 0) && decide (c.lden.toNat ≤ 12)
    && bandsValid c

/-- R281. -/
def nop (env : Over.Env S) (s : Over.State S) : Over.State S := admission env .nop (finish 0) s

/-- R281: `NOP`. -/
def execNop (s : State) : Host.Outcome State Fault Refusal := completed (nop Config.env s)

/-- R282: the effect of `CFGLOCK`. Locked already, it has no effect; on an invalid configuration it fails. -/
def cfglockBody (env : Over.Env S) (s : Over.State S) : Over.State S :=
  if s.cfglock then finish 0 s
  else if cfgValid env.param s.cfg then finish 0 { s with cfglock := true }
  else failErr .nocfg s

/-- R282. -/
def cfglock (env : Over.Env S) (s : Over.State S) : Over.State S := admission env .cfglock (cfglockBody env) s

/-- R282: `CFGLOCK`. -/
def execCfglock (s : State) : Host.Outcome State Fault Refusal := completed (cfglock Config.env s)

/-- R283, R330: the reset state, `CMD` reading 0x0F000000. The two fields that are the HOST's side of the port stay. -/
def sresetBody [Zero S] (s : Over.State S) : Over.State S :=
  { State.cleared with cmd := 0x0F000000#32, host := s.host, rdata := s.rdata }

/-- R283. -/
def sreset [Zero S] (env : Over.Env S) (s : Over.State S) : Over.State S := admission env .sreset sresetBody s

/-- R283: `SRESET`. -/
def execSreset (s : State) : Host.Outcome State Fault Refusal := completed (sreset Config.env s)

end Sys2Proof.Machine
end

