-- ==== Sys2Proof/Machine/Tns.lean ====
section
/-! DEFINITION. TNS synthesis, the lattice filter cascade: TNSSYN (R200 to R205). -/

namespace Sys2Proof.Machine

open Sys2Proof

variable {S : Type} [Zero S]

/-- R201: the active filters, in order; `NTNS = 3` is treated as 2 (R32). -/
def tnsActive (s : Over.State S) : List TnsFilter := [s.frm.tns0, s.frm.tns1].take (min s.frm.ntns.toNat 2)

/-- `TNS_RC[f][j]` (R32). -/
def tnsRcAt (t : TnsFilter) (j : Nat) : Nat := (vecAt t.rc j).toNat

/-- R201: the admission check of one filter. -/
def tnsFilterOk (ne : Nat) (t : TnsFilter) : Bool :=
  decide (t.order.toNat ≤ 8)
    && (decide (t.order.toNat = 0)
      || decide (t.start.toNat ≤ t.stop.toNat) && decide (t.stop.toNat ≤ ne)
        && (List.range t.order.toNat).all (fun j => decide (tnsRcAt t j ≤ 16)))

/-- The running values of the cascade: the memory cells `mem[0..7]`, the spectrum, `LASTNZ`, and how many filters ran. -/
structure TnsAcc (S : Type) where
  mem : Vector S 8
  x : Memory S
  lastnz : Nat
  ran : Nat
  deriving DecidableEq, Repr

/-- R201: the stages `j-1 .. 0` of one bin: each subtracts from `t` and then sets `mem[j+1]` from the new `t` and the
old `mem[j]`. -/
def latticeStages (num : Over.Numerics S) (coef : Nat → S) : Nat → S → Vector S 8 → S × Vector S 8
  | 0, t, mem => (t, mem)
  | j + 1, t, mem =>
    let t' := num.sub t (num.mul (coef j) (vecAt mem j))
    latticeStages num coef j t' (mem.setIfInBounds (j + 1) (num.add (num.mul (coef j) t') (vecAt mem j)))

/-- R201: one bin of a filter of order `k`, at least 1: the new bin and the new memory cells. -/
def latticeBin (num : Over.Numerics S) (coef : Nat → S) (k : Nat) (v : S) (mem : Vector S 8) :
    S × Vector S 8 :=
  let p := latticeStages num coef (k - 1) (num.sub v (num.mul (coef (k - 1)) (vecAt mem (k - 1)))) mem
  (p.1, p.2.setIfInBounds 0 p.1)

/-- R201: the bins `lo .. lo+n-1` of a filter of order `k`, upward (R204). -/
def latticeRun [DecidableEq S] (num : Over.Numerics S) (coef : Nat → S) (k lo : Nat) (mem : Vector S 8) (x : Memory S) :
    Nat → Vector S 8 × Memory S
  | 0 => (mem, x)
  | n + 1 =>
    let p := latticeRun num coef k lo mem x n
    let q := latticeBin num coef k (memRead p.2 (lo + n)) p.1
    (q.2, memWrite p.2 (lo + n) q.1)

/-- R201, R202: one active filter; of order 0 it is passed over. -/
def tnsFilterRun [DecidableEq S] (env : Over.Env S) (a : TnsAcc S) (t : TnsFilter) : TnsAcc S :=
  if t.order = 0#4 then a
  else
    let p := latticeRun env.num (fun j => env.rom.tnsRcTab (tnsRcAt t j)) t.order.toNat t.start.toNat a.mem a.x
      (t.stop.toNat - t.start.toNat)
    { mem := p.1, x := p.2, lastnz := max a.lastnz t.stop.toNat, ran := a.ran + 1 }

/-- R201, R203: the cascade over the active filters; the memory cells are cleared once, before the first. -/
def tnsRun [DecidableEq S] (env : Over.Env S) (s : Over.State S) : TnsAcc S :=
  (tnsActive s).foldl (tnsFilterRun env)
    { mem := Vector.replicate 8 0, x := s.x, lastnz := s.frm.lastnz.toNat, ran := 0 }

/-- R201: the effect of `TNSSYN`. -/
def tnssynBody [DecidableEq S] (env : Over.Env S) (s : Over.State S) : Over.State S :=
  if (tnsActive s).all (tnsFilterOk s.cfg.ne.toNat) = false then failErr .badstate s
  else if (tnsActive s).all (fun t => t.order == 0#4) then finish 0 s
  else
    let a := tnsRun env s
    finish (BitVec.ofNat 32 a.ran) { s with x := a.x, frm := { s.frm with lastnz := BitVec.ofNat 10 a.lastnz } }

/-- R201. -/
def tnssyn [DecidableEq S] (env : Over.Env S) (s : Over.State S) : Over.State S := admission env .tnssyn (tnssynBody env) s

/-- R201: `TNSSYN`. -/
def execTnssyn (s : State) : Host.Outcome State Fault Refusal := completed (tnssyn Config.env s)

end Sys2Proof.Machine
end

