-- ==== Sys2Proof/Machine/Dispatch.lean ====
section
/-! DEFINITION. The dispatch: one arm per command. -/

namespace Sys2Proof.Machine

open Sys2Proof

def exec (i : Instr) (s : State) : Host.Outcome State Fault Refusal :=
  match i with
  | .nop => Sys2Proof.Machine.execNop s
  | .cfglock => Sys2Proof.Machine.execCfglock s
  | .finit loss len => Sys2Proof.Machine.execFinit loss len s
  | .sreset => Sys2Proof.Machine.execSreset s
  | .brbit => Sys2Proof.Machine.execBrbit s
  | .bruint n => Sys2Proof.Machine.execBruint n s
  | .brsync => Sys2Proof.Machine.execBrsync s
  | .acdec m => Sys2Proof.Machine.execAcdec m s
  | .actns f => Sys2Proof.Machine.execActns f s
  | .acpair => Sys2Proof.Machine.execAcpair s
  | .nfill => Sys2Proof.Machine.execNfill s
  | .ggain => Sys2Proof.Machine.execGgain s
  | .tnssyn => Sys2Proof.Machine.execTnssyn s
  | .snssyn => Sys2Proof.Machine.execSnssyn s
  | .imdct => Sys2Proof.Machine.execImdct s
  | .ltpf => Sys2Proof.Machine.execLtpf s

end Sys2Proof.Machine
end

