-- ==== Sys2Proof/Machine/HostPort.lean ====
section
/-! DEFINITION. The HOST port: the address map (R81), `HostRead` and `HostWrite` (R82 to R85), and the next HOST access
of a run (entry 5). -/

namespace Sys2Proof.Machine

open Sys2Proof

variable {S : Type}

/-- The configuration registers by name (R24). -/
inductive CfgReg where
  | ns | ne | nz | nb | maxbytes | nfstart | nfwidth | ltpfNblk | lden | tscale
  deriving DecidableEq, Repr

/-- The bitstream registers by name (R29). -/
inductive BitReg where
  | fbLen | brCur | brCache | brCnt | acLow | acRange | acCur | bitsLeft
  deriving DecidableEq, Repr

/-- The frame registers by name (R32). -/
inductive FrmReg where
  | frmCtl | specK | specCtx | lastnz | bwStop | nfSeed | nfLevel | ggInd | ggOff
  | tnsOrder0 | tnsOrder1 | tnsRc0Lo | tnsRc0Hi | tnsRc1Lo | tnsRc1Hi
  | tnsStart0 | tnsStop0 | tnsStart1 | tnsStop1
  | snsInd | snsShape | snsIdxA | snsIdxB | ltpfCtl
  deriving DecidableEq, Repr

/-- What stands at an offset of the HOST space (R81). -/
inductive Port where
  | cmd
  | status
  | res
  | cfg (r : CfgReg)
  | bits (r : BitReg)
  | frm (r : FrmReg)
  | ltpfMem
  /-- Word `i` of the frame-buffer window (R82). -/
  | fb (i : Nat)
  | bands (i : Nat)
  | scf (i : Nat)
  | x (i : Nat)
  | tblk (i : Nat)
  | out (i : Nat)
  | ola (i : Nat)
  | win (i : Nat)
  deriving DecidableEq, Repr

/-- The configuration registers from offset 0x010 on (R24). -/
def cfgRegs : List CfgReg := [.ns, .ne, .nz, .nb, .maxbytes, .nfstart, .nfwidth, .ltpfNblk, .lden, .tscale]

/-- The bitstream registers from offset 0x040 on (R29). -/
def bitRegs : List BitReg := [.fbLen, .brCur, .brCache, .brCnt, .acLow, .acRange, .acCur, .bitsLeft]

/-- The frame registers from offset 0x060 on (R32). -/
def frmRegs : List FrmReg :=
  [.frmCtl, .specK, .specCtx, .lastnz, .bwStop, .nfSeed, .nfLevel, .ggInd, .ggOff,
    .tnsOrder0, .tnsOrder1, .tnsRc0Lo, .tnsRc0Hi, .tnsRc1Lo, .tnsRc1Hi,
    .tnsStart0, .tnsStop0, .tnsStart1, .tnsStop1, .snsInd, .snsShape, .snsIdxA, .snsIdxB, .ltpfCtl]

/-- Entry `i` of a window of `n` words. -/
def window (n i : Nat) (port : Nat → Port) : Option Port := if i < n then some (port i) else none

/-- R81: what stands at the word offset `4 * i`. -/
def portOfWord (i : Nat) : Option Port :=
  if i = 0 then some .cmd
  else if i = 1 then some .status
  else if i = 2 then some .res
  else if i < 4 then none
  else if i < 0x10 then (cfgRegs[i - 4]?).map .cfg
  else if i < 0x18 then (bitRegs[i - 0x10]?).map .bits
  else if i < 0x30 then (frmRegs[i - 0x18]?).map .frm
  else if i = 0x30 then some .ltpfMem
  else if i < 0x100 then none
  else if i < 0x180 then window 100 (i - 0x100) .fb
  else if i < 0x200 then window 65 (i - 0x180) .bands
  else if i < 0x400 then window 16 (i - 0x200) .scf
  else if i < 0x800 then window 1024 (i - 0x400) .x
  else if i < 0xC00 then window 1024 (i - 0x800) .tblk
  else if i < 0x1000 then window 1024 (i - 0xC00) .out
  else if i < 0x1400 then window 1024 (i - 0x1000) .ola
  else if i < 0x1800 then none
  else window 2048 (i - 0x1800) .win

/-- R85: the port of an access, or why the access is refused. -/
def portOf (addr : Nat) : Except Refusal Port :=
  if addr % 4 ≠ 0 then .error (.misaligned addr)
  else if 0x8000 ≤ addr then .error (.outOfSpace addr)
  else match portOfWord (addr / 4) with
    | some p => .ok p
    | none => .error (.unmapped addr)

/-! ### Register layouts -/

/-- A field read as a word: the bits above it read 0. -/
def zext {w : Nat} (v : BitVec w) : Word := v.setWidth 32

/-- R24: a configuration register as the HOST reads it. -/
def readCfg (num : Over.Numerics S) (c : Over.CfgRegs S) : CfgReg → Word
  | .ns => zext c.ns
  | .ne => zext c.ne
  | .nz => zext c.nz
  | .nb => zext c.nb
  | .maxbytes => zext c.maxbytes
  | .nfstart => zext c.nfstart
  | .nfwidth => zext c.nfwidth
  | .ltpfNblk => zext c.ltpfNblk
  | .lden => zext c.lden
  | .tscale => num.enc c.tscale

/-- R24: the configuration after a write of a register; bits above the field are ignored. -/
def writeCfg (num : Over.Numerics S) (c : Over.CfgRegs S) (r : CfgReg) (v : Word) : Over.CfgRegs S :=
  match r with
  | .ns => { c with ns := v.setWidth 10 }
  | .ne => { c with ne := v.setWidth 10 }
  | .nz => { c with nz := v.setWidth 10 }
  | .nb => { c with nb := v.setWidth 7 }
  | .maxbytes => { c with maxbytes := v.setWidth 9 }
  | .nfstart => { c with nfstart := v.setWidth 10 }
  | .nfwidth => { c with nfwidth := v.setWidth 4 }
  | .ltpfNblk => { c with ltpfNblk := v.setWidth 4 }
  | .lden => { c with lden := v.setWidth 4 }
  | .tscale => { c with tscale := num.dec v }

/-- R29: a bitstream register as the HOST reads it; `BITS_LEFT` is computed (R30). -/
def readBit (s : Over.State S) : BitReg → Word
  | .fbLen => zext s.fbLen
  | .brCur => zext s.reader.cur
  | .brCache => s.reader.cache
  | .brCnt => zext s.reader.cnt
  | .acLow => zext s.coder.low
  | .acRange => zext s.coder.range
  | .acCur => zext s.coder.cur
  | .bitsLeft => BitVec.ofInt 32 (bitsLeft s)

/-- R32: `TNS_RC` indices `4*h .. 4*h+3` of a filter, in bits [4:0], [12:8], [20:16], [28:24]. -/
def rcWord (t : TnsFilter) (h : Nat) : Word :=
  0#3 ++ vecAt t.rc (4 * h + 3) ++ 0#3 ++ vecAt t.rc (4 * h + 2) ++ 0#3 ++ vecAt t.rc (4 * h + 1) ++ 0#3
    ++ vecAt t.rc (4 * h)

/-- R32: a filter after a write of its `LO` (`h = 0`) or `HI` (`h = 1`) register. -/
def setRcWord (t : TnsFilter) (h : Nat) (v : Word) : TnsFilter :=
  { t with
    rc :=
      (((t.rc.setIfInBounds (4 * h) (v.extractLsb' 0 5)).setIfInBounds (4 * h + 1)
        (v.extractLsb' 8 5)).setIfInBounds (4 * h + 2) (v.extractLsb' 16 5)).setIfInBounds (4 * h + 3)
        (v.extractLsb' 24 5) }

/-- R32: the layout of `LTPF_CTL` and `LTPF_MEM`. -/
def ltpfWord (q : LtpfParams) : Word := 0#17 ++ q.pint ++ q.pfr ++ q.gidx ++ BitVec.ofBool q.active

/-- R32: the fields of a word written to `LTPF_CTL`. -/
def ltpfOfWord (v : Word) : LtpfParams where
  active := v.getLsbD 0
  gidx := v.extractLsb' 1 2
  pfr := v.extractLsb' 3 2
  pint := v.extractLsb' 5 10

/-- R32: `FRM_CTL` as a word. -/
def frmCtlWord (f : FrameRegs) : Word :=
  0#26 ++ f.ntns ++ BitVec.ofBool f.zero ++ BitVec.ofBool f.lowRate ++ BitVec.ofBool f.rateFlag
    ++ BitVec.ofBool f.lsbMode

/-- R32: `SNS_SHAPE` as a word. -/
def snsShapeWord (f : FrameRegs) : Word :=
  0#22 ++ BitVec.ofBool f.snsLsb ++ BitVec.ofBool f.snsLsa ++ 0#1 ++ f.snsGain ++ 0#2 ++ f.snsShape

/-- R32: `SNS_IND` as a word. -/
def snsIndWord (f : FrameRegs) : Word := 0#19 ++ f.snsHf ++ 0#3 ++ f.snsLf

/-- R32: a frame register as the HOST reads it. -/
def readFrm (f : FrameRegs) : FrmReg → Word
  | .frmCtl => frmCtlWord f
  | .specK => zext f.specK
  | .specCtx => zext f.specCtx
  | .lastnz => zext f.lastnz
  | .bwStop => zext f.bwStop
  | .nfSeed => zext f.nfSeed
  | .nfLevel => zext f.nfLevel
  | .ggInd => zext f.ggInd
  | .ggOff => zext f.ggOff
  | .tnsOrder0 => zext f.tns0.order
  | .tnsOrder1 => zext f.tns1.order
  | .tnsRc0Lo => rcWord f.tns0 0
  | .tnsRc0Hi => rcWord f.tns0 1
  | .tnsRc1Lo => rcWord f.tns1 0
  | .tnsRc1Hi => rcWord f.tns1 1
  | .tnsStart0 => zext f.tns0.start
  | .tnsStop0 => zext f.tns0.stop
  | .tnsStart1 => zext f.tns1.start
  | .tnsStop1 => zext f.tns1.stop
  | .snsInd => snsIndWord f
  | .snsShape => snsShapeWord f
  | .snsIdxA => zext f.snsIdxA
  | .snsIdxB => zext f.snsIdxB
  | .ltpfCtl => ltpfWord f.ltpf

/-- R32: the frame registers after a write of one; bits outside the fields are ignored. -/
def writeFrm (f : FrameRegs) (r : FrmReg) (v : Word) : FrameRegs :=
  match r with
  | .frmCtl =>
    { f with
      lsbMode := v.getLsbD 0
      rateFlag := v.getLsbD 1
      lowRate := v.getLsbD 2
      zero := v.getLsbD 3
      ntns := v.extractLsb' 4 2 }
  | .specK => { f with specK := v.setWidth 10 }
  | .specCtx => { f with specCtx := v.setWidth 8 }
  | .lastnz => { f with lastnz := v.setWidth 10 }
  | .bwStop => { f with bwStop := v.setWidth 10 }
  | .nfSeed => { f with nfSeed := v.setWidth 16 }
  | .nfLevel => { f with nfLevel := v.setWidth 3 }
  | .ggInd => { f with ggInd := v.setWidth 8 }
  | .ggOff => { f with ggOff := v.setWidth 10 }
  | .tnsOrder0 => { f with tns0 := { f.tns0 with order := v.setWidth 4 } }
  | .tnsOrder1 => { f with tns1 := { f.tns1 with order := v.setWidth 4 } }
  | .tnsRc0Lo => { f with tns0 := setRcWord f.tns0 0 v }
  | .tnsRc0Hi => { f with tns0 := setRcWord f.tns0 1 v }
  | .tnsRc1Lo => { f with tns1 := setRcWord f.tns1 0 v }
  | .tnsRc1Hi => { f with tns1 := setRcWord f.tns1 1 v }
  | .tnsStart0 => { f with tns0 := { f.tns0 with start := v.setWidth 10 } }
  | .tnsStop0 => { f with tns0 := { f.tns0 with stop := v.setWidth 10 } }
  | .tnsStart1 => { f with tns1 := { f.tns1 with start := v.setWidth 10 } }
  | .tnsStop1 => { f with tns1 := { f.tns1 with stop := v.setWidth 10 } }
  | .snsInd => { f with snsLf := v.extractLsb' 0 5, snsHf := v.extractLsb' 8 5 }
  | .snsShape =>
    { f with
      snsShape := v.extractLsb' 0 2
      snsGain := v.extractLsb' 4 3
      snsLsa := v.getLsbD 8
      snsLsb := v.getLsbD 9 }
  | .snsIdxA => { f with snsIdxA := v.setWidth 25 }
  | .snsIdxB => { f with snsIdxB := v.setWidth 4 }
  | .ltpfCtl => { f with ltpf := ltpfOfWord v }

/-- R82: word `i` of the frame-buffer window, lowest index in the lowest byte. -/
def fbWord (s : Over.State S) (i : Nat) : Word :=
  fbByte s (4 * i + 3) ++ fbByte s (4 * i + 2) ++ fbByte s (4 * i + 1) ++ fbByte s (4 * i)

/-- R82: the frame buffer after a write of word `i`: all four bytes are replaced. -/
def setFbWord (m : Memory Byte) (i : Nat) (v : Word) : Memory Byte :=
  memFill m (4 * i) (fun j => v.extractLsb' (8 * j) 8) 4

/-! ### Accesses -/

/-- R37, R81: `OUT[n]` as the HOST reads it. With `CFG_LTPF_NBLK = 0`, which an unlocked configuration may have, R37's index
`(NBLK-1)*NS + n` lies below `YH[0]` and the spec states no value: a free value. DESIGN CHOICE, entry 23. -/
def outRead [Zero S] (num : Over.Numerics S) (s : Over.State S) (n : Nat) : S :=
  if s.cfg.ltpfNblk = 0#4 ∧ n < s.cfg.ns.toNat then num.dec (Config.freeOut ((n : Int) - s.cfg.ns.toNat)) else outAt s n

/-- R84: `HostRead` at a mapped offset. It has no side effect. -/
def readPort [Zero S] (num : Over.Numerics S) (s : Over.State S) : Port → Word
  | .cmd => s.cmd
  | .status => statusWord s
  | .res => s.res
  | .cfg r => readCfg num s.cfg r
  | .bits r => readBit s r
  | .frm r => readFrm s.frm r
  | .ltpfMem => ltpfWord s.ltpfMem
  | .fb i => fbWord s i
  | .bands i => zext (memRead s.cfg.bands i)
  | .scf i => num.enc (vecAt s.scf i)
  | .x i => num.enc (memRead s.x i)
  | .tblk i => num.enc (memRead s.tblk i)
  | .out i => num.enc (outRead num s i)
  | .ola i => num.enc (memRead s.ola i)
  | .win i => num.enc (memRead s.cfg.win i)

/-- The configuration is replaced only while it is unlocked; a write while locked is ignored (R24, R25, R27). -/
def ifUnlocked (s : Over.State S) (c : Over.CfgRegs S) : Over.State S := if s.cfglock then s else { s with cfg := c }

/-- R84: `HostWrite` at a mapped offset other than `CMD`. A write to a read-only offset is ignored (R81). -/
def writePort [Zero S] [DecidableEq S] (num : Over.Numerics S) (p : Port) (v : Word) (s : Over.State S) : Over.State S :=
  match p with
  | .cmd => s
  | .status => writeStatus v s
  | .res => s
  | .cfg r => ifUnlocked s (writeCfg num s.cfg r v)
  | .bits _ => s
  | .frm r => { s with frm := writeFrm s.frm r v }
  | .ltpfMem => s
  | .fb i => { s with fb := setFbWord s.fb i v }
  | .bands i => ifUnlocked s { s.cfg with bands := memWrite s.cfg.bands i (v.setWidth 10) }
  | .scf _ => s
  | .x i => { s with x := memWrite s.x i (num.dec v) }
  | .tblk i => { s with tblk := memWrite s.tblk i (num.dec v) }
  | .out _ => s
  | .ola _ => s
  | .win i => ifUnlocked s { s.cfg with win := memWrite s.cfg.win i (num.dec v) }

/-- R330: the hardware reset input. The fields that are the HOST's side of the port stay. -/
def hardwareReset [Zero S] (s : Over.State S) : Over.State S := { State.cleared with host := s.host, rdata := s.rdata }

/-- What the HOST's next access asks of the block: a command, or a state or refusal at once. -/
inductive Access (S : Type) where
  /-- A command word was written to `CMD` (R110); the state has it in `CMD` already (R120, step 1). -/
  | command (w : Word) (s : Over.State S)
  | done (r : Host.Outcome (Over.State S) Fault Refusal)

/-- One HOST access on a state whose list of accesses no longer holds it. -/
def hostAccess [Zero S] [DecidableEq S] (num : Over.Numerics S) (op : HostOp) (s : Over.State S) : Access S :=
  match op with
  | .reset => .done (.next (hardwareReset s))
  | .read addr =>
    match portOf addr with
    | .error r => .done (.refused r)
    | .ok p => .done (.next { s with rdata := some (readPort num s p) })
  | .write addr v =>
    match portOf addr with
    | .error r => .done (.refused r)
    | .ok .cmd => .command v { s with cmd := v }
    | .ok p => .done (.next (writePort num p v s))

/-- The next access of the run. With none to come the block is idle and holds its state (R321). -/
def nextAccess [Zero S] [DecidableEq S] (num : Over.Numerics S) (s : Over.State S) : Access S :=
  match s.host with
  | [] => .done (.next s)
  | op :: rest => hostAccess num op { s with host := rest }

end Sys2Proof.Machine
end

