-- ==== Sys2Proof/Machine/Step.lean ====
section
/-! DEFINITION. One step of the machine: the HOST's next access (R7, R91), and for a write to `CMD` the command (R110,
R120). -/

namespace Sys2Proof.Machine

open Sys2Proof

/-- A command word written to `CMD` (R120): an illegal word ends with its status code, a command is executed. -/
def runCommand (w : Word) (s : State) : Host.Outcome State Fault Refusal :=
  match decode w with
  | .error e => completed (rejectWord e s)
  | .ok i => exec i s

/-- One step: the HOST's next access. -/
def step (s : State) : Host.Outcome State Fault Refusal :=
  match nextAccess Config.env.num s with
  | .done r => r
  | .command w s' => runCommand w s'

/-- The state whose next HOST access writes the command word to `CMD`, so that the next step runs it (entry 5). -/
def State.withFetchWord (s : State) (nbits w : Nat) : State :=
  { s with host := .write 0x000 (tableWord nbits w) :: s.host }

end Sys2Proof.Machine
end

