-- ==== Sys2Proof/Safety.lean ====
section
/-! DEFINITION. The terms the claims use: the invariants of a run, and the spec's own relations, written apart from the
functions that compute them (the tail bits, the decode step, a valid configuration, the lattice filter, the
postfilter). -/

namespace Sys2Proof.Machine

open Sys2Proof

/-! ### When a command is admitted -/

/-- A frame is in progress: a decode-class command with its operands in range is neither refused nor skipped
(R120, steps 5 and 6). -/
structure Open (s : State) : Prop where
  locked : s.cfglock = true
  good : s.bec = false

/-! ### Words and offsets -/

/-- R118: the opcode map, `match` and `mask` of each command. -/
def opcodeMap : List (Word × Word) :=
  [(0x00000000, 0xFFFFFFFF), (0x01000000, 0xFFFFFFFF), (0x02000000, 0xFFFEFE00), (0x0F000000, 0xFFFFFFFF),
    (0x10000000, 0xFFFFFFFF), (0x11000000, 0xFFFFFFC0), (0x12000000, 0xFFFFFFFF), (0x20000000, 0xFFFFFF00),
    (0x21000000, 0xFFFFFFFE), (0x22000000, 0xFFFFFFFF), (0x30000000, 0xFFFFFFFF), (0x31000000, 0xFFFFFFFF),
    (0x32000000, 0xFFFFFFFF), (0x33000000, 0xFFFFFFFF), (0x40000000, 0xFFFFFFFF), (0x41000000, 0xFFFFFFFF)]

/-- R81: the offset stands in the address map. -/
def Mapped (a : Nat) : Prop :=
  a < 0x0C ∨ 0x10 ≤ a ∧ a < 0x38 ∨ 0x40 ≤ a ∧ a < 0xC4 ∨ 0x400 ≤ a ∧ a < 0x590 ∨ 0x600 ≤ a ∧ a < 0x704 ∨
    0x800 ≤ a ∧ a < 0x840 ∨ 0x1000 ≤ a ∧ a < 0x5000 ∨ 0x6000 ≤ a ∧ a < 0x8000

/-- R32: the frame registers, offset and the bits that are fields. -/
def frameRegisters : List (Nat × Word) :=
  [(0x060, 0x3F), (0x064, 0x3FF), (0x068, 0xFF), (0x06C, 0x3FF), (0x070, 0x3FF), (0x074, 0xFFFF), (0x078, 0x7),
    (0x07C, 0xFF), (0x080, 0x3FF), (0x084, 0xF), (0x088, 0xF), (0x08C, 0x1F1F1F1F), (0x090, 0x1F1F1F1F),
    (0x094, 0x1F1F1F1F), (0x098, 0x1F1F1F1F), (0x09C, 0x3FF), (0x0A0, 0x3FF), (0x0A4, 0x3FF), (0x0A8, 0x3FF),
    (0x0AC, 0x1F1F), (0x0B0, 0x373), (0x0B4, 0x1FFFFFF), (0x0B8, 0xF), (0x0BC, 0x7FFF)]

/-- R24: the configuration registers that hold an integer, offset and the bits that are fields. -/
def configRegisters : List (Nat × Word) :=
  [(0x010, 0x3FF), (0x014, 0x3FF), (0x018, 0x3FF), (0x01C, 0x7F), (0x020, 0x1FF), (0x024, 0x3FF), (0x028, 0xF),
    (0x02C, 0xF), (0x030, 0xF)]

/-- R24, R37, R84: after a HOST write at configuration offset `a` took `s` to `t`, that offset reads `back` and every other one
reads as before. `OUT` is a view through `CFG_NS` and `CFG_LTPF_NBLK` (0x010 and 0x02C), so under these two it is read
through the new value. -/
def ReadsBack (s t : State) (a : Nat) (back : Word) : Prop :=
  ∀ (b : Nat) (p : Port), portOf b = .ok p → ((∃ i, p = .out i) → a ≠ 0x010 ∧ a ≠ 0x02C) →
    readPort Config.env.num t p = if b = a then back else readPort Config.env.num s p

/-! ### What a HOST read returns -/

/-- R310: the codes of `STATUS.ERR`. -/
def errNumber : ErrCode → Nat
  | .ok => 0
  | .nocfg => 1
  | .badlen => 2
  | .illop => 3
  | .badfield => 4
  | .badstate => 5

/-- R301: the codes of `STATUS.CAUSE`. -/
def causeNumber : Cause → Nat
  | .none => 0
  | .extloss => 1
  | .hostset => 2
  | .acinv => 3
  | .acslice => 4
  | .esclevel => 5
  | .collision => 6
  | .broverrun => 7
  | .tnsdata => 8
  | .snsidx => 9
  | .noframe => 15

/-- The number of a word from its fields, each the place of its lowest bit and its value; all other bits are 0. -/
def ofFields (l : List (Nat × Nat)) : Nat := (l.map fun f => f.2 <<< f.1).sum

/-- R32, R37: the fields of `LTPF_CTL` and of `LTPF_MEM`. -/
def ltpfFields (q : LtpfParams) : List (Nat × Nat) :=
  [(0, q.active.toNat), (1, q.gidx.toNat), (3, q.pfr.toNat), (5, q.pint.toNat)]

/-- R32: the fields of the `LO` (`h = 0`) and the `HI` (`h = 1`) register of a filter's coefficient indices. -/
def rcFields (t : TnsFilter) (h : Nat) : List (Nat × Nat) :=
  (List.range 4).map fun j => (8 * j, (vecAt t.rc (4 * h + j)).toNat)

/-- R24, R28, R29, R30, R32, R37: the registers that hold no sample: offset, and the fields of the word it reads. -/
def registers (s : State) : List (Nat × List (Nat × Nat)) :=
  [(0x000, [(0, s.cmd.toNat)]),
    (0x004, [(0, s.bec.toNat), (1, s.skip.toNat), (2, s.cfglock.toNat), (4, errNumber s.err), (8, causeNumber s.cause)]),
    (0x008, [(0, s.res.toNat)]),
    (0x010, [(0, s.cfg.ns.toNat)]), (0x014, [(0, s.cfg.ne.toNat)]), (0x018, [(0, s.cfg.nz.toNat)]),
    (0x01C, [(0, s.cfg.nb.toNat)]), (0x020, [(0, s.cfg.maxbytes.toNat)]), (0x024, [(0, s.cfg.nfstart.toNat)]),
    (0x028, [(0, s.cfg.nfwidth.toNat)]), (0x02C, [(0, s.cfg.ltpfNblk.toNat)]), (0x030, [(0, s.cfg.lden.toNat)]),
    (0x040, [(0, s.fbLen.toNat)]), (0x044, [(0, s.reader.cur.toNat)]), (0x048, [(0, s.reader.cache.toNat)]),
    (0x04C, [(0, s.reader.cnt.toNat)]), (0x050, [(0, s.coder.low.toNat)]), (0x054, [(0, s.coder.range.toNat)]),
    (0x058, [(0, s.coder.cur.toNat)]),
    (0x05C, [(0, ((8 * s.fbLen.toNat - (8 * (s.fbLen.toNat - s.reader.cur.toNat) - s.reader.cnt.toNat) -
      8 * (s.coder.cur.toNat - 3) : Int) % 2 ^ 32).toNat)]),
    (0x060, [(0, s.frm.lsbMode.toNat), (1, s.frm.rateFlag.toNat), (2, s.frm.lowRate.toNat), (3, s.frm.zero.toNat),
      (4, s.frm.ntns.toNat)]),
    (0x064, [(0, s.frm.specK.toNat)]), (0x068, [(0, s.frm.specCtx.toNat)]), (0x06C, [(0, s.frm.lastnz.toNat)]),
    (0x070, [(0, s.frm.bwStop.toNat)]), (0x074, [(0, s.frm.nfSeed.toNat)]), (0x078, [(0, s.frm.nfLevel.toNat)]),
    (0x07C, [(0, s.frm.ggInd.toNat)]), (0x080, [(0, s.frm.ggOff.toNat)]), (0x084, [(0, s.frm.tns0.order.toNat)]),
    (0x088, [(0, s.frm.tns1.order.toNat)]), (0x08C, rcFields s.frm.tns0 0), (0x090, rcFields s.frm.tns0 1),
    (0x094, rcFields s.frm.tns1 0), (0x098, rcFields s.frm.tns1 1), (0x09C, [(0, s.frm.tns0.start.toNat)]),
    (0x0A0, [(0, s.frm.tns0.stop.toNat)]), (0x0A4, [(0, s.frm.tns1.start.toNat)]), (0x0A8, [(0, s.frm.tns1.stop.toNat)]),
    (0x0AC, [(0, s.frm.snsLf.toNat), (8, s.frm.snsHf.toNat)]),
    (0x0B0, [(0, s.frm.snsShape.toNat), (4, s.frm.snsGain.toNat), (8, s.frm.snsLsa.toNat), (9, s.frm.snsLsb.toNat)]),
    (0x0B4, [(0, s.frm.snsIdxA.toNat)]), (0x0B8, [(0, s.frm.snsIdxB.toNat)]), (0x0BC, ltpfFields s.frm.ltpf),
    (0x0C0, ltpfFields s.ltpfMem)]

/-- R81, R83: the word `w` is what stands at offset `a`, the frame-buffer window apart (R82): a register by its fields, an
entry of `BANDS`, the `S.enc` of a sample. `OUT[n]` is the newest block of the history (R37); with `CFG_LTPF_NBLK = 0` and
`n < CFG_NS` the spec states no value (log entry 23) and nothing is said here. -/
structure StandsAt (s : State) (a : Nat) (w : Word) : Prop where
  register : ∀ fields, (a, fields) ∈ registers s → w.toNat = ofFields fields
  tscale : a = 0x034 → w = Config.env.num.enc s.cfg.tscale
  bands : ∀ b, b < 65 → a = 0x600 + 4 * b → w.toNat = (memRead s.cfg.bands b).toNat
  scf : ∀ n, n < 16 → a = 0x800 + 4 * n → w = Config.env.num.enc (vecAt s.scf n)
  x : ∀ k, k < 1024 → a = 0x1000 + 4 * k → w = Config.env.num.enc (memRead s.x k)
  tblk : ∀ n, n < 1024 → a = 0x2000 + 4 * n → w = Config.env.num.enc (memRead s.tblk n)
  outPast : ∀ n, n < 1024 → a = 0x3000 + 4 * n → s.cfg.ns.toNat ≤ n → w = Config.env.num.enc Sample.zero
  out : ∀ n, a = 0x3000 + 4 * n → n < s.cfg.ns.toNat → 1 ≤ s.cfg.ltpfNblk.toNat →
    w = Config.env.num.enc (memRead s.yh ((s.cfg.ltpfNblk.toNat - 1) * s.cfg.ns.toNat + n))
  ola : ∀ n, n < 1024 → a = 0x4000 + 4 * n → w = Config.env.num.enc (memRead s.ola n)
  win : ∀ n, n < 2048 → a = 0x6000 + 4 * n → w = Config.env.num.enc (memRead s.cfg.win n)

/-! ### What a command can end with -/

/-- R306: the status codes other than `OK` that a command can end with. -/
def errorsOf : Instr → List ErrCode
  | .nop => []
  | .cfglock => [.nocfg]
  | .finit _ _ => [.nocfg, .badlen]
  | .sreset => []
  | .brbit => [.nocfg]
  | .bruint _ => [.nocfg, .badfield]
  | .brsync => [.nocfg]
  | .acdec _ => [.nocfg, .badfield]
  | .actns _ => [.nocfg]
  | .acpair => [.nocfg, .badstate]
  | .nfill => [.nocfg]
  | .ggain => [.nocfg]
  | .tnssyn => [.nocfg, .badstate]
  | .snssyn => [.nocfg, .badstate]
  | .imdct => [.nocfg]
  | .ltpf => [.nocfg, .badstate]

/-- R306: the corruption causes that a command can raise. -/
def causesOf : Instr → List Cause
  | .nop => []
  | .cfglock => []
  | .finit _ _ => [.extloss]
  | .sreset => [.noframe]
  | .brbit => [.broverrun]
  | .bruint _ => [.broverrun]
  | .brsync => []
  | .acdec _ => [.acinv, .acslice]
  | .actns _ => [.acinv, .acslice, .tnsdata]
  | .acpair => [.acinv, .acslice, .esclevel, .collision, .broverrun]
  | .nfill => []
  | .ggain => []
  | .tnssyn => []
  | .snssyn => [.snsidx]
  | .imdct => []
  | .ltpf => []

/-! ### Invariants -/

/-- Every memory is in canonical form, and a locked configuration is valid (R26, R27, R282). -/
structure MemoryInv (s : State) : Prop where
  fb : Memory.wf 400 s.fb = true
  bands : Memory.wf 65 s.cfg.bands = true
  win : Memory.wf 2048 s.cfg.win = true
  x : Memory.wf 1024 s.x = true
  tblk : Memory.wf 1024 s.tblk = true
  ola : Memory.wf 1024 s.ola = true
  yh : Memory.wf 8192 s.yh = true
  locked : s.cfglock = true → cfgValid Config.env.param s.cfg = true

/-- What holds of the bitstream registers while a frame is in progress: the tail reader is inside the frame, its cache is
zero above the valid bits (R146), and the coder is renormalised (R31). -/
structure BitstreamOk (s : State) : Prop where
  locked : s.cfglock = true
  len_ge : 20 ≤ s.fbLen.toNat
  len_le : s.fbLen.toNat ≤ s.cfg.maxbytes.toNat
  cur_le : s.reader.cur.toNat ≤ s.fbLen.toNat
  cnt_le : s.reader.cnt.toNat ≤ 32
  consumed : 8 * s.reader.cur.toNat + s.reader.cnt.toNat ≤ 8 * s.fbLen.toNat
  cache_lt : s.reader.cache.toNat < 2 ^ s.reader.cnt.toNat
  range_ge : 0x10000 ≤ s.coder.range.toNat
  front : 3 ≤ s.coder.cur.toNat

/-- R31, R146: the bitstream registers while `BEC = 0`. -/
def BitstreamInv (s : State) : Prop := s.bec = false → BitstreamOk s

/-- What STATUS can say (R28, R290, R301, R302, R305, R310): no cause exactly while `BEC = 0`; a skip only under `BEC`, with
`ERR = 0` and `RES = 0`; no frame before the lock; `NOCFG` only while unlocked. -/
structure StatusInv (s : State) : Prop where
  cause : s.bec = false ↔ s.cause = .none
  skip : s.skip = true → s.bec = true ∧ s.err = .ok ∧ s.res = 0#32
  unlocked : s.cfglock = false → s.bec = true ∧ s.cause = .noframe
  nocfg : s.err = .nocfg → s.cfglock = false

/-- R261, R264: the lag of a memorised active filter is in bounds under the locked configuration. -/
def LtpfInv (s : State) : Prop :=
  s.ltpfMem.active = true → s.cfglock = true ∧ lagOk s.cfg s.ltpfMem = true

/-- Every entry a memory lists is a sample. -/
def SamplesIn (n : Numerics) (m : Memory Sample) : Prop := ∀ e ∈ m, n.isSample e.2 = true

/-- Every sample the state holds is a value of `S` (R14, R34 to R37). -/
structure SampleInv (s : State) : Prop where
  tscale : Config.env.num.isSample s.cfg.tscale = true
  win : SamplesIn Config.env.num s.cfg.win
  x : SamplesIn Config.env.num s.x
  tblk : SamplesIn Config.env.num s.tblk
  ola : SamplesIn Config.env.num s.ola
  yh : SamplesIn Config.env.num s.yh
  scf : ∀ i, Config.env.num.isSample (vecAt s.scf i) = true
  xt : ∀ i, Config.env.num.isSample (vecAt s.xt i) = true

/-! ### The tail bits -/

/-- R86: `tailbit(p)`. -/
def tailbit (s : State) (p : Nat) : Bool := (fbByte s (s.fbLen.toNat - 1 - p / 8)).getLsbD (p % 8)

/-- The tail bit that a reader hands out after `j` others: first those in the cache, bit 0 first, then those of the bytes
below the cursor, from the highest index down and within a byte from bit 0 up (R86, R144, R145). -/
def readerBit (fb : Memory Byte) (r : TailReader) (j : Nat) : Bool :=
  if j < r.cnt.toNat then r.cache.getLsbD j
  else (memRead fb (r.cur.toNat - 1 - (j - r.cnt.toNat) / 8)).getLsbD ((j - r.cnt.toNat) % 8)

/-- The tail bit that the state's reader hands out after `j` others. -/
def pendingBit (s : State) (j : Nat) : Bool := readerBit s.fb s.reader j

/-- R146, R95: the cache agrees with the frame buffer, which holds while the HOST has not written `FB` since `FINIT`. -/
def CacheFresh (s : State) : Prop :=
  ∀ i, i < s.reader.cnt.toNat → s.reader.cache.getLsbD i = tailbit s ((brPos s).toNat + i)

/-- R144, R146: `t` is `s` after a successful read of `n` tail bits as a command's whole effect: the bits stand in `RES`,
first bit lowest; the reader has moved on by `n` bits; nothing else changes. -/
def ReadsTail (n : Nat) (s t : State) : Prop :=
  (∀ j, j < 32 → t.res.getLsbD j = (decide (j < n) && pendingBit s j)) ∧
    brPos t = brPos s + n ∧
    (∀ j, n + j < 8 * s.reader.cur.toNat + s.reader.cnt.toNat → pendingBit t j = pendingBit s (n + j)) ∧
    t = { s with reader := t.reader, res := t.res, err := .ok, skip := false }

/-! ### The decode step -/

/-- R17, R164: `sym` is the symbol of `slice` in model `m`. -/
def SymbolOf (m : Model) (slice sym : Nat) : Prop :=
  sym < m.nsym ∧ m.cumfreq sym ≤ slice ∧ slice < m.cumfreq sym + m.symfreq sym

/-- R165: the code value after `k` renormalisation passes from `low`, the next input byte being number `cur`. -/
def shiftedLow (s : State) (low cur : Nat) : Nat → Nat
  | 0 => low
  | k + 1 => 256 * shiftedLow s low cur k + (acByte s (cur + k)).toNat

/-- R164, R165: a decode step with model `m` from coder `c` yields `sym` and leaves coder `c'`. -/
def DecodesTo (m : Model) (s : State) (c : Coder) (sym : Nat) (c' : Coder) : Prop :=
  c.low < c.range ∧ c.low.toNat / (c.range.toNat / 1024) < 1024 ∧
    SymbolOf m (c.low.toNat / (c.range.toNat / 1024)) sym ∧
    ∃ k, k ≤ 2 ∧
      (k ≠ 0 → c.range.toNat / 1024 * m.symfreq sym * 256 ^ (k - 1) < 0x10000) ∧
      0x10000 ≤ c'.range.toNat ∧
      c'.range.toNat = c.range.toNat / 1024 * m.symfreq sym * 256 ^ k ∧
      c'.low.toNat = shiftedLow s (c.low.toNat - c.range.toNat / 1024 * m.cumfreq sym) c.cur.toNat k ∧
      c'.cur.toNat = min (c.cur.toNat + k) 0xFFFF

/-- R163, R164: a decode step from coder `c` raises `cause`. -/
def RaisesAt (c : Coder) (cause : Cause) : Prop :=
  cause = .acinv ∧ c.range ≤ c.low ∨
    cause = .acslice ∧ c.low < c.range ∧ 1024 ≤ c.low.toNat / (c.range.toNat / 1024)

/-! ### A spectral pair -/

/-- R171, R172: the table index `t` of the pair at `SPEC_K`. -/
def tableIndex (s : State) : Nat :=
  s.frm.specCtx.toNat + 512 * s.frm.rateFlag.toNat + if s.cfg.ne.toNat / 2 < s.frm.specK.toNat then 256 else 0

/-- R171, R172: the model of the decode step at level `lev`. -/
def levelModel (rom : Rom) (s : State) (lev : Nat) : Model :=
  rom.model (rom.specLookup (tableIndex s + 1024 * min lev 3))

/-- R171: `lev` escapes in a row take the coder from `c 0`, the state's, to `c lev`. -/
def Escapes (rom : Rom) (s : State) (lev : Nat) (c : Nat → Coder) : Prop :=
  c 0 = s.coder ∧ ∀ i, i < lev → DecodesTo (levelModel rom s i) s (c i) 16 (c (i + 1))

/-- R171, R177: how many bit planes of each coefficient are read as raw bits. -/
def pairPlanes (s : State) (lev : Nat) : Nat := lev - s.frm.lsbMode.toNat

/-- R171, R173: the magnitude of the first (`odd = 0`) or second (`odd = 1`) coefficient, its raw bits being the even or odd
ones of the tail bits to come. -/
def pairMagnitude (s : State) (lev sym odd : Nat) : Nat :=
  (if odd = 0 then sym % 4 else sym / 4) * 2 ^ lev +
    ((List.range (pairPlanes s lev)).map fun j =>
      (pendingBit s (2 * j + odd)).toNat * 2 ^ (j + s.frm.lsbMode.toNat)).sum

/-- R171, R173: the first coefficient, its sign bit after the raw bits. -/
def pairFirst (s : State) (lev sym : Nat) : Int :=
  if pairMagnitude s lev sym 0 ≠ 0 ∧ pendingBit s (2 * pairPlanes s lev) = true then -(pairMagnitude s lev sym 0 : Int)
  else pairMagnitude s lev sym 0

/-- R171: 1 when a sign bit is read for the first (second) coefficient. -/
def pairSignBits (s : State) (lev sym odd : Nat) : Nat := if pairMagnitude s lev sym odd = 0 then 0 else 1

/-- R171, R173: the second coefficient, its sign bit after the first one's. -/
def pairSecond (s : State) (lev sym : Nat) : Int :=
  if pairMagnitude s lev sym 1 ≠ 0 ∧ pendingBit s (2 * pairPlanes s lev + pairSignBits s lev sym 0) = true then
    -(pairMagnitude s lev sym 1 : Int)
  else pairMagnitude s lev sym 1

/-- R171: all tail bits of the pair: raw bits and sign bits. -/
def pairTailBits (s : State) (lev sym : Nat) : Nat :=
  2 * pairPlanes s lev + pairSignBits s lev sym 0 + pairSignBits s lev sym 1

/-- R144, R171: the tail bits a pair takes when `left` are left, fewer than it needs: its reads are its raw bits, the first
sign and the second sign, each all or nothing, and the first that asks for too many ends it. -/
def pairTailTaken (s : State) (lev sym : Nat) (left : Int) : Nat :=
  if left < (2 * pairPlanes s lev : Nat) then 0
  else if left < (2 * pairPlanes s lev + pairSignBits s lev sym 0 : Nat) then 2 * pairPlanes s lev
  else 2 * pairPlanes s lev + pairSignBits s lev sym 0

/-- R174: the class `tt` of a pair. -/
def contextClass (lev sym : Nat) : Nat := if lev ≤ 1 then 1 + (sym % 4 + sym / 4) * (lev + 1) else 12 + min lev 3

/-! ### The configuration -/

/-- R24 ("legal at lock") and R26, as the rules list them. -/
structure ConfigValid (p : Params) (c : CfgRegs) : Prop where
  ns : c.ns.toNat % 4 = 0 ∧ 4 ≤ c.ns.toNat ∧ c.ns.toNat ≤ p.nsMax
  ne : c.ne.toNat % 2 = 0 ∧ 2 ≤ c.ne.toNat ∧ c.ne.toNat ≤ min c.ns.toNat p.neMax
  nz : c.nz.toNat < c.ns.toNat
  nb : 16 ≤ c.nb.toNat ∧ c.nb.toNat ≤ 64
  maxbytes : 20 ≤ c.maxbytes.toNat ∧ c.maxbytes.toNat ≤ 400
  nfstart : c.nfstart.toNat ≤ c.ne.toNat
  nblk : c.ltpfNblk.toNat = 2 ∨ c.ltpfNblk.toNat = 3 ∨ c.ltpfNblk.toNat = 4 ∨ c.ltpfNblk.toNat = 8
  lden : c.lden.toNat % 2 = 0 ∧ 4 ≤ c.lden.toNat ∧ c.lden.toNat ≤ 12
  bands_zero : memRead c.bands 0 = 0#10
  bands_mono : ∀ b, b < c.nb.toNat → (memRead c.bands b).toNat ≤ (memRead c.bands (b + 1)).toNat
  bands_le : (memRead c.bands c.nb.toNat).toNat ≤ c.ne.toNat

/-! ### Noise filling -/

/-- R191, phase 1: `gap[k]`. -/
def GapAt (num : Numerics) (s : State) (stop k : Nat) : Prop :=
  ∀ i, k - s.cfg.nfwidth.toNat ≤ i → i ≤ min (stop - 1) (k + s.cfg.nfwidth.toNat) → num.isZero (memRead s.x i) = true

/-! ### The lattice filter -/

/-- R201: `y` is what a filter of order `k` with coefficients `coef` makes of the bins `lo .. hi-1` of `x`, the memory
cells going from `memIn` to `memOut`. `cell n j` is `mem[j]` before bin `n`, `part n j` the value of `t` after stage `j`. -/
def LatticeFilters (num : Numerics) (coef : Nat → Sample) (k lo hi : Nat) (x y memIn memOut : Nat → Sample) : Prop :=
  ∃ cell part : Nat → Nat → Sample,
    (∀ j, j < 8 → cell lo j = memIn j) ∧ (∀ j, j < 8 → cell hi j = memOut j) ∧
    (∀ n, lo ≤ n → n < hi →
      part n (k - 1) = num.sub (x n) (num.mul (coef (k - 1)) (cell n (k - 1))) ∧
      (∀ j, j + 1 < k → part n j = num.sub (part n (j + 1)) (num.mul (coef j) (cell n j))) ∧
      (∀ j, j + 1 < k → cell (n + 1) (j + 1) = num.add (num.mul (coef j) (part n j)) (cell n j)) ∧
      (∀ j, k ≤ j → j < 8 → cell (n + 1) j = cell n j) ∧
      cell (n + 1) 0 = part n 0 ∧ y n = part n 0) ∧
    (∀ n, ¬(lo ≤ n ∧ n < hi) → y n = x n)

/-- R201: one filter of the cascade; of order 0 it is passed over. -/
def TnsFilters (env : Env) (t : TnsFilter) (x y memIn memOut : Nat → Sample) : Prop :=
  if t.order = 0#4 then y = x ∧ ∀ j, j < 8 → memOut j = memIn j
  else LatticeFilters env.num (fun j => env.rom.tnsRcTab (vecAt t.rc j).toNat) t.order.toNat t.start.toNat
    t.stop.toNat x y memIn memOut

/-- R201: the admission check of a filter. -/
def TnsFilterOk (ne : Nat) (t : TnsFilter) : Prop :=
  t.order.toNat ≤ 8 ∧
    (0 < t.order.toNat →
      t.start.toNat ≤ t.stop.toNat ∧ t.stop.toNat ≤ ne ∧ ∀ j, j < t.order.toNat → (vecAt t.rc j).toNat ≤ 16)

/-! ### The pulse vector -/

/-- `sign * v`, the sign negative when `neg`. -/
def withSign (neg : Bool) (v : Nat) : Int := if neg then -(v : Int) else v

/-- R215: `y` is what `Deenum(n, k, ls, idx)` returns. `left pos`, `index pos` and `neg pos` are `kleft`, `idx` and the sign flag
before position `pos`, `acc pos` the `kacc` found there: the largest count up to `kleft` whose offset is at most `idx`. The
exit of the loop is written as 0 pulses left at index 0. -/
def DeenumWalk (n k : Nat) (ls : Bool) (idx : Nat) (y : List Int) : Prop :=
  y.length = n ∧ ∃ (left index acc : Nat → Nat) (neg : Nat → Bool), left 0 = k ∧ index 0 = idx ∧ neg 0 = ls ∧
    ∀ pos, pos < n →
      (index pos = 0 → y.getD pos 0 = withSign (neg pos) (left pos) ∧ left (pos + 1) = 0 ∧ index (pos + 1) = 0) ∧
      (index pos ≠ 0 →
        acc pos ≤ left pos ∧ mpvqA (n - pos) (acc pos) ≤ index pos ∧
        (∀ j, acc pos < j → j ≤ left pos → index pos < mpvqA (n - pos) j) ∧
        y.getD pos 0 = withSign (neg pos) (left pos - acc pos) ∧ left (pos + 1) = acc pos ∧
        (acc pos = left pos →
          index (pos + 1) = index pos - mpvqA (n - pos) (acc pos) ∧ neg (pos + 1) = neg pos) ∧
        (acc pos ≠ left pos →
          index (pos + 1) = (index pos - mpvqA (n - pos) (acc pos)) / 2 ∧
            (neg (pos + 1) = true ↔ (index pos - mpvqA (n - pos) (acc pos)) % 2 = 1)))

/-! ### The spectral envelope -/

/-- R220: the 64-point grid of the scale factors `q`. -/
structure Grid64 (num : Numerics) (q s64 : Nat → Sample) : Prop where
  low0 : s64 0 = q 0
  low1 : s64 1 = q 0
  mid : ∀ n, n < 15 →
    s64 (4 * n + 2) = num.add (q n) (num.mul (num.ofRat (1 / 8)) (num.sub (q (n + 1)) (q n))) ∧
    s64 (4 * n + 3) = num.add (q n) (num.mul (num.ofRat (3 / 8)) (num.sub (q (n + 1)) (q n))) ∧
    s64 (4 * n + 4) = num.add (q n) (num.mul (num.ofRat (5 / 8)) (num.sub (q (n + 1)) (q n))) ∧
    s64 (4 * n + 5) = num.add (q n) (num.mul (num.ofRat (7 / 8)) (num.sub (q (n + 1)) (q n)))
  high62 : s64 62 = num.add (q 15) (num.mul (num.ofRat (1 / 8)) (num.sub (q 15) (q 14)))
  high63 : s64 63 = num.add (q 15) (num.mul (num.ofRat (3 / 8)) (num.sub (q 15) (q 14)))

/-- R222: the 32-point grid of the scale factors `q`. -/
structure Grid32 (num : Numerics) (q s32 : Nat → Sample) : Prop where
  low0 : s32 0 = q 0
  mid : ∀ n, n < 15 →
    s32 (2 * n + 1) = num.add (q n) (num.mul (num.ofRat (1 / 4)) (num.sub (q (n + 1)) (q n))) ∧
    s32 (2 * n + 2) = num.add (q n) (num.mul (num.ofRat (3 / 4)) (num.sub (q (n + 1)) (q n)))
  high31 : s32 31 = num.add (q 15) (num.mul (num.ofRat (1 / 4)) (num.sub (q 15) (q 14)))

/-- R221, R222: reduction of a grid of `size` values to `nb` bands. -/
def Reduced (num : Numerics) (size nb : Nat) (grid scf : Nat → Sample) : Prop :=
  (∀ b, b < size - nb → scf b = num.mul (num.ofRat (1 / 2)) (num.add (grid (2 * b)) (grid (2 * b + 1)))) ∧
    ∀ b, size - nb ≤ b → b < nb → scf b = grid (size - nb + b)

/-- R220 to R222: `scf` interpolates the scale factors `q` to `nb` bands. -/
def Interpolates (num : Numerics) (nb : Nat) (q scf : Nat → Sample) : Prop :=
  if 32 ≤ nb then ∃ s64, Grid64 num q s64 ∧ Reduced num 64 nb s64 scf
  else ∃ s32, Grid32 num q s32 ∧ Reduced num 32 nb s32 scf

/-! ### The postfilter -/

/-- R261: `NUM(g, src, n)`, the sum in ascending order of `k`. That it starts from `S.zero` is DEDUCED, entry 15. -/
def NumTaps (env : Env) (ld g : Nat) (src : Int → Sample) (n : Int) : Sample :=
  (List.range (ld - 1)).foldl (fun acc k => env.num.add acc (env.num.mul (env.rom.ltpfCnum g k) (src (n - k))))
    Sample.zero

/-- R261: `DEN(g, f, p, dst, n)`, the sum in ascending order of `k`. That it starts from `S.zero` is DEDUCED, entry 15. -/
def DenTaps (env : Env) (ld : Nat) (q : LtpfParams) (dst : Int → Sample) (n : Int) : Sample :=
  (List.range (ld + 1)).foldl
    (fun acc k =>
      env.num.add acc
        (env.num.mul (env.rom.ltpfCden q.gidx.toNat q.pfr.toNat k) (dst (n - q.pint.toNat + (ld / 2 : Nat) - k))))
    Sample.zero

/-- R261: the input signal `x(i)`, `-10 <= i < NS`. -/
def InputIs (s : State) (x : Int → Sample) : Prop :=
  (∀ n : Nat, n < s.cfg.ns.toNat → x n = memRead s.tblk n) ∧
    ∀ k : Nat, 1 ≤ k → k ≤ 10 → x (-(k : Int)) = vecAt s.xt (10 - k)

/-- R261: the output signal `y(i)` of a command that takes `s` to `t`, `-H <= i < NS`: the history before the command and the
new block. -/
def OutputIs (s t : State) (y : Int → Sample) : Prop :=
  (∀ n : Nat, n < s.cfg.ns.toNat → y n = outAt t n) ∧
    ∀ k : Nat, 1 ≤ k → k ≤ histLen s.cfg → y (-(k : Int)) = memRead s.yh (histLen s.cfg - k)

/-- R261: the equation of a full filter with parameters `q` at sample `n`. -/
def FullFilterAt (env : Env) (s : State) (q : LtpfParams) (x y : Int → Sample) (n : Int) : Prop :=
  y n = env.num.add (env.num.sub (x n) (NumTaps env s.cfg.lden.toNat q.gidx.toNat x n))
    (DenTaps env s.cfg.lden.toNat q y n)

/-- R261: a signal `z` that is `x` less a weighted `NUM - DEN`. -/
def FadedFilterAt (env : Env) (s : State) (q : LtpfParams) (w : Rat) (x src dst z : Int → Sample) (n : Int) : Prop :=
  z n = env.num.sub (x n) (env.num.mul (env.num.ofRat w)
    (env.num.sub (NumTaps env s.cfg.lden.toNat q.gidx.toNat src n) (DenTaps env s.cfg.lden.toNat q dst n)))

end Sys2Proof.Machine
end

