-- ==== Sys2Proof/Certificates/Slice0/Obligations.lean ====
section
/-! DEFINITION. The statements for the provers. Every statement names the rules of spec/ it formalises; the relations it
uses stand in Sys2Proof/Safety.lean. -/

open Sys2Proof Sys2Proof.Machine

/-! ### Encoding -/

/-- R118: command words written out from the opcode map, and the commands they are. -/
def Obligations.WordsDecodeAsTheMapSays : Prop :=
  decode 0x00000000 = .ok .nop ∧ decode 0x02010014 = .ok (.finit true 20) ∧ decode 0x11000020 = .ok (.bruint 32) ∧
    decode 0x20000013 = .ok (.acdec 19) ∧ decode 0x21000001 = .ok (.actns 1) ∧ decode 0x22000000 = .ok .acpair ∧
    decode 0x41000000 = .ok .ltpf ∧ decode 0x02020014 = .error .badfield ∧ decode 0x50000000 = .error .illop

/-- R111, R112, R118: every command's word decodes to that command, whatever its operands. -/
def Obligations.EncodedCommandDecodesBack : Prop := ∀ i : Instr, decode (encode i) = .ok i

/-- R118, R119: a word that is a command is the one word of that command. -/
def Obligations.CommandHasOneWord : Prop := ∀ (w : Word) (i : Instr), decode w = .ok i → encode i = w

/-- R118, R119, R120 (steps 2 and 3): a word is a command exactly when it matches a row of the opcode map under the row's
mask; it is `ILLOP` exactly when its opcode is in no row. -/
def Obligations.OpcodeMapIsComplete : Prop :=
  ∀ w : Word,
    ((∃ i, decode w = .ok i) ↔ ∃ r ∈ opcodeMap, w &&& r.2 = r.1) ∧
      (decode w = .error .illop ↔ ∀ r ∈ opcodeMap, w.extractLsb' 24 8 ≠ r.1.extractLsb' 24 8)

/-! ### Steps and the HOST port -/

/-- R110, R120 (step 1): a word written to `CMD` that decodes is kept in `CMD` and executed at once. -/
def Obligations.StepRunsDecodedCommand : Prop :=
  ∀ (s : State) (w : Word) (rest : List HostOp) (i : Instr),
    s.host = .write 0x000 w :: rest → decode w = .ok i → step s = exec i { s with host := rest, cmd := w }

/-- R119, R120 (steps 1 to 3), R309: an illegal word changes `CMD`, `ERR`, `SKIP` and `RES` and nothing else. -/
def Obligations.IllegalWordEndsWithItsCode : Prop :=
  ∀ (s : State) (w : Word) (rest : List HostOp), s.host = .write 0x000 w :: rest →
    (decode w = .error .illop →
      step s = .next { s with host := rest, cmd := w, res := 0, err := .illop, skip := false }) ∧
    (decode w = .error .badfield →
      step s = .next { s with host := rest, cmd := w, res := 0, err := .badfield, skip := false })

/-- R81, R85: an aligned offset of the address map is served, and every other access is refused: it has no next state and so
changes no state and returns no value. -/
def Obligations.AccessesOutsideTheMapAreRefused : Prop :=
  (∀ a : Nat, (∃ p, portOf a = .ok p) ↔ a % 4 = 0 ∧ Mapped a) ∧
    ∀ (s : State) (a : Nat) (v : Word) (rest : List HostOp), s.host = .read a :: rest ∨ s.host = .write a v :: rest →
      ((∃ r, step s = .refused r) ↔ ¬(a % 4 = 0 ∧ Mapped a))

/-- R24, R28 to R30, R32, R37, R81, R83 to R85, R301, R310: a read at a mapped offset returns the word that stands there, in every
state, and has no effect on the state of the block; a refused access has no next state. The frame-buffer window's words are
`FrameBufferWindowIsLittleEndian`'s. That the word goes to the model's own field `rdata` is log entry 6; what `OUT[n]` reads with
`CFG_LTPF_NBLK = 0` and `n < CFG_NS` is open (log entry 23) and not stated. -/
def Obligations.HostReadHasNoEffect : Prop :=
  ∀ (s : State) (a : Nat) (rest : List HostOp), s.host = .read a :: rest →
    (a % 4 = 0 ∧ Mapped a →
      ∃ p, portOf a = .ok p ∧ StandsAt s a (readPort Config.env.num s p) ∧
        step s = .next { s with host := rest, rdata := some (readPort Config.env.num s p) }) ∧
    (¬(a % 4 = 0 ∧ Mapped a) → ∃ r, step s = .refused r)

/-- R40, R331: what the HOST reads at every offset after reset and after `SRESET`, and the state it cannot read. `c` is what
`CMD` reads. -/
def Obligations.ResetReadsAsTheTableSays : Prop :=
  ∀ (s t : State) (c : Word),
    t = State.reset ∧ c = 0 ∨ (∃ rest, s.host = .reset :: rest) ∧ step s = .next t ∧ c = 0 ∨
      exec .sreset s = .next t ∧ c = 0x0F000000 →
    (∀ p : Port, readPort Config.env.num t p =
      match p with
      | .cmd => c
      | .status => 0x00000F01
      | .bits .bitsLeft => 24
      | .cfg .tscale => Config.env.num.enc Sample.zero
      | .scf _ => Config.env.num.enc Sample.zero
      | .x _ => Config.env.num.enc Sample.zero
      | .tblk _ => Config.env.num.enc Sample.zero
      | .out _ => Config.env.num.enc Sample.zero
      | .ola _ => Config.env.num.enc Sample.zero
      | .win _ => Config.env.num.enc Sample.zero
      | _ => 0) ∧
      (∀ i, memRead t.yh i = Sample.zero) ∧ ∀ i, vecAt t.xt i = Sample.zero

/-- R82: word `w` of the frame-buffer window is four bytes, lowest index in the lowest byte; a write replaces all four and
nothing else, and the word reads back. -/
def Obligations.FrameBufferWindowIsLittleEndian : Prop :=
  ∀ w : Nat, w < 100 → portOf (0x400 + 4 * w) = .ok (.fb w) ∧
    (∀ (s : State) (j : Nat), j < 4 →
      (readPort Config.env.num s (.fb w)).extractLsb' (8 * j) 8 = fbByte s (4 * w + j)) ∧
    ∀ (s : State) (v : Word) (rest : List HostOp), Memory.wf 400 s.fb = true →
      s.host = .write (0x400 + 4 * w) v :: rest →
      ∃ t, step s = .next t ∧
        (∀ j, j < 4 → fbByte t (4 * w + j) = v.extractLsb' (8 * j) 8) ∧
        (∀ i, ¬(4 * w ≤ i ∧ i < 4 * w + 4) → fbByte t i = fbByte s i) ∧
        readPort Config.env.num t (.fb w) = v ∧ t = { s with host := rest, fb := t.fb }

/-- R83, R34, R36: a word written to an entry of `X` or `TBLK` is stored as `S.dec` of it and read back as `S.enc` of
what is stored; every other entry, and all other state, stays. A sample's own wire form reads back as it was written. -/
def Obligations.SampleWindowsStoreDecodedWords : Prop :=
  ∀ (s : State) (k : Nat) (v : Word) (rest : List HostOp), k < 1024 →
    (Memory.wf 1024 s.x = true → s.host = .write (0x1000 + 4 * k) v :: rest →
      ∃ t, step s = .next t ∧
        (∀ i, memRead t.x i = if i = k then Config.env.num.dec v else memRead s.x i) ∧
        readPort Config.env.num t (.x k) = Config.env.num.enc (Config.env.num.dec v) ∧
        (∀ u, Config.env.num.isSample u = true → v = Config.env.num.enc u →
          readPort Config.env.num t (.x k) = v) ∧
        t = { s with host := rest, x := t.x }) ∧
    (Memory.wf 1024 s.tblk = true → s.host = .write (0x2000 + 4 * k) v :: rest →
      ∃ t, step s = .next t ∧
        (∀ i, memRead t.tblk i = if i = k then Config.env.num.dec v else memRead s.tblk i) ∧
        readPort Config.env.num t (.tblk k) = Config.env.num.enc (Config.env.num.dec v) ∧
        (∀ u, Config.env.num.isSample u = true → v = Config.env.num.enc u →
          readPort Config.env.num t (.tblk k) = v) ∧
        t = { s with host := rest, tblk := t.tblk })

/-- R32, R33, R84: a frame register takes the bits of its fields and reads the others as 0; every other offset of the
port reads as before, and nothing but the frame registers changes. For `OUT[n]` with `CFG_LTPF_NBLK = 0` and `n < CFG_NS`, whose
value the spec leaves open, reading as before is the model's choice (log entry 23). -/
def Obligations.FrameRegistersKeepTheirFields : Prop :=
  ∀ r ∈ frameRegisters, ∀ (s : State) (v : Word) (rest : List HostOp), s.host = .write r.1 v :: rest →
    ∃ t, step s = .next t ∧ t = { s with host := rest, frm := t.frm } ∧
      ∀ (a : Nat) (p : Port), portOf a = .ok p →
        readPort Config.env.num t p = if a = r.1 then v &&& r.2 else readPort Config.env.num s p

/-- R24, R25, R81, R83: an unlocked configuration register takes the bits of its field and reads the others as 0; `CFG_TSCALE`
and an entry of `WIN` take `S.dec` of the word and read `S.enc` of what is stored; an entry of `BANDS` takes 10 bits. Every
other configuration register and entry, every other offset of the port and all other state stay. For `OUT[n]` with
`CFG_LTPF_NBLK = 0` and `n < CFG_NS`, whose value the spec leaves open, reading as before is the model's choice (log entry 23). -/
def Obligations.ConfigRegistersTakeTheirFields : Prop :=
  ∀ (s : State) (v : Word) (rest : List HostOp), s.cfglock = false →
    (∀ r ∈ configRegisters, s.host = .write r.1 v :: rest →
      ∃ t, step s = .next t ∧ ReadsBack s t r.1 (v &&& r.2) ∧
        t = { s with
              host := rest
              cfg := { t.cfg with tscale := s.cfg.tscale, bands := s.cfg.bands, win := s.cfg.win } }) ∧
    (s.host = .write 0x034 v :: rest →
      ∃ t, step s = .next t ∧ ReadsBack s t 0x034 (Config.env.num.enc (Config.env.num.dec v)) ∧
        t = { s with host := rest, cfg := { s.cfg with tscale := Config.env.num.dec v } }) ∧
    (∀ b, b < 65 → Memory.wf 65 s.cfg.bands = true → s.host = .write (0x600 + 4 * b) v :: rest →
      ∃ t, step s = .next t ∧ ReadsBack s t (0x600 + 4 * b) (v &&& 0x3FF) ∧
        (∀ i, (memRead t.cfg.bands i).toNat = if i = b then v.toNat % 1024 else (memRead s.cfg.bands i).toNat) ∧
        t = { s with host := rest, cfg := { s.cfg with bands := t.cfg.bands } }) ∧
    ∀ n, n < 2048 → Memory.wf 2048 s.cfg.win = true → s.host = .write (0x6000 + 4 * n) v :: rest →
      ∃ t, step s = .next t ∧ ReadsBack s t (0x6000 + 4 * n) (Config.env.num.enc (Config.env.num.dec v)) ∧
        (∀ i, memRead t.cfg.win i = if i = n then Config.env.num.dec v else memRead s.cfg.win i) ∧
        t = { s with host := rest, cfg := { s.cfg with win := t.cfg.win } }

/-- R24, R25, R81: a write to a read-only offset, and to a configuration offset while locked, is ignored. -/
def Obligations.IgnoredWritesChangeNothing : Prop :=
  ∀ (s : State) (a : Nat) (v : Word) (rest : List HostOp) (p : Port), s.host = .write a v :: rest →
    portOf a = .ok p →
    (a = 0x008 ∨ 0x040 ≤ a ∧ a < 0x060 ∨ a = 0x0C0 ∨ 0x800 ≤ a ∧ a < 0x840 ∨ 0x3000 ≤ a ∧ a < 0x5000 ∨
      s.cfglock = true ∧ (0x010 ≤ a ∧ a < 0x038 ∨ 0x600 ≤ a ∧ a < 0x704 ∨ 0x6000 ≤ a)) →
    step s = .next { s with host := rest }

/-- R302, R304: the HOST's write of STATUS raises `HOSTSET` when bit 0 is 1, the first cause staying, and does nothing when
it is 0. -/
def Obligations.StatusWriteRaisesHostset : Prop :=
  ∀ (s : State) (v : Word) (rest : List HostOp), s.host = .write 0x004 v :: rest →
    (v.getLsbD 0 = true →
      step s = .next { s with host := rest, bec := true, cause := if s.bec then s.cause else .hostset }) ∧
    (v.getLsbD 0 = false → step s = .next { s with host := rest })

/-! ### System commands, admission, events -/

/-- R281: `NOP`, the all-zero word, clears `RES`, `ERR` and `SKIP` on every state; all else unchanged. -/
def Obligations.NopClearsStatus : Prop :=
  decode 0x00000000 = .ok .nop ∧ ∀ s : State, exec .nop s = .next { s with res := 0, err := .ok, skip := false }

/-- R24, R26, R282: `CFGLOCK`, word 0x01000000, locks a valid configuration, fails with `NOCFG` on an invalid one, and has no effect on a
locked one; nothing else changes. -/
def Obligations.CfglockValidatesAndLocks : Prop :=
  decode 0x01000000 = .ok .cfglock ∧ ∀ s : State,
    (s.cfglock = false → ConfigValid Config.env.param s.cfg →
      exec .cfglock s = .next { s with cfglock := true, res := 0, err := .ok, skip := false }) ∧
    (s.cfglock = false → ¬ConfigValid Config.env.param s.cfg →
      exec .cfglock s = .next { s with res := 0, err := .nocfg, skip := false }) ∧
    (s.cfglock = true → exec .cfglock s = .next { s with res := 0, err := .ok, skip := false })

/-- R283, R330, R331: `SRESET` is accepted in every state and gives the reset state, `CMD` reading 0x0F000000; the hardware
reset input gives it with `CMD` reading 0. The model's own fields `host` and `rdata` are the HOST's side of the port and
stay (log entry 7). -/
def Obligations.ResetsRestoreTheResetState : Prop :=
  (∀ s : State,
    exec .sreset s = .next { State.reset with cmd := 0x0F000000, host := s.host, rdata := s.rdata }) ∧
    ∀ (s : State) (rest : List HostOp), s.host = .reset :: rest →
      step s = .next { State.reset with host := rest, rdata := s.rdata }

/-- R141, R171, R201, R211, R217, R261, R264, R309, R311: a command's own admission check that fails (a bad length, a bad
pair position, a bad active filter, a gain index without an entry, a lag out of bounds) ends the command with its code and
changes nothing else. -/
def Obligations.FailedChecksChangeOnlyStatus : Prop :=
  (∀ (s : State) (loss : Bool) (len : BitVec 9), s.cfglock = true →
    len.toNat < 20 ∨ s.cfg.maxbytes.toNat < len.toNat →
    exec (.finit loss len) s = .next { s with res := 0, err := .badlen, skip := false }) ∧
  (∀ s : State, Open s → s.frm.specK.toNat % 2 = 1 ∨ s.cfg.ne.toNat < s.frm.specK.toNat + 2 →
    exec .acpair s = .next { s with res := 0, err := .badstate, skip := false }) ∧
  (∀ s : State, Open s →
    1 ≤ s.frm.ntns.toNat ∧ ¬TnsFilterOk s.cfg.ne.toNat s.frm.tns0 ∨
      2 ≤ s.frm.ntns.toNat ∧ ¬TnsFilterOk s.cfg.ne.toNat s.frm.tns1 →
    exec .tnssyn s = .next { s with res := 0, err := .badstate, skip := false }) ∧
  (∀ s : State, Open s →
    s.frm.snsShape = 0#2 ∧ 2 ≤ s.frm.snsGain.toNat ∨ s.frm.snsShape = 1#2 ∧ 4 ≤ s.frm.snsGain.toNat ∨
      s.frm.snsShape = 2#2 ∧ 4 ≤ s.frm.snsGain.toNat →
    exec .snssyn s = .next { s with res := 0, err := .badstate, skip := false }) ∧
  ∀ s : State, s.cfglock = true → s.frm.ltpf.active = true →
    ¬(s.cfg.lden.toNat / 2 + 1 ≤ s.frm.ltpf.pint.toNat ∧
      s.frm.ltpf.pint.toNat + s.cfg.lden.toNat / 2 ≤ s.cfg.ltpfNblk.toNat * s.cfg.ns.toNat) →
    exec .ltpf s = .next { s with res := 0, err := .badstate, skip := false }

/-- R144, R163, R164, R169, R171, R211, R224, R303: a corruption event that a command raises before its first write changes only
`BEC`, `CAUSE`, `ERR`, `SKIP` and `RES`: a tail read of more bits than are left, a code value outside the interval or a slice of
1024 or more at the first decode step of `ACDEC`, `ACTNS` or `ACPAIR`, a pulse index at or above its class size. At a later
decode step the earlier steps stand: `ACTNS` keeps the order and the indices it wrote and the coder as the steps left it,
`ACPAIR` the coder. The clauses on later steps hold of every well-formed record; the two before them say which record the
machine runs on. -/
def Obligations.EarlyEventsWriteOnlyTheFlag : Prop :=
  (∀ s : State, Open s →
    (∀ n : BitVec 6, n.toNat ≤ 32 → bitsLeft s < n.toNat →
      exec (.bruint n) s =
        .next { s with bec := true, cause := .broverrun, res := 0, err := .ok, skip := false }) ∧
    (bitsLeft s < 1 →
      exec .brbit s = .next { s with bec := true, cause := .broverrun, res := 0, err := .ok, skip := false }) ∧
    (∀ m : BitVec 8, m.toNat < Config.env.rom.nspec + 18 → 0x10000 ≤ s.coder.range.toNat →
      (s.coder.range ≤ s.coder.low →
        exec (.acdec m) s = .next { s with bec := true, cause := .acinv, res := 0, err := .ok, skip := false }) ∧
      (s.coder.low < s.coder.range → 1024 ≤ s.coder.low.toNat / (s.coder.range.toNat / 1024) →
        exec (.acdec m) s =
          .next { s with bec := true, cause := .acslice, res := 0, err := .ok, skip := false })) ∧
    (∀ cause, 0x10000 ≤ s.coder.range.toNat → RaisesAt s.coder cause →
      (∀ f, exec (.actns f) s =
        .next { s with bec := true, cause := cause, res := 0, err := .ok, skip := false }) ∧
      (s.frm.specK.toNat % 2 = 0 → s.frm.specK.toNat + 2 ≤ s.cfg.ne.toNat →
        exec .acpair s =
          .next { s with bec := true, cause := cause, res := 0, err := .ok, skip := false })) ∧
    (s.frm.snsShape = 0#2 ∧ s.frm.snsGain.toNat < 2 ∧
          (2390004 ≤ s.frm.snsIdxA.toNat ∨ 6 ≤ s.frm.snsIdxB.toNat) ∨
        s.frm.snsShape = 1#2 ∧ s.frm.snsGain.toNat < 4 ∧ 2390004 ≤ s.frm.snsIdxA.toNat ∨
        s.frm.snsShape = 2#2 ∧ s.frm.snsGain.toNat < 4 ∧ 15158272 ≤ s.frm.snsIdxA.toNat ∨
        s.frm.snsShape = 3#2 ∧ 774912 ≤ s.frm.snsIdxA.toNat →
      exec .snssyn s = .next { s with bec := true, cause := .snsidx, res := 0, err := .ok, skip := false })) ∧
  (∀ (s : State) (f : BitVec 1), exec (.actns f) s = .next (actns Config.env f s)) ∧
  (∀ s : State, exec .acpair s = .next (acpair Config.env s)) ∧
  ∀ (env : Env) (s : State) (c : Nat → Coder) (cause : Cause), env.Wf → Open s → 0x10000 ≤ s.coder.range.toNat →
    (∀ (f : BitVec 1) (sym : Nat) (v : Nat → Nat) (n : Nat), n ≤ sym → sym < 8 →
      DecodesTo (env.rom.model (env.rom.nspec + s.frm.lowRate.toNat)) s s.coder sym (c 0) →
      (∀ j, j < n →
        DecodesTo (env.rom.model (env.rom.nspec + 2 + 8 * s.frm.lowRate.toNat + j)) s (c j) (v j) (c (j + 1)) ∧
          v j ≤ 16) →
      RaisesAt (c n) cause →
      (tnsOf (actns env f s) f).order.toNat = sym + 1 ∧
        (∀ j, j < 8 → (vecAt (tnsOf (actns env f s) f).rc j).toNat =
          if j < n then v j else (vecAt (tnsOf s f).rc j).toNat) ∧
        (tnsOf (actns env f s) f).start = (tnsOf s f).start ∧ (tnsOf (actns env f s) f).stop = (tnsOf s f).stop ∧
        tnsOf (actns env f s) (1 - f) = tnsOf s (1 - f) ∧
        actns env f s =
          { s with
            coder := c n
            frm := { s.frm with tns0 := (actns env f s).frm.tns0, tns1 := (actns env f s).frm.tns1 }
            bec := true, cause := cause, res := 0, err := .ok, skip := false }) ∧
    ∀ lev, 1 ≤ lev → lev ≤ 13 → s.frm.specK.toNat % 2 = 0 → s.frm.specK.toNat + 2 ≤ s.cfg.ne.toNat →
      Escapes env.rom s lev c → RaisesAt (c lev) cause →
      acpair env s =
        { s with coder := c lev, bec := true, cause := cause, res := 0, err := .ok, skip := false }

/-- R119, R120 (step 4), R309: an operand out of range ends with `BADFIELD`, before any other check. The second clause holds of
every record; the last says which record the machine runs on. -/
def Obligations.OperandOutOfRangeIsBadfield : Prop :=
  ∀ s : State,
    (∀ n : BitVec 6, 32 < n.toNat →
      exec (.bruint n) s = .next { s with res := 0, err := .badfield, skip := false }) ∧
    (∀ (env : Env) (m : BitVec 8), env.rom.nspec + 18 ≤ m.toNat →
      acdec env m s = { s with res := 0, err := .badfield, skip := false }) ∧
    ∀ m : BitVec 8, exec (.acdec m) s = .next (acdec Config.env m s)

/-- R120 (step 5), R310: before the lock every command but `NOP`, `CFGLOCK` and `SRESET` fails with `NOCFG` and changes
nothing else. -/
def Obligations.UnlockedCommandsFail : Prop :=
  ∀ (i : Instr) (s : State), i ≠ .nop → i ≠ .cfglock → i ≠ .sreset → i.wellFormed Config.env.rom.nspec = true →
    s.cfglock = false → exec i s = .next { s with res := 0, err := .nocfg, skip := false }

/-- R290: under `BEC` each of the ten decode-class commands is skipped, without its own checks, and changes only `SKIP`,
`ERR` and `RES`. -/
def Obligations.CorruptionGatesDecodeClass : Prop :=
  ∀ (i : Instr) (s : State),
    (i = .brbit ∨ (∃ n, i = .bruint n) ∨ i = .brsync ∨ (∃ m, i = .acdec m) ∨ (∃ f, i = .actns f) ∨ i = .acpair ∨
      i = .nfill ∨ i = .ggain ∨ i = .tnssyn ∨ i = .snssyn) →
    i.wellFormed Config.env.rom.nspec = true → s.cfglock = true → s.bec = true →
    exec i s = .next { s with res := 0, err := .ok, skip := true }

/-- R291: every command has a next state on every state: a command error that changes only `ERR`, `SKIP` and `RES`, or a
skip, or it ran and ends with `ERR = 0` and `SKIP = 0`. -/
def Obligations.EveryCommandIsTotal : Prop :=
  ∀ (i : Instr) (s : State), ∃ t, exec i s = .next t ∧
    ((∃ c, c ≠ .ok ∧ t = { s with res := 0, err := c, skip := false }) ∨
      t = { s with res := 0, err := .ok, skip := true } ∨ t.err = .ok ∧ t.skip = false)

/-- R306: the status codes and the corruption causes each command can end with, and no others. -/
def Obligations.ErrorsAndCausesFollowTheMatrix : Prop :=
  ∀ (i : Instr) (s t : State), exec i s = .next t →
    (t.err = .ok ∨ t.err ∈ errorsOf i) ∧ (s.bec = false → t.bec = true → t.cause ∈ causesOf i)

/-- R305, R23: a step clears `BEC` only by a `FINIT` with `loss = 0` that passes its admission checks. -/
def Obligations.OnlyFinitClearsCorruption : Prop :=
  ∀ s t : State, step s = .next t → s.bec = true → t.bec = false →
    ∃ len rest, s.host = .write 0x000 (encode (.finit false len)) :: rest ∧ s.cfglock = true ∧ 20 ≤ len.toNat ∧
      len.toNat ≤ s.cfg.maxbytes.toNat ∧ t.cause = .none

/-- R302: a step changes `CAUSE` only where `BEC` goes from 0 to 1, by a `FINIT`, by reset or by `SRESET`. -/
def Obligations.FirstCauseIsKept : Prop :=
  ∀ s t : State, step s = .next t → t.cause ≠ s.cause →
    s.bec = false ∧ t.bec = true ∨ ∃ op rest, s.host = op :: rest ∧
      (op = .reset ∨ op = .write 0x000 0x0F000000 ∨ ∃ loss len, op = .write 0x000 (encode (.finit loss len)))

/-- R27, R282, R283: a locked configuration is immutable, and only reset and `SRESET` leave the lock. -/
def Obligations.LockedConfigurationIsImmutable : Prop :=
  ∀ s t : State, step s = .next t → s.cfglock = true →
    t.cfglock = true ∧ t.cfg = s.cfg ∨
      ∃ rest, s.host = .reset :: rest ∨ s.host = .write 0x000 0x0F000000 :: rest

/-- R80, R287: no command but `SRESET` writes the frame buffer, and none but `SRESET` and `CFGLOCK` touches the
configuration or its lock. -/
def Obligations.CommandsNeverWriteTheFrameBuffer : Prop :=
  ∀ (i : Instr) (s t : State), exec i s = .next t → i ≠ .sreset →
    t.fb = s.fb ∧ t.cfg = s.cfg ∧ t.cmd = s.cmd ∧ (i ≠ .cfglock → t.cfglock = s.cfglock)

/-! ### Frame start and the tail reader -/

/-- R141, R161: `FINIT` starts a frame: the readers over the new length, the first three bytes as the code value, `FB[0]` most
significant, every frame register 0, `X[0 .. NE-1]` zero, `BEC` and `CAUSE` from `loss`; nothing else changes. -/
def Obligations.FinitStartsAFrame : Prop :=
  ∀ (s : State) (loss : Bool) (len : BitVec 9), s.cfglock = true → Memory.wf 1024 s.x = true → 20 ≤ len.toNat →
    len.toNat ≤ s.cfg.maxbytes.toNat →
    ∃ t, exec (.finit loss len) s = .next t ∧
      t.coder.low.toNat = 65536 * (fbByte s 0).toNat + 256 * (fbByte s 1).toNat + (fbByte s 2).toNat ∧
      (∀ k, memRead t.x k = if k < s.cfg.ne.toNat then Sample.zero else memRead s.x k) ∧
      (∀ r, readFrm t.frm r = 0) ∧
      t = { s with
            fbLen := len, reader := { cur := len, cache := 0, cnt := 0 }
            coder := { low := t.coder.low, range := 0xFFFFFF, cur := 3 }
            frm := t.frm, x := t.x, bec := loss, cause := if loss then .extloss else .none
            res := 0, err := .ok, skip := false }

/-- R144, R147, R148: with enough bits left, `BRUINT n` returns the next `n` tail bits, first bit lowest, whatever the
refill boundaries, and `BRBIT` the next one; only the tail reader moves. -/
def Obligations.TailReadsReturnNextBits : Prop :=
  ∀ s : State, Open s → 3 ≤ s.coder.cur.toNat →
    (∀ n : BitVec 6, n.toNat ≤ 32 → (n.toNat : Int) ≤ bitsLeft s →
      ∃ t, exec (.bruint n) s = .next t ∧ ReadsTail n.toNat s t) ∧
    (1 ≤ bitsLeft s → ∃ t, exec .brbit s = .next t ∧ ReadsTail 1 s t)

/-- R86, R146: while the cache agrees with the frame buffer, the `j`-th tail bit still to come is `tailbit(BR_POS + j)`. -/
def Obligations.PendingBitsAreTailBits : Prop :=
  ∀ s : State, BitstreamOk s → CacheFresh s →
    ∀ j, j < 8 * s.reader.cur.toNat + s.reader.cnt.toNat → pendingBit s j = tailbit s ((brPos s).toNat + j)

/-- R146: the cache agrees with the frame buffer after `FINIT`, and every command keeps it so. -/
def Obligations.CommandsKeepCacheFresh : Prop :=
  (∀ (s t : State) (loss : Bool) (len : BitVec 9), exec (.finit loss len) s = .next t → t.err = .ok → CacheFresh t) ∧
    ∀ (i : Instr) (s t : State), BitstreamOk s → CacheFresh s → exec i s = .next t → CacheFresh t

/-- R149: `BRSYNC` returns the index of the byte that holds the next unread tail bit, as a signed 16-bit value, and the
bit's mask; it consumes nothing. -/
def Obligations.BrsyncReportsPosition : Prop :=
  ∀ s : State, Open s → BitstreamOk s →
    ∃ t, exec .brsync s = .next t ∧
      (t.res.extractLsb' 0 16).toInt = (s.fbLen.toNat : Int) - 1 - brPos s / 8 ∧
      (t.res.extractLsb' 16 8).toNat = 2 ^ (brPos s % 8).toNat ∧ t.res.extractLsb' 24 8 = 0#8 ∧
      t = { s with res := t.res, err := .ok, skip := false }

/-! ### The arithmetic decoder -/

/-- R163, R164, R165: the decode step finds the unique symbol of the slice, narrows the interval, renormalises, and
changes only the coder; a code value outside the interval, and a slice of 1024 or more, raise and change nothing. It holds
of every well-formed record. -/
def Obligations.DecodeStepFindsTheSymbol : Prop :=
  ∀ (env : Env) (m : Nat) (s : State), env.Wf → m < env.rom.nspec + 18 → 0x10000 ≤ s.coder.range.toNat →
    (s.coder.low < s.coder.range → s.coder.low.toNat / (s.coder.range.toNat / 1024) < 1024 →
      ∃ sym c', acStep env m s = .ok sym { s with coder := c' } ∧ DecodesTo (env.rom.model m) s s.coder sym c' ∧
        ∀ sym', SymbolOf (env.rom.model m) (s.coder.low.toNat / (s.coder.range.toNat / 1024)) sym' → sym' = sym) ∧
    (s.coder.range ≤ s.coder.low → acStep env m s = .raised .acinv s) ∧
    (s.coder.low < s.coder.range → 1024 ≤ s.coder.low.toNat / (s.coder.range.toNat / 1024) →
      acStep env m s = .raised .acslice s)

/-- R31, R168: a completed decode step leaves `AC_LOW < AC_RANGE` and the range renormalised, and takes 0, 8 or 16 bits of
`BITS_LEFT` (a cursor at the end of its 16 bits stays, R166); a raising one leaves the state as it was. -/
def Obligations.DecodeStepKeepsTheCoderInvariant : Prop :=
  ∀ (env : Env) (m : Nat) (s : State), env.Wf → m < env.rom.nspec + 18 → 0x10000 ≤ s.coder.range.toNat →
    (∀ sym s', acStep env m s = .ok sym s' →
      s'.coder.low < s'.coder.range ∧ 0x10000 ≤ s'.coder.range.toNat ∧
        ∃ k, k ≤ 2 ∧ s'.coder.cur.toNat = min (s.coder.cur.toNat + k) 0xFFFF ∧
          (s.coder.cur.toNat + k ≤ 0xFFFF → bitsLeft s' = bitsLeft s - 8 * k)) ∧
    ∀ c s', acStep env m s = .raised c s' → s' = s

/-- R164, R165, R167: `ACDEC m` returns the symbol of one decode step; only the coder moves. -/
def Obligations.AcdecDecodesOneSymbol : Prop :=
  ∀ (s : State) (m : BitVec 8), Open s → m.toNat < Config.env.rom.nspec + 18 → 0x10000 ≤ s.coder.range.toNat →
    s.coder.low < s.coder.range → s.coder.low.toNat / (s.coder.range.toNat / 1024) < 1024 →
    ∃ sym c', DecodesTo (Config.env.rom.model m.toNat) s s.coder sym c' ∧
      exec (.acdec m) s =
        .next { s with coder := c', res := BitVec.ofNat 32 sym, err := .ok, skip := false }

/-- R162, R169: `ACTNS f` decodes the order, one more than its symbol, then one index for each coefficient below the order
with the model of its position, and returns the order; the other filter, the sub-range registers and the indices at and
above the order stay. -/
def Obligations.ActnsDecodesOrderAndIndices : Prop :=
  ∀ (s : State) (f : BitVec 1) (order : Nat) (v : Nat → Nat) (c : Nat → Coder), Open s →
    0x10000 ≤ s.coder.range.toNat → 1 ≤ order → order ≤ 8 →
    DecodesTo (Config.env.rom.model (Config.env.rom.nspec + s.frm.lowRate.toNat)) s s.coder (order - 1) (c 0) →
    (∀ j, j < order →
      DecodesTo (Config.env.rom.model (Config.env.rom.nspec + 2 + 8 * s.frm.lowRate.toNat + j)) s (c j) (v j)
        (c (j + 1)) ∧ v j ≤ 16) →
    ∃ t, exec (.actns f) s = .next t ∧
      (tnsOf t f).order.toNat = order ∧
      (∀ j, j < 8 → (vecAt (tnsOf t f).rc j).toNat = if j < order then v j else (vecAt (tnsOf s f).rc j).toNat) ∧
      (tnsOf t f).start = (tnsOf s f).start ∧ (tnsOf t f).stop = (tnsOf s f).stop ∧
      tnsOf t (1 - f) = tnsOf s (1 - f) ∧
      t = { s with
            coder := c order, frm := { s.frm with tns0 := t.frm.tns0, tns1 := t.frm.tns1 }
            res := BitVec.ofNat 32 order, err := .ok, skip := false }

/-- R169, R303: a decoded order above 8 raises `TNSDATA` before any register of the filter is written; a coefficient
symbol above 16 raises it with the earlier writes standing, the sub-range registers and the other filter staying. It holds of every well-formed record; the first clause says
which record the machine runs on. -/
def Obligations.ActnsRaisesTnsdata : Prop :=
  (∀ (f : BitVec 1) (s : State), exec (.actns f) s = .next (actns Config.env f s)) ∧
  ∀ (env : Env) (s : State) (f : BitVec 1) (sym : Nat) (c : Nat → Coder), env.Wf → Open s →
    0x10000 ≤ s.coder.range.toNat →
    DecodesTo (env.rom.model (env.rom.nspec + s.frm.lowRate.toNat)) s s.coder sym (c 0) →
    (8 ≤ sym →
      actns env f s =
        { s with coder := c 0, bec := true, cause := .tnsdata, res := 0, err := .ok, skip := false }) ∧
    (sym < 8 → ∀ (v : Nat → Nat) (n : Nat), n ≤ sym →
      (∀ j, j ≤ n →
        DecodesTo (env.rom.model (env.rom.nspec + 2 + 8 * s.frm.lowRate.toNat + j)) s (c j) (v j) (c (j + 1))) →
      (∀ j, j < n → v j ≤ 16) → 16 < v n →
      (tnsOf (actns env f s) f).order.toNat = sym + 1 ∧
        (∀ j, j < 8 → (vecAt (tnsOf (actns env f s) f).rc j).toNat =
          if j < n then v j else (vecAt (tnsOf s f).rc j).toNat) ∧
        (tnsOf (actns env f s) f).start = (tnsOf s f).start ∧ (tnsOf (actns env f s) f).stop = (tnsOf s f).stop ∧
        tnsOf (actns env f s) (1 - f) = tnsOf s (1 - f) ∧
        actns env f s =
          { s with
            coder := c (n + 1)
            frm := { s.frm with tns0 := (actns env f s).frm.tns0, tns1 := (actns env f s).frm.tns1 }
            bec := true, cause := .tnsdata, res := 0, err := .ok, skip := false })

/-- R171 to R174, R177: a pair of level `lev` and symbol `sym`: two magnitude bits each from the symbol, the raw bits of the
planes above, one sign bit for each value that is not 0; the two bins, the context, `SPEC_K` and `RES` are written, both
readers move on, and nothing else changes. -/
def Obligations.AcpairDecodesAPair : Prop :=
  ∀ (s : State) (lev sym : Nat) (c : Nat → Coder), Open s → Memory.wf 1024 s.x = true →
    s.frm.specK.toNat % 2 = 0 → s.frm.specK.toNat + 2 ≤ s.cfg.ne.toNat → 0x10000 ≤ s.coder.range.toNat →
    3 ≤ s.coder.cur.toNat → lev ≤ 13 → sym < 16 → Escapes Config.env.rom s lev c →
    DecodesTo (levelModel Config.env.rom s lev) s (c lev) sym (c (lev + 1)) →
    (pairTailBits s lev sym : Int) ≤ bitsLeft { s with coder := c (lev + 1) } →
    ∃ t, exec .acpair s = .next t ∧
      (∀ i, memRead t.x i =
        if i = s.frm.specK.toNat then Config.env.num.ofInt (pairFirst s lev sym)
        else if i = s.frm.specK.toNat + 1 then Config.env.num.ofInt (pairSecond s lev sym)
        else memRead s.x i) ∧
      brPos t = brPos s + pairTailBits s lev sym ∧
      (∀ j, pairTailBits s lev sym + j < 8 * s.reader.cur.toNat + s.reader.cnt.toNat →
        pendingBit t j = pendingBit s (pairTailBits s lev sym + j)) ∧
      t.frm.specCtx.toNat = s.frm.specCtx.toNat % 16 * 16 + contextClass lev sym ∧
      t.frm.specK.toNat = s.frm.specK.toNat + 2 ∧
      t = { s with
            coder := c (lev + 1), reader := t.reader, x := t.x
            frm := { s.frm with specK := t.frm.specK, specCtx := t.frm.specCtx }
            res := BitVec.ofNat 32 (lev + 16 * sym), err := .ok, skip := false }

/-- R171, R176: the 14th consecutive escape raises `ESCLEVEL` after exactly 14 decode steps; the spectrum, `SPEC_K`,
`SPEC_CTX` and the tail reader stay. It holds of every well-formed record; the first clause says which record the machine
runs on. -/
def Obligations.AcpairBoundsEscapeLevels : Prop :=
  (∀ s : State, exec .acpair s = .next (acpair Config.env s)) ∧
  ∀ (env : Env) (s : State) (c : Nat → Coder), env.Wf → Open s → s.frm.specK.toNat % 2 = 0 →
    s.frm.specK.toNat + 2 ≤ s.cfg.ne.toNat → 0x10000 ≤ s.coder.range.toNat → Escapes env.rom s 14 c →
    acpair env s =
      { s with coder := c 14, bec := true, cause := .esclevel, res := 0, err := .ok, skip := false }

/-- R171, R175, R303: a pair that needs no tail bit and leaves `BITS_LEFT` below 0 is committed, keeps its result, and raises
`COLLISION`. -/
def Obligations.AcpairCollisionKeepsThePair : Prop :=
  ∀ (s : State) (lev : Nat) (c : Nat → Coder), Open s → Memory.wf 1024 s.x = true → s.frm.specK.toNat % 2 = 0 →
    s.frm.specK.toNat + 2 ≤ s.cfg.ne.toNat → 0x10000 ≤ s.coder.range.toNat → lev ≤ s.frm.lsbMode.toNat →
    Escapes Config.env.rom s lev c → DecodesTo (levelModel Config.env.rom s lev) s (c lev) 0 (c (lev + 1)) →
    bitsLeft { s with coder := c (lev + 1) } < 0 →
    ∃ t, exec .acpair s = .next t ∧
      (∀ i, memRead t.x i =
        if i = s.frm.specK.toNat ∨ i = s.frm.specK.toNat + 1 then Sample.zero else memRead s.x i) ∧
      t.frm.specCtx.toNat = s.frm.specCtx.toNat % 16 * 16 + contextClass lev 0 ∧
      t.frm.specK.toNat = s.frm.specK.toNat + 2 ∧
      t = { s with
            coder := c (lev + 1), x := t.x, frm := { s.frm with specK := t.frm.specK, specCtx := t.frm.specCtx }
            bec := true, cause := .collision, res := BitVec.ofNat 32 lev, err := .ok, skip := false }

/-- R144, R171: a pair that needs more tail bits than are left raises `BROVERRUN` and is not committed: the spectrum, `SPEC_K`
and `SPEC_CTX` stay. Each read is all or nothing: the tail reader has moved on by the bits of the reads before the one that
failed, and stands as it was when none came before it. -/
def Obligations.AcpairOverrunDropsThePair : Prop :=
  ∀ (s : State) (lev sym : Nat) (c : Nat → Coder), Open s → s.frm.specK.toNat % 2 = 0 →
    s.frm.specK.toNat + 2 ≤ s.cfg.ne.toNat → 0x10000 ≤ s.coder.range.toNat → 3 ≤ s.coder.cur.toNat → lev ≤ 13 →
    sym < 16 → Escapes Config.env.rom s lev c →
    DecodesTo (levelModel Config.env.rom s lev) s (c lev) sym (c (lev + 1)) → 0 < pairTailBits s lev sym →
    bitsLeft { s with coder := c (lev + 1) } < pairTailBits s lev sym →
    ∃ t, exec .acpair s = .next t ∧
      brPos t = brPos s + pairTailTaken s lev sym (bitsLeft { s with coder := c (lev + 1) }) ∧
      (∀ j, pairTailTaken s lev sym (bitsLeft { s with coder := c (lev + 1) }) + j <
          8 * s.reader.cur.toNat + s.reader.cnt.toNat →
        pendingBit t j = pendingBit s (pairTailTaken s lev sym (bitsLeft { s with coder := c (lev + 1) }) + j)) ∧
      (pairTailTaken s lev sym (bitsLeft { s with coder := c (lev + 1) }) = 0 → t.reader = s.reader) ∧
      t = { s with
            coder := c (lev + 1), reader := t.reader, bec := true, cause := .broverrun, res := 0, err := .ok
            skip := false }

/-! ### Noise filling, gain, filters, envelope -/

/-- R191, R192: `NFILL` fills every gap of the unfilled spectrum between `CFG_NFSTART` and `min(BW_STOP, NE)`, upward, with
plus or minus `8 - NF_LEVEL`; the generator advances once for each, before its sign test; `LASTNZ` is raised to one past
the highest bin filled; `RES` counts them. With `ZERO` it does nothing. `filled k` counts the gaps below bin `k`. The first
clause is the generator. -/
def Obligations.NfillFillsTheGaps : Prop :=
  (∀ (p : Params) (seed : BitVec 16), (lcg p seed).toNat = (p.lcgA * seed.toNat + p.lcgC) % 65536) ∧
  ∀ s : State, Open s → Memory.wf 1024 s.x = true →
    (s.frm.zero = true → exec .nfill s = .next { s with res := 0, err := .ok, skip := false }) ∧
    (s.frm.zero = false →
      ∃ (t : State) (filled : Nat → Nat),
        exec .nfill s = .next t ∧
        (∀ k, k ≤ s.cfg.nfstart.toNat → filled k = 0) ∧
        (∀ k, s.cfg.nfstart.toNat ≤ k → k < min s.frm.bwStop.toNat s.cfg.ne.toNat →
          (GapAt Config.env.num s (min s.frm.bwStop.toNat s.cfg.ne.toNat) k →
            filled (k + 1) = filled k + 1 ∧
            memRead t.x k =
              Config.env.num.ofInt
                (if ((lcg Config.env.param)^[filled (k + 1)] s.frm.nfSeed).toNat < 0x8000 then
                  8 - (s.frm.nfLevel.toNat : Int)
                else -(8 - (s.frm.nfLevel.toNat : Int))) ∧
            k < t.frm.lastnz.toNat) ∧
          (¬GapAt Config.env.num s (min s.frm.bwStop.toNat s.cfg.ne.toNat) k →
            filled (k + 1) = filled k ∧ memRead t.x k = memRead s.x k)) ∧
        (∀ k, k < s.cfg.nfstart.toNat ∨ min s.frm.bwStop.toNat s.cfg.ne.toNat ≤ k →
          memRead t.x k = memRead s.x k) ∧
        t.res.toNat = filled (max s.cfg.nfstart.toNat (min s.frm.bwStop.toNat s.cfg.ne.toNat)) ∧
        t.frm.nfSeed = (lcg Config.env.param)^[t.res.toNat] s.frm.nfSeed ∧
        s.frm.lastnz.toNat ≤ t.frm.lastnz.toNat ∧
        (t.frm.lastnz ≠ s.frm.lastnz →
          ∃ k, t.frm.lastnz.toNat = k + 1 ∧ s.cfg.nfstart.toNat ≤ k ∧
            k < min s.frm.bwStop.toNat s.cfg.ne.toNat ∧ filled (k + 1) = filled k + 1) ∧
        t = { s with
              x := t.x, frm := { s.frm with nfSeed := t.frm.nfSeed, lastnz := t.frm.lastnz }, res := t.res
              err := .ok, skip := false })

/-- R241, R242: `GGAIN` multiplies the bins below `min(LASTNZ, NE)` by `(10^(e/28) * 1/16) * CFG_TSCALE`, with
`e = GG_IND + sext(GG_OFF)`, clears the others below `NE`, and touches nothing else. -/
def Obligations.GgainScalesAndClears : Prop :=
  ∀ s : State, Open s → Memory.wf 1024 s.x = true →
    ∃ t, exec .ggain s = .next t ∧
      (∀ k, memRead t.x k =
        if k < min s.frm.lastnz.toNat s.cfg.ne.toNat then
          Config.env.num.mul (memRead s.x k)
            (Config.env.num.mul
              (Config.env.num.mul (Config.env.num.pow10_28 ((s.frm.ggInd.toNat : Int) + s.frm.ggOff.toInt))
                (Config.env.num.ofRat (1 / 16)))
              s.cfg.tscale)
        else if k < s.cfg.ne.toNat then Sample.zero else memRead s.x k) ∧
      t = { s with x := t.x, res := 0, err := .ok, skip := false }

/-- R201 to R204: `TNSSYN` runs the lattice of filter 0 and then of filter 1 over their sub-ranges, upward, the memory
cells cleared once and carried from one to the other; `LASTNZ` is raised to the end of each filter that ran, and `RES`
counts them. A filter is active when its number is below `NTNS` and its order is not 0. -/
def Obligations.TnssynRunsTheLattice : Prop :=
  ∀ s : State, Open s → Memory.wf 1024 s.x = true →
    (1 ≤ s.frm.ntns.toNat → TnsFilterOk s.cfg.ne.toNat s.frm.tns0) →
    (2 ≤ s.frm.ntns.toNat → TnsFilterOk s.cfg.ne.toNat s.frm.tns1) →
    ∃ (t : State) (mid memMid memEnd : Nat → Sample),
      exec .tnssyn s = .next t ∧
      (if 1 ≤ s.frm.ntns.toNat then
        TnsFilters Config.env s.frm.tns0 (memRead s.x) mid (fun _ => Sample.zero) memMid
      else mid = memRead s.x ∧ ∀ j, memMid j = Sample.zero) ∧
      (if 2 ≤ s.frm.ntns.toNat then TnsFilters Config.env s.frm.tns1 mid (memRead t.x) memMid memEnd
      else memRead t.x = mid) ∧
      t.frm.lastnz.toNat =
        max (max s.frm.lastnz.toNat
          (if 1 ≤ s.frm.ntns.toNat ∧ s.frm.tns0.order ≠ 0#4 then s.frm.tns0.stop.toNat else 0))
          (if 2 ≤ s.frm.ntns.toNat ∧ s.frm.tns1.order ≠ 0#4 then s.frm.tns1.stop.toNat else 0) ∧
      t.res.toNat =
        (if 1 ≤ s.frm.ntns.toNat ∧ s.frm.tns0.order ≠ 0#4 then 1 else 0) +
          (if 2 ≤ s.frm.ntns.toNat ∧ s.frm.tns1.order ≠ 0#4 then 1 else 0) ∧
      t = { s with x := t.x, frm := { s.frm with lastnz := t.frm.lastnz }, res := t.res, err := .ok, skip := false }

/-- R214: the offset table satisfies its recurrence, for `n >= 1` and `1 <= k <= 11`, and its boundary values. -/
def Obligations.OffsetTableRecurrence : Prop :=
  mpvqA 0 0 = 1 ∧ (∀ k, 0 < k → mpvqA 0 k = 0) ∧ (∀ n, 1 ≤ n → mpvqA n 0 = 0) ∧
    ∀ n k, 1 ≤ k → k ≤ 11 → mpvqA (n + 1) k = mpvqA n k + mpvqA n (k - 1) + mpvqA (n + 1) (k - 1)

/-- R213, R215: de-enumeration walks the offset table position by position, as R215 writes it; of an index below the class size
`(A(n,k) + A(n,k+1)) / 2` it gives `n` integers whose magnitudes sum to `k`. -/
def Obligations.DeenumGivesKPulses : Prop :=
  (∀ (n k : Nat) (ls : Bool) (idx : Nat), DeenumWalk n k ls idx (deenum n k ls idx)) ∧
  ∀ (n k : Nat) (ls : Bool) (idx : Nat), 1 ≤ n → 1 ≤ k → k ≤ 10 → idx < (mpvqA n k + mpvqA n (k + 1)) / 2 →
    (deenum n k ls idx).length = n ∧ ((deenum n k ls idx).map Int.natAbs).sum = k

/-- R213, R216: for indices that `SNSSYN` admits, the pulse vector has 16 elements and its energy is between 6 and 101, so
`S.rsqrtInt` is never asked for 0. -/
def Obligations.PulseEnergyIsPositive : Prop :=
  ∀ s : State, pulseIndexBad s = false →
    (pulseVector s).length = 16 ∧ 6 ≤ pulseEnergy (pulseVector s) ∧ pulseEnergy (pulseVector s) ≤ 101

/-- R211, R212, R216 to R219: `SNSSYN` sets `SCF[n]` to the stage-1 entry plus the gain times the projection of the normalised
pulse vector; only `SCF` and `X` change. `y` is the pulse vector of R213. -/
def Obligations.SnssynSetsScaleFactors : Prop :=
  ∀ (s : State) (y : List Int), Open s →
    (s.frm.snsShape = 0#2 ∧ s.frm.snsGain.toNat < 2 ∧ s.frm.snsIdxA.toNat < 2390004 ∧ s.frm.snsIdxB.toNat < 6 ∧
        y = deenum 10 10 s.frm.snsLsa s.frm.snsIdxA.toNat ++ deenum 6 1 s.frm.snsLsb s.frm.snsIdxB.toNat ∨
      s.frm.snsShape = 1#2 ∧ s.frm.snsGain.toNat < 4 ∧ s.frm.snsIdxA.toNat < 2390004 ∧
        y = deenum 10 10 s.frm.snsLsa s.frm.snsIdxA.toNat ++ [0, 0, 0, 0, 0, 0] ∨
      s.frm.snsShape = 2#2 ∧ s.frm.snsGain.toNat < 4 ∧ s.frm.snsIdxA.toNat < 15158272 ∧
        y = deenum 16 8 s.frm.snsLsa s.frm.snsIdxA.toNat ∨
      s.frm.snsShape = 3#2 ∧ s.frm.snsIdxA.toNat < 774912 ∧ y = deenum 16 6 s.frm.snsLsa s.frm.snsIdxA.toNat) →
    ∃ t, exec .snssyn s = .next t ∧
      (∀ n, n < 16 → vecAt t.scf n =
        Config.env.num.add
          (if n < 8 then Config.env.rom.snsLfcb s.frm.snsLf.toNat n
          else Config.env.rom.snsHfcb s.frm.snsHf.toNat (n - 8))
          (Config.env.num.mul (Config.env.rom.snsGain s.frm.snsShape.toNat s.frm.snsGain.toNat)
            ((List.range 16).foldl
              (fun acc c => Config.env.num.add acc
                (Config.env.num.mul (Config.env.rom.snsD n c)
                  (Config.env.num.mul (Config.env.num.ofInt (y.getD c 0))
                    (Config.env.num.rsqrtInt ((y.map fun v => v.natAbs * v.natAbs).sum)))))
              Sample.zero))) ∧
      t = { s with scf := t.scf, x := t.x, res := 0, err := .ok, skip := false }

/-- R211, R220 to R223: after a `SNSSYN` that passed its checks, every bin of band `b` is the old bin times `2^scf[b]`, with
`scf` the interpolation of the new `SCF` to `NB` bands; bins at and above `BANDS[NB]` are untouched. -/
def Obligations.SnssynAppliesTheEnvelope : Prop :=
  ∀ s t : State, Open s → MemoryInv s → exec .snssyn s = .next t → t.err = .ok → t.bec = false →
    ∃ scf : Nat → Sample, Interpolates Config.env.num s.cfg.nb.toNat (vecAt t.scf) scf ∧
      (∀ b, b < s.cfg.nb.toNat → ∀ k, (memRead s.cfg.bands b).toNat ≤ k → k < (memRead s.cfg.bands (b + 1)).toNat →
        memRead t.x k = Config.env.num.mul (memRead s.x k) (Config.env.num.exp2 (scf b))) ∧
      ∀ k, (memRead s.cfg.bands s.cfg.nb.toNat).toNat ≤ k → memRead t.x k = memRead s.x k

/-! ### The inverse transform and the postfilter -/

/-- R251 to R255: `IMDCT` transforms the zero-extended spectrum, unfolds it, windows it, adds the old overlap memory and
saves the new one, whatever `BEC` is; only `TBLK`, `OLA` and `RES` change. `u` is the DCT-IV of R252, `th` the windowed
signal of R254. -/
def Obligations.ImdctOverlapsAndAdds : Prop :=
  ∀ s : State, s.cfglock = true → MemoryInv s →
    ∃ (t : State) (u th : Nat → Sample),
      exec .imdct s = .next t ∧
      (∀ n, n < s.cfg.ns.toNat → u n = vecAt (Config.env.num.dct4 s.cfg.ns.toNat
        (Vector.ofFn fun k => if k.val < s.cfg.ne.toNat then memRead s.x k.val else Sample.zero)) n) ∧
      (∀ n, n < s.cfg.ns.toNat / 2 →
        th n = Config.env.num.mul (memRead s.cfg.win n) (u (n + s.cfg.ns.toNat / 2))) ∧
      (∀ n, s.cfg.ns.toNat / 2 ≤ n → n < 3 * s.cfg.ns.toNat / 2 →
        th n = Config.env.num.mul (memRead s.cfg.win n)
          (Config.env.num.neg (u (3 * s.cfg.ns.toNat / 2 - 1 - n)))) ∧
      (∀ n, 3 * s.cfg.ns.toNat / 2 ≤ n → n < 2 * s.cfg.ns.toNat →
        th n = Config.env.num.mul (memRead s.cfg.win n)
          (Config.env.num.neg (u (n - 3 * s.cfg.ns.toNat / 2)))) ∧
      (∀ n, memRead t.tblk n =
        if n < s.cfg.ns.toNat - s.cfg.nz.toNat then
          Config.env.num.add (memRead s.ola n) (th (s.cfg.nz.toNat + n))
        else if n < s.cfg.ns.toNat then th (s.cfg.nz.toNat + n) else memRead s.tblk n) ∧
      (∀ n, memRead t.ola n =
        if n < s.cfg.ns.toNat - s.cfg.nz.toNat then th (s.cfg.ns.toNat + s.cfg.nz.toNat + n)
        else memRead s.ola n) ∧
      t = { s with tblk := t.tblk, ola := t.ola, res := 0, err := .ok, skip := false }

/-- R261, R262, R37: `LTPF` drops the oldest block of the history and appends the new one, keeps the last 10 input samples,
copies `LTPF_CTL` to `LTPF_MEM`, and returns the transition case, whatever `BEC` is; nothing else changes. -/
def Obligations.LtpfAdvancesTheHistory : Prop :=
  ∀ s : State, s.cfglock = true → MemoryInv s → (s.frm.ltpf.active = true → lagOk s.cfg s.frm.ltpf = true) →
    ∃ t, exec .ltpf s = .next t ∧
      (∀ i, i + s.cfg.ns.toNat < histLen s.cfg → memRead t.yh i = memRead s.yh (i + s.cfg.ns.toNat)) ∧
      (∀ n, n < s.cfg.ns.toNat → memRead t.yh (histLen s.cfg - s.cfg.ns.toNat + n) = outAt t n) ∧
      (∀ i, histLen s.cfg ≤ i → memRead t.yh i = memRead s.yh i) ∧
      (∀ i, i < 10 → vecAt t.xt i =
        if i + s.cfg.ns.toNat < 10 then vecAt s.xt (i + s.cfg.ns.toNat)
        else memRead s.tblk (i + s.cfg.ns.toNat - 10)) ∧
      t.res =
        (if s.frm.ltpf.active = false then (if s.ltpfMem.active = false then 1 else 3)
        else if s.ltpfMem.active = false then 2
        else if s.frm.ltpf.pint = s.ltpfMem.pint ∧ s.frm.ltpf.pfr = s.ltpfMem.pfr then 4 else 5) ∧
      t = { s with
            yh := t.yh, xt := t.xt, ltpfMem := s.frm.ltpf, res := t.res, err := .ok, skip := false }

/-- R261, R263, R264: the new block satisfies the filter equations of its transition case, sample by sample: in the first
quarter of the frame the case's own, in the rest the full filter, or the input itself when the filter is inactive. `x` is
the input signal, `y` the output signal with its history, `xp` the intermediate signal of case 5. That the sums `NUM` and `DEN`
start from `S.zero` is the model's choice (log entry 15): R261 states their order only. -/
def Obligations.LtpfSolvesTheFilterEquations : Prop :=
  ∀ s : State, s.cfglock = true → MemoryInv s → LtpfInv s →
    (s.frm.ltpf.active = true → lagOk s.cfg s.frm.ltpf = true) →
    ∃ (t : State) (x y xp : Int → Sample),
      exec .ltpf s = .next t ∧ InputIs s x ∧ OutputIs s t y ∧
      (∀ n : Nat, n < s.cfg.ns.toNat / 4 →
        (s.frm.ltpf.active = false → s.ltpfMem.active = false → y n = x n) ∧
        (s.frm.ltpf.active = true → s.ltpfMem.active = false →
          FadedFilterAt Config.env s s.frm.ltpf ((n : Rat) / (s.cfg.ns.toNat / 4 : Nat)) x x y y n) ∧
        (s.frm.ltpf.active = false → s.ltpfMem.active = true →
          FadedFilterAt Config.env s s.ltpfMem (1 - (n : Rat) / (s.cfg.ns.toNat / 4 : Nat)) x x y y n) ∧
        (s.frm.ltpf.active = true → s.ltpfMem.active = true →
          s.frm.ltpf.pint = s.ltpfMem.pint ∧ s.frm.ltpf.pfr = s.ltpfMem.pfr →
          FullFilterAt Config.env s s.frm.ltpf x y n) ∧
        (s.frm.ltpf.active = true → s.ltpfMem.active = true →
          ¬(s.frm.ltpf.pint = s.ltpfMem.pint ∧ s.frm.ltpf.pfr = s.ltpfMem.pfr) →
          FadedFilterAt Config.env s s.ltpfMem (1 - (n : Rat) / (s.cfg.ns.toNat / 4 : Nat)) x x
            (fun i => if i < 0 then y i else xp i) xp n ∧
          FadedFilterAt Config.env s s.frm.ltpf ((n : Rat) / (s.cfg.ns.toNat / 4 : Nat)) xp
            (fun i => if i < 0 then x i else xp i) y y n)) ∧
      ∀ n : Nat, s.cfg.ns.toNat / 4 ≤ n → n < s.cfg.ns.toNat →
        (s.frm.ltpf.active = true → FullFilterAt Config.env s s.frm.ltpf x y n) ∧
        (s.frm.ltpf.active = false → y n = x n)

/-! ### Invariants -/

/-- Every step keeps a locked configuration valid (R26, R27, R282), and every memory in canonical form inside its size. The
canonical form and the bound 8192 of `YH` are the model's choices (log entries 18 and 19), not the spec's. -/
def Obligations.StepsKeepMemoriesCanonical : Prop := ∀ s t : State, MemoryInv s → step s = .next t → MemoryInv t

/-- Every step keeps the bitstream registers consistent while `BEC = 0` (R31, R140, R146, R332). -/
def Obligations.StepsKeepTheBitstreamConsistent : Prop :=
  ∀ s t : State, BitstreamInv s → step s = .next t → BitstreamInv t

/-- Every step keeps STATUS coherent (R28, R290, R302, R305, R310). -/
def Obligations.StepsKeepStatusCoherent : Prop := ∀ s t : State, StatusInv s → step s = .next t → StatusInv t

/-- Every step keeps the memorised pitch in bounds (R261, R264). -/
def Obligations.StepsKeepTheMemorisedPitch : Prop := ∀ s t : State, LtpfInv s → step s = .next t → LtpfInv t

/-- Every step keeps every stored sample a value of `S` (R14, R16, R83). Samples as labels are the model's choice (log entry 1). -/
def Obligations.StepsKeepSamplesInS : Prop := ∀ s t : State, SampleInv s → step s = .next t → SampleInv t

/-- The five invariants hold after reset (R40, R331). What they say of the form of memories, of the bound 8192 and of samples as
labels is the model's choice (log entries 1, 18 and 19). -/
def Obligations.ResetMeetsTheInvariants : Prop :=
  MemoryInv State.reset ∧ BitstreamInv State.reset ∧ StatusInv State.reset ∧ LtpfInv State.reset ∧
    SampleInv State.reset
end

