-- ==== Sys2Proof/Laws/State.lean ====
section
/-! SUPPORT. One lemma for each field of the state and each update of it, so that no proof unfolds a record update. -/

namespace Sys2Proof.Machine

open Sys2Proof

variable {S : Type}

/-! `finish` -/

@[simp] theorem finish_cmd (res : Word) (s : Over.State S) : (finish res s).cmd = s.cmd := rfl
@[simp] theorem finish_bec (res : Word) (s : Over.State S) : (finish res s).bec = s.bec := rfl
@[simp] theorem finish_skip (res : Word) (s : Over.State S) : (finish res s).skip = false := rfl
@[simp] theorem finish_cfglock (res : Word) (s : Over.State S) : (finish res s).cfglock = s.cfglock := rfl
@[simp] theorem finish_err (res : Word) (s : Over.State S) : (finish res s).err = .ok := rfl
@[simp] theorem finish_cause (res : Word) (s : Over.State S) : (finish res s).cause = s.cause := rfl
@[simp] theorem finish_res (res : Word) (s : Over.State S) : (finish res s).res = res := rfl
@[simp] theorem finish_cfg (res : Word) (s : Over.State S) : (finish res s).cfg = s.cfg := rfl
@[simp] theorem finish_fbLen (res : Word) (s : Over.State S) : (finish res s).fbLen = s.fbLen := rfl
@[simp] theorem finish_reader (res : Word) (s : Over.State S) : (finish res s).reader = s.reader := rfl
@[simp] theorem finish_coder (res : Word) (s : Over.State S) : (finish res s).coder = s.coder := rfl
@[simp] theorem finish_frm (res : Word) (s : Over.State S) : (finish res s).frm = s.frm := rfl
@[simp] theorem finish_fb (res : Word) (s : Over.State S) : (finish res s).fb = s.fb := rfl
@[simp] theorem finish_x (res : Word) (s : Over.State S) : (finish res s).x = s.x := rfl
@[simp] theorem finish_scf (res : Word) (s : Over.State S) : (finish res s).scf = s.scf := rfl
@[simp] theorem finish_tblk (res : Word) (s : Over.State S) : (finish res s).tblk = s.tblk := rfl
@[simp] theorem finish_ola (res : Word) (s : Over.State S) : (finish res s).ola = s.ola := rfl
@[simp] theorem finish_yh (res : Word) (s : Over.State S) : (finish res s).yh = s.yh := rfl
@[simp] theorem finish_xt (res : Word) (s : Over.State S) : (finish res s).xt = s.xt := rfl
@[simp] theorem finish_ltpfMem (res : Word) (s : Over.State S) : (finish res s).ltpfMem = s.ltpfMem := rfl
@[simp] theorem finish_host (res : Word) (s : Over.State S) : (finish res s).host = s.host := rfl
@[simp] theorem finish_rdata (res : Word) (s : Over.State S) : (finish res s).rdata = s.rdata := rfl

/-! `failErr` -/

@[simp] theorem failErr_cmd (c : ErrCode) (s : Over.State S) : (failErr c s).cmd = s.cmd := rfl
@[simp] theorem failErr_bec (c : ErrCode) (s : Over.State S) : (failErr c s).bec = s.bec := rfl
@[simp] theorem failErr_skip (c : ErrCode) (s : Over.State S) : (failErr c s).skip = false := rfl
@[simp] theorem failErr_cfglock (c : ErrCode) (s : Over.State S) : (failErr c s).cfglock = s.cfglock := rfl
@[simp] theorem failErr_err (c : ErrCode) (s : Over.State S) : (failErr c s).err = c := rfl
@[simp] theorem failErr_cause (c : ErrCode) (s : Over.State S) : (failErr c s).cause = s.cause := rfl
@[simp] theorem failErr_res (c : ErrCode) (s : Over.State S) : (failErr c s).res = 0 := rfl
@[simp] theorem failErr_cfg (c : ErrCode) (s : Over.State S) : (failErr c s).cfg = s.cfg := rfl
@[simp] theorem failErr_fbLen (c : ErrCode) (s : Over.State S) : (failErr c s).fbLen = s.fbLen := rfl
@[simp] theorem failErr_reader (c : ErrCode) (s : Over.State S) : (failErr c s).reader = s.reader := rfl
@[simp] theorem failErr_coder (c : ErrCode) (s : Over.State S) : (failErr c s).coder = s.coder := rfl
@[simp] theorem failErr_frm (c : ErrCode) (s : Over.State S) : (failErr c s).frm = s.frm := rfl
@[simp] theorem failErr_fb (c : ErrCode) (s : Over.State S) : (failErr c s).fb = s.fb := rfl
@[simp] theorem failErr_x (c : ErrCode) (s : Over.State S) : (failErr c s).x = s.x := rfl
@[simp] theorem failErr_scf (c : ErrCode) (s : Over.State S) : (failErr c s).scf = s.scf := rfl
@[simp] theorem failErr_tblk (c : ErrCode) (s : Over.State S) : (failErr c s).tblk = s.tblk := rfl
@[simp] theorem failErr_ola (c : ErrCode) (s : Over.State S) : (failErr c s).ola = s.ola := rfl
@[simp] theorem failErr_yh (c : ErrCode) (s : Over.State S) : (failErr c s).yh = s.yh := rfl
@[simp] theorem failErr_xt (c : ErrCode) (s : Over.State S) : (failErr c s).xt = s.xt := rfl
@[simp] theorem failErr_ltpfMem (c : ErrCode) (s : Over.State S) : (failErr c s).ltpfMem = s.ltpfMem := rfl
@[simp] theorem failErr_host (c : ErrCode) (s : Over.State S) : (failErr c s).host = s.host := rfl
@[simp] theorem failErr_rdata (c : ErrCode) (s : Over.State S) : (failErr c s).rdata = s.rdata := rfl

/-! `skipGated` -/

@[simp] theorem skipGated_cmd (s : Over.State S) : (skipGated s).cmd = s.cmd := rfl
@[simp] theorem skipGated_bec (s : Over.State S) : (skipGated s).bec = s.bec := rfl
@[simp] theorem skipGated_skip (s : Over.State S) : (skipGated s).skip = true := rfl
@[simp] theorem skipGated_cfglock (s : Over.State S) : (skipGated s).cfglock = s.cfglock := rfl
@[simp] theorem skipGated_err (s : Over.State S) : (skipGated s).err = .ok := rfl
@[simp] theorem skipGated_cause (s : Over.State S) : (skipGated s).cause = s.cause := rfl
@[simp] theorem skipGated_res (s : Over.State S) : (skipGated s).res = 0 := rfl
@[simp] theorem skipGated_cfg (s : Over.State S) : (skipGated s).cfg = s.cfg := rfl
@[simp] theorem skipGated_fbLen (s : Over.State S) : (skipGated s).fbLen = s.fbLen := rfl
@[simp] theorem skipGated_reader (s : Over.State S) : (skipGated s).reader = s.reader := rfl
@[simp] theorem skipGated_coder (s : Over.State S) : (skipGated s).coder = s.coder := rfl
@[simp] theorem skipGated_frm (s : Over.State S) : (skipGated s).frm = s.frm := rfl
@[simp] theorem skipGated_fb (s : Over.State S) : (skipGated s).fb = s.fb := rfl
@[simp] theorem skipGated_x (s : Over.State S) : (skipGated s).x = s.x := rfl
@[simp] theorem skipGated_scf (s : Over.State S) : (skipGated s).scf = s.scf := rfl
@[simp] theorem skipGated_tblk (s : Over.State S) : (skipGated s).tblk = s.tblk := rfl
@[simp] theorem skipGated_ola (s : Over.State S) : (skipGated s).ola = s.ola := rfl
@[simp] theorem skipGated_yh (s : Over.State S) : (skipGated s).yh = s.yh := rfl
@[simp] theorem skipGated_xt (s : Over.State S) : (skipGated s).xt = s.xt := rfl
@[simp] theorem skipGated_ltpfMem (s : Over.State S) : (skipGated s).ltpfMem = s.ltpfMem := rfl
@[simp] theorem skipGated_host (s : Over.State S) : (skipGated s).host = s.host := rfl
@[simp] theorem skipGated_rdata (s : Over.State S) : (skipGated s).rdata = s.rdata := rfl

/-! `setBec` -/

@[simp] theorem setBec_cmd (c : Cause) (s : Over.State S) : (setBec c s).cmd = s.cmd := rfl
@[simp] theorem setBec_bec (c : Cause) (s : Over.State S) : (setBec c s).bec = true := rfl
@[simp] theorem setBec_skip (c : Cause) (s : Over.State S) : (setBec c s).skip = s.skip := rfl
@[simp] theorem setBec_cfglock (c : Cause) (s : Over.State S) : (setBec c s).cfglock = s.cfglock := rfl
@[simp] theorem setBec_err (c : Cause) (s : Over.State S) : (setBec c s).err = s.err := rfl
@[simp] theorem setBec_cause (c : Cause) (s : Over.State S) : (setBec c s).cause = if s.bec then s.cause else c := rfl
@[simp] theorem setBec_res (c : Cause) (s : Over.State S) : (setBec c s).res = s.res := rfl
@[simp] theorem setBec_cfg (c : Cause) (s : Over.State S) : (setBec c s).cfg = s.cfg := rfl
@[simp] theorem setBec_fbLen (c : Cause) (s : Over.State S) : (setBec c s).fbLen = s.fbLen := rfl
@[simp] theorem setBec_reader (c : Cause) (s : Over.State S) : (setBec c s).reader = s.reader := rfl
@[simp] theorem setBec_coder (c : Cause) (s : Over.State S) : (setBec c s).coder = s.coder := rfl
@[simp] theorem setBec_frm (c : Cause) (s : Over.State S) : (setBec c s).frm = s.frm := rfl
@[simp] theorem setBec_fb (c : Cause) (s : Over.State S) : (setBec c s).fb = s.fb := rfl
@[simp] theorem setBec_x (c : Cause) (s : Over.State S) : (setBec c s).x = s.x := rfl
@[simp] theorem setBec_scf (c : Cause) (s : Over.State S) : (setBec c s).scf = s.scf := rfl
@[simp] theorem setBec_tblk (c : Cause) (s : Over.State S) : (setBec c s).tblk = s.tblk := rfl
@[simp] theorem setBec_ola (c : Cause) (s : Over.State S) : (setBec c s).ola = s.ola := rfl
@[simp] theorem setBec_yh (c : Cause) (s : Over.State S) : (setBec c s).yh = s.yh := rfl
@[simp] theorem setBec_xt (c : Cause) (s : Over.State S) : (setBec c s).xt = s.xt := rfl
@[simp] theorem setBec_ltpfMem (c : Cause) (s : Over.State S) : (setBec c s).ltpfMem = s.ltpfMem := rfl
@[simp] theorem setBec_host (c : Cause) (s : Over.State S) : (setBec c s).host = s.host := rfl
@[simp] theorem setBec_rdata (c : Cause) (s : Over.State S) : (setBec c s).rdata = s.rdata := rfl

/-! `raiseKeep` -/

@[simp] theorem raiseKeep_cmd (c : Cause) (res : Word) (s : Over.State S) : (raiseKeep c res s).cmd = s.cmd := rfl
@[simp] theorem raiseKeep_bec (c : Cause) (res : Word) (s : Over.State S) : (raiseKeep c res s).bec = true := rfl
@[simp] theorem raiseKeep_skip (c : Cause) (res : Word) (s : Over.State S) : (raiseKeep c res s).skip = false := rfl
@[simp] theorem raiseKeep_cfglock (c : Cause) (res : Word) (s : Over.State S) : (raiseKeep c res s).cfglock = s.cfglock := rfl
@[simp] theorem raiseKeep_err (c : Cause) (res : Word) (s : Over.State S) : (raiseKeep c res s).err = .ok := rfl
@[simp] theorem raiseKeep_cause (c : Cause) (res : Word) (s : Over.State S) : (raiseKeep c res s).cause = if s.bec then s.cause else c := rfl
@[simp] theorem raiseKeep_res (c : Cause) (res : Word) (s : Over.State S) : (raiseKeep c res s).res = res := rfl
@[simp] theorem raiseKeep_cfg (c : Cause) (res : Word) (s : Over.State S) : (raiseKeep c res s).cfg = s.cfg := rfl
@[simp] theorem raiseKeep_fbLen (c : Cause) (res : Word) (s : Over.State S) : (raiseKeep c res s).fbLen = s.fbLen := rfl
@[simp] theorem raiseKeep_reader (c : Cause) (res : Word) (s : Over.State S) : (raiseKeep c res s).reader = s.reader := rfl
@[simp] theorem raiseKeep_coder (c : Cause) (res : Word) (s : Over.State S) : (raiseKeep c res s).coder = s.coder := rfl
@[simp] theorem raiseKeep_frm (c : Cause) (res : Word) (s : Over.State S) : (raiseKeep c res s).frm = s.frm := rfl
@[simp] theorem raiseKeep_fb (c : Cause) (res : Word) (s : Over.State S) : (raiseKeep c res s).fb = s.fb := rfl
@[simp] theorem raiseKeep_x (c : Cause) (res : Word) (s : Over.State S) : (raiseKeep c res s).x = s.x := rfl
@[simp] theorem raiseKeep_scf (c : Cause) (res : Word) (s : Over.State S) : (raiseKeep c res s).scf = s.scf := rfl
@[simp] theorem raiseKeep_tblk (c : Cause) (res : Word) (s : Over.State S) : (raiseKeep c res s).tblk = s.tblk := rfl
@[simp] theorem raiseKeep_ola (c : Cause) (res : Word) (s : Over.State S) : (raiseKeep c res s).ola = s.ola := rfl
@[simp] theorem raiseKeep_yh (c : Cause) (res : Word) (s : Over.State S) : (raiseKeep c res s).yh = s.yh := rfl
@[simp] theorem raiseKeep_xt (c : Cause) (res : Word) (s : Over.State S) : (raiseKeep c res s).xt = s.xt := rfl
@[simp] theorem raiseKeep_ltpfMem (c : Cause) (res : Word) (s : Over.State S) : (raiseKeep c res s).ltpfMem = s.ltpfMem := rfl
@[simp] theorem raiseKeep_host (c : Cause) (res : Word) (s : Over.State S) : (raiseKeep c res s).host = s.host := rfl
@[simp] theorem raiseKeep_rdata (c : Cause) (res : Word) (s : Over.State S) : (raiseKeep c res s).rdata = s.rdata := rfl

/-! `raiseBec` -/

@[simp] theorem raiseBec_cmd (c : Cause) (s : Over.State S) : (raiseBec c s).cmd = s.cmd := rfl
@[simp] theorem raiseBec_bec (c : Cause) (s : Over.State S) : (raiseBec c s).bec = true := rfl
@[simp] theorem raiseBec_skip (c : Cause) (s : Over.State S) : (raiseBec c s).skip = false := rfl
@[simp] theorem raiseBec_cfglock (c : Cause) (s : Over.State S) : (raiseBec c s).cfglock = s.cfglock := rfl
@[simp] theorem raiseBec_err (c : Cause) (s : Over.State S) : (raiseBec c s).err = .ok := rfl
@[simp] theorem raiseBec_cause (c : Cause) (s : Over.State S) : (raiseBec c s).cause = if s.bec then s.cause else c := rfl
@[simp] theorem raiseBec_res (c : Cause) (s : Over.State S) : (raiseBec c s).res = 0 := rfl
@[simp] theorem raiseBec_cfg (c : Cause) (s : Over.State S) : (raiseBec c s).cfg = s.cfg := rfl
@[simp] theorem raiseBec_fbLen (c : Cause) (s : Over.State S) : (raiseBec c s).fbLen = s.fbLen := rfl
@[simp] theorem raiseBec_reader (c : Cause) (s : Over.State S) : (raiseBec c s).reader = s.reader := rfl
@[simp] theorem raiseBec_coder (c : Cause) (s : Over.State S) : (raiseBec c s).coder = s.coder := rfl
@[simp] theorem raiseBec_frm (c : Cause) (s : Over.State S) : (raiseBec c s).frm = s.frm := rfl
@[simp] theorem raiseBec_fb (c : Cause) (s : Over.State S) : (raiseBec c s).fb = s.fb := rfl
@[simp] theorem raiseBec_x (c : Cause) (s : Over.State S) : (raiseBec c s).x = s.x := rfl
@[simp] theorem raiseBec_scf (c : Cause) (s : Over.State S) : (raiseBec c s).scf = s.scf := rfl
@[simp] theorem raiseBec_tblk (c : Cause) (s : Over.State S) : (raiseBec c s).tblk = s.tblk := rfl
@[simp] theorem raiseBec_ola (c : Cause) (s : Over.State S) : (raiseBec c s).ola = s.ola := rfl
@[simp] theorem raiseBec_yh (c : Cause) (s : Over.State S) : (raiseBec c s).yh = s.yh := rfl
@[simp] theorem raiseBec_xt (c : Cause) (s : Over.State S) : (raiseBec c s).xt = s.xt := rfl
@[simp] theorem raiseBec_ltpfMem (c : Cause) (s : Over.State S) : (raiseBec c s).ltpfMem = s.ltpfMem := rfl
@[simp] theorem raiseBec_host (c : Cause) (s : Over.State S) : (raiseBec c s).host = s.host := rfl
@[simp] theorem raiseBec_rdata (c : Cause) (s : Over.State S) : (raiseBec c s).rdata = s.rdata := rfl

/-! `frameFlags` -/

@[simp] theorem frameFlags_cmd (loss : Bool) (s : Over.State S) : (frameFlags loss s).cmd = s.cmd := rfl
@[simp] theorem frameFlags_bec (loss : Bool) (s : Over.State S) : (frameFlags loss s).bec = loss := rfl
@[simp] theorem frameFlags_skip (loss : Bool) (s : Over.State S) : (frameFlags loss s).skip = s.skip := rfl
@[simp] theorem frameFlags_cfglock (loss : Bool) (s : Over.State S) : (frameFlags loss s).cfglock = s.cfglock := rfl
@[simp] theorem frameFlags_err (loss : Bool) (s : Over.State S) : (frameFlags loss s).err = s.err := rfl
@[simp] theorem frameFlags_cause (loss : Bool) (s : Over.State S) : (frameFlags loss s).cause = if loss then .extloss else .none := rfl
@[simp] theorem frameFlags_res (loss : Bool) (s : Over.State S) : (frameFlags loss s).res = s.res := rfl
@[simp] theorem frameFlags_cfg (loss : Bool) (s : Over.State S) : (frameFlags loss s).cfg = s.cfg := rfl
@[simp] theorem frameFlags_fbLen (loss : Bool) (s : Over.State S) : (frameFlags loss s).fbLen = s.fbLen := rfl
@[simp] theorem frameFlags_reader (loss : Bool) (s : Over.State S) : (frameFlags loss s).reader = s.reader := rfl
@[simp] theorem frameFlags_coder (loss : Bool) (s : Over.State S) : (frameFlags loss s).coder = s.coder := rfl
@[simp] theorem frameFlags_frm (loss : Bool) (s : Over.State S) : (frameFlags loss s).frm = s.frm := rfl
@[simp] theorem frameFlags_fb (loss : Bool) (s : Over.State S) : (frameFlags loss s).fb = s.fb := rfl
@[simp] theorem frameFlags_x (loss : Bool) (s : Over.State S) : (frameFlags loss s).x = s.x := rfl
@[simp] theorem frameFlags_scf (loss : Bool) (s : Over.State S) : (frameFlags loss s).scf = s.scf := rfl
@[simp] theorem frameFlags_tblk (loss : Bool) (s : Over.State S) : (frameFlags loss s).tblk = s.tblk := rfl
@[simp] theorem frameFlags_ola (loss : Bool) (s : Over.State S) : (frameFlags loss s).ola = s.ola := rfl
@[simp] theorem frameFlags_yh (loss : Bool) (s : Over.State S) : (frameFlags loss s).yh = s.yh := rfl
@[simp] theorem frameFlags_xt (loss : Bool) (s : Over.State S) : (frameFlags loss s).xt = s.xt := rfl
@[simp] theorem frameFlags_ltpfMem (loss : Bool) (s : Over.State S) : (frameFlags loss s).ltpfMem = s.ltpfMem := rfl
@[simp] theorem frameFlags_host (loss : Bool) (s : Over.State S) : (frameFlags loss s).host = s.host := rfl
@[simp] theorem frameFlags_rdata (loss : Bool) (s : Over.State S) : (frameFlags loss s).rdata = s.rdata := rfl

/-! `startFrame` -/

@[simp] theorem startFrame_cmd [Zero S] [DecidableEq S] (loss : Bool) (len : BitVec 9) (s : Over.State S) : (startFrame loss len s).cmd = s.cmd := rfl
@[simp] theorem startFrame_bec [Zero S] [DecidableEq S] (loss : Bool) (len : BitVec 9) (s : Over.State S) : (startFrame loss len s).bec = loss := rfl
@[simp] theorem startFrame_skip [Zero S] [DecidableEq S] (loss : Bool) (len : BitVec 9) (s : Over.State S) : (startFrame loss len s).skip = s.skip := rfl
@[simp] theorem startFrame_cfglock [Zero S] [DecidableEq S] (loss : Bool) (len : BitVec 9) (s : Over.State S) : (startFrame loss len s).cfglock = s.cfglock := rfl
@[simp] theorem startFrame_err [Zero S] [DecidableEq S] (loss : Bool) (len : BitVec 9) (s : Over.State S) : (startFrame loss len s).err = s.err := rfl
@[simp] theorem startFrame_cause [Zero S] [DecidableEq S] (loss : Bool) (len : BitVec 9) (s : Over.State S) : (startFrame loss len s).cause = if loss then .extloss else .none := rfl
@[simp] theorem startFrame_res [Zero S] [DecidableEq S] (loss : Bool) (len : BitVec 9) (s : Over.State S) : (startFrame loss len s).res = s.res := rfl
@[simp] theorem startFrame_cfg [Zero S] [DecidableEq S] (loss : Bool) (len : BitVec 9) (s : Over.State S) : (startFrame loss len s).cfg = s.cfg := rfl
@[simp] theorem startFrame_fbLen [Zero S] [DecidableEq S] (loss : Bool) (len : BitVec 9) (s : Over.State S) : (startFrame loss len s).fbLen = len := rfl
@[simp] theorem startFrame_reader [Zero S] [DecidableEq S] (loss : Bool) (len : BitVec 9) (s : Over.State S) : (startFrame loss len s).reader = { cur := len, cache := 0, cnt := 0 } := rfl
@[simp] theorem startFrame_coder [Zero S] [DecidableEq S] (loss : Bool) (len : BitVec 9) (s : Over.State S) : (startFrame loss len s).coder = coderInit s := rfl
@[simp] theorem startFrame_frm [Zero S] [DecidableEq S] (loss : Bool) (len : BitVec 9) (s : Over.State S) : (startFrame loss len s).frm = FrameRegs.reset := rfl
@[simp] theorem startFrame_fb [Zero S] [DecidableEq S] (loss : Bool) (len : BitVec 9) (s : Over.State S) : (startFrame loss len s).fb = s.fb := rfl
@[simp] theorem startFrame_x [Zero S] [DecidableEq S] (loss : Bool) (len : BitVec 9) (s : Over.State S) : (startFrame loss len s).x = memFill s.x 0 (fun _ => 0) s.cfg.ne.toNat := rfl
@[simp] theorem startFrame_scf [Zero S] [DecidableEq S] (loss : Bool) (len : BitVec 9) (s : Over.State S) : (startFrame loss len s).scf = s.scf := rfl
@[simp] theorem startFrame_tblk [Zero S] [DecidableEq S] (loss : Bool) (len : BitVec 9) (s : Over.State S) : (startFrame loss len s).tblk = s.tblk := rfl
@[simp] theorem startFrame_ola [Zero S] [DecidableEq S] (loss : Bool) (len : BitVec 9) (s : Over.State S) : (startFrame loss len s).ola = s.ola := rfl
@[simp] theorem startFrame_yh [Zero S] [DecidableEq S] (loss : Bool) (len : BitVec 9) (s : Over.State S) : (startFrame loss len s).yh = s.yh := rfl
@[simp] theorem startFrame_xt [Zero S] [DecidableEq S] (loss : Bool) (len : BitVec 9) (s : Over.State S) : (startFrame loss len s).xt = s.xt := rfl
@[simp] theorem startFrame_ltpfMem [Zero S] [DecidableEq S] (loss : Bool) (len : BitVec 9) (s : Over.State S) : (startFrame loss len s).ltpfMem = s.ltpfMem := rfl
@[simp] theorem startFrame_host [Zero S] [DecidableEq S] (loss : Bool) (len : BitVec 9) (s : Over.State S) : (startFrame loss len s).host = s.host := rfl
@[simp] theorem startFrame_rdata [Zero S] [DecidableEq S] (loss : Bool) (len : BitVec 9) (s : Over.State S) : (startFrame loss len s).rdata = s.rdata := rfl

/-! `pairCommit` -/

@[simp] theorem pairCommit_cmd [Zero S] [DecidableEq S] (env : Over.Env S) (p : Pair) (s : Over.State S) : (pairCommit env p s).cmd = s.cmd := rfl
@[simp] theorem pairCommit_bec [Zero S] [DecidableEq S] (env : Over.Env S) (p : Pair) (s : Over.State S) : (pairCommit env p s).bec = s.bec := rfl
@[simp] theorem pairCommit_skip [Zero S] [DecidableEq S] (env : Over.Env S) (p : Pair) (s : Over.State S) : (pairCommit env p s).skip = s.skip := rfl
@[simp] theorem pairCommit_cfglock [Zero S] [DecidableEq S] (env : Over.Env S) (p : Pair) (s : Over.State S) : (pairCommit env p s).cfglock = s.cfglock := rfl
@[simp] theorem pairCommit_err [Zero S] [DecidableEq S] (env : Over.Env S) (p : Pair) (s : Over.State S) : (pairCommit env p s).err = s.err := rfl
@[simp] theorem pairCommit_cause [Zero S] [DecidableEq S] (env : Over.Env S) (p : Pair) (s : Over.State S) : (pairCommit env p s).cause = s.cause := rfl
@[simp] theorem pairCommit_res [Zero S] [DecidableEq S] (env : Over.Env S) (p : Pair) (s : Over.State S) : (pairCommit env p s).res = s.res := rfl
@[simp] theorem pairCommit_cfg [Zero S] [DecidableEq S] (env : Over.Env S) (p : Pair) (s : Over.State S) : (pairCommit env p s).cfg = s.cfg := rfl
@[simp] theorem pairCommit_fbLen [Zero S] [DecidableEq S] (env : Over.Env S) (p : Pair) (s : Over.State S) : (pairCommit env p s).fbLen = s.fbLen := rfl
@[simp] theorem pairCommit_reader [Zero S] [DecidableEq S] (env : Over.Env S) (p : Pair) (s : Over.State S) : (pairCommit env p s).reader = s.reader := rfl
@[simp] theorem pairCommit_coder [Zero S] [DecidableEq S] (env : Over.Env S) (p : Pair) (s : Over.State S) : (pairCommit env p s).coder = s.coder := rfl
@[simp] theorem pairCommit_frm [Zero S] [DecidableEq S] (env : Over.Env S) (p : Pair) (s : Over.State S) : (pairCommit env p s).frm = { s.frm with specCtx := nextContext s.frm.specCtx p, specK := s.frm.specK + 2 } := rfl
@[simp] theorem pairCommit_fb [Zero S] [DecidableEq S] (env : Over.Env S) (p : Pair) (s : Over.State S) : (pairCommit env p s).fb = s.fb := rfl
@[simp] theorem pairCommit_x [Zero S] [DecidableEq S] (env : Over.Env S) (p : Pair) (s : Over.State S) : (pairCommit env p s).x = memWrite (memWrite s.x s.frm.specK.toNat (env.num.ofInt p.qa)) (s.frm.specK.toNat + 1) (env.num.ofInt p.qb) := rfl
@[simp] theorem pairCommit_scf [Zero S] [DecidableEq S] (env : Over.Env S) (p : Pair) (s : Over.State S) : (pairCommit env p s).scf = s.scf := rfl
@[simp] theorem pairCommit_tblk [Zero S] [DecidableEq S] (env : Over.Env S) (p : Pair) (s : Over.State S) : (pairCommit env p s).tblk = s.tblk := rfl
@[simp] theorem pairCommit_ola [Zero S] [DecidableEq S] (env : Over.Env S) (p : Pair) (s : Over.State S) : (pairCommit env p s).ola = s.ola := rfl
@[simp] theorem pairCommit_yh [Zero S] [DecidableEq S] (env : Over.Env S) (p : Pair) (s : Over.State S) : (pairCommit env p s).yh = s.yh := rfl
@[simp] theorem pairCommit_xt [Zero S] [DecidableEq S] (env : Over.Env S) (p : Pair) (s : Over.State S) : (pairCommit env p s).xt = s.xt := rfl
@[simp] theorem pairCommit_ltpfMem [Zero S] [DecidableEq S] (env : Over.Env S) (p : Pair) (s : Over.State S) : (pairCommit env p s).ltpfMem = s.ltpfMem := rfl
@[simp] theorem pairCommit_host [Zero S] [DecidableEq S] (env : Over.Env S) (p : Pair) (s : Over.State S) : (pairCommit env p s).host = s.host := rfl
@[simp] theorem pairCommit_rdata [Zero S] [DecidableEq S] (env : Over.Env S) (p : Pair) (s : Over.State S) : (pairCommit env p s).rdata = s.rdata := rfl

/-! `setTns` -/

@[simp] theorem setTns_cmd (s : Over.State S) (f : BitVec 1) (t : TnsFilter) : (setTns s f t).cmd = s.cmd := by
  unfold setTns; split <;> rfl
@[simp] theorem setTns_bec (s : Over.State S) (f : BitVec 1) (t : TnsFilter) : (setTns s f t).bec = s.bec := by
  unfold setTns; split <;> rfl
@[simp] theorem setTns_skip (s : Over.State S) (f : BitVec 1) (t : TnsFilter) : (setTns s f t).skip = s.skip := by
  unfold setTns; split <;> rfl
@[simp] theorem setTns_cfglock (s : Over.State S) (f : BitVec 1) (t : TnsFilter) : (setTns s f t).cfglock = s.cfglock := by
  unfold setTns; split <;> rfl
@[simp] theorem setTns_err (s : Over.State S) (f : BitVec 1) (t : TnsFilter) : (setTns s f t).err = s.err := by
  unfold setTns; split <;> rfl
@[simp] theorem setTns_cause (s : Over.State S) (f : BitVec 1) (t : TnsFilter) : (setTns s f t).cause = s.cause := by
  unfold setTns; split <;> rfl
@[simp] theorem setTns_res (s : Over.State S) (f : BitVec 1) (t : TnsFilter) : (setTns s f t).res = s.res := by
  unfold setTns; split <;> rfl
@[simp] theorem setTns_cfg (s : Over.State S) (f : BitVec 1) (t : TnsFilter) : (setTns s f t).cfg = s.cfg := by
  unfold setTns; split <;> rfl
@[simp] theorem setTns_fbLen (s : Over.State S) (f : BitVec 1) (t : TnsFilter) : (setTns s f t).fbLen = s.fbLen := by
  unfold setTns; split <;> rfl
@[simp] theorem setTns_reader (s : Over.State S) (f : BitVec 1) (t : TnsFilter) : (setTns s f t).reader = s.reader := by
  unfold setTns; split <;> rfl
@[simp] theorem setTns_coder (s : Over.State S) (f : BitVec 1) (t : TnsFilter) : (setTns s f t).coder = s.coder := by
  unfold setTns; split <;> rfl
@[simp] theorem setTns_fb (s : Over.State S) (f : BitVec 1) (t : TnsFilter) : (setTns s f t).fb = s.fb := by
  unfold setTns; split <;> rfl
@[simp] theorem setTns_x (s : Over.State S) (f : BitVec 1) (t : TnsFilter) : (setTns s f t).x = s.x := by
  unfold setTns; split <;> rfl
@[simp] theorem setTns_scf (s : Over.State S) (f : BitVec 1) (t : TnsFilter) : (setTns s f t).scf = s.scf := by
  unfold setTns; split <;> rfl
@[simp] theorem setTns_tblk (s : Over.State S) (f : BitVec 1) (t : TnsFilter) : (setTns s f t).tblk = s.tblk := by
  unfold setTns; split <;> rfl
@[simp] theorem setTns_ola (s : Over.State S) (f : BitVec 1) (t : TnsFilter) : (setTns s f t).ola = s.ola := by
  unfold setTns; split <;> rfl
@[simp] theorem setTns_yh (s : Over.State S) (f : BitVec 1) (t : TnsFilter) : (setTns s f t).yh = s.yh := by
  unfold setTns; split <;> rfl
@[simp] theorem setTns_xt (s : Over.State S) (f : BitVec 1) (t : TnsFilter) : (setTns s f t).xt = s.xt := by
  unfold setTns; split <;> rfl
@[simp] theorem setTns_ltpfMem (s : Over.State S) (f : BitVec 1) (t : TnsFilter) : (setTns s f t).ltpfMem = s.ltpfMem := by
  unfold setTns; split <;> rfl
@[simp] theorem setTns_host (s : Over.State S) (f : BitVec 1) (t : TnsFilter) : (setTns s f t).host = s.host := by
  unfold setTns; split <;> rfl
@[simp] theorem setTns_rdata (s : Over.State S) (f : BitVec 1) (t : TnsFilter) : (setTns s f t).rdata = s.rdata := by
  unfold setTns; split <;> rfl

/-! `setTnsOrder` -/

@[simp] theorem setTnsOrder_cmd (s : Over.State S) (f : BitVec 1) (n : Nat) : (setTnsOrder s f n).cmd = s.cmd := setTns_cmd _ _ _
@[simp] theorem setTnsOrder_bec (s : Over.State S) (f : BitVec 1) (n : Nat) : (setTnsOrder s f n).bec = s.bec := setTns_bec _ _ _
@[simp] theorem setTnsOrder_skip (s : Over.State S) (f : BitVec 1) (n : Nat) : (setTnsOrder s f n).skip = s.skip := setTns_skip _ _ _
@[simp] theorem setTnsOrder_cfglock (s : Over.State S) (f : BitVec 1) (n : Nat) : (setTnsOrder s f n).cfglock = s.cfglock := setTns_cfglock _ _ _
@[simp] theorem setTnsOrder_err (s : Over.State S) (f : BitVec 1) (n : Nat) : (setTnsOrder s f n).err = s.err := setTns_err _ _ _
@[simp] theorem setTnsOrder_cause (s : Over.State S) (f : BitVec 1) (n : Nat) : (setTnsOrder s f n).cause = s.cause := setTns_cause _ _ _
@[simp] theorem setTnsOrder_res (s : Over.State S) (f : BitVec 1) (n : Nat) : (setTnsOrder s f n).res = s.res := setTns_res _ _ _
@[simp] theorem setTnsOrder_cfg (s : Over.State S) (f : BitVec 1) (n : Nat) : (setTnsOrder s f n).cfg = s.cfg := setTns_cfg _ _ _
@[simp] theorem setTnsOrder_fbLen (s : Over.State S) (f : BitVec 1) (n : Nat) : (setTnsOrder s f n).fbLen = s.fbLen := setTns_fbLen _ _ _
@[simp] theorem setTnsOrder_reader (s : Over.State S) (f : BitVec 1) (n : Nat) : (setTnsOrder s f n).reader = s.reader := setTns_reader _ _ _
@[simp] theorem setTnsOrder_coder (s : Over.State S) (f : BitVec 1) (n : Nat) : (setTnsOrder s f n).coder = s.coder := setTns_coder _ _ _
@[simp] theorem setTnsOrder_fb (s : Over.State S) (f : BitVec 1) (n : Nat) : (setTnsOrder s f n).fb = s.fb := setTns_fb _ _ _
@[simp] theorem setTnsOrder_x (s : Over.State S) (f : BitVec 1) (n : Nat) : (setTnsOrder s f n).x = s.x := setTns_x _ _ _
@[simp] theorem setTnsOrder_scf (s : Over.State S) (f : BitVec 1) (n : Nat) : (setTnsOrder s f n).scf = s.scf := setTns_scf _ _ _
@[simp] theorem setTnsOrder_tblk (s : Over.State S) (f : BitVec 1) (n : Nat) : (setTnsOrder s f n).tblk = s.tblk := setTns_tblk _ _ _
@[simp] theorem setTnsOrder_ola (s : Over.State S) (f : BitVec 1) (n : Nat) : (setTnsOrder s f n).ola = s.ola := setTns_ola _ _ _
@[simp] theorem setTnsOrder_yh (s : Over.State S) (f : BitVec 1) (n : Nat) : (setTnsOrder s f n).yh = s.yh := setTns_yh _ _ _
@[simp] theorem setTnsOrder_xt (s : Over.State S) (f : BitVec 1) (n : Nat) : (setTnsOrder s f n).xt = s.xt := setTns_xt _ _ _
@[simp] theorem setTnsOrder_ltpfMem (s : Over.State S) (f : BitVec 1) (n : Nat) : (setTnsOrder s f n).ltpfMem = s.ltpfMem := setTns_ltpfMem _ _ _
@[simp] theorem setTnsOrder_host (s : Over.State S) (f : BitVec 1) (n : Nat) : (setTnsOrder s f n).host = s.host := setTns_host _ _ _
@[simp] theorem setTnsOrder_rdata (s : Over.State S) (f : BitVec 1) (n : Nat) : (setTnsOrder s f n).rdata = s.rdata := setTns_rdata _ _ _

/-! `setTnsRc` -/

@[simp] theorem setTnsRc_cmd (s : Over.State S) (f : BitVec 1) (j v : Nat) : (setTnsRc s f j v).cmd = s.cmd := setTns_cmd _ _ _
@[simp] theorem setTnsRc_bec (s : Over.State S) (f : BitVec 1) (j v : Nat) : (setTnsRc s f j v).bec = s.bec := setTns_bec _ _ _
@[simp] theorem setTnsRc_skip (s : Over.State S) (f : BitVec 1) (j v : Nat) : (setTnsRc s f j v).skip = s.skip := setTns_skip _ _ _
@[simp] theorem setTnsRc_cfglock (s : Over.State S) (f : BitVec 1) (j v : Nat) : (setTnsRc s f j v).cfglock = s.cfglock := setTns_cfglock _ _ _
@[simp] theorem setTnsRc_err (s : Over.State S) (f : BitVec 1) (j v : Nat) : (setTnsRc s f j v).err = s.err := setTns_err _ _ _
@[simp] theorem setTnsRc_cause (s : Over.State S) (f : BitVec 1) (j v : Nat) : (setTnsRc s f j v).cause = s.cause := setTns_cause _ _ _
@[simp] theorem setTnsRc_res (s : Over.State S) (f : BitVec 1) (j v : Nat) : (setTnsRc s f j v).res = s.res := setTns_res _ _ _
@[simp] theorem setTnsRc_cfg (s : Over.State S) (f : BitVec 1) (j v : Nat) : (setTnsRc s f j v).cfg = s.cfg := setTns_cfg _ _ _
@[simp] theorem setTnsRc_fbLen (s : Over.State S) (f : BitVec 1) (j v : Nat) : (setTnsRc s f j v).fbLen = s.fbLen := setTns_fbLen _ _ _
@[simp] theorem setTnsRc_reader (s : Over.State S) (f : BitVec 1) (j v : Nat) : (setTnsRc s f j v).reader = s.reader := setTns_reader _ _ _
@[simp] theorem setTnsRc_coder (s : Over.State S) (f : BitVec 1) (j v : Nat) : (setTnsRc s f j v).coder = s.coder := setTns_coder _ _ _
@[simp] theorem setTnsRc_fb (s : Over.State S) (f : BitVec 1) (j v : Nat) : (setTnsRc s f j v).fb = s.fb := setTns_fb _ _ _
@[simp] theorem setTnsRc_x (s : Over.State S) (f : BitVec 1) (j v : Nat) : (setTnsRc s f j v).x = s.x := setTns_x _ _ _
@[simp] theorem setTnsRc_scf (s : Over.State S) (f : BitVec 1) (j v : Nat) : (setTnsRc s f j v).scf = s.scf := setTns_scf _ _ _
@[simp] theorem setTnsRc_tblk (s : Over.State S) (f : BitVec 1) (j v : Nat) : (setTnsRc s f j v).tblk = s.tblk := setTns_tblk _ _ _
@[simp] theorem setTnsRc_ola (s : Over.State S) (f : BitVec 1) (j v : Nat) : (setTnsRc s f j v).ola = s.ola := setTns_ola _ _ _
@[simp] theorem setTnsRc_yh (s : Over.State S) (f : BitVec 1) (j v : Nat) : (setTnsRc s f j v).yh = s.yh := setTns_yh _ _ _
@[simp] theorem setTnsRc_xt (s : Over.State S) (f : BitVec 1) (j v : Nat) : (setTnsRc s f j v).xt = s.xt := setTns_xt _ _ _
@[simp] theorem setTnsRc_ltpfMem (s : Over.State S) (f : BitVec 1) (j v : Nat) : (setTnsRc s f j v).ltpfMem = s.ltpfMem := setTns_ltpfMem _ _ _
@[simp] theorem setTnsRc_host (s : Over.State S) (f : BitVec 1) (j v : Nat) : (setTnsRc s f j v).host = s.host := setTns_host _ _ _
@[simp] theorem setTnsRc_rdata (s : Over.State S) (f : BitVec 1) (j v : Nat) : (setTnsRc s f j v).rdata = s.rdata := setTns_rdata _ _ _

/-! `writeStatus` -/

@[simp] theorem writeStatus_cmd (v : Word) (s : Over.State S) : (writeStatus v s).cmd = s.cmd := by
  unfold writeStatus; split <;> rfl
@[simp] theorem writeStatus_skip (v : Word) (s : Over.State S) : (writeStatus v s).skip = s.skip := by
  unfold writeStatus; split <;> rfl
@[simp] theorem writeStatus_cfglock (v : Word) (s : Over.State S) : (writeStatus v s).cfglock = s.cfglock := by
  unfold writeStatus; split <;> rfl
@[simp] theorem writeStatus_err (v : Word) (s : Over.State S) : (writeStatus v s).err = s.err := by
  unfold writeStatus; split <;> rfl
@[simp] theorem writeStatus_res (v : Word) (s : Over.State S) : (writeStatus v s).res = s.res := by
  unfold writeStatus; split <;> rfl
@[simp] theorem writeStatus_cfg (v : Word) (s : Over.State S) : (writeStatus v s).cfg = s.cfg := by
  unfold writeStatus; split <;> rfl
@[simp] theorem writeStatus_fbLen (v : Word) (s : Over.State S) : (writeStatus v s).fbLen = s.fbLen := by
  unfold writeStatus; split <;> rfl
@[simp] theorem writeStatus_reader (v : Word) (s : Over.State S) : (writeStatus v s).reader = s.reader := by
  unfold writeStatus; split <;> rfl
@[simp] theorem writeStatus_coder (v : Word) (s : Over.State S) : (writeStatus v s).coder = s.coder := by
  unfold writeStatus; split <;> rfl
@[simp] theorem writeStatus_frm (v : Word) (s : Over.State S) : (writeStatus v s).frm = s.frm := by
  unfold writeStatus; split <;> rfl
@[simp] theorem writeStatus_fb (v : Word) (s : Over.State S) : (writeStatus v s).fb = s.fb := by
  unfold writeStatus; split <;> rfl
@[simp] theorem writeStatus_x (v : Word) (s : Over.State S) : (writeStatus v s).x = s.x := by
  unfold writeStatus; split <;> rfl
@[simp] theorem writeStatus_scf (v : Word) (s : Over.State S) : (writeStatus v s).scf = s.scf := by
  unfold writeStatus; split <;> rfl
@[simp] theorem writeStatus_tblk (v : Word) (s : Over.State S) : (writeStatus v s).tblk = s.tblk := by
  unfold writeStatus; split <;> rfl
@[simp] theorem writeStatus_ola (v : Word) (s : Over.State S) : (writeStatus v s).ola = s.ola := by
  unfold writeStatus; split <;> rfl
@[simp] theorem writeStatus_yh (v : Word) (s : Over.State S) : (writeStatus v s).yh = s.yh := by
  unfold writeStatus; split <;> rfl
@[simp] theorem writeStatus_xt (v : Word) (s : Over.State S) : (writeStatus v s).xt = s.xt := by
  unfold writeStatus; split <;> rfl
@[simp] theorem writeStatus_ltpfMem (v : Word) (s : Over.State S) : (writeStatus v s).ltpfMem = s.ltpfMem := by
  unfold writeStatus; split <;> rfl
@[simp] theorem writeStatus_host (v : Word) (s : Over.State S) : (writeStatus v s).host = s.host := by
  unfold writeStatus; split <;> rfl
@[simp] theorem writeStatus_rdata (v : Word) (s : Over.State S) : (writeStatus v s).rdata = s.rdata := by
  unfold writeStatus; split <;> rfl

/-! `ifUnlocked` -/

@[simp] theorem ifUnlocked_cmd (s : Over.State S) (c : Over.CfgRegs S) : (ifUnlocked s c).cmd = s.cmd := by
  unfold ifUnlocked; split <;> rfl
@[simp] theorem ifUnlocked_bec (s : Over.State S) (c : Over.CfgRegs S) : (ifUnlocked s c).bec = s.bec := by
  unfold ifUnlocked; split <;> rfl
@[simp] theorem ifUnlocked_skip (s : Over.State S) (c : Over.CfgRegs S) : (ifUnlocked s c).skip = s.skip := by
  unfold ifUnlocked; split <;> rfl
@[simp] theorem ifUnlocked_cfglock (s : Over.State S) (c : Over.CfgRegs S) : (ifUnlocked s c).cfglock = s.cfglock := by
  unfold ifUnlocked; split <;> rfl
@[simp] theorem ifUnlocked_err (s : Over.State S) (c : Over.CfgRegs S) : (ifUnlocked s c).err = s.err := by
  unfold ifUnlocked; split <;> rfl
@[simp] theorem ifUnlocked_cause (s : Over.State S) (c : Over.CfgRegs S) : (ifUnlocked s c).cause = s.cause := by
  unfold ifUnlocked; split <;> rfl
@[simp] theorem ifUnlocked_res (s : Over.State S) (c : Over.CfgRegs S) : (ifUnlocked s c).res = s.res := by
  unfold ifUnlocked; split <;> rfl
@[simp] theorem ifUnlocked_fbLen (s : Over.State S) (c : Over.CfgRegs S) : (ifUnlocked s c).fbLen = s.fbLen := by
  unfold ifUnlocked; split <;> rfl
@[simp] theorem ifUnlocked_reader (s : Over.State S) (c : Over.CfgRegs S) : (ifUnlocked s c).reader = s.reader := by
  unfold ifUnlocked; split <;> rfl
@[simp] theorem ifUnlocked_coder (s : Over.State S) (c : Over.CfgRegs S) : (ifUnlocked s c).coder = s.coder := by
  unfold ifUnlocked; split <;> rfl
@[simp] theorem ifUnlocked_frm (s : Over.State S) (c : Over.CfgRegs S) : (ifUnlocked s c).frm = s.frm := by
  unfold ifUnlocked; split <;> rfl
@[simp] theorem ifUnlocked_fb (s : Over.State S) (c : Over.CfgRegs S) : (ifUnlocked s c).fb = s.fb := by
  unfold ifUnlocked; split <;> rfl
@[simp] theorem ifUnlocked_x (s : Over.State S) (c : Over.CfgRegs S) : (ifUnlocked s c).x = s.x := by
  unfold ifUnlocked; split <;> rfl
@[simp] theorem ifUnlocked_scf (s : Over.State S) (c : Over.CfgRegs S) : (ifUnlocked s c).scf = s.scf := by
  unfold ifUnlocked; split <;> rfl
@[simp] theorem ifUnlocked_tblk (s : Over.State S) (c : Over.CfgRegs S) : (ifUnlocked s c).tblk = s.tblk := by
  unfold ifUnlocked; split <;> rfl
@[simp] theorem ifUnlocked_ola (s : Over.State S) (c : Over.CfgRegs S) : (ifUnlocked s c).ola = s.ola := by
  unfold ifUnlocked; split <;> rfl
@[simp] theorem ifUnlocked_yh (s : Over.State S) (c : Over.CfgRegs S) : (ifUnlocked s c).yh = s.yh := by
  unfold ifUnlocked; split <;> rfl
@[simp] theorem ifUnlocked_xt (s : Over.State S) (c : Over.CfgRegs S) : (ifUnlocked s c).xt = s.xt := by
  unfold ifUnlocked; split <;> rfl
@[simp] theorem ifUnlocked_ltpfMem (s : Over.State S) (c : Over.CfgRegs S) : (ifUnlocked s c).ltpfMem = s.ltpfMem := by
  unfold ifUnlocked; split <;> rfl
@[simp] theorem ifUnlocked_host (s : Over.State S) (c : Over.CfgRegs S) : (ifUnlocked s c).host = s.host := by
  unfold ifUnlocked; split <;> rfl
@[simp] theorem ifUnlocked_rdata (s : Over.State S) (c : Over.CfgRegs S) : (ifUnlocked s c).rdata = s.rdata := by
  unfold ifUnlocked; split <;> rfl

/-! The registers of a TNS filter -/

theorem tnsOf_setTns (s : Over.State S) (f : BitVec 1) (t : TnsFilter) : tnsOf (setTns s f t) f = t := by
  unfold tnsOf setTns; split <;> rfl

theorem filter_cases : ∀ f : BitVec 1, f = 0#1 ∨ f = 1#1 := by decide

theorem tnsOf_setTns_of_ne (s : Over.State S) {f g : BitVec 1} (h : g ≠ f) (t : TnsFilter) :
    tnsOf (setTns s f t) g = tnsOf s g := by
  rcases filter_cases f with rfl | rfl <;> rcases filter_cases g with rfl | rfl <;> simp_all [tnsOf, setTns]

/-- Replacing the registers of a filter changes nothing but the two banks of filter registers. -/
theorem setTns_eq (s : Over.State S) (f : BitVec 1) (t : TnsFilter) :
    setTns s f t =
      { s with frm := { s.frm with tns0 := (setTns s f t).frm.tns0, tns1 := (setTns s f t).frm.tns1 } } := by
  unfold setTns; split <;> rfl

@[simp] theorem setTns_frm_lowRate (s : Over.State S) (f : BitVec 1) (t : TnsFilter) :
    (setTns s f t).frm.lowRate = s.frm.lowRate := by
  unfold setTns; split <;> rfl

end Sys2Proof.Machine
end

