-- ==== Sys2Proof/Laws/Admission.lean ====
section
/-! SUPPORT. What admission can do (R120, steps 4 to 6), each command as its body behind admission, and the two outcomes
of a part of a command that may raise. -/

namespace Sys2Proof.Machine

open Sys2Proof

/-! ### Admission -/

/-- Everything admission can do: a bad operand, no configuration, the gate, or the command itself. -/
theorem admission_outcome (env : Env) (i : Instr) (body : State → State) (s : State) :
    (i.wellFormed env.rom.nspec = false ∧ admission env i body s = failErr .badfield s) ∨
      (i.wellFormed env.rom.nspec = true ∧ needsConfig i = true ∧ s.cfglock = false ∧
        admission env i body s = failErr .nocfg s) ∨
      (i.wellFormed env.rom.nspec = true ∧ (needsConfig i = true → s.cfglock = true) ∧ decodeClass i = true ∧
        s.bec = true ∧ admission env i body s = skipGated s) ∨
      (i.wellFormed env.rom.nspec = true ∧ (needsConfig i = true → s.cfglock = true) ∧
        (decodeClass i = true → s.bec = false) ∧ admission env i body s = body s) := by
  unfold admission
  cases i.wellFormed env.rom.nspec <;> cases needsConfig i <;> cases s.cfglock <;> cases decodeClass i <;>
    cases s.bec <;> simp

/-- A command with its operands in range, on an open frame, is executed. -/
theorem admission_of_open {env : Env} {i : Instr} {s : State} (body : State → State)
    (hw : i.wellFormed env.rom.nspec = true) (ho : Open s) : admission env i body s = body s := by
  unfold admission
  simp [hw, ho.locked, ho.good]

/-- A command that is not decode-class is executed on any locked state, whatever `BEC` is. -/
theorem admission_of_locked {env : Env} {i : Instr} {s : State} (body : State → State)
    (hw : i.wellFormed env.rom.nspec = true) (hd : decodeClass i = false) (hl : s.cfglock = true) :
    admission env i body s = body s := by
  unfold admission
  simp [hw, hd, hl]

theorem decodeClass_needsConfig {i : Instr} (h : decodeClass i = true) : needsConfig i = true := by
  cases i <;> simp_all [decodeClass, needsConfig]

/-! ### The commands -/

theorem exec_nop (s : State) : exec .nop s = .next (admission Config.env .nop (finish 0) s) := rfl
theorem exec_cfglock (s : State) : exec .cfglock s = .next (admission Config.env .cfglock (cfglockBody Config.env) s) := rfl
theorem exec_finit (loss : Bool) (len : BitVec 9) (s : State) :
    exec (.finit loss len) s = .next (admission Config.env (.finit loss len) (finitBody loss len) s) := rfl
theorem exec_sreset (s : State) : exec .sreset s = .next (admission Config.env .sreset sresetBody s) := rfl
theorem exec_brbit (s : State) : exec .brbit s = .next (admission Config.env .brbit (readResult 1) s) := rfl
theorem exec_bruint (n : BitVec 6) (s : State) :
    exec (.bruint n) s = .next (admission Config.env (.bruint n) (readResult n.toNat) s) := rfl
theorem exec_brsync (s : State) : exec .brsync s = .next (admission Config.env .brsync brsyncBody s) := rfl
theorem exec_acdec (m : BitVec 8) (s : State) :
    exec (.acdec m) s = .next (admission Config.env (.acdec m) (acdecBody Config.env m) s) := rfl
theorem exec_actns (f : BitVec 1) (s : State) :
    exec (.actns f) s = .next (admission Config.env (.actns f) (actnsBody Config.env f) s) := rfl
theorem exec_acpair (s : State) : exec .acpair s = .next (admission Config.env .acpair (acpairBody Config.env) s) := rfl
theorem exec_nfill (s : State) : exec .nfill s = .next (admission Config.env .nfill (nfillBody Config.env) s) := rfl
theorem exec_ggain (s : State) : exec .ggain s = .next (admission Config.env .ggain (ggainBody Config.env) s) := rfl
theorem exec_tnssyn (s : State) : exec .tnssyn s = .next (admission Config.env .tnssyn (tnssynBody Config.env) s) := rfl
theorem exec_snssyn (s : State) : exec .snssyn s = .next (admission Config.env .snssyn (snssynBody Config.env) s) := rfl
theorem exec_imdct (s : State) : exec .imdct s = .next (admission Config.env .imdct (imdctBody Config.env) s) := rfl
theorem exec_ltpf (s : State) : exec .ltpf s = .next (admission Config.env .ltpf (ltpfBody Config.env) s) := rfl

/-! ### Parts that may raise -/

@[simp] theorem ranBind_ok {α β : Type} (a : α) (s : State) (k : α → State → Ran β Sample) :
    ranBind (.ok a s) k = k a s := rfl

@[simp] theorem ranBind_raised {α β : Type} (c : Cause) (s : State) (k : α → State → Ran β Sample) :
    ranBind (.raised c s : Ran α Sample) k = .raised c s := rfl

/-- A sequence that completes: both parts complete. -/
theorem ranBind_eq_ok {α β : Type} {r : Ran α Sample} {k : α → State → Ran β Sample} {b : β} {s' : State}
    (h : ranBind r k = .ok b s') : ∃ a s, r = .ok a s ∧ k a s = .ok b s' := by
  cases r with
  | ok a s => exact ⟨a, s, rfl, h⟩
  | raised c s => cases h

/-- A sequence that raises: its first part raises, or it completes and the rest raises. -/
theorem ranBind_eq_raised {α β : Type} {r : Ran α Sample} {k : α → State → Ran β Sample} {c : Cause} {s' : State}
    (h : ranBind r k = .raised c s') : r = .raised c s' ∨ ∃ a s, r = .ok a s ∧ k a s = .raised c s' := by
  cases r with
  | ok a s => exact .inr ⟨a, s, rfl, h⟩
  | raised c s => cases h; exact .inl rfl

end Sys2Proof.Machine
end

