-- ==== Sys2Proof/Laws/Coder.lean ====
section
/-! SUPPORT. The arithmetic decoder: the symbol of a slice (R17, R164), renormalisation (R165), and everything a decode step
can do. -/

namespace Sys2Proof.Machine

open Sys2Proof

/-! ### Well-formed models (R17) -/

/-- R17, clause by clause. -/
structure ModelOk (m : Model) : Prop where
  nsym_pos : 1 ≤ m.nsym
  nsym_le : m.nsym ≤ 32
  cum_zero : m.cumfreq 0 = 0
  freq_pos : ∀ s, s < m.nsym → 1 ≤ m.symfreq s
  cum_succ : ∀ s, s + 1 < m.nsym → m.cumfreq (s + 1) = m.cumfreq s + m.symfreq s
  total : m.cumfreq (m.nsym - 1) + m.symfreq (m.nsym - 1) = 1024
  lut_lt : ∀ slice, slice < 1024 → m.lut (slice >>> m.lutshift) < m.nsym
  lut_top : ∀ slice, slice < 1024 →
    slice < m.cumfreq (m.lut (slice >>> m.lutshift)) + m.symfreq (m.lut (slice >>> m.lutshift))

theorem modelOk_of_wf {m : Model} (h : m.wf = true) : ModelOk m := by
  simp only [Model.wf, Bool.and_eq_true, decide_eq_true_eq, beq_iff_eq, List.all_eq_true, List.mem_range] at h
  obtain ⟨⟨⟨⟨⟨⟨⟨h1, h2⟩, h3⟩, h4⟩, h5⟩, h6⟩, _⟩, h8⟩ := h
  exact ⟨h1, h2, h3, h4, fun s hs => h5 s (by omega), h6, fun s hs => (h8 s hs).1, fun s hs => (h8 s hs).2⟩

theorem wf_modelOk {env : Env} (h : env.Wf) {m : Nat} (hm : m < env.rom.nspec + 18) :
    ModelOk (env.rom.model m) := by
  have hr := h.rom
  simp only [Over.Rom.wf, Bool.and_eq_true, List.all_eq_true, List.mem_range] at hr
  exact modelOk_of_wf (hr.1.1.2 m hm)

theorem wf_nspec_pos {env : Env} (h : env.Wf) : 1 ≤ env.rom.nspec := by
  have hr := h.rom
  simp only [Over.Rom.wf, Bool.and_eq_true, decide_eq_true_eq] at hr
  exact hr.1.1.1

theorem wf_specLookup_lt {env : Env} (h : env.Wf) {i : Nat} (hi : i < 4096) :
    env.rom.specLookup i < env.rom.nspec := by
  have hr := h.rom
  simp only [Over.Rom.wf, Bool.and_eq_true, decide_eq_true_eq, List.all_eq_true, List.mem_range] at hr
  exact hr.2 i hi

theorem wf_spectral_nsym {env : Env} (h : env.Wf) {m : Nat} (hm : m < env.rom.nspec) :
    (env.rom.model m).nsym = 17 := by
  have hr := h.rom
  simp only [Over.Rom.wf, Bool.and_eq_true, beq_iff_eq, List.all_eq_true, List.mem_range] at hr
  exact hr.1.2 m hm

namespace ModelOk

variable {m : Model}

/-- Cumulative frequencies rise by at least the frequencies between. -/
theorem cum_le (h : ModelOk m) {s t : Nat} (hst : s < t) (ht : t < m.nsym) :
    m.cumfreq s + m.symfreq s ≤ m.cumfreq t := by
  induction t with
  | zero => omega
  | succ t ih =>
    rw [h.cum_succ t ht]
    rcases Nat.lt_or_ge s t with hlt | hge
    · have := ih hlt (by omega)
      omega
    · have : s = t := by omega
      subst this
      exact le_refl _

/-- No cumulative frequency passes 1024. -/
theorem top_le (h : ModelOk m) {s : Nat} (hs : s < m.nsym) : m.cumfreq s + m.symfreq s ≤ 1024 := by
  rcases Nat.lt_or_ge s (m.nsym - 1) with hlt | hge
  · have := h.cum_le hlt (by omega)
    have := h.total
    omega
  · have : s = m.nsym - 1 := by omega
    rw [this, h.total]

/-- R164: the symbol of a slice is unique. -/
theorem symbol_unique (h : ModelOk m) {slice s t : Nat} (hs : SymbolOf m slice s) (ht : SymbolOf m slice t) : s = t := by
  rcases Nat.lt_trichotomy s t with hlt | heq | hgt
  · have := h.cum_le hlt ht.1
    have := hs.2.2
    have := ht.2.1
    omega
  · exact heq
  · have := h.cum_le hgt hs.1
    have := hs.2.1
    have := ht.2.2
    omega

/-- R164: the backward scan from a candidate at or above the symbol ends at the symbol. -/
theorem scanBack_spec (h : ModelOk m) {slice : Nat} : ∀ s, s < m.nsym → slice < m.cumfreq s + m.symfreq s →
    SymbolOf m slice (scanBack m slice s)
  | 0, hs, ht => ⟨hs, by simp [scanBack, h.cum_zero], ht⟩
  | s + 1, hs, ht => by
    simp only [scanBack]
    split
    · rename_i hlt
      exact h.scanBack_spec s (by omega) (by rw [h.cum_succ s hs] at hlt; exact hlt)
    · exact ⟨hs, by omega, ht⟩

/-- R164: the symbol of a slice below 1024. -/
theorem acSymbol_spec (h : ModelOk m) {slice : Nat} (hs : slice < 1024) : SymbolOf m slice (acSymbol m slice) :=
  h.scanBack_spec _ (h.lut_lt slice hs) (h.lut_top slice hs)

/-- The first symbol is that of slice 0, whatever the model. -/
theorem symbol_zero (h : ModelOk m) : SymbolOf m 0 0 :=
  ⟨h.nsym_pos, by rw [h.cum_zero], by have := h.freq_pos 0 h.nsym_pos; omega⟩

end ModelOk

/-! ### Renormalisation -/

/-- R165: a pass that runs shifts one byte in; a code value below the range stays below it (R168). -/
theorem renormPass_run {s : State} {c : Coder} (h : c.range.toNat < 0x10000) (hl : c.low.toNat < c.range.toNat) :
    (renormPass s c).range.toNat = 256 * c.range.toNat ∧
      (renormPass s c).low.toNat = 256 * c.low.toNat + (acByte s c.cur.toNat).toNat ∧
      (renormPass s c).cur.toNat = min (c.cur.toNat + 1) 0xFFFF ∧
      (renormPass s c).low.toNat < (renormPass s c).range.toNat := by
  have hb := (acByte s c.cur.toNat).isLt
  have hr : (renormPass s c).range.toNat = 256 * c.range.toNat := by
    simp only [renormPass, if_pos h, BitVec.toNat_shiftLeft, Nat.shiftLeft_eq]
    omega
  have hlow : (renormPass s c).low.toNat = 256 * c.low.toNat + (acByte s c.cur.toNat).toNat := by
    simp only [renormPass, if_pos h, BitVec.toNat_or, BitVec.toNat_shiftLeft, BitVec.toNat_setWidth]
    have e1 : c.low.toNat <<< 8 % 2 ^ 24 = c.low.toNat <<< 8 := by
      rw [Nat.shiftLeft_eq]; omega
    have e2 : (acByte s c.cur.toNat).toNat % 2 ^ 24 = (acByte s c.cur.toNat).toNat := by omega
    rw [e1, e2, Nat.shiftLeft_eq, Nat.mul_comm, ← Nat.two_pow_add_eq_or_of_lt hb]
  have hcur : (renormPass s c).cur.toNat = min (c.cur.toNat + 1) 0xFFFF := by
    simp only [renormPass, if_pos h]
    split
    · rename_i he
      rw [he]; rfl
    · rename_i he
      have hlt := c.cur.isLt
      have hne : c.cur.toNat ≠ 0xFFFF := fun hh => he (BitVec.eq_of_toNat_eq hh)
      have h1 : (1 : BitVec 16).toNat = 1 := rfl
      rw [BitVec.toNat_add, h1]
      omega
  exact ⟨hr, hlow, hcur, by omega⟩

/-- R165: a pass on a renormalised coder does nothing. -/
theorem renormPass_stop {s : State} {c : Coder} (h : 0x10000 ≤ c.range.toNat) : renormPass s c = c := by
  simp only [renormPass, if_neg (Nat.not_lt.mpr h)]

/-- R166: a cursor at the end of its 16 bits is past the frame. -/
theorem acByte_saturated (s : State) (i : Nat) : acByte s (min i 0xFFFF) = acByte s i := by
  have hf := s.fbLen.isLt
  unfold acByte
  by_cases h : i < s.fbLen.toNat
  · have e : min i 0xFFFF = i := by omega
    rw [e]
  · rw [if_neg h, if_neg (by omega)]

/-- R165, R168: renormalisation of a range of at least 1 shifts in `k` bytes, `k` at most 2 and no more than needed. -/
theorem renorm_spec {s : State} {c : Coder} (h1 : 1 ≤ c.range.toNat) (hl : c.low.toNat < c.range.toNat) :
    (renorm s c).low.toNat < (renorm s c).range.toNat ∧
    ∃ k, k ≤ 2 ∧ (k ≠ 0 → c.range.toNat * 256 ^ (k - 1) < 0x10000) ∧ 0x10000 ≤ (renorm s c).range.toNat ∧
      (renorm s c).range.toNat = c.range.toNat * 256 ^ k ∧
      (renorm s c).low.toNat = shiftedLow s c.low.toNat c.cur.toNat k ∧
      (renorm s c).cur.toNat = min (c.cur.toNat + k) 0xFFFF := by
  by_cases h : c.range.toNat < 0x10000
  · obtain ⟨r1, l1, u1, lt1⟩ := renormPass_run (s := s) h hl
    by_cases h' : (renormPass s c).range.toNat < 0x10000
    · obtain ⟨r2, l2, u2, lt2⟩ := renormPass_run (s := s) h' lt1
      have e : renorm s c = renormPass s (renormPass s c) := rfl
      rw [e]
      have g1 : c.range.toNat * 256 ^ (2 - 1) < 0x10000 := by
        rw [r1] at h'; norm_num; omega
      have g2 : 0x10000 ≤ (renormPass s (renormPass s c)).range.toNat := by
        rw [r2, r1]; omega
      have g3 : (renormPass s (renormPass s c)).range.toNat = c.range.toNat * 256 ^ 2 := by
        rw [r2, r1]; ring
      have g4 : (renormPass s (renormPass s c)).low.toNat = shiftedLow s c.low.toNat c.cur.toNat 2 := by
        rw [l2, l1, u1, acByte_saturated]
        simp only [shiftedLow, Nat.add_zero]
      have g5 : (renormPass s (renormPass s c)).cur.toNat = min (c.cur.toNat + 2) 0xFFFF := by
        have key : ∀ a b : Nat, min (min (a + 1) b + 1) b = min (a + 2) b := by omega
        rw [u2, u1, key]
      exact ⟨lt2, 2, le_refl _, fun _ => g1, g2, g3, g4, g5⟩
    · have e : renorm s c = renormPass s c := renormPass_stop (Nat.not_lt.mp h')
      rw [e]
      refine ⟨lt1, 1, by decide, fun _ => by simpa using h, Nat.not_lt.mp h', by rw [r1]; ring, ?_, u1⟩
      rw [l1]
      simp only [shiftedLow, Nat.add_zero]
  · have e0 : renormPass s c = c := renormPass_stop (Nat.not_lt.mp h)
    have e : renorm s c = c := by unfold renorm; rw [e0, e0]
    have hcur := c.cur.isLt
    rw [e]
    exact ⟨hl, 0, by decide, fun hk => absurd rfl hk, Nat.not_lt.mp h, by ring, rfl, by omega⟩

/-! ### The decode step -/

/-- R164: the coder after the interval is narrowed to the symbol of its slice, as integers. -/
theorem acNarrow_spec {m : Model} (hm : ModelOk m) {c : Coder} {sym : Nat} (hr : 0x10000 ≤ c.range.toNat)
    (hsym : SymbolOf m (c.low.toNat / (c.range.toNat / 1024)) sym) :
    (acNarrow m sym c).range.toNat = c.range.toNat / 1024 * m.symfreq sym ∧
      (acNarrow m sym c).low.toNat = c.low.toNat - c.range.toNat / 1024 * m.cumfreq sym ∧
      (acNarrow m sym c).cur = c.cur ∧
      (acNarrow m sym c).low.toNat < (acNarrow m sym c).range.toNat ∧ 1 ≤ (acNarrow m sym c).range.toNat := by
  have hlt := c.range.isLt
  have hll := c.low.isLt
  have hsc : acScale c = c.range.toNat / 1024 := by
    simp [acScale, Nat.shiftRight_eq_div_pow]
  have htop := hm.top_le hsym.1
  have hpos := hm.freq_pos sym hsym.1
  obtain ⟨_, hlo, hhi⟩ := hsym
  generalize hS : c.range.toNat / 1024 = S at *
  have hS64 : 64 ≤ S := by omega
  have hlr : c.low.toNat / S < m.cumfreq sym + m.symfreq sym := hhi
  have hSle : S * 1024 ≤ c.range.toNat := by omega
  have hb1 : S * m.symfreq sym ≤ S * 1024 := Nat.mul_le_mul_left _ (by omega)
  have hb2 : S ≤ S * m.symfreq sym := Nat.le_mul_of_pos_right _ (by omega)
  have hb3 : c.low.toNat < S * (c.low.toNat / S + 1) := by
    rw [Nat.mul_comm]
    exact Nat.lt_mul_of_div_lt (by omega) (by omega)
  have hb4 : S * (c.low.toNat / S + 1) ≤ S * (m.cumfreq sym + m.symfreq sym) := Nat.mul_le_mul_left _ (by omega)
  have hb5 : S * m.cumfreq sym ≤ S * (c.low.toNat / S) := Nat.mul_le_mul_left _ hlo
  have hb6 : S * (c.low.toNat / S) ≤ c.low.toNat := Nat.mul_div_le _ _
  have hb7 := Nat.mul_add S (m.cumfreq sym) (m.symfreq sym)
  have e1 : (acNarrow m sym c).range.toNat = S * m.symfreq sym := by
    simp only [acNarrow, BitVec.toNat_ofNat, hsc]
    rw [Nat.mod_eq_of_lt (by omega)]
  have e2 : (acNarrow m sym c).low.toNat = c.low.toNat - S * m.cumfreq sym := by
    simp only [acNarrow, BitVec.toNat_ofNat, hsc]
    rw [Nat.mod_eq_of_lt (by omega)]
  exact ⟨e1, e2, rfl, by omega, by omega⟩

/-- R164, R168: a decode step of a renormalised coder on a code value inside the interval, with a slice below 1024. -/
theorem acStep_ok {env : Env} (he : env.Wf) {m : Nat} (hm : m < env.rom.nspec + 18) {s : State}
    (hr : 0x10000 ≤ s.coder.range.toNat) (hl : s.coder.low < s.coder.range)
    (hs : s.coder.low.toNat / (s.coder.range.toNat / 1024) < 1024) :
    ∃ sym c', acStep env m s = .ok sym { s with coder := c' } ∧ DecodesTo (env.rom.model m) s s.coder sym c' ∧
      c'.low < c'.range := by
  have hsc : acScale s.coder = s.coder.range.toNat / 1024 := by simp [acScale, Nat.shiftRight_eq_div_pow]
  have hsl : acSlice s.coder = s.coder.low.toNat / (s.coder.range.toNat / 1024) := by
    unfold acSlice
    rw [hsc, if_neg (by omega)]
  have hok := wf_modelOk he hm
  have hsym := hok.acSymbol_spec hs
  obtain ⟨n1, n2, n3, n4, n5⟩ := acNarrow_spec hok hr hsym
  obtain ⟨hlt, k, hk, hk1, hk2, hk3, hk4, hk5⟩ := renorm_spec (s := s) n5 n4
  refine ⟨_, _, ?_, ⟨hl, hs, hsym, k, hk, ?_, hk2, ?_, ?_, ?_⟩, BitVec.lt_def.mpr hlt⟩
  · unfold acStep
    rw [if_neg (by simpa using hl), hsl, if_neg (by omega)]
  · rwa [n1] at hk1
  · rw [hk3, n1]
  · rw [hk4, n2, n3]
  · rw [hk5, n3]

/-- R163, R164: everything a decode step of a renormalised coder can do. -/
theorem acStep_outcome {env : Env} (he : env.Wf) {m : Nat} (hm : m < env.rom.nspec + 18) {s : State}
    (hr : 0x10000 ≤ s.coder.range.toNat) :
    (s.coder.range ≤ s.coder.low ∧ acStep env m s = .raised .acinv s) ∨
    (s.coder.low < s.coder.range ∧ 1024 ≤ s.coder.low.toNat / (s.coder.range.toNat / 1024) ∧
      acStep env m s = .raised .acslice s) ∨
    (s.coder.low < s.coder.range ∧ s.coder.low.toNat / (s.coder.range.toNat / 1024) < 1024 ∧
      ∃ sym c', acStep env m s = .ok sym { s with coder := c' } ∧ DecodesTo (env.rom.model m) s s.coder sym c' ∧
        c'.low < c'.range) := by
  by_cases hl : s.coder.range ≤ s.coder.low
  · exact .inl ⟨hl, by unfold acStep; rw [if_pos hl]⟩
  · have hl' : s.coder.low < s.coder.range := by simpa using hl
    by_cases hs : s.coder.low.toNat / (s.coder.range.toNat / 1024) < 1024
    · exact .inr (.inr ⟨hl', hs, acStep_ok he hm hr hl' hs⟩)
    · refine .inr (.inl ⟨hl', by omega, ?_⟩)
      have hsc : acScale s.coder = s.coder.range.toNat / 1024 := by simp [acScale, Nat.shiftRight_eq_div_pow]
      have hsl : acSlice s.coder = s.coder.low.toNat / (s.coder.range.toNat / 1024) := by
        unfold acSlice
        rw [hsc, if_neg (by omega)]
      unfold acStep
      rw [if_neg hl, hsl, if_pos (by omega)]

/-- A decode step of a well-formed model leads to one symbol and one coder. -/
theorem DecodesTo.unique {m : Model} (hm : ModelOk m) {s : State} {c : Coder} {sym sym' : Nat} {c' c'' : Coder}
    (h : DecodesTo m s c sym c') (h' : DecodesTo m s c sym' c'') : sym = sym' ∧ c' = c'' := by
  obtain ⟨_, _, hs, k, hk, hk1, hk2, hk3, hk4, hk5⟩ := h
  obtain ⟨_, _, hs', j, hj, hj1, hj2, hj3, hj4, hj5⟩ := h'
  have he := hm.symbol_unique hs hs'
  subst he
  generalize c.range.toNat / 1024 * m.symfreq sym = R at *
  have hjk : j = k := by
    have hj' : j = 0 ∨ j = 1 ∨ j = 2 := by omega
    have hk' : k = 0 ∨ k = 1 ∨ k = 2 := by omega
    rcases hj' with rfl | rfl | rfl <;> rcases hk' with rfl | rfl | rfl <;> simp_all <;> omega
  subst hjk
  refine ⟨rfl, ?_⟩
  obtain ⟨l1, r1, u1⟩ := c'
  obtain ⟨l2, r2, u2⟩ := c''
  simp only [Coder.mk.injEq]
  exact ⟨BitVec.eq_of_toNat_eq (by simp_all), BitVec.eq_of_toNat_eq (by simp_all), BitVec.eq_of_toNat_eq (by simp_all)⟩

/-- The step the model takes is the step the relation describes. -/
theorem acStep_of_decodesTo {env : Env} (he : env.Wf) {m : Nat} (hm : m < env.rom.nspec + 18) {s : State} {sym : Nat}
    {c' : Coder} (hr : 0x10000 ≤ s.coder.range.toNat) (h : DecodesTo (env.rom.model m) s s.coder sym c') :
    acStep env m s = .ok sym { s with coder := c' } := by
  obtain ⟨sym', c'', h1, h2, _⟩ := acStep_ok he hm hr h.1 h.2.1
  obtain ⟨rfl, rfl⟩ := DecodesTo.unique (wf_modelOk he hm) h h2
  exact h1

/-- The decode step reads nothing of the state but the frame buffer, its length and the coder. -/
theorem DecodesTo.congr {m : Model} {s t : State} {c : Coder} {sym : Nat} {c' : Coder} (h : DecodesTo m s c sym c')
    (hf : t.fb = s.fb) (hlen : t.fbLen = s.fbLen) : DecodesTo m t c sym c' := by
  have hb : ∀ i, acByte t i = acByte s i := by
    intro i; unfold acByte fbByte; rw [hf, hlen]
  have hsh : ∀ low cur k, shiftedLow t low cur k = shiftedLow s low cur k := by
    intro low cur k
    induction k with
    | zero => rfl
    | succ k ih => simp only [shiftedLow, ih, hb]
  obtain ⟨h1, h2, h3, k, hk, hk1, hk2, hk3, hk4, hk5⟩ := h
  exact ⟨h1, h2, h3, k, hk, hk1, hk2, hk3, by rw [hsh]; exact hk4, hk5⟩

/-- After a step the cursor is where it was or further on. -/
theorem DecodesTo.front {m : Model} {s : State} {c : Coder} {sym : Nat} {c' : Coder} (h : DecodesTo m s c sym c')
    (hc : 3 ≤ c.cur.toNat) : 3 ≤ c'.cur.toNat := by
  obtain ⟨_, _, _, k, _, _, _, _, _, hk5⟩ := h
  omega

theorem DecodesTo.range_ge {m : Model} {s : State} {c : Coder} {sym : Nat} {c' : Coder} (h : DecodesTo m s c sym c') :
    0x10000 ≤ c'.range.toNat := by
  obtain ⟨_, _, _, k, _, _, hk2, _, _, _⟩ := h
  exact hk2

/-- R163, R164: a decode step that raises. -/
theorem acStep_of_raisesAt {env : Env} (he : env.Wf) {m : Nat} (hm : m < env.rom.nspec + 18) {s : State} {cause : Cause}
    (hr : 0x10000 ≤ s.coder.range.toNat) (h : RaisesAt s.coder cause) : acStep env m s = .raised cause s := by
  rcases h with ⟨rfl, h⟩ | ⟨rfl, h1, h2⟩ <;> rcases acStep_outcome he hm hr with ⟨a, b⟩ | ⟨a, b, c⟩ | ⟨a, b, _⟩
  · exact b
  · exact absurd a (by simpa using h)
  · exact absurd a (by simpa using h)
  · exact absurd h1 (by simpa using a)
  · exact c
  · omega

/-- A code value of 0 in a frame whose bytes to come are 0: the first symbol of whatever model, and again a code value
of 0. -/
theorem decodesTo_zero {env : Env} (he : env.Wf) {m : Nat} (hm : m < env.rom.nspec + 18) {s : State} {c : Coder}
    (hf : s.fb = []) (hr : 0x10000 ≤ c.range.toNat) (hl : c.low = 0#24) :
    ∃ c', DecodesTo (env.rom.model m) s c 0 c' ∧ c'.low = 0#24 ∧ 0x10000 ≤ c'.range.toNat := by
  have hz : c.low.toNat = 0 := by rw [hl]; rfl
  have hlt : c.low < c.range := by rw [BitVec.lt_def]; omega
  obtain ⟨sym, c', _, hd, _⟩ := acStep_ok (s := { s with coder := c }) he hm hr hlt (by simp [hz])
  have hd' : DecodesTo (env.rom.model m) s c sym c' := hd.congr rfl rfl
  have hs0 : sym = 0 := by
    have h3 := hd'.2.2.1
    rw [hz, Nat.zero_div] at h3
    exact (wf_modelOk he hm).symbol_unique h3 (wf_modelOk he hm).symbol_zero
  subst hs0
  refine ⟨c', hd', ?_, hd'.range_ge⟩
  obtain ⟨_, _, _, k, _, _, _, _, hk4, _⟩ := hd'
  apply BitVec.eq_of_toNat_eq
  rw [hk4, hz, (wf_modelOk he hm).cum_zero]
  have hb : ∀ i, acByte s i = 0#8 := by
    intro i; unfold acByte fbByte; rw [hf]; split <;> rfl
  have : ∀ cur j, shiftedLow s 0 cur j = 0 := by
    intro cur j
    induction j with
    | zero => rfl
    | succ j ih => simp only [shiftedLow, ih, hb]; rfl
  simpa using this _ k

/-! ### The loop of ACTNS -/

theorem bitVec1_cases : ∀ f : BitVec 1, f = 0#1 ∨ f = 1#1 := by decide

/-- R169: the loop of `ACTNS` over `n` coefficients that decode to the indices `v`. -/
theorem actnsCoefs_ok {env : Env} (he : env.Wf) {s : State} {f : BitVec 1} {v : Nat → Nat} {c : Nat → Coder} {lr : Nat}
    (hlr : lr ≤ 1) (hc : s.coder = c 0) (hr : 0x10000 ≤ s.coder.range.toNat) (n : Nat) (hn : n ≤ 8)
    (h : ∀ j, j < n → DecodesTo (env.rom.model (env.rom.nspec + 2 + 8 * lr + j)) s (c j) (v j) (c (j + 1)) ∧ v j ≤ 16) :
    ∃ t, actnsCoefs env lr f s n = .ok () t ∧ 0x10000 ≤ t.coder.range.toNat ∧
      (∀ j, j < 8 → (vecAt (tnsOf t f).rc j).toNat = if j < n then v j else (vecAt (tnsOf s f).rc j).toNat) ∧
      (tnsOf t f).order = (tnsOf s f).order ∧ (tnsOf t f).start = (tnsOf s f).start ∧
      (tnsOf t f).stop = (tnsOf s f).stop ∧ tnsOf t (1 - f) = tnsOf s (1 - f) ∧
      t = { s with coder := c n, frm := { s.frm with tns0 := t.frm.tns0, tns1 := t.frm.tns1 } } := by
  induction n with
  | zero => exact ⟨s, rfl, hr, by simp, rfl, rfl, rfl, rfl, by rw [← hc]⟩
  | succ n ih =>
    obtain ⟨t, h1, h2, h3, h4, h5, h6, h7, h8⟩ := ih (by omega) (fun j hj => h j (by omega))
    obtain ⟨hd, hv⟩ := h n (by omega)
    have hcn : t.coder = c n := by rw [h8]
    have hd' : DecodesTo (env.rom.model (tnsCoefModel env.rom lr n)) t t.coder (v n) (c (n + 1)) := by
      rw [hcn]; exact hd.congr (by rw [h8]) (by rw [h8])
    have hst := acStep_of_decodesTo he (m := tnsCoefModel env.rom lr n) (by unfold tnsCoefModel; omega) h2 hd'
    refine ⟨setTnsRc { t with coder := c (n + 1) } f n (v n), ?_, by simpa [setTnsRc] using hd.range_ge, ?_, ?_⟩
    · simp only [actnsCoefs]
      rw [h1, ranBind_ok, hst, ranBind_ok, if_neg (by omega)]
    · intro j hj
      have e : (tnsOf (setTnsRc { t with coder := c (n + 1) } f n (v n)) f).rc =
          (tnsOf t f).rc.setIfInBounds n (BitVec.ofNat 5 (v n)) := by
        rcases bitVec1_cases f with rfl | rfl <;> rfl
      have h3j := h3 j hj
      rw [e]
      simp only [vecAt, Vector.getElem?_setIfInBounds] at *
      by_cases hjn : n = j
      · subst hjn
        rw [if_pos rfl, if_pos (by omega), if_pos (by omega)]
        simp
        omega
      · rw [if_neg hjn, h3j]
        by_cases hq : j < n
        · rw [if_pos hq, if_pos (by omega)]
        · rw [if_neg hq, if_neg (by omega)]
    · rcases bitVec1_cases f with rfl | rfl <;> exact ⟨h4, h5, h6, h7, by rw [h8]; rfl⟩

end Sys2Proof.Machine
end

