-- ==== Sys2Proof/Laws/Memory.lean ====
section
/-! SUPPORT. The laws of the memories: a read after a write, every other index, a filled range, and the canonical form
that every memory operation keeps. -/

namespace Sys2Proof.Machine

open Sys2Proof

variable {V : Type} [Zero V]

@[simp] theorem memRead_nil (a : Nat) : memRead ([] : Memory V) a = 0 := rfl

theorem memRead_cons (b : Nat) (v : V) (rest : Memory V) (a : Nat) :
    memRead ((b, v) :: rest) a = if a = b then v else memRead rest a := rfl

variable [DecidableEq V]

/-- An index below everything listed reads 0. -/
theorem memRead_of_wfFrom {size lo : Nat} {m : Memory V} (h : memWfFrom size lo m = true) {a : Nat} (ha : a < lo) :
    memRead m a = 0 := by
  induction m generalizing lo with
  | nil => rfl
  | cons e rest ih =>
    obtain ⟨b, v⟩ := e
    simp only [memWfFrom, Bool.and_eq_true, decide_eq_true_eq] at h
    rw [memRead_cons, if_neg (by omega)]
    exact ih h.2 (by omega)

/-- The bound of a canonical form may be lowered. -/
theorem memWfFrom_mono {size lo lo' : Nat} {m : Memory V} (h : memWfFrom size lo m = true) (hl : lo' ≤ lo) :
    memWfFrom size lo' m = true := by
  cases m with
  | nil => rfl
  | cons e rest =>
    obtain ⟨b, v⟩ := e
    simp only [memWfFrom, Bool.and_eq_true, decide_eq_true_eq] at h ⊢
    exact ⟨⟨⟨by omega, h.1.1.2⟩, h.1.2⟩, h.2⟩

/-- Reading what was just written, in a memory in canonical form. -/
theorem memRead_memWrite_from {size lo : Nat} {m : Memory V} (h : memWfFrom size lo m = true) (a : Nat) (v : V)
    (i : Nat) : memRead (memWrite m a v) i = if i = a then v else memRead m i := by
  induction m generalizing lo with
  | nil =>
    by_cases hv : v = memUnlisted V
    · simp [memWrite, hv, memUnlisted]
    · simp [memWrite, hv, memRead_cons]
  | cons e rest ih =>
    obtain ⟨b, u⟩ := e
    simp only [memWfFrom, Bool.and_eq_true, decide_eq_true_eq] at h
    obtain ⟨⟨⟨hlb, hbs⟩, hu⟩, hr⟩ := h
    simp only [memWrite]
    by_cases hab : a < b
    · rw [if_pos hab]
      by_cases hv : v = memUnlisted V
      · rw [if_pos hv]
        by_cases hi : i = a
        · subst hi
          rw [if_pos rfl, memRead_cons, if_neg (by omega), memRead_of_wfFrom hr (by omega), hv]; rfl
        · rw [if_neg hi]
      · rw [if_neg hv, memRead_cons]
    · rw [if_neg hab]
      by_cases he : a = b
      · subst he
        rw [if_pos rfl]
        by_cases hv : v = memUnlisted V
        · rw [if_pos hv]
          by_cases hi : i = a
          · subst hi
            rw [if_pos rfl, memRead_of_wfFrom hr (by omega), hv]; rfl
          · rw [if_neg hi, memRead_cons, if_neg hi]
        · rw [if_neg hv, memRead_cons, memRead_cons]
          by_cases hi : i = a <;> simp [hi]
      · rw [if_neg he, memRead_cons, memRead_cons, ih hr]
        by_cases hib : i = b
        · subst hib
          rw [if_pos rfl, if_pos rfl, if_neg (fun hc => he hc.symm)]
        · simp only [if_neg hib]

/-- A write keeps the canonical form. -/
theorem memWfFrom_memWrite {size lo : Nat} {m : Memory V} (h : memWfFrom size lo m = true) {a : Nat} (hl : lo ≤ a)
    (ha : a < size) (v : V) : memWfFrom size lo (memWrite m a v) = true := by
  induction m generalizing lo with
  | nil =>
    by_cases hv : v = memUnlisted V
    · simp [memWrite, hv, memWfFrom]
    · simp [memWrite, hv, memWfFrom, hl, ha]
  | cons e rest ih =>
    obtain ⟨b, u⟩ := e
    simp only [memWfFrom, Bool.and_eq_true, decide_eq_true_eq] at h
    obtain ⟨⟨⟨hlb, hbs⟩, hu⟩, hr⟩ := h
    simp only [memWrite]
    by_cases hab : a < b
    · rw [if_pos hab]
      by_cases hv : v = memUnlisted V
      · rw [if_pos hv]
        simp only [memWfFrom, Bool.and_eq_true, decide_eq_true_eq]
        exact ⟨⟨⟨hlb, hbs⟩, hu⟩, hr⟩
      · rw [if_neg hv]
        simp only [memWfFrom, Bool.and_eq_true, decide_eq_true_eq]
        exact ⟨⟨⟨hl, ha⟩, hv⟩, ⟨⟨⟨by omega, hbs⟩, hu⟩, hr⟩⟩
    · rw [if_neg hab]
      by_cases he : a = b
      · subst he
        rw [if_pos rfl]
        by_cases hv : v = memUnlisted V
        · rw [if_pos hv]
          exact memWfFrom_mono hr (by omega)
        · rw [if_neg hv]
          simp only [memWfFrom, Bool.and_eq_true, decide_eq_true_eq]
          exact ⟨⟨⟨hl, ha⟩, hv⟩, hr⟩
      · rw [if_neg he]
        simp only [memWfFrom, Bool.and_eq_true, decide_eq_true_eq]
        exact ⟨⟨⟨hlb, hbs⟩, hu⟩, ih hr (by omega)⟩

/-- The empty memory is canonical. -/
@[simp] theorem Memory.wf_nil (size : Nat) : Memory.wf size ([] : Memory V) = true := rfl

/-- A read after a write. -/
theorem memRead_memWrite {size : Nat} {m : Memory V} (h : Memory.wf size m = true) (a : Nat) (v : V) (i : Nat) :
    memRead (memWrite m a v) i = if i = a then v else memRead m i :=
  memRead_memWrite_from h a v i

/-- A write keeps the canonical form. -/
theorem Memory.wf_memWrite {size : Nat} {m : Memory V} (h : Memory.wf size m = true) {a : Nat} (ha : a < size)
    (v : V) : Memory.wf size (memWrite m a v) = true :=
  memWfFrom_memWrite h (Nat.zero_le a) ha v

/-- A fill keeps the canonical form. -/
theorem Memory.wf_memFill {size : Nat} {m : Memory V} (h : Memory.wf size m = true) (lo : Nat) (f : Nat → V)
    (n : Nat) (hn : lo + n ≤ size) : Memory.wf size (memFill m lo f n) = true := by
  induction n with
  | zero => exact h
  | succ n ih => exact Memory.wf_memWrite (ih (by omega)) (by omega) _

/-- A read after a fill: the filled range, and every other index. -/
theorem memRead_memFill {size : Nat} {m : Memory V} (h : Memory.wf size m = true) (lo : Nat) (f : Nat → V)
    (n : Nat) (hn : lo + n ≤ size) (i : Nat) :
    memRead (memFill m lo f n) i = if lo ≤ i ∧ i < lo + n then f (i - lo) else memRead m i := by
  induction n with
  | zero => rw [if_neg (by omega)]; rfl
  | succ n ih =>
    simp only [memFill]
    rw [memRead_memWrite (Memory.wf_memFill h lo f n (by omega)), ih (by omega)]
    by_cases hi : i = lo + n
    · subst hi
      rw [if_pos rfl, if_pos (by omega)]
      congr 1
      omega
    · rw [if_neg hi]
      by_cases hr : lo ≤ i ∧ i < lo + n
      · rw [if_pos hr, if_pos (by omega)]
      · rw [if_neg hr, if_neg (by omega)]

/-- Nothing at or above its size is listed in a canonical memory. -/
theorem memRead_of_size_le_from {size lo : Nat} {m : Memory V} (h : memWfFrom size lo m = true) {a : Nat}
    (ha : size ≤ a) : memRead m a = 0 := by
  induction m generalizing lo with
  | nil => rfl
  | cons e rest ih =>
    obtain ⟨b, v⟩ := e
    simp only [memWfFrom, Bool.and_eq_true, decide_eq_true_eq] at h
    rw [memRead_cons, if_neg (by omega)]
    exact ih h.2

theorem memRead_of_size_le {size : Nat} {m : Memory V} (h : Memory.wf size m = true) {a : Nat} (ha : size ≤ a) :
    memRead m a = 0 :=
  memRead_of_size_le_from h ha

/-- Two canonical memories that read the same everywhere are the same data. -/
theorem memory_ext_from {size lo : Nat} {m m' : Memory V} (h : memWfFrom size lo m = true)
    (h' : memWfFrom size lo m' = true) (he : ∀ a, memRead m a = memRead m' a) : m = m' := by
  induction m generalizing lo m' with
  | nil =>
    cases m' with
    | nil => rfl
    | cons e rest =>
      obtain ⟨b, v⟩ := e
      simp only [memWfFrom, Bool.and_eq_true, decide_eq_true_eq] at h'
      have := he b
      rw [memRead_cons, if_pos rfl] at this
      exact absurd this.symm h'.1.2
  | cons e rest ih =>
    obtain ⟨b, v⟩ := e
    simp only [memWfFrom, Bool.and_eq_true, decide_eq_true_eq] at h
    cases m' with
    | nil =>
      have := he b
      rw [memRead_cons, if_pos rfl] at this
      exact absurd this h.1.2
    | cons e' rest' =>
      obtain ⟨b', v'⟩ := e'
      simp only [memWfFrom, Bool.and_eq_true, decide_eq_true_eq] at h'
      have hb : b = b' := by
        rcases Nat.lt_trichotomy b b' with hlt | heq | hgt
        · have := he b
          rw [memRead_cons, if_pos rfl, memRead_cons, if_neg (by omega), memRead_of_wfFrom h'.2 (by omega)] at this
          exact absurd this h.1.2
        · exact heq
        · have := he b'
          rw [memRead_cons, if_neg (by omega), memRead_cons, if_pos rfl, memRead_of_wfFrom h.2 (by omega)] at this
          exact absurd this.symm h'.1.2
      subst hb
      have hv : v = v' := by
        have := he b
        rwa [memRead_cons, if_pos rfl, memRead_cons, if_pos rfl] at this
      subst hv
      have : rest = rest' := by
        refine ih h.2 h'.2 fun a => ?_
        by_cases hab : a ≤ b
        · rw [memRead_of_wfFrom h.2 (by omega), memRead_of_wfFrom h'.2 (by omega)]
        · have := he a
          rwa [memRead_cons, if_neg (by omega), memRead_cons, if_neg (by omega)] at this
      rw [this]

/-- Equal memories are equal data. -/
theorem Memory.ext_of_wf {size : Nat} {m m' : Memory V} (h : Memory.wf size m = true) (h' : Memory.wf size m' = true)
    (he : ∀ a, memRead m a = memRead m' a) : m = m' :=
  memory_ext_from h h' he

end Sys2Proof.Machine
end

