-- ==== Sys2Proof/Machine/Exact.lean ====
section
/-! DEFINITION. The machine over any sample type, on any records (R10, R14, R16), and the reference numerics NUM_EXACT over
the real numbers (R15), the default of R10. -/

namespace Sys2Proof.Machine

open Sys2Proof

variable {S : Type} [Zero S] [DecidableEq S]

/-! ### The machine on any records -/

/-- The command `i` on the records `env`: `exec` is this on `Config.env` (`exec_eq_command`). -/
def command (env : Over.Env S) (i : Instr) (s : Over.State S) : Over.State S :=
  match i with
  | .nop => nop env s
  | .cfglock => cfglock env s
  | .finit loss len => finit env loss len s
  | .sreset => sreset env s
  | .brbit => brbit env s
  | .bruint n => bruint env n s
  | .brsync => brsync env s
  | .acdec m => acdec env m s
  | .actns f => actns env f s
  | .acpair => acpair env s
  | .nfill => nfill env s
  | .ggain => ggain env s
  | .tnssyn => tnssyn env s
  | .snssyn => snssyn env s
  | .imdct => imdct env s
  | .ltpf => ltpf env s

/-- One step on the records `env` (R38): `step` is this on `Config.env` (`step_eq_stepOn`). -/
def stepOn (env : Over.Env S) (s : Over.State S) : Host.Outcome (Over.State S) Fault Refusal :=
  match nextAccess env.num s with
  | .done r => r
  | .command w s' =>
    match decode w with
    | .error e => .next (rejectWord e s')
    | .ok i => .next (command env i s')

/-! ### Typed access (R83) -/

/-- R83: the sample that stands at a port, for a HOST with typed access; none where no sample stands. -/
def sampleAt (num : Over.Numerics S) (s : Over.State S) : Port → Option S
  | .cfg .tscale => some s.cfg.tscale
  | .scf i => some (vecAt s.scf i)
  | .x i => some (memRead s.x i)
  | .tblk i => some (memRead s.tblk i)
  | .out i => some (outRead num s i)
  | .ola i => some (memRead s.ola i)
  | .win i => some (memRead s.cfg.win i)
  | .cmd => none
  | .status => none
  | .res => none
  | .cfg _ => none
  | .bits _ => none
  | .frm _ => none
  | .ltpfMem => none
  | .fb _ => none
  | .bands _ => none

/-- R83: a sample written at a port by a HOST with typed access; ignored where no sample can be written (R81, R25). -/
def storeSample (p : Port) (v : S) (s : Over.State S) : Over.State S :=
  match p with
  | .cfg .tscale => ifUnlocked s { s.cfg with tscale := v }
  | .win i => ifUnlocked s { s.cfg with win := memWrite s.cfg.win i v }
  | .x i => { s with x := memWrite s.x i v }
  | .tblk i => { s with tblk := memWrite s.tblk i v }
  | .scf _ => s
  | .out _ => s
  | .ola _ => s
  | .cmd => s
  | .status => s
  | .res => s
  | .cfg _ => s
  | .bits _ => s
  | .frm _ => s
  | .ltpfMem => s
  | .fb _ => s
  | .bands _ => s

/-! ### NUM_EXACT (R15) -/

/-- R252: the unscaled DCT-IV as the exact sum. -/
noncomputable def exactDct4 (n : Nat) (x : Vector ℝ n) : Vector ℝ n :=
  Vector.ofFn fun i => ∑ k : Fin n, x[k] * Real.cos (Real.pi / n * (i + 1 / 2) * (k + 1 / 2))

/-- R15: `NUM_EXACT`. `S` is the real numbers and every operation the exact mathematical one. The two directions of the wire
form are left abstract: they are arguments (entry 24). -/
noncomputable def numExact (enc : ℝ → Word) (dec : Word → ℝ) : Over.Numerics ℝ where
  isSample _ := true
  ofInt z := z
  ofRat q := q
  add a b := a + b
  sub a b := a - b
  mul a b := a * b
  neg a := -a
  isZero a := decide (a = 0)
  exp2 v := (2 : ℝ) ^ v
  pow10_28 e := (10 : ℝ) ^ ((e : ℝ) / 28)
  rsqrtInt n := (n : ℝ) ^ (-(1 / 2) : ℝ)
  dct4 := exactDct4
  enc := enc
  dec := dec

/-- R10: the arguments of the step function with the defaults R10 recommends; ROM has none. -/
noncomputable def recommendedEnv (enc : ℝ → Word) (dec : Word → ℝ) (rom : Over.Rom ℝ) : Over.Env ℝ where
  num := numExact enc dec
  rom := rom
  param := Params.recommended

end Sys2Proof.Machine
end

