-- ==== Sys2Proof/Laws/Exact.lean ====
section
/-! SUPPORT. The machine on any records, `exec` and `step` as its instance, typed access, and what NUM_EXACT computes. -/

namespace Sys2Proof.Machine

open Sys2Proof

/-! ### The instance of a run -/

/-- `exec` is the machine on the implementation's records. -/
theorem exec_eq_command (i : Instr) (s : State) : exec i s = .next (command Config.env i s) := by
  cases i <;> rfl

/-- `step` is the machine on the implementation's records. -/
theorem step_eq_stepOn (s : State) : step s = stepOn Config.env s := by
  unfold step stepOn
  cases nextAccess Config.env.num s with
  | done r => rfl
  | command w s' =>
    show runCommand w s' = match decode w with
      | .error e => .next (rejectWord e s')
      | .ok i => .next (command Config.env i s')
    unfold runCommand
    cases decode w with
    | error e => rfl
    | ok i => exact exec_eq_command i s'

/-! ### Typed access is the same machine (R83) -/

section access

variable {S : Type} [Zero S]

/-- R83: what the port reads is the wire form of the sample that stands there. -/
theorem readPort_of_sampleAt {num : Over.Numerics S} {s : Over.State S} {p : Port} {v : S} (h : sampleAt num s p = some v) :
    readPort num s p = num.enc v := by
  cases p with
  | cfg r => cases r <;> first | cases h; rfl | cases h
  | _ => first | cases h; rfl | cases h

variable [DecidableEq S]

/-- R83: a word written where a sample stands stores the sample whose wire form it is. -/
theorem writePort_of_sampleAt {num : Over.Numerics S} {s : Over.State S} {p : Port} {v : S} (h : sampleAt num s p = some v) (w : Word) :
    writePort num p w s = storeSample p (num.dec w) s := by
  cases p with
  | cfg r => cases r <;> first | rfl | cases h
  | _ => first | rfl | cases h

end access

/-! ### NUM_EXACT -/

variable {enc : ℝ → Word} {dec : Word → ℝ}

/-- R14, R15: NUM_EXACT satisfies the laws every NUM must satisfy. -/
theorem numExact_laws (enc : ℝ → Word) (dec : Word → ℝ) : (numExact enc dec).Laws where
  isZero_zero := by simp [numExact]
  ofInt_zero := by simp [numExact]
  isZero_ofInt z _ := by simp [numExact]

/-- R242: at a multiple of 28 the gain is a power of 10. -/
theorem numExact_pow10_28 (k : Int) : (numExact enc dec).pow10_28 (28 * k) = (10 : ℝ) ^ k := by
  have h : ((28 * k : Int) : ℝ) / 28 = (k : ℝ) := by push_cast; ring
  show (10 : ℝ) ^ (((28 * k : Int) : ℝ) / 28) = _
  rw [h, Real.rpow_intCast]

/-- R242: "rational exactly when `e` is a multiple of 28". -/
theorem numExact_pow10_28_rational (e : Int) :
    (∃ q : ℚ, (numExact enc dec).pow10_28 e = (q : ℝ)) ↔ 28 ∣ e := by
  constructor
  · rintro ⟨q, hq⟩
    have hpow : (q : ℝ) ^ 28 = (10 : ℝ) ^ e := by
      rw [← hq]
      show ((10 : ℝ) ^ ((e : ℝ) / 28)) ^ 28 = _
      rw [← Real.rpow_natCast, ← Real.rpow_mul (by norm_num), ← Real.rpow_intCast]
      congr 1
      push_cast
      ring
    have hq' : q ^ 28 = (10 : ℚ) ^ e := by
      have : ((q ^ 28 : ℚ) : ℝ) = (((10 : ℚ) ^ e : ℚ) : ℝ) := by push_cast; exact hpow
      exact Rat.cast_injective this
    have h2 : Fact (Nat.Prime 2) := ⟨Nat.prime_two⟩
    have hv := congrArg (padicValRat 2) hq'
    have h10 : padicValRat 2 10 = 1 := by
      have h : padicValNat 2 10 = 1 := by
        rw [show (10 : Nat) = 2 * 5 from rfl, padicValNat.mul (by norm_num) (by norm_num), padicValNat_self,
          padicValNat.eq_zero_of_not_dvd (by norm_num)]
      have h' := padicValRat.of_nat (p := 2) (n := 10)
      rw [h] at h'
      exact_mod_cast h'
    rw [padicValRat.pow, padicValRat.zpow, h10] at hv
    exact ⟨padicValRat 2 q, by push_cast at hv; omega⟩
  · rintro ⟨k, rfl⟩
    exact ⟨(10 : ℚ) ^ k, by rw [numExact_pow10_28]; push_cast; rfl⟩

/-- R252: the transform is the exact sum. -/
theorem exactDct4_getElem (n : Nat) (x : Vector ℝ n) (i : Nat) (h : i < n) :
    (exactDct4 n x)[i] = ∑ k : Fin n, x[k] * Real.cos (Real.pi / n * (i + 1 / 2) * (k + 1 / 2)) := by
  simp [exactDct4]

end Sys2Proof.Machine
end

