-- ==== Sys2Proof/Laws/Outcome.lean ====
section
/-! SUPPORT. Everything a command can end with, and what no part of a command touches. -/

namespace Sys2Proof.Machine

open Sys2Proof

/-! ### What the parts of a command leave alone -/

/-- `s'` differs from `s` at most in the readers, the frame registers and the sample memories. -/
structure Kept (s s' : State) : Prop where
  cmd : s'.cmd = s.cmd
  bec : s'.bec = s.bec
  cfglock : s'.cfglock = s.cfglock
  cause : s'.cause = s.cause
  cfg : s'.cfg = s.cfg
  fbLen : s'.fbLen = s.fbLen
  fb : s'.fb = s.fb
  host : s'.host = s.host
  rdata : s'.rdata = s.rdata

theorem Kept.refl (s : State) : Kept s s := ⟨rfl, rfl, rfl, rfl, rfl, rfl, rfl, rfl, rfl⟩

theorem Kept.trans {s t u : State} (h : Kept s t) (h' : Kept t u) : Kept s u :=
  ⟨h'.cmd.trans h.cmd, h'.bec.trans h.bec, h'.cfglock.trans h.cfglock, h'.cause.trans h.cause, h'.cfg.trans h.cfg,
    h'.fbLen.trans h.fbLen, h'.fb.trans h.fb, h'.host.trans h.host, h'.rdata.trans h.rdata⟩

/-- A part of a command that leads to states in the relation `R` and raises only causes of the list. -/
def RanRel {α : Type} (R : State → State → Prop) (cs : List Cause) (s : State) (r : Ran α Sample) : Prop :=
  match r with
  | .ok _ s' => R s s'
  | .raised c s' => R s s' ∧ c ∈ cs

/-- A relation between states that the elementary parts of the decode commands respect: a completed decode step, a tail read
of at most 32 bits, a write of a TNS filter. -/
structure Respected (env : Env) (R : State → State → Prop) : Prop where
  refl : ∀ s, R s s
  trans : ∀ {s t u}, R s t → R t u → R s u
  coder : ∀ m s sym c', m < env.rom.nspec + 18 → acStep env m s = .ok sym { s with coder := c' } → R s { s with coder := c' }
  reader : ∀ (n : Nat) s, n ≤ 32 → (n : Int) ≤ bitsLeft s → R s { s with reader := (takeBits s.fb s.reader n).2 }
  filter : ∀ s f t, R s (setTns s f t)

theorem RanRel.mono {α : Type} {R : State → State → Prop} {cs ds : List Cause} {s : State} {r : Ran α Sample} (h : RanRel R cs s r)
    (hs : cs ⊆ ds) : RanRel R ds s r := by
  cases r with
  | ok a s' => exact h
  | raised c s' => exact ⟨h.1, hs h.2⟩

/-- The level an escape scan ends with is below where its bound stands. -/
theorem escapeScan_level {env : Env} {t fuel lev : Nat} {s s' : State} {p : Nat × Nat}
    (h : escapeScan env t fuel lev s = .ok p s') : p.1 < lev + fuel := by
  induction fuel generalizing lev s with
  | zero => cases h
  | succ fuel ih =>
    obtain ⟨sym, s1, _, h2⟩ := ranBind_eq_ok h
    split at h2
    · cases h2; simp
    · have := ih h2; omega

section parts

variable {env : Env} {R : State → State → Prop} (hR : Respected env R)

include hR

theorem Respected.before {α : Type} {cs : List Cause} {s t : State} {r : Ran α Sample} (h : R s t) (hr : RanRel R cs t r) :
    RanRel R cs s r := by
  cases r with
  | ok a u => exact hR.trans h hr
  | raised c u => exact ⟨hR.trans h hr.1, hr.2⟩

theorem Respected.bind {α β : Type} {cs : List Cause} {s : State} {r : Ran α Sample} {k : α → State → Ran β Sample} (h : RanRel R cs s r)
    (hk : ∀ a s', r = .ok a s' → RanRel R cs s' (k a s')) : RanRel R cs s (ranBind r k) := by
  cases r with
  | raised c s' => exact h
  | ok a s' => exact hR.before h (hk a s' rfl)

theorem Respected.acStep {m : Nat} (hm : m < env.rom.nspec + 18) (s : State) :
    RanRel R [.acinv, .acslice] s (acStep env m s) := by
  by_cases h1 : s.coder.range ≤ s.coder.low
  · unfold Machine.acStep; rw [if_pos h1]; exact ⟨hR.refl s, by simp⟩
  · by_cases h2 : 1024 ≤ acSlice s.coder
    · unfold Machine.acStep; rw [if_neg h1, if_pos h2]; exact ⟨hR.refl s, by simp⟩
    · have he : ∃ sym c', Machine.acStep env m s = .ok sym { s with coder := c' } := by
        unfold Machine.acStep; rw [if_neg h1, if_neg h2]; exact ⟨_, _, rfl⟩
      obtain ⟨sym, c', he⟩ := he
      rw [he]
      exact hR.coder m s sym c' hm he

theorem Respected.brRead {n : Nat} (hn : n ≤ 32) (s : State) : RanRel R [.broverrun] s (brRead n s) := by
  by_cases h : bitsLeft s < n
  · unfold Machine.brRead; rw [if_pos h]; exact ⟨hR.refl s, by simp⟩
  · unfold Machine.brRead; rw [if_neg h]; exact hR.reader n s hn (by omega)

theorem Respected.actnsCoefs {lr : Nat} (hlr : lr ≤ 1) (f : BitVec 1) (s : State) {n : Nat} (hn : n ≤ 8) :
    RanRel R [.acinv, .acslice, .tnsdata] s (actnsCoefs env lr f s n) := by
  induction n with
  | zero => exact hR.refl s
  | succ n ih =>
    refine hR.bind (ih (by omega)) fun _ s1 _ => ?_
    refine hR.bind ((hR.acStep (by unfold tnsCoefModel; omega) s1).mono (by simp)) fun sym s2 _ => ?_
    split
    · exact ⟨hR.refl s2, by simp⟩
    · exact hR.filter s2 f _

theorem Respected.actnsRun (f : BitVec 1) (s : State) : RanRel R [.acinv, .acslice, .tnsdata] s (actnsRun env f s) := by
  have hlr : s.frm.lowRate.toNat ≤ 1 := by cases s.frm.lowRate <;> decide
  refine hR.bind ((hR.acStep (by unfold tnsOrderModel; omega) s).mono (by simp)) fun sym s1 _ => ?_
  dsimp only
  split
  · exact ⟨hR.refl s1, by simp⟩
  · next h8 =>
    exact hR.before (hR.filter s1 f _) (hR.bind (hR.actnsCoefs hlr f _ (by omega)) fun _ t _ => hR.refl t)

theorem Respected.escapeScan (hm : ∀ t lev, t < 1024 → pairModel env.rom t lev < env.rom.nspec + 18) {t : Nat} (ht : t < 1024)
    (fuel lev : Nat) (s : State) :
    RanRel R [.acinv, .acslice, .esclevel, .broverrun] s (escapeScan env t fuel lev s) := by
  induction fuel generalizing lev s with
  | zero => exact ⟨hR.refl s, by simp⟩
  | succ fuel ih =>
    refine hR.bind ((hR.acStep (hm t lev ht) s).mono (by simp)) fun sym s1 _ => ?_
    split
    · exact hR.refl s1
    · exact ih (lev + 1) s1

theorem Respected.readSign (q : Nat) (s : State) : RanRel R [.broverrun] s (readSign q s) := by
  unfold Machine.readSign
  split
  · exact hR.bind (hR.brRead (by decide) s) fun _ t _ => hR.refl t
  · exact hR.refl s

theorem Respected.pairValues {lev : Nat} (hlev : lev ≤ 13) (sym : Nat) (s : State) :
    RanRel R [.broverrun] s (pairValues lev sym s) := by
  have hraw : ∀ n, n ≤ 32 → RanRel R [.broverrun] s (readRaw n s) := by
    intro n hn
    unfold readRaw
    split
    · exact hR.brRead hn s
    · exact hR.refl s
  have hn : rawBits s.frm.lsbMode lev ≤ 32 := by unfold rawBits; split <;> omega
  exact hR.bind (hraw _ hn) fun _ s1 _ => hR.bind (hR.readSign _ s1) fun _ s2 _ => hR.bind (hR.readSign _ s2) fun _ s3 _ =>
    hR.refl s3

theorem Respected.pairDecode (hm : ∀ t lev, t < 1024 → pairModel env.rom t lev < env.rom.nspec + 18) (s : State) :
    RanRel R [.acinv, .acslice, .esclevel, .broverrun] s (pairDecode env s) := by
  have ht : pairTable s < 1024 := by
    unfold pairTable
    have := s.frm.specCtx.isLt
    split <;> split <;> omega
  refine hR.bind (hR.escapeScan hm ht 14 0 s) fun p s1 hp => (hR.pairValues ?_ _ s1).mono (by simp)
  have := escapeScan_level hp
  omega

end parts

theorem setTns_kept (s : State) (f : BitVec 1) (t : TnsFilter) : Kept s (setTns s f t) := by
  unfold setTns
  split <;> exact ⟨rfl, rfl, rfl, rfl, rfl, rfl, rfl, rfl, rfl⟩

theorem respected_kept (env : Env) : Respected env Kept where
  refl := Kept.refl
  trans := Kept.trans
  coder _ _ _ _ _ _ := ⟨rfl, rfl, rfl, rfl, rfl, rfl, rfl, rfl, rfl⟩
  reader _ _ _ _ := ⟨rfl, rfl, rfl, rfl, rfl, rfl, rfl, rfl, rfl⟩
  filter := setTns_kept

theorem pairCommit_kept (env : Env) (p : Pair) (s : State) : Kept s (pairCommit env p s) :=
  ⟨rfl, rfl, rfl, rfl, rfl, rfl, rfl, rfl, rfl⟩

/-- Every pair's models are models of the record (R172). -/
theorem pairModel_lt_all {t : Nat} (lev : Nat) (ht : t < 1024) :
    pairModel Config.env.rom t lev < Config.env.rom.nspec + 18 := by
  have h := wf_specLookup_lt Config.env_wf (i := t + 1024 * min lev 3) (by omega)
  unfold pairModel
  omega

/-! ### Everything a command can end with -/

/-- The ways a command can end (R120, R291). -/
inductive Ends (i : Instr) (s : State) : State → Prop where
  /-- A command error of its row of R306; `NOCFG` only before the lock. -/
  | failed (c : ErrCode) (hc : c ∈ errorsOf i) (hn : c = .nocfg → s.cfglock = false) : Ends i s (failErr c s)
  /-- The skip of R290. -/
  | skipped (hd : decodeClass i = true) (hl : s.cfglock = true) (hb : s.bec = true) : Ends i s (skipGated s)
  /-- The lock of R282. -/
  | locked (hi : i = .cfglock) (hv : cfgValid Config.env.param s.cfg = true) : Ends i s (finish 0 { s with cfglock := true })
  /-- The frame start of R141. -/
  | started (loss : Bool) (len : BitVec 9) (hi : i = .finit loss len) (hl : s.cfglock = true) (h20 : 20 ≤ len.toNat)
      (hmax : len.toNat ≤ s.cfg.maxbytes.toNat) : Ends i s (finish 0 (startFrame loss len s))
  /-- The reset of R283. -/
  | reset (hi : i = .sreset) : Ends i s (sresetBody s)
  /-- Normal completion of another command. -/
  | done (res : Word) (s' : State) (hd : decodeClass i = true → s.bec = false) (hk : Kept s s') : Ends i s (finish res s')
  /-- A corruption event of its row of R306. -/
  | raised (c : Cause) (res : Word) (s' : State) (hc : c ∈ causesOf i) (hl : s.cfglock = true) (hb : s.bec = false)
      (hk : Kept s s') : Ends i s (raiseKeep c res s')

/-- A command whose own part ends in one of these ways does so behind admission. -/
theorem admission_ends {i : Instr} {body : State → State} {s : State}
    (hw : i.wellFormed Config.env.rom.nspec = false → ErrCode.badfield ∈ errorsOf i)
    (hc : needsConfig i = true → ErrCode.nocfg ∈ errorsOf i)
    (h : i.wellFormed Config.env.rom.nspec = true → (needsConfig i = true → s.cfglock = true) → (decodeClass i = true → s.bec = false) → Ends i s (body s)) :
    Ends i s (admission Config.env i body s) := by
  rcases admission_outcome Config.env i body s with ⟨h1, he⟩ | ⟨_, h1, h2, he⟩ | ⟨_, h1, h2, h3, he⟩ | ⟨h0, h1, h2, he⟩ <;> rw [he]
  · exact .failed _ (hw h1) nofun
  · exact .failed _ (hc h1) fun _ => h2
  · exact .skipped h2 (h1 (decodeClass_needsConfig h2)) h3
  · exact h h0 h1 h2

theorem readResult_ends {i : Instr} {n : Nat} {s : State} (hn : n ≤ 32) (hc : Cause.broverrun ∈ causesOf i)
    (hl : s.cfglock = true) (hb : s.bec = false) : Ends i s (readResult n s) := by
  have h := (respected_kept Config.env).brRead hn s
  unfold readResult
  cases hr : brRead n s with
  | ok v s' => rw [hr] at h; exact .done _ _ (fun _ => hb) h
  | raised c s' =>
    rw [hr] at h
    obtain ⟨hk, hm⟩ := h
    simp only [List.mem_singleton] at hm
    subst hm
    exact .raised _ _ _ hc hl hb hk

/-- Everything a command can end with. -/
theorem exec_ends {i : Instr} {s t : State} (h : exec i s = .next t) : Ends i s t := by
  cases i with
  | nop => cases h; exact admission_ends (by simp [Instr.wellFormed]) (by simp [needsConfig]) fun _ _ _ => .done 0 s nofun (Kept.refl s)
  | cfglock =>
    cases h
    refine admission_ends (by simp [Instr.wellFormed]) (by simp [needsConfig]) fun _ _ _ => ?_
    unfold cfglockBody
    by_cases hl : s.cfglock = true
    · rw [if_pos hl]; exact .done 0 s nofun (Kept.refl s)
    · rw [if_neg hl]
      by_cases hv : cfgValid Config.env.param s.cfg = true
      · rw [if_pos hv]; exact .locked rfl hv
      · rw [if_neg hv]; exact .failed _ (by simp [errorsOf]) fun _ => by simpa using hl
  | finit loss len =>
    cases h
    refine admission_ends (by simp [Instr.wellFormed]) (by simp [errorsOf]) fun _ hl _ => ?_
    unfold finitBody
    split
    · exact .failed _ (by simp [errorsOf]) nofun
    · next hn => exact .started loss len rfl (hl rfl) (by omega) (by omega)
  | sreset => cases h; exact admission_ends (by simp [Instr.wellFormed]) (by simp [needsConfig]) fun _ _ _ => .reset rfl
  | brbit =>
    cases h
    exact admission_ends (by simp [Instr.wellFormed]) (by simp [errorsOf]) fun _ hl hb =>
      readResult_ends (by decide) (by simp [causesOf]) (hl rfl) (hb rfl)
  | bruint n =>
    cases h
    exact admission_ends (by simp [errorsOf]) (by simp [errorsOf]) fun hw hl hb =>
      readResult_ends (by simpa [Instr.wellFormed] using hw) (by simp [causesOf]) (hl rfl) (hb rfl)
  | brsync =>
    cases h
    exact admission_ends (by simp [Instr.wellFormed]) (by simp [errorsOf]) fun _ _ hb => .done _ s hb (Kept.refl s)
  | acdec m =>
    cases h
    refine admission_ends (by simp [errorsOf]) (by simp [errorsOf]) fun hw hl hb => ?_
    have hk := (respected_kept Config.env).acStep (m := m.toNat) (by simpa [Instr.wellFormed] using hw) s
    unfold acdecBody
    cases hr : acStep Config.env m.toNat s with
    | ok v s' => rw [hr] at hk; exact .done _ _ hb hk
    | raised c s' => rw [hr] at hk; exact .raised _ _ _ hk.2 (hl rfl) (hb rfl) hk.1
  | actns f =>
    cases h
    refine admission_ends (by simp [Instr.wellFormed]) (by simp [errorsOf]) fun _ hl hb => ?_
    have hk := (respected_kept Config.env).actnsRun f s
    unfold actnsBody
    cases hr : actnsRun Config.env f s with
    | ok v s' => rw [hr] at hk; exact .done _ _ hb hk
    | raised c s' => rw [hr] at hk; exact .raised _ _ _ hk.2 (hl rfl) (hb rfl) hk.1
  | acpair =>
    cases h
    refine admission_ends (by simp [Instr.wellFormed]) (by simp [errorsOf]) fun _ hl hb => ?_
    unfold acpairBody
    split
    · exact .failed _ (by simp [errorsOf]) nofun
    · have hk := (respected_kept Config.env).pairDecode (fun _ lev ht => pairModel_lt_all lev ht) s
      cases hr : pairDecode Config.env s with
      | ok p s' =>
        rw [hr] at hk
        have hk' := Kept.trans hk (pairCommit_kept Config.env p s')
        change Ends _ _ (pairFinish p (pairCommit Config.env p s'))
        unfold pairFinish
        split
        · exact .raised _ _ _ (by simp [causesOf]) (hl rfl) (hb rfl) hk'
        · exact .done _ _ hb hk'
      | raised c s' =>
        rw [hr] at hk
        refine .raised _ _ _ ?_ (hl rfl) (hb rfl) hk.1
        have := hk.2
        simp only [List.mem_cons, List.not_mem_nil, or_false] at this
        rcases this with rfl | rfl | rfl | rfl <;> simp [causesOf]
  | nfill =>
    cases h
    refine admission_ends (by simp [Instr.wellFormed]) (by simp [errorsOf]) fun _ hl hb => ?_
    unfold nfillBody
    split
    · exact .done _ s hb (Kept.refl s)
    · exact .done _ _ hb ⟨rfl, rfl, rfl, rfl, rfl, rfl, rfl, rfl, rfl⟩
  | ggain =>
    cases h
    exact admission_ends (by simp [Instr.wellFormed]) (by simp [errorsOf]) fun _ hl hb =>
      .done _ _ hb ⟨rfl, rfl, rfl, rfl, rfl, rfl, rfl, rfl, rfl⟩
  | tnssyn =>
    cases h
    refine admission_ends (by simp [Instr.wellFormed]) (by simp [errorsOf]) fun _ hl hb => ?_
    unfold tnssynBody
    split
    · exact .failed _ (by simp [errorsOf]) nofun
    · split
      · exact .done _ s hb (Kept.refl s)
      · exact .done _ _ hb ⟨rfl, rfl, rfl, rfl, rfl, rfl, rfl, rfl, rfl⟩
  | snssyn =>
    cases h
    refine admission_ends (by simp [Instr.wellFormed]) (by simp [errorsOf]) fun _ hl hb => ?_
    unfold snssynBody
    split
    · exact .failed _ (by simp [errorsOf]) nofun
    · split
      · exact .raised _ _ s (by simp [causesOf]) (hl rfl) (hb rfl) (Kept.refl s)
      · exact .done _ _ hb ⟨rfl, rfl, rfl, rfl, rfl, rfl, rfl, rfl, rfl⟩
  | imdct =>
    cases h
    exact admission_ends (by simp [Instr.wellFormed]) (by simp [errorsOf]) fun _ hl hb =>
      .done _ _ hb ⟨rfl, rfl, rfl, rfl, rfl, rfl, rfl, rfl, rfl⟩
  | ltpf =>
    cases h
    refine admission_ends (by simp [Instr.wellFormed]) (by simp [errorsOf]) fun _ hl hb => ?_
    unfold ltpfBody
    split
    · exact .failed _ (by simp [errorsOf]) nofun
    · exact .done _ _ hb ⟨rfl, rfl, rfl, rfl, rfl, rfl, rfl, rfl, rfl⟩

end Sys2Proof.Machine
end

