-- ==== Sys2Proof/Laws/Reader.lean ====
section
/-! SUPPORT. The tail reader: what a refill, one bit and a checked read do (R144, R145, R146). -/

namespace Sys2Proof.Machine

open Sys2Proof

/-- R145: bit `i` of the bytes a refill assembles. -/
theorem getLsbD_refillBytes (fb : Memory Byte) (cur m i : Nat) (hi : i < 32) :
    (refillBytes fb cur m).getLsbD i =
      (decide (i < 8 * m) && (memRead fb (cur - 1 - i / 8)).getLsbD (i % 8)) := by
  induction m with
  | zero => simp [refillBytes]
  | succ m ih =>
    simp only [refillBytes, BitVec.getLsbD_or, ih, BitVec.getLsbD_shiftLeft, BitVec.getLsbD_setWidth]
    by_cases h1 : i < 8 * m
    · have : i < 8 * (m + 1) := by omega
      simp [h1, this]
    · by_cases h2 : i < 8 * (m + 1)
      · have hd : i / 8 = m := by omega
        have hm : i - 8 * m = i % 8 := by omega
        have hlt : i - 8 * m < 32 := by omega
        simp only [h1, h2, hd, hm, hi]
        have : i % 8 < 32 := by omega
        simp [this]
      · have : (memRead fb (cur - 1 - m)).getLsbD (i - 8 * m) = false := by
          apply BitVec.getLsbD_of_ge; omega
        simp [h1, h2, this]

/-- R145: a refill of an empty cache takes over the bytes below the cursor: the bits to come are the same. -/
theorem refill_spec (fb : Memory Byte) (r : TailReader) (h0 : r.cnt = 0#6) (h1 : 1 ≤ r.cur.toNat) :
    (refill fb r).cnt.toNat = 8 * min 4 r.cur.toNat ∧
      (refill fb r).cur.toNat = r.cur.toNat - min 4 r.cur.toNat ∧
      (∀ j, readerBit fb (refill fb r) j = readerBit fb r j) ∧
      (refill fb r).cache.toNat < 2 ^ (refill fb r).cnt.toNat := by
  have hm : min 4 r.cur.toNat ≤ 4 := Nat.min_le_left _ _
  have hm' : min 4 r.cur.toNat ≤ r.cur.toNat := Nat.min_le_right _ _
  have hcnt : (refill fb r).cnt.toNat = 8 * min 4 r.cur.toNat := by
    simp only [refill, BitVec.toNat_ofNat]
    omega
  have hcur : (refill fb r).cur.toNat = r.cur.toNat - min 4 r.cur.toNat := by
    simp only [refill, BitVec.toNat_sub, BitVec.toNat_ofNat]
    have := r.cur.isLt
    omega
  refine ⟨hcnt, hcur, fun j => ?_, ?_⟩
  · have hz : r.cnt.toNat = 0 := by rw [h0]; rfl
    unfold readerBit
    rw [hcnt, hcur, hz]
    by_cases hj : j < 8 * min 4 r.cur.toNat
    · rw [if_pos hj, if_neg (by omega)]
      simp only [refill]
      rw [getLsbD_refillBytes _ _ _ _ (by omega)]
      simp only [hj, decide_true, Bool.true_and, Nat.sub_zero]
    · rw [if_neg hj, if_neg (by omega)]
      have e1 : r.cur.toNat - min 4 r.cur.toNat - 1 - (j - 8 * min 4 r.cur.toNat) / 8 =
          r.cur.toNat - 1 - (j - 0) / 8 := by omega
      have e2 : (j - 8 * min 4 r.cur.toNat) % 8 = (j - 0) % 8 := by omega
      rw [e1, e2]
  · rw [hcnt]
    apply Nat.lt_pow_two_of_testBit
    intro i hi
    rw [BitVec.testBit_toNat]
    by_cases h32 : i < 32
    · simp only [refill]
      rw [getLsbD_refillBytes _ _ _ _ h32]
      have : ¬(i < 8 * min 4 r.cur.toNat) := by omega
      simp [this]
    · exact BitVec.getLsbD_of_ge _ _ (by omega)

/-- R144: one pass of the read loop, while there are bits to come: it takes the next one, and the others move up. -/
theorem takeBit_spec (fb : Memory Byte) (r : TailReader) (h : 1 ≤ 8 * r.cur.toNat + r.cnt.toNat) :
    (takeBit fb r).1 = readerBit fb r 0 ∧
      8 * (takeBit fb r).2.cur.toNat + (takeBit fb r).2.cnt.toNat + 1 = 8 * r.cur.toNat + r.cnt.toNat ∧
      (takeBit fb r).2.cur.toNat ≤ r.cur.toNat ∧
      (∀ j, readerBit fb (takeBit fb r).2 j = readerBit fb r (1 + j)) ∧
      (r.cnt.toNat ≤ 32 → (takeBit fb r).2.cnt.toNat ≤ 32) ∧
      (r.cache.toNat < 2 ^ r.cnt.toNat → (takeBit fb r).2.cache.toNat < 2 ^ (takeBit fb r).2.cnt.toNat) := by
  have key : ∀ q : TailReader, 1 ≤ q.cnt.toNat →
      let q' : TailReader := { q with cache := q.cache >>> 1, cnt := q.cnt - 1 }
      q'.cnt.toNat = q.cnt.toNat - 1 ∧ q.cache.getLsbD 0 = readerBit fb q 0 ∧
        (∀ j, readerBit fb q' j = readerBit fb q (1 + j)) ∧
        (q.cache.toNat < 2 ^ q.cnt.toNat → q'.cache.toNat < 2 ^ (q.cnt.toNat - 1)) := by
    intro q hq
    have hcnt : (q.cnt - 1).toNat = q.cnt.toNat - 1 := by
      have := q.cnt.isLt
      have h1 : (1 : BitVec 6).toNat = 1 := rfl
      rw [BitVec.toNat_sub, h1]
      omega
    refine ⟨hcnt, ?_, fun j => ?_, fun hc => ?_⟩
    · unfold readerBit
      rw [if_pos (by omega)]
    · unfold readerBit
      simp only [hcnt]
      by_cases hj : j < q.cnt.toNat - 1
      · rw [if_pos hj, if_pos (by omega), BitVec.getLsbD_ushiftRight]
      · rw [if_neg hj, if_neg (by omega)]
        have : j - (q.cnt.toNat - 1) = 1 + j - q.cnt.toNat := by omega
        rw [this]
    · simp only [BitVec.toNat_ushiftRight, Nat.shiftRight_one]
      have : 2 ^ q.cnt.toNat = 2 * 2 ^ (q.cnt.toNat - 1) := by
        rw [← Nat.pow_succ']
        congr 1
        omega
      omega
  by_cases h0 : r.cnt = 0#6
  · have hz : r.cnt.toNat = 0 := by rw [h0]; rfl
    obtain ⟨hc, hcur, hb, hcache⟩ := refill_spec fb r h0 (by omega)
    have hq : 1 ≤ (refill fb r).cnt.toNat := by omega
    obtain ⟨k1, k2, k3, k4⟩ := key (refill fb r) hq
    have e : takeBit fb r =
        ((refill fb r).cache.getLsbD 0,
          { refill fb r with cache := (refill fb r).cache >>> 1, cnt := (refill fb r).cnt - 1 }) := by
      simp only [takeBit, if_pos h0]
    rw [e]
    refine ⟨by rw [k2, hb], ?_, ?_, fun j => by rw [k3, hb], fun _ => ?_, fun _ => ?_⟩
    · simp only [k1]; omega
    · simp only [hcur]; omega
    · simp only [k1]; omega
    · simp only [k1]; exact k4 hcache
  · have hq : 1 ≤ r.cnt.toNat := by
      rcases Nat.eq_zero_or_pos r.cnt.toNat with hz | hp
      · exact absurd (BitVec.eq_of_toNat_eq (by simpa using hz)) h0
      · exact hp
    obtain ⟨k1, k2, k3, k4⟩ := key r hq
    have e : takeBit fb r = (r.cache.getLsbD 0, { r with cache := r.cache >>> 1, cnt := r.cnt - 1 }) := by
      simp only [takeBit, if_neg h0]
    rw [e]
    refine ⟨k2, ?_, le_refl _, k3, fun hle => ?_, fun hc => ?_⟩
    · simp only [k1]; omega
    · simp only [k1]; omega
    · simp only [k1]; exact k4 hc

/-- R144: `n` passes of the read loop, while there are `n` bits to come. -/
theorem takeBits_spec (fb : Memory Byte) (r : TailReader) (n : Nat) (hn : n ≤ 32)
    (h : n ≤ 8 * r.cur.toNat + r.cnt.toNat) :
    (∀ j, j < 32 → (takeBits fb r n).1.getLsbD j = (decide (j < n) && readerBit fb r j)) ∧
      8 * (takeBits fb r n).2.cur.toNat + (takeBits fb r n).2.cnt.toNat + n = 8 * r.cur.toNat + r.cnt.toNat ∧
      (takeBits fb r n).2.cur.toNat ≤ r.cur.toNat ∧
      (∀ j, readerBit fb (takeBits fb r n).2 j = readerBit fb r (n + j)) ∧
      (r.cnt.toNat ≤ 32 → (takeBits fb r n).2.cnt.toNat ≤ 32) ∧
      (r.cache.toNat < 2 ^ r.cnt.toNat → (takeBits fb r n).2.cache.toNat < 2 ^ (takeBits fb r n).2.cnt.toNat) := by
  induction n with
  | zero => exact ⟨fun j _ => by simp [takeBits], by simp [takeBits], le_refl _, fun j => by simp [takeBits],
      fun h => h, fun h => h⟩
  | succ n ih =>
    obtain ⟨i1, i2, i3, i4, i5, i6⟩ := ih (by omega) (by omega)
    obtain ⟨t1, t2, t3, t4, t5, t6⟩ := takeBit_spec fb (takeBits fb r n).2 (by omega)
    refine ⟨fun j hj => ?_, ?_, ?_, fun j => ?_, fun hc => t5 (i5 hc), fun hc => t6 (i6 hc)⟩
    · simp only [takeBits, BitVec.getLsbD_or, i1 j hj, BitVec.getLsbD_shiftLeft, BitVec.getLsbD_setWidth]
      rw [t1, i4]
      by_cases h1 : j < n
      · have : j < n + 1 := by omega
        simp [h1, this]
      · by_cases h2 : j = n
        · subst h2
          simp [hj]
        · have h3 : ¬(j < n + 1) := by omega
          have h4 : j - n ≠ 0 := by omega
          have h5 : (BitVec.ofBool (readerBit fb r (n + 0))).getLsbD (j - n) = false := by
            apply BitVec.getLsbD_of_ge; omega
          simp only [Nat.add_zero] at h5
          simp [h1, h3, h5]
    · simp only [takeBits]; omega
    · simp only [takeBits]; omega
    · simp only [takeBits]
      rw [t4, i4]
      congr 1
      omega

/-! ### The checked read -/

/-- R30: there are at least `BITS_LEFT` bits in the reader, once the coder has read its first three bytes. -/
theorem bitsLeft_le (s : State) (h : 3 ≤ s.coder.cur.toNat) :
    bitsLeft s ≤ ((8 * s.reader.cur.toNat + s.reader.cnt.toNat : Nat) : Int) := by
  unfold bitsLeft brPos acFront
  omega

/-- R144: everything a checked read can do. -/
theorem brRead_outcome (n : Nat) (s : State) :
    (bitsLeft s < n ∧ brRead n s = .raised .broverrun s) ∨
      ((n : Int) ≤ bitsLeft s ∧
        brRead n s = .ok (takeBits s.fb s.reader n).1 { s with reader := (takeBits s.fb s.reader n).2 }) := by
  unfold brRead
  by_cases h : bitsLeft s < n
  · exact .inl ⟨h, by rw [if_pos h]⟩
  · exact .inr ⟨by omega, by rw [if_neg h]⟩

/-- R144, R146: a read that succeeds returns the next `n` bits, first bit lowest, and moves the reader on by `n`. -/
theorem brRead_spec {n : Nat} {s : State} (hn : n ≤ 32) (hc : 3 ≤ s.coder.cur.toNat) (h : (n : Int) ≤ bitsLeft s) :
    ∃ v r, brRead n s = .ok v { s with reader := r } ∧
      (∀ j, j < 32 → v.getLsbD j = (decide (j < n) && pendingBit s j)) ∧
      8 * r.cur.toNat + r.cnt.toNat + n = 8 * s.reader.cur.toNat + s.reader.cnt.toNat ∧
      r.cur.toNat ≤ s.reader.cur.toNat ∧
      (∀ j, readerBit s.fb r j = pendingBit s (n + j)) ∧
      (s.reader.cnt.toNat ≤ 32 → r.cnt.toNat ≤ 32) ∧
      (s.reader.cache.toNat < 2 ^ s.reader.cnt.toNat → r.cache.toNat < 2 ^ r.cnt.toNat) := by
  have hb := bitsLeft_le s hc
  obtain ⟨t1, t2, t3, t4, t5, t6⟩ := takeBits_spec s.fb s.reader n hn (by omega)
  refine ⟨_, _, ?_, t1, t2, t3, t4, t5, t6⟩
  rcases brRead_outcome n s with ⟨hlt, _⟩ | ⟨_, he⟩
  · omega
  · exact he

end Sys2Proof.Machine
end

