-- ==== Sys2Proof/Laws/Pair.lean ====
section
/-! SUPPORT. A spectral pair: the escape scan (R171, R176), the raw bits and signs (R173), and the whole decode of a pair. -/

namespace Sys2Proof.Machine

open Sys2Proof

/-! ### A reader some bits further on -/

/-- `r` is the reader of `s` after `n` bits (R146). -/
structure Moved (n : Nat) (s : State) (r : TailReader) : Prop where
  count : 8 * r.cur.toNat + r.cnt.toNat + n = 8 * s.reader.cur.toNat + s.reader.cnt.toNat
  cur_le : r.cur.toNat ≤ s.reader.cur.toNat
  bits : ∀ j, readerBit s.fb r j = pendingBit s (n + j)
  cnt_le : s.reader.cnt.toNat ≤ 32 → r.cnt.toNat ≤ 32
  cache_lt : s.reader.cache.toNat < 2 ^ s.reader.cnt.toNat → r.cache.toNat < 2 ^ r.cnt.toNat
  still : n = 0 → r = s.reader

theorem Moved.zero (s : State) : Moved 0 s s.reader :=
  ⟨rfl, le_refl _, fun j => by rw [Nat.zero_add]; rfl, fun h => h, fun h => h, fun _ => rfl⟩

theorem Moved.add {n m : Nat} {s : State} {r q : TailReader} (h : Moved n s r) (h' : Moved m { s with reader := r } q) :
    Moved (n + m) s q :=
  ⟨by have := h.count; have := h'.count; simp only at *; omega, le_trans h'.cur_le h.cur_le,
    fun j => by
      rw [h'.bits j]
      change readerBit s.fb r (m + j) = _
      rw [h.bits, Nat.add_assoc],
    fun hc => h'.cnt_le (h.cnt_le hc), fun hc => h'.cache_lt (h.cache_lt hc),
    fun h0 => (h'.still (by omega)).trans (h.still (by omega))⟩

theorem Moved.brPos {n : Nat} {s : State} {r : TailReader} (h : Moved n s r) :
    brPos { s with reader := r } = brPos s + n := by
  have := h.count
  simp only [Machine.brPos]
  omega

theorem Moved.bitsLeft {n : Nat} {s : State} {r : TailReader} (h : Moved n s r) :
    bitsLeft { s with reader := r } = bitsLeft s - n := by
  have := h.brPos
  unfold Machine.bitsLeft acFront
  simp only [this]
  omega

/-- R144: everything a checked read of at most 32 bits can do. -/
theorem brRead_moved {n : Nat} {s : State} (hn : n ≤ 32) (hc : 3 ≤ s.coder.cur.toNat) :
    (bitsLeft s < n ∧ brRead n s = .raised .broverrun s) ∨
      ((n : Int) ≤ bitsLeft s ∧ ∃ v r, brRead n s = .ok v { s with reader := r } ∧ Moved n s r ∧
        ∀ j, j < 32 → v.getLsbD j = (decide (j < n) && pendingBit s j)) := by
  by_cases h : bitsLeft s < n
  · exact .inl ⟨h, by unfold brRead; rw [if_pos h]⟩
  · obtain ⟨v, r, h1, h2, h3, h4, h5, h6, h7⟩ := brRead_spec hn hc (by omega : (n : Int) ≤ bitsLeft s)
    refine .inr ⟨by omega, v, r, h1, ⟨h3, h4, h5, h6, h7, ?_⟩, h2⟩
    rintro rfl
    have h0 : brRead 0 s = .ok (takeBits s.fb s.reader 0).1 { s with reader := (takeBits s.fb s.reader 0).2 } := by
      unfold brRead; rw [if_neg h]
    rw [h0] at h1
    injection h1 with _ hs
    exact (congrArg Over.State.reader hs).symm

/-! ### Signs and raw bits -/

/-- R171, R173: a sign bit is read exactly for a value that is not 0. -/
theorem readSign_outcome {q : Nat} {s : State} (hc : 3 ≤ s.coder.cur.toNat) :
    (q = 0 ∧ readSign q s = .ok 0 s) ∨
      (q ≠ 0 ∧ bitsLeft s < 1 ∧ readSign q s = .raised .broverrun s) ∨
      (q ≠ 0 ∧ 1 ≤ bitsLeft s ∧ ∃ r, Moved 1 s r ∧
        readSign q s = .ok (if pendingBit s 0 = true then -(q : Int) else q) { s with reader := r }) := by
  by_cases hq : q = 0
  · subst hq
    exact .inl ⟨rfl, rfl⟩
  · have hq' : 0 < q := by omega
    rcases brRead_moved (n := 1) (s := s) (by omega) hc with ⟨h, he⟩ | ⟨h, v, r, he, hm, hv⟩
    · exact .inr (.inl ⟨hq, h, by unfold readSign; rw [if_pos hq', he]; rfl⟩)
    · refine .inr (.inr ⟨hq, by omega, r, hm, ?_⟩)
      unfold readSign
      rw [if_pos hq', he, ranBind_ok]
      have hv1 : (v = 1#32) ↔ pendingBit s 0 = true := by
        have h0 := hv 0 (by omega)
        simp only [Nat.zero_lt_one, decide_true, Bool.true_and] at h0
        rw [← h0]
        constructor
        · rintro rfl; decide
        · intro h1
          apply BitVec.eq_of_getLsbD_eq
          intro i hi
          rw [hv i hi]
          by_cases hi0 : i = 0
          · subst hi0
            rw [← h0, h1]; decide
          · have hlt : ¬(i < 1) := by omega
            have : (1#32).getLsbD i = false := by
              rw [BitVec.getLsbD_one]
              simp [hi0]
            simp [hlt, this]
      by_cases hp : pendingBit s 0 = true
      · rw [if_pos (hv1.mpr hp), if_pos hp]
      · rw [if_neg (fun h => hp (hv1.mp h)), if_neg hp]

/-- R171: the raw bits of a pair, in one read, or none. -/
theorem readRaw_outcome {n : Nat} {s : State} (hn : n ≤ 32) (hc : 3 ≤ s.coder.cur.toNat) :
    (0 < n ∧ bitsLeft s < n ∧ readRaw n s = .raised .broverrun s) ∨
      ((n = 0 ∨ (n : Int) ≤ bitsLeft s) ∧ ∃ v r, readRaw n s = .ok v { s with reader := r } ∧ Moved n s r ∧
        ∀ j, j < n → v.getLsbD j = pendingBit s j) := by
  by_cases h0 : n = 0
  · subst h0
    exact .inr ⟨.inl rfl, 0#32, s.reader, rfl, Moved.zero s, fun j hj => absurd hj (Nat.not_lt_zero j)⟩
  · have hp : 0 < n := by omega
    rcases brRead_moved hn hc with ⟨h, he⟩ | ⟨h, v, r, he, hm, hv⟩
    · exact .inl ⟨hp, h, by unfold readRaw; rw [if_pos hp, he]⟩
    · refine .inr ⟨.inr h, v, r, by unfold readRaw; rw [if_pos hp, he], hm, fun j hj => ?_⟩
      rw [hv j (by omega)]
      simp [hj]

/-- R171: the excess magnitude as a sum over the planes. -/
theorem deinterleave_eq {v : BitVec 32} {s : State} {odd first : Nat} (n : Nat)
    (hv : ∀ j, j < n → v.getLsbD (2 * j + odd) = pendingBit s (2 * j + odd)) :
    deinterleave v odd first n =
      ((List.range n).map fun j => (pendingBit s (2 * j + odd)).toNat * 2 ^ (j + first)).sum := by
  induction n with
  | zero => rfl
  | succ n ih =>
    rw [List.range_succ, List.map_append, List.sum_append, ← ih fun j hj => hv j (by omega)]
    simp only [deinterleave, hv n (by omega), Nat.shiftLeft_eq, List.map_cons, List.map_nil, List.sum_cons, List.sum_nil,
      Nat.add_zero]

theorem rawBits_eq (s : State) (lev : Nat) : rawBits s.frm.lsbMode lev = 2 * pairPlanes s lev := by
  unfold rawBits pairPlanes
  split
  · rfl
  · omega

theorem and_three (n : Nat) : n &&& 3 = n % 4 := by
  have : (3 : Nat) = 2 ^ 2 - 1 := rfl
  rw [this, Nat.and_two_pow_sub_one_eq_mod]

/-- R171, R173: everything the raw bits and signs of a pair can do. A pair short of bits keeps those of the reads before the
one that failed. -/
theorem pairValues_outcome {lev sym : Nat} {s : State} (hlev : lev ≤ 13) (hc : 3 ≤ s.coder.cur.toNat) :
    (0 < pairTailBits s lev sym ∧ bitsLeft s < pairTailBits s lev sym ∧
      ∃ r, Moved (pairTailTaken s lev sym (bitsLeft s)) s r ∧
        pairValues lev sym s = .raised .broverrun { s with reader := r }) ∨
    ((pairTailBits s lev sym = 0 ∨ (pairTailBits s lev sym : Int) ≤ bitsLeft s) ∧
      ∃ r, Moved (pairTailBits s lev sym) s r ∧
        pairValues lev sym s =
          .ok { lev := lev, sym := sym, qa := pairFirst s lev sym, qb := pairSecond s lev sym }
            { s with reader := r }) := by
  have hpl : pairPlanes s lev ≤ 13 := by unfold pairPlanes; omega
  have hhalf : 2 * pairPlanes s lev / 2 = pairPlanes s lev := by omega
  have hpv : pairValues lev sym s =
      ranBind (readRaw (2 * pairPlanes s lev) s) fun v s' =>
      ranBind (readSign ((sym &&& 3) <<< lev + deinterleave v 0 s.frm.lsbMode.toNat (pairPlanes s lev)) s')
        fun qa s'' =>
      ranBind (readSign (sym >>> 2 <<< lev + deinterleave v 1 s.frm.lsbMode.toNat (pairPlanes s lev)) s'')
        fun qb s''' => .ok { lev := lev, sym := sym, qa := qa, qb := qb } s''' := by
    simp only [pairValues, rawBits_eq, hhalf]
  rw [hpv]
  have hns : pairSignBits s lev sym 0 ≤ 1 ∧ pairSignBits s lev sym 1 ≤ 1 := by
    unfold pairSignBits; constructor <;> split <;> omega
  rcases readRaw_outcome (n := 2 * pairPlanes s lev) (s := s) (by omega) hc with ⟨h0, h, he⟩ | ⟨h, v, r, he, hm, hv⟩
  · refine .inl ⟨by unfold pairTailBits; omega, by unfold pairTailBits; omega, s.reader, ?_, ?_⟩
    · unfold pairTailTaken; rw [if_pos h]; exact Moved.zero s
    · rw [he]; rfl
  · have hqa : (sym &&& 3) <<< lev + deinterleave v 0 s.frm.lsbMode.toNat (pairPlanes s lev) =
        pairMagnitude s lev sym 0 := by
      rw [deinterleave_eq _ fun j hj => hv _ (by omega), and_three, Nat.shiftLeft_eq]
      simp [pairMagnitude]
    have hqb : sym >>> 2 <<< lev + deinterleave v 1 s.frm.lsbMode.toNat (pairPlanes s lev) =
        pairMagnitude s lev sym 1 := by
      rw [deinterleave_eq _ fun j hj => hv _ (by omega), Nat.shiftRight_eq_div_pow, Nat.shiftLeft_eq]
      simp [pairMagnitude]
    rw [he, ranBind_ok, hqa, hqb]
    have hb1 := hm.bitsLeft
    have hpend : pendingBit { s with reader := r } 0 = pendingBit s (2 * pairPlanes s lev) := hm.bits 0
    -- the first sign
    rcases readSign_outcome (q := pairMagnitude s lev sym 0) (s := { s with reader := r }) hc with
      ⟨ha, hea⟩ | ⟨ha, hb, hea⟩ | ⟨ha, hb, ra, hma, hea⟩
    · have hsa : pairSignBits s lev sym 0 = 0 := by unfold pairSignBits; rw [if_pos ha]
      have hfa : pairFirst s lev sym = 0 := by simp [pairFirst, ha]
      rw [hea, ranBind_ok]
      rcases readSign_outcome (q := pairMagnitude s lev sym 1) (s := { s with reader := r }) hc with
        ⟨hz, heb⟩ | ⟨hz, hbb, heb⟩ | ⟨hz, hbb, rb, hmb, heb⟩
      · have hsb : pairSignBits s lev sym 1 = 0 := by unfold pairSignBits; rw [if_pos hz]
        have hfb : pairSecond s lev sym = 0 := by simp [pairSecond, hz]
        refine .inr ⟨by unfold pairTailBits; omega, r, ?_, ?_⟩
        · unfold pairTailBits; rw [hsa, hsb]; exact hm
        · rw [heb, ranBind_ok, hfa, hfb]
      · have hsb : pairSignBits s lev sym 1 = 1 := by unfold pairSignBits; rw [if_neg hz]
        refine .inl ⟨by unfold pairTailBits; omega, by unfold pairTailBits; omega, r, ?_, by rw [heb]; rfl⟩
        by_cases hneg : bitsLeft s < (2 * pairPlanes s lev : Nat)
        · have hz0 : 2 * pairPlanes s lev = 0 := by omega
          rw [hz0] at hm
          unfold pairTailTaken; rw [if_pos hneg]; exact hm
        · unfold pairTailTaken; rw [if_neg hneg, hsa, Nat.add_zero, if_neg hneg]; exact hm
      · have hsb : pairSignBits s lev sym 1 = 1 := by unfold pairSignBits; rw [if_neg hz]
        refine .inr ⟨by unfold pairTailBits; omega, rb, ?_, ?_⟩
        · have := hm.add hmb
          unfold pairTailBits; rw [hsa, hsb]; exact this
        · rw [heb, ranBind_ok, hfa, hpend]
          simp only [pairSecond, hsa, Nat.add_zero]
          simp [hz]
    · have hsa : pairSignBits s lev sym 0 = 1 := by unfold pairSignBits; rw [if_neg ha]
      refine .inl ⟨by unfold pairTailBits; omega, by unfold pairTailBits; omega, r, ?_, by rw [hea]; rfl⟩
      by_cases hneg : bitsLeft s < (2 * pairPlanes s lev : Nat)
      · have hz0 : 2 * pairPlanes s lev = 0 := by omega
        rw [hz0] at hm
        unfold pairTailTaken; rw [if_pos hneg]; exact hm
      · unfold pairTailTaken; rw [if_neg hneg, hsa, if_pos (by omega)]; exact hm
    · have hsa : pairSignBits s lev sym 0 = 1 := by unfold pairSignBits; rw [if_neg ha]
      have hfa : pairFirst s lev sym =
          if pendingBit s (2 * pairPlanes s lev) = true then -(pairMagnitude s lev sym 0 : Int)
          else pairMagnitude s lev sym 0 := by
        simp [pairFirst, ha]
      have hm2 := hm.add hma
      have hb2 := hma.bitsLeft
      have hpend2 : pendingBit { s with reader := ra } 0 = pendingBit s (2 * pairPlanes s lev + 1) := hm2.bits 0
      simp only at hb2
      rw [hea, ranBind_ok, hpend]
      rcases readSign_outcome (q := pairMagnitude s lev sym 1) (s := { s with reader := ra }) hc with
        ⟨hz, heb⟩ | ⟨hz, hbb, heb⟩ | ⟨hz, hbb, rb, hmb, heb⟩
      · have hsb : pairSignBits s lev sym 1 = 0 := by unfold pairSignBits; rw [if_pos hz]
        have hfb : pairSecond s lev sym = 0 := by simp [pairSecond, hz]
        refine .inr ⟨by unfold pairTailBits; omega, ra, ?_, ?_⟩
        · unfold pairTailBits; rw [hsa, hsb]; exact hm2
        · rw [heb, ranBind_ok, hfa, hfb]
      · have hsb : pairSignBits s lev sym 1 = 1 := by unfold pairSignBits; rw [if_neg hz]
        refine .inl ⟨by unfold pairTailBits; omega, by unfold pairTailBits; omega, ra, ?_, by rw [heb]; rfl⟩
        unfold pairTailTaken; rw [if_neg (by omega), hsa, if_neg (by omega)]; exact hm2
      · have hsb : pairSignBits s lev sym 1 = 1 := by unfold pairSignBits; rw [if_neg hz]
        refine .inr ⟨by unfold pairTailBits; omega, rb, ?_, ?_⟩
        · have := hm2.add hmb
          unfold pairTailBits; rw [hsa, hsb]; exact this
        · rw [heb, ranBind_ok, hfa, hpend2]
          simp only [pairSecond, hsa]
          simp [hz]

/-! ### The escape scan -/

theorem pairTable_eq (s : State) : pairTable s = tableIndex s := by
  unfold pairTable tableIndex
  cases s.frm.rateFlag <;> simp

theorem tableIndex_lt (s : State) : tableIndex s < 1024 := by
  have := s.frm.specCtx.isLt
  unfold tableIndex
  cases s.frm.rateFlag <;> simp <;> split <;> omega

theorem pairModel_lt {env : Env} (he : env.Wf) (s : State) (lev : Nat) :
    pairModel env.rom (pairTable s) lev < env.rom.nspec + 18 := by
  have := tableIndex_lt s
  have := wf_specLookup_lt he (i := pairTable s + 1024 * min lev 3) (by rw [pairTable_eq]; omega)
  unfold pairModel
  omega

theorem levelModel_eq (env : Env) (s : State) (lev : Nat) :
    env.rom.model (pairModel env.rom (pairTable s) lev) = levelModel env.rom s lev := by
  unfold levelModel pairModel
  rw [pairTable_eq]

/-- The ranges stay renormalised along a chain of escapes. -/
theorem Escapes.range_ge {rom : Rom} {s : State} {lev : Nat} {c : Nat → Coder} (h : Escapes rom s lev c)
    (hr : 0x10000 ≤ s.coder.range.toNat) : ∀ i, i ≤ lev → 0x10000 ≤ (c i).range.toNat
  | 0, _ => by rw [h.1]; exact hr
  | i + 1, hi => (h.2 i (by omega)).range_ge

theorem Escapes.front {rom : Rom} {s : State} {lev : Nat} {c : Nat → Coder} (h : Escapes rom s lev c)
    (hr : 3 ≤ s.coder.cur.toNat) : ∀ i, i ≤ lev → 3 ≤ (c i).cur.toNat
  | 0, _ => by rw [h.1]; exact hr
  | i + 1, hi => (h.2 i (by omega)).front (h.front hr i (by omega))

/-- One escape of the scan. -/
theorem escapeScan_step {env : Env} (he : env.Wf) {s : State} {c c' : Coder} {sym lev fuel : Nat}
    (hr : 0x10000 ≤ c.range.toNat) (hd : DecodesTo (levelModel env.rom s lev) s c sym c') :
    escapeScan env (pairTable s) (fuel + 1) lev { s with coder := c } =
      if sym < 16 then .ok (lev, sym) { s with coder := c' }
      else escapeScan env (pairTable s) fuel (lev + 1) { s with coder := c' } := by
  have hd' : DecodesTo (env.rom.model (pairModel env.rom (pairTable s) lev)) { s with coder := c } c sym c' := by
    rw [levelModel_eq]; exact hd.congr rfl rfl
  have hst := acStep_of_decodesTo (s := { s with coder := c }) he (pairModel_lt he s lev) hr hd'
  simp only [escapeScan]
  rw [hst, ranBind_ok]

/-- R171: a chain of escapes and a final symbol are what the scan finds. -/
theorem escapeScan_found {env : Env} (he : env.Wf) {s : State} {lev sym : Nat} {c : Nat → Coder}
    (hr : 0x10000 ≤ s.coder.range.toNat) (hesc : Escapes env.rom s lev c)
    (hd : DecodesTo (levelModel env.rom s lev) s (c lev) sym (c (lev + 1))) (hsym : sym < 16) :
    ∀ (d fuel : Nat), d ≤ lev → d < fuel →
      escapeScan env (pairTable s) fuel (lev - d) { s with coder := c (lev - d) } =
        .ok (lev, sym) { s with coder := c (lev + 1) }
  | d, 0, _, hf => by omega
  | 0, fuel + 1, _, _ => by
    have hre := hesc.range_ge hr lev (le_refl _)
    simp only [Nat.sub_zero]
    rw [escapeScan_step he hre hd, if_pos hsym]
  | d + 1, fuel + 1, h1, h2 => by
    have hre := hesc.range_ge hr (lev - (d + 1)) (by omega)
    have hst := hesc.2 (lev - (d + 1)) (by omega)
    rw [escapeScan_step he hre hst, if_neg (by omega)]
    have e : lev - (d + 1) + 1 = lev - d := by omega
    rw [e]
    exact escapeScan_found he hr hesc hd hsym d fuel (by omega) (by omega)

/-- R176: 14 escapes in a row end the scan. -/
theorem escapeScan_bound {env : Env} (he : env.Wf) {s : State} {c : Nat → Coder}
    (hr : 0x10000 ≤ s.coder.range.toNat) (hesc : Escapes env.rom s 14 c) :
    ∀ fuel, fuel ≤ 14 →
      escapeScan env (pairTable s) fuel (14 - fuel) { s with coder := c (14 - fuel) } =
        .raised .esclevel { s with coder := c 14 }
  | 0, _ => rfl
  | fuel + 1, h => by
    have hre := hesc.range_ge hr (14 - (fuel + 1)) (by omega)
    have hst := hesc.2 (14 - (fuel + 1)) (by omega)
    rw [escapeScan_step he hre hst, if_neg (by omega)]
    have e : 14 - (fuel + 1) + 1 = 14 - fuel := by omega
    rw [e]
    exact escapeScan_bound he hr hesc fuel (by omega)

/-- R163, R171: a chain of escapes and a step that raises end the scan. -/
theorem escapeScan_raises {env : Env} (he : env.Wf) {s : State} {lev : Nat} {c : Nat → Coder} {cause : Cause}
    (hr : 0x10000 ≤ s.coder.range.toNat) (hesc : Escapes env.rom s lev c) (hc : RaisesAt (c lev) cause) :
    ∀ (d fuel : Nat), d ≤ lev → d < fuel →
      escapeScan env (pairTable s) fuel (lev - d) { s with coder := c (lev - d) } =
        .raised cause { s with coder := c lev }
  | d, 0, _, hf => by omega
  | 0, fuel + 1, _, _ => by
    simp only [Nat.sub_zero, escapeScan]
    rw [acStep_of_raisesAt (s := { s with coder := c lev }) he (pairModel_lt he s lev) (hesc.range_ge hr lev (le_refl _)) hc]
    rfl
  | d + 1, fuel + 1, h1, h2 => by
    rw [escapeScan_step he (hesc.range_ge hr (lev - (d + 1)) (by omega)) (hesc.2 (lev - (d + 1)) (by omega)),
      if_neg (by omega), show lev - (d + 1) + 1 = lev - d by omega]
    exact escapeScan_raises he hr hesc hc d fuel (by omega) (by omega)

theorem withCoder_self {s : State} {c : Coder} (h : c = s.coder) : { s with coder := c } = s := by
  subst h; rfl

/-- R171: the decode of a pair: its escapes and symbol, then its raw bits and signs. -/
theorem pairDecode_eq {env : Env} (he : env.Wf) {s : State} {lev sym : Nat} {c : Nat → Coder}
    (hr : 0x10000 ≤ s.coder.range.toNat) (hlev : lev ≤ 13) (hesc : Escapes env.rom s lev c)
    (hd : DecodesTo (levelModel env.rom s lev) s (c lev) sym (c (lev + 1))) (hsym : sym < 16) :
    pairDecode env s = pairValues lev sym { s with coder := c (lev + 1) } := by
  have h := escapeScan_found he hr hesc hd hsym lev 14 (le_refl _) (by omega)
  rw [Nat.sub_self, withCoder_self hesc.1] at h
  unfold pairDecode
  rw [h, ranBind_ok]

/-- R176: the decode of a pair that escapes 14 times. -/
theorem pairDecode_bound {env : Env} (he : env.Wf) {s : State} {c : Nat → Coder}
    (hr : 0x10000 ≤ s.coder.range.toNat) (hesc : Escapes env.rom s 14 c) :
    pairDecode env s = .raised .esclevel { s with coder := c 14 } := by
  have h := escapeScan_bound he hr hesc 14 (le_refl _)
  rw [Nat.sub_self, withCoder_self hesc.1] at h
  unfold pairDecode
  rw [h, ranBind_raised]

/-- R163, R171: the decode of a pair whose step after `lev` escapes raises. -/
theorem pairDecode_raises {env : Env} (he : env.Wf) {s : State} {lev : Nat} {c : Nat → Coder} {cause : Cause}
    (hr : 0x10000 ≤ s.coder.range.toNat) (hlev : lev ≤ 13) (hesc : Escapes env.rom s lev c) (hc : RaisesAt (c lev) cause) :
    pairDecode env s = .raised cause { s with coder := c lev } := by
  have h := escapeScan_raises he hr hesc hc lev 14 (le_refl _) (by omega)
  rw [Nat.sub_self, withCoder_self hesc.1] at h
  unfold pairDecode
  rw [h, ranBind_raised]

end Sys2Proof.Machine
end

