-- ==== Sys2Proof/Laws/PerInstr.lean ====
section
/-! SUPPORT. Per command: its word carries the opcode of the opcode map and has every reserved bit clear (R111, R118). -/

namespace Sys2Proof.Laws

open Sys2Proof

/-- R118: the opcode of a command. -/
def WordShape.opcode : Instr → BitVec 8
  | .nop => 0x00
  | .cfglock => 0x01
  | .finit _ _ => 0x02
  | .sreset => 0x0F
  | .brbit => 0x10
  | .bruint _ => 0x11
  | .brsync => 0x12
  | .acdec _ => 0x20
  | .actns _ => 0x21
  | .acpair => 0x22
  | .nfill => 0x30
  | .ggain => 0x31
  | .tnssyn => 0x32
  | .snssyn => 0x33
  | .imdct => 0x40
  | .ltpf => 0x41

/-- R111: the reserved bits of a command's format. -/
def WordShape.reserved : Instr → Word
  | .nop => 0x00FFFFFF
  | .cfglock => 0x00FFFFFF
  | .finit _ _ => 0x00FEFE00
  | .sreset => 0x00FFFFFF
  | .brbit => 0x00FFFFFF
  | .bruint _ => 0x00FFFFC0
  | .brsync => 0x00FFFFFF
  | .acdec _ => 0x00FFFF00
  | .actns _ => 0x00FFFFFE
  | .acpair => 0x00FFFFFF
  | .nfill => 0x00FFFFFF
  | .ggain => 0x00FFFFFF
  | .tnssyn => 0x00FFFFFF
  | .snssyn => 0x00FFFFFF
  | .imdct => 0x00FFFFFF
  | .ltpf => 0x00FFFFFF

/-- The word of a command carries its opcode in bits [31:24] and 0 in every reserved bit. -/
def WordShape.Statement (i : Instr) : Prop :=
  (encode i).extractLsb' 24 8 = WordShape.opcode i ∧ encode i &&& WordShape.reserved i = 0#32

theorem WordShape.nop : WordShape.Statement .nop := by unfold WordShape.Statement; decide
theorem WordShape.cfglock : WordShape.Statement .cfglock := by unfold WordShape.Statement; decide
theorem WordShape.finit (loss : Bool) (len : BitVec 9) : WordShape.Statement (.finit loss len) := by
  unfold WordShape.Statement
  revert loss len
  decide +kernel
theorem WordShape.sreset : WordShape.Statement .sreset := by unfold WordShape.Statement; decide
theorem WordShape.brbit : WordShape.Statement .brbit := by unfold WordShape.Statement; decide
theorem WordShape.bruint (n : BitVec 6) : WordShape.Statement (.bruint n) := by
  unfold WordShape.Statement
  revert n
  decide +kernel
theorem WordShape.brsync : WordShape.Statement .brsync := by unfold WordShape.Statement; decide
theorem WordShape.acdec (m : BitVec 8) : WordShape.Statement (.acdec m) := by
  unfold WordShape.Statement
  revert m
  decide +kernel
theorem WordShape.actns (f : BitVec 1) : WordShape.Statement (.actns f) := by
  unfold WordShape.Statement
  revert f
  decide +kernel
theorem WordShape.acpair : WordShape.Statement .acpair := by unfold WordShape.Statement; decide
theorem WordShape.nfill : WordShape.Statement .nfill := by unfold WordShape.Statement; decide
theorem WordShape.ggain : WordShape.Statement .ggain := by unfold WordShape.Statement; decide
theorem WordShape.tnssyn : WordShape.Statement .tnssyn := by unfold WordShape.Statement; decide
theorem WordShape.snssyn : WordShape.Statement .snssyn := by unfold WordShape.Statement; decide
theorem WordShape.imdct : WordShape.Statement .imdct := by unfold WordShape.Statement; decide
theorem WordShape.ltpf : WordShape.Statement .ltpf := by unfold WordShape.Statement; decide

end Sys2Proof.Laws
end

