-- ==== Sys2Proof/Laws/Spectrum.lean ====
section
/-! SUPPORT. The stages that walk the spectrum: the bands of the envelope (R223), noise filling (R191), the lattice filter
(R201), and the ascending sums. -/

namespace Sys2Proof.Machine

open Sys2Proof

/-! ### Fixed banks -/

theorem vecAt_setIfInBounds {V : Type} [Zero V] {n : Nat} (v : Vector V n) (i j : Nat) (x : V) (hi : i < n) :
    vecAt (v.setIfInBounds i x) j = if j = i then x else vecAt v j := by
  unfold vecAt
  rw [Vector.getElem?_setIfInBounds]
  by_cases h : i = j
  · subst h; simp [hi]
  · rw [if_neg h, if_neg fun hh => h hh.symm]

@[simp] theorem vecAt_replicate {V : Type} [Zero V] (n i : Nat) : vecAt (Vector.replicate n (0 : V)) i = 0 := by
  unfold vecAt
  rw [Vector.getElem?_replicate]
  split <;> rfl

theorem vecAt_ofFn {V : Type} [Zero V] {n : Nat} (f : Fin n → V) (i : Nat) (h : i < n) : vecAt (Vector.ofFn f) i = f ⟨i, h⟩ := by
  unfold vecAt
  simp [h]

/-! ### Sums -/

/-- The ascending sum is a fold. -/
theorem sumAsc_eq_foldl (num : Numerics) (f : Nat → Sample) (n : Nat) :
    sumAsc num f n = (List.range n).foldl (fun acc k => num.add acc (f k)) Sample.zero := by
  induction n with
  | zero => rfl
  | succ n ih => rw [List.range_succ, List.foldl_append]; simp [sumAsc, ih]

theorem sumAsc_congr {num : Numerics} {f g : Nat → Sample} {n : Nat} (h : ∀ k, k < n → f k = g k) :
    sumAsc num f n = sumAsc num g n := by
  induction n with
  | zero => rfl
  | succ n ih => simp only [sumAsc]; rw [ih fun k hk => h k (by omega), h n (by omega)]

/-! ### The bands of the envelope -/

section Bands

variable {num : Numerics} {bands : Memory (BitVec 10)} {scale : Nat → Sample} {x : Memory Sample}

theorem applyBands_wf (hx : Memory.wf 1024 x = true) (n : Nat) :
    Memory.wf 1024 (applyBands num bands scale x n) = true := by
  induction n with
  | zero => exact hx
  | succ n ih =>
    refine Memory.wf_memFill ih _ _ _ ?_
    have := (memRead bands n).isLt
    have := (memRead bands (n + 1)).isLt
    omega

/-- R223: the bins of a band are multiplied once, by the band's gain; the bins above the last band stay. -/
theorem applyBands_spec (hx : Memory.wf 1024 x = true) (n : Nat)
    (hm : ∀ b, b < n → (memRead bands b).toNat ≤ (memRead bands (b + 1)).toNat) :
    (∀ b, b < n → ∀ k, (memRead bands b).toNat ≤ k → k < (memRead bands (b + 1)).toNat →
      memRead (applyBands num bands scale x n) k = num.mul (memRead x k) (num.exp2 (scale b))) ∧
    ∀ k, (memRead bands n).toNat ≤ k → memRead (applyBands num bands scale x n) k = memRead x k := by
  induction n with
  | zero => exact ⟨fun b hb => absurd hb (Nat.not_lt_zero b), fun _ _ => rfl⟩
  | succ n ih =>
    obtain ⟨i1, i2⟩ := ih fun b hb => hm b (by omega)
    have hmn := hm n (by omega)
    have hl := (memRead bands n).isLt
    have hh := (memRead bands (n + 1)).isLt
    have hrd : ∀ k, memRead (applyBands num bands scale x (n + 1)) k =
        if (memRead bands n).toNat ≤ k ∧ k < (memRead bands (n + 1)).toNat then
          num.mul (memRead (applyBands num bands scale x n) k) (num.exp2 (scale n))
        else memRead (applyBands num bands scale x n) k := by
      intro k
      simp only [applyBands]
      rw [memRead_memFill (applyBands_wf hx n) _ _ _ (by omega)]
      by_cases hk : (memRead bands n).toNat ≤ k ∧ k < (memRead bands (n + 1)).toNat
      · rw [if_pos (by omega), if_pos hk]
        have : (memRead bands n).toNat + (k - (memRead bands n).toNat) = k := by omega
        rw [this]
      · rw [if_neg (by omega), if_neg hk]
    have hmono : ∀ b c, b ≤ c → c ≤ n → (memRead bands b).toNat ≤ (memRead bands c).toNat := by
      intro b c hbc hc
      induction c with
      | zero => have : b = 0 := by omega
                rw [this]
      | succ c ihc =>
        rcases Nat.lt_or_ge b (c + 1) with h | h
        · exact le_trans (ihc (by omega) (by omega)) (hm c (by omega))
        · have : b = c + 1 := by omega
          rw [this]
    refine ⟨fun b hb k h1 h2 => ?_, fun k hk => ?_⟩
    · rw [hrd]
      by_cases hbn : b = n
      · subst hbn
        rw [if_pos ⟨h1, h2⟩, i2 k h1]
      · have := hmono (b + 1) n (by omega) (le_refl _)
        rw [if_neg (by omega)]
        exact i1 b (by omega) k h1 h2
    · rw [hrd, if_neg (by omega)]
      exact i2 k (by omega)

end Bands

/-! ### Noise filling -/

/-- R191, phase 1: the gap test is the rule's. -/
theorem isGap_iff (num : Numerics) (s : State) (stop k : Nat) (hk : k < stop) :
    isGap num s.x s.cfg.nfwidth.toNat stop k = true ↔ GapAt num s stop k := by
  unfold isGap GapAt
  simp only [List.all_eq_true, List.mem_range, Bool.or_eq_true, decide_eq_true_eq]
  constructor
  · intro h i h1 h2
    rcases h (i + s.cfg.nfwidth.toNat - k) (by omega) with (h3 | h3) | h3
    · omega
    · omega
    · have : k + (i + s.cfg.nfwidth.toNat - k) - s.cfg.nfwidth.toNat = i := by omega
      rwa [this] at h3
  · intro h d hd
    by_cases h1 : k + d < s.cfg.nfwidth.toNat
    · exact .inl (.inl h1)
    · by_cases h2 : stop ≤ k + d - s.cfg.nfwidth.toNat
      · exact .inl (.inr h2)
      · exact .inr (h _ (by omega) (by omega))

section Noise

variable {env : Env} {s : State}

/-- The gap test of a run of `NFILL` on `s`. -/
abbrev gapOf (env : Env) (s : State) (k : Nat) : Bool :=
  isGap env.num s.x s.cfg.nfwidth.toNat (noiseStop s) k

/-- R191, phase 2: one bin of the fill. -/
theorem noiseFill_succ (n : Nat) :
    noiseFill env s (n + 1) =
      if gapOf env s (s.cfg.nfstart.toNat + n) then
        { seed := lcg env.param (noiseFill env s n).seed
          x := memWrite (noiseFill env s n).x (s.cfg.nfstart.toNat + n)
            (if (lcg env.param (noiseFill env s n).seed).toNat < 0x8000 then env.num.ofInt (noiseLevel s)
              else env.num.ofInt (-(noiseLevel s : Int)))
          count := (noiseFill env s n).count + 1
          hi := s.cfg.nfstart.toNat + n + 1 }
      else noiseFill env s n := rfl

theorem noiseFill_wf (hx : Memory.wf 1024 s.x = true) (n : Nat) (hn : s.cfg.nfstart.toNat + n ≤ 1024) :
    Memory.wf 1024 (noiseFill env s n).x = true := by
  induction n with
  | zero => exact hx
  | succ n ih =>
    rw [noiseFill_succ]
    split
    · exact Memory.wf_memWrite (ih (by omega)) (by omega) _
    · exact ih (by omega)

/-- R191, R192: the generator has advanced once for each bin filled. -/
theorem noiseFill_seed (n : Nat) :
    (noiseFill env s n).seed = (lcg env.param)^[(noiseFill env s n).count] s.frm.nfSeed := by
  induction n with
  | zero => rfl
  | succ n ih =>
    rw [noiseFill_succ]
    split
    · simp only [Function.iterate_succ_apply', ih]
    · exact ih

/-- R191: what each bin holds after the fill of the first `n`. -/
theorem noiseFill_read (hx : Memory.wf 1024 s.x = true) (n : Nat) (hn : s.cfg.nfstart.toNat + n ≤ 1024) :
    (∀ k, ¬(s.cfg.nfstart.toNat ≤ k ∧ k < s.cfg.nfstart.toNat + n) →
      memRead (noiseFill env s n).x k = memRead s.x k) ∧
    ∀ j, j < n →
      (gapOf env s (s.cfg.nfstart.toNat + j) = true →
        (noiseFill env s (j + 1)).count = (noiseFill env s j).count + 1 ∧
        memRead (noiseFill env s n).x (s.cfg.nfstart.toNat + j) =
          (if ((lcg env.param)^[(noiseFill env s (j + 1)).count] s.frm.nfSeed).toNat < 0x8000 then
            env.num.ofInt (noiseLevel s) else env.num.ofInt (-(noiseLevel s : Int))) ∧
        s.cfg.nfstart.toNat + j < (noiseFill env s n).hi) ∧
      (gapOf env s (s.cfg.nfstart.toNat + j) = false →
        (noiseFill env s (j + 1)).count = (noiseFill env s j).count ∧
        memRead (noiseFill env s n).x (s.cfg.nfstart.toNat + j) =
          memRead s.x (s.cfg.nfstart.toNat + j)) := by
  induction n with
  | zero => exact ⟨fun _ _ => rfl, fun j hj => absurd hj (Nat.not_lt_zero j)⟩
  | succ n ih =>
    obtain ⟨i1, i2⟩ := ih (by omega)
    have hwf := noiseFill_wf (env := env) hx n (by omega)
    by_cases hg : gapOf env s (s.cfg.nfstart.toNat + n) = true
    · have e := noiseFill_succ (env := env) (s := s) n
      rw [if_pos hg] at e
      have hrd : ∀ k, memRead (noiseFill env s (n + 1)).x k =
          if k = s.cfg.nfstart.toNat + n then
            (if ((lcg env.param)^[(noiseFill env s (n + 1)).count] s.frm.nfSeed).toNat < 0x8000 then
              env.num.ofInt (noiseLevel s) else env.num.ofInt (-(noiseLevel s : Int)))
          else memRead (noiseFill env s n).x k := by
        intro k
        rw [← noiseFill_seed, e]
        simp only
        rw [memRead_memWrite hwf]
      refine ⟨fun k hk => ?_, fun j hj => ?_⟩
      · rw [hrd, if_neg (by omega), i1 k (by omega)]
      · by_cases hjn : j = n
        · subst hjn
          refine ⟨fun _ => ⟨by rw [e], ?_, by rw [e]; exact Nat.lt_succ_self _⟩, fun hf => ?_⟩
          · rw [hrd, if_pos rfl]
          · rw [hg] at hf; cases hf
        · obtain ⟨a, b⟩ := i2 j (by omega)
          refine ⟨fun h => ?_, fun h => ?_⟩
          · obtain ⟨a1, a2, _⟩ := a h
            exact ⟨a1, by rw [hrd, if_neg (by omega), a2], by rw [e]; simp only; omega⟩
          · obtain ⟨b1, b2⟩ := b h
            exact ⟨b1, by rw [hrd, if_neg (by omega), b2]⟩
    · have e := noiseFill_succ (env := env) (s := s) n
      rw [if_neg hg] at e
      refine ⟨fun k hk => ?_, fun j hj => ?_⟩
      · rw [e, i1 k (by omega)]
      · by_cases hjn : j = n
        · subst hjn
          refine ⟨fun h => absurd h hg, fun _ => ⟨by rw [e], ?_⟩⟩
          rw [e, i1 _ (by omega)]
        · obtain ⟨a, b⟩ := i2 j (by omega)
          rw [e]
          exact ⟨a, b⟩

/-- R191: `hi` is one past a filled bin, or nothing was filled. -/
theorem noiseFill_hi (n : Nat) :
    ((noiseFill env s n).count = 0 ∧ (noiseFill env s n).hi = 0) ∨
      (0 < (noiseFill env s n).count ∧ ∃ j, j < n ∧ (noiseFill env s n).hi = s.cfg.nfstart.toNat + j + 1 ∧
        gapOf env s (s.cfg.nfstart.toNat + j) = true) := by
  induction n with
  | zero => exact .inl ⟨rfl, rfl⟩
  | succ n ih =>
    rw [noiseFill_succ]
    split
    · rename_i hg
      exact .inr ⟨Nat.succ_pos _, n, Nat.lt_succ_self _, rfl, hg⟩
    · rcases ih with h | ⟨h1, j, h2, h3, h4⟩
      · exact .inl h
      · exact .inr ⟨h1, j, by omega, h3, h4⟩

/-- R191: no more bins are filled than there are. -/
theorem noiseFill_count_le (n : Nat) : (noiseFill env s n).count ≤ n := by
  induction n with
  | zero => exact le_refl _
  | succ n ih =>
    rw [noiseFill_succ]
    split
    · simp only; omega
    · omega

end Noise

/-! ### The lattice filter -/

/-- R201: the value of `t` after `d` stages of one bin, the first at stage `top - 1`. -/
def stagePart (num : Numerics) (coef mem : Nat → Sample) (top : Nat) (t : Sample) : Nat → Sample
  | 0 => t
  | d + 1 => num.sub (stagePart num coef mem top t d) (num.mul (coef (top - 1 - d)) (mem (top - 1 - d)))

theorem stagePart_shift (num : Numerics) (coef mem mem' : Nat → Sample) (top : Nat) (t : Sample) (d : Nat)
    (hd : d ≤ top) (hm : ∀ j, j < top → mem' j = mem j) :
    stagePart num coef mem' top (num.sub t (num.mul (coef top) (mem top))) d =
      stagePart num coef mem (top + 1) t (d + 1) := by
  induction d with
  | zero => simp [stagePart]
  | succ d ih =>
    have e : top + 1 - 1 - (d + 1) = top - 1 - d := by omega
    rw [stagePart, stagePart, ih (by omega), e, hm _ (by omega)]

/-- R201: the stages of one bin: the last `t`, and every memory cell. -/
theorem latticeStages_spec (num : Numerics) (coef : Nat → Sample) :
    ∀ (top : Nat) (t : Sample) (mem : Vector Sample 8), top < 8 →
      (latticeStages num coef top t mem).1 = stagePart num coef (vecAt mem) top t top ∧
      (∀ j, j < top → vecAt (latticeStages num coef top t mem).2 (j + 1) =
        num.add (num.mul (coef j) (stagePart num coef (vecAt mem) top t (top - j))) (vecAt mem j)) ∧
      (∀ j, j = 0 ∨ top < j → vecAt (latticeStages num coef top t mem).2 j = vecAt mem j)
  | 0, t, mem, _ => ⟨rfl, fun j hj => absurd hj (Nat.not_lt_zero j), fun _ _ => rfl⟩
  | top + 1, t, mem, ht => by
    have hcell : ∀ v j, j < top → vecAt (mem.setIfInBounds (top + 1) v) j = vecAt mem j := by
      intro v j hj
      rw [vecAt_setIfInBounds _ _ _ _ (by omega), if_neg (by omega)]
    obtain ⟨i1, i2, i3⟩ := latticeStages_spec num coef top
      (num.sub t (num.mul (coef top) (vecAt mem top)))
      (mem.setIfInBounds (top + 1)
        (num.add (num.mul (coef top) (num.sub t (num.mul (coef top) (vecAt mem top)))) (vecAt mem top))) (by omega)
    refine ⟨?_, fun j hj => ?_, fun j hj => ?_⟩
    · simp only [latticeStages]
      rw [i1, stagePart_shift _ _ _ _ _ _ _ (le_refl _) (hcell _)]
    · simp only [latticeStages]
      by_cases hjt : j = top
      · subst hjt
        rw [i3 _ (by omega), vecAt_setIfInBounds _ _ _ _ (by omega), if_pos rfl]
        have : j + 1 - j = 1 := by omega
        rw [this]
        simp [stagePart]
      · rw [i2 j (by omega), hcell _ _ (by omega), stagePart_shift _ _ _ _ _ _ _ (by omega) (hcell _)]
        have : top - j + 1 = top + 1 - j := by omega
        rw [this]
    · simp only [latticeStages]
      rw [i3 j (by omega), vecAt_setIfInBounds _ _ _ _ (by omega), if_neg (by omega)]

section Lattice

variable {num : Numerics} {coef : Nat → Sample} {k lo : Nat} {mem : Vector Sample 8} {x : Memory Sample}

theorem latticeRun_wf (hx : Memory.wf 1024 x = true) (n : Nat) (hn : lo + n ≤ 1024) :
    Memory.wf 1024 (latticeRun num coef k lo mem x n).2 = true := by
  induction n with
  | zero => exact hx
  | succ n ih => exact Memory.wf_memWrite (ih (by omega)) (by omega) _

/-- R201, R204: the bins of a run: each written once, upward, from the old bin and the cells so far. -/
theorem latticeRun_read (hx : Memory.wf 1024 x = true) (n : Nat) (hn : lo + n ≤ 1024) :
    (∀ i, ¬(lo ≤ i ∧ i < lo + n) → memRead (latticeRun num coef k lo mem x n).2 i = memRead x i) ∧
    ∀ d, d < n → memRead (latticeRun num coef k lo mem x n).2 (lo + d) =
      (latticeBin num coef k (memRead x (lo + d)) (latticeRun num coef k lo mem x d).1).1 := by
  induction n with
  | zero => exact ⟨fun _ _ => rfl, fun d hd => absurd hd (Nat.not_lt_zero d)⟩
  | succ n ih =>
    obtain ⟨i1, i2⟩ := ih (by omega)
    have hwf := latticeRun_wf (num := num) (coef := coef) (k := k) (lo := lo) (mem := mem) hx n (by omega)
    refine ⟨fun i hi => ?_, fun d hd => ?_⟩
    · simp only [latticeRun]
      rw [memRead_memWrite hwf, if_neg (by omega), i1 i (by omega)]
    · simp only [latticeRun]
      rw [memRead_memWrite hwf]
      by_cases hdn : d = n
      · subst hdn
        rw [if_pos rfl, i1 _ (by omega)]
      · rw [if_neg (by omega), i2 d (by omega)]

/-- R201: a run of a filter of order 1 to 8 is the rule's lattice. -/
theorem latticeRun_filters (hx : Memory.wf 1024 x = true) (hk : 1 ≤ k) (hk8 : k ≤ 8) (n : Nat) (hn : lo + n ≤ 1024) :
    LatticeFilters num coef k lo (lo + n) (memRead x) (memRead (latticeRun num coef k lo mem x n).2) (vecAt mem)
      (vecAt (latticeRun num coef k lo mem x n).1) := by
  obtain ⟨r1, r2⟩ := latticeRun_read (num := num) (coef := coef) (k := k) (mem := mem) hx n hn
  refine ⟨fun i j => vecAt (latticeRun num coef k lo mem x (i - lo)).1 j,
    fun i j => stagePart num coef (vecAt (latticeRun num coef k lo mem x (i - lo)).1) (k - 1)
      (num.sub (memRead x i) (num.mul (coef (k - 1)) (vecAt (latticeRun num coef k lo mem x (i - lo)).1 (k - 1))))
      (k - 1 - j), fun j _ => ?_, fun j _ => ?_, fun i h1 h2 => ?_, fun i hi => r1 i hi⟩
  · simp only [Nat.sub_self]; rfl
  · simp only [Nat.add_sub_cancel_left]
  · obtain ⟨d, rfl⟩ : ∃ d, i = lo + d := ⟨i - lo, by omega⟩
    simp only [Nat.add_sub_cancel_left]
    have hs : lo + d + 1 - lo = d + 1 := by omega
    have hold : memRead (latticeRun num coef k lo mem x d).2 (lo + d) = memRead x (lo + d) :=
      (latticeRun_read (num := num) (coef := coef) (k := k) (mem := mem) hx d (by omega)).1 _ (by omega)
    obtain ⟨s1, s2, s3⟩ := latticeStages_spec num coef (k - 1)
      (num.sub (memRead x (lo + d))
        (num.mul (coef (k - 1)) (vecAt (latticeRun num coef k lo mem x d).1 (k - 1))))
      (latticeRun num coef k lo mem x d).1 (by omega)
    have hnext : (latticeRun num coef k lo mem x (d + 1)).1 =
        (latticeBin num coef k (memRead x (lo + d)) (latticeRun num coef k lo mem x d).1).2 := by
      simp only [latticeRun, hold]
    rw [hs, hnext]
    refine ⟨?_, fun j hj => ?_, fun j hj => ?_, fun j hj hj8 => ?_, ?_, ?_⟩
    · rw [Nat.sub_self]; rfl
    · have e : k - 1 - j = (k - 1 - (j + 1)) + 1 := by omega
      have e2 : k - 1 - 1 - (k - 1 - (j + 1)) = j := by omega
      rw [e, stagePart, e2]
    · simp only [latticeBin]
      rw [vecAt_setIfInBounds _ _ _ _ (by omega), if_neg (by omega), s2 j (by omega)]
    · simp only [latticeBin]
      rw [vecAt_setIfInBounds _ _ _ _ (by omega), if_neg (by omega), s3 j (by omega)]
    · simp only [latticeBin]
      rw [vecAt_setIfInBounds _ _ _ _ (by omega), if_pos rfl, s1, Nat.sub_zero]
    · rw [r2 d (by omega)]
      simp only [latticeBin]
      rw [s1, Nat.sub_zero]

end Lattice

end Sys2Proof.Machine
end

