-- ==== Sys2Proof/Laws/Postfilter.lean ====
section
/-! SUPPORT. The postfilter: the signals that a frame builds sample by sample, as whole signals (R261). -/

namespace Sys2Proof.Machine

open Sys2Proof

variable {env : Env} {s : State}

/-- The sample a frame appends to the output at `n`. -/
def outSample (env : Env) (s : State) (n : Nat) : Sample := (ltpfRun env s (n + 1)).y.getD n Sample.zero

/-- The sample a frame appends to the intermediate signal at `n`. -/
def midSample (env : Env) (s : State) (n : Nat) : Sample := (ltpfRun env s (n + 1)).xp.getD n Sample.zero

/-- The output as one signal: the history before the command, then the frame. -/
def outSignal (env : Env) (s : State) (i : Int) : Sample :=
  if i < 0 then ltpfHist env.num s i else outSample env s i.toNat

/-- The intermediate signal of a pitch change. -/
def midSignal (env : Env) (s : State) (i : Int) : Sample := midSample env s i.toNat

/-! ### The signals grow by one sample at a time -/

theorem ltpfFade_y (c : LtpfCase) (a : LtpfAcc Sample) (n : Nat) : ∃ v, (ltpfFade env s c a n).y = a.y ++ [v] := by
  cases c <;> exact ⟨_, rfl⟩

theorem ltpfRun_succ_y (n : Nat) : ∃ v, (ltpfRun env s (n + 1)).y = (ltpfRun env s n).y ++ [v] := by
  simp only [ltpfRun]
  split
  · exact ltpfFade_y _ _ _
  · exact ⟨_, rfl⟩

theorem ltpfRun_length (n : Nat) : (ltpfRun env s n).y.length = n := by
  induction n with
  | zero => rfl
  | succ n ih =>
    obtain ⟨v, hv⟩ := ltpfRun_succ_y (env := env) (s := s) n
    rw [hv]; simp [ih]

/-- Every sample is appended once and stays. -/
theorem ltpfRun_getElem? (n i : Nat) (hi : i < n) : (ltpfRun env s n).y[i]? = some (outSample env s i) := by
  induction n with
  | zero => omega
  | succ n ih =>
    by_cases h : i = n
    · subst h
      unfold outSample
      rw [List.getD_eq_getElem?_getD]
      have : i < (ltpfRun env s (i + 1)).y.length := by rw [ltpfRun_length]; omega
      rw [List.getElem?_eq_getElem this]
      rfl
    · obtain ⟨v, hv⟩ := ltpfRun_succ_y (env := env) (s := s) n
      rw [hv, List.getElem?_append_left (by rw [ltpfRun_length]; omega)]
      exact ih (by omega)

/-- A signal under construction agrees with the whole signal below its end. -/
theorem signalAt_out (n : Nat) (i : Int) (hi : i < n) :
    signalAt env.num (ltpfHist env.num s) (ltpfRun env s n).y i = outSignal env s i := by
  unfold signalAt outSignal
  split
  · rfl
  · rw [ltpfRun_getElem? n i.toNat (by omega)]; rfl

theorem ltpfRun_succ_xp (hc : ltpfCase s = .pitchChange) (n : Nat) (hn : n < fadeLen s.cfg) :
    ∃ v, (ltpfRun env s (n + 1)).xp = (ltpfRun env s n).xp ++ [v] := by
  simp only [ltpfRun, if_pos hn, hc]
  exact ⟨_, rfl⟩

theorem ltpfRun_xp_length (hc : ltpfCase s = .pitchChange) (n : Nat) (hn : n ≤ fadeLen s.cfg) :
    (ltpfRun env s n).xp.length = n := by
  induction n with
  | zero => rfl
  | succ n ih =>
    obtain ⟨v, hv⟩ := ltpfRun_succ_xp (env := env) hc n (by omega)
    rw [hv]; simp [ih (by omega)]

theorem ltpfRun_xp_getElem? (hc : ltpfCase s = .pitchChange) (n i : Nat) (hn : n ≤ fadeLen s.cfg) (hi : i < n) :
    (ltpfRun env s n).xp[i]? = some (midSample env s i) := by
  induction n with
  | zero => omega
  | succ n ih =>
    by_cases h : i = n
    · subst h
      unfold midSample
      rw [List.getD_eq_getElem?_getD]
      have : i < (ltpfRun env s (i + 1)).xp.length := by rw [ltpfRun_xp_length hc _ hn]; omega
      rw [List.getElem?_eq_getElem this]
      rfl
    · obtain ⟨v, hv⟩ := ltpfRun_succ_xp (env := env) hc n (by omega)
      rw [hv, List.getElem?_append_left (by rw [ltpfRun_xp_length hc _ (by omega)]; omega)]
      exact ih (by omega) (by omega)

theorem signalAt_mid (hc : ltpfCase s = .pitchChange) (hist : Int → Sample) (n : Nat) (hn : n ≤ fadeLen s.cfg)
    (i : Int) (hi : i < n) :
    signalAt env.num hist (ltpfRun env s n).xp i = if i < 0 then hist i else midSignal env s i := by
  unfold signalAt midSignal
  split
  · rfl
  · rw [ltpfRun_xp_getElem? hc n i.toNat hn (by omega)]; rfl

/-! ### The two sums -/

theorem ltpfNum_eq (ld g : Nat) (src : Int → Sample) (n : Int) : ltpfNum env ld g src n = NumTaps env ld g src n :=
  sumAsc_eq_foldl _ _ _

theorem ltpfDen_eq (ld : Nat) (q : LtpfParams) (dst : Int → Sample) (n : Int) :
    ltpfDen env ld q.gidx.toNat q.pfr.toNat q.pint.toNat dst n = DenTaps env ld q dst n :=
  sumAsc_eq_foldl _ _ _

/-- `NUM` reads its signal at and below `n` only. -/
theorem ltpfNum_congr {ld g : Nat} {src src' : Int → Sample} {n : Int} (h : ∀ i, i ≤ n → src i = src' i) :
    ltpfNum env ld g src n = ltpfNum env ld g src' n :=
  sumAsc_congr fun k _ => by rw [h _ (by omega)]

/-- `DEN` with an admitted lag reads its signal below `n` only (R264). -/
theorem ltpfDen_congr {ld g f p : Nat} {dst dst' : Int → Sample} {n : Int} (hp : ld / 2 + 1 ≤ p)
    (h : ∀ i, i < n → dst i = dst' i) : ltpfDen env ld g f p dst n = ltpfDen env ld g f p dst' n :=
  sumAsc_congr fun k _ => by rw [h _ (by omega)]

theorem lagOk_causal {c : CfgRegs} {q : LtpfParams} (h : lagOk c q = true) : c.lden.toNat / 2 + 1 ≤ q.pint.toNat := by
  simp only [lagOk, Bool.and_eq_true, decide_eq_true_eq] at h
  exact h.1

/-! ### What each sample of the frame is -/

/-- The last sample of an appended list. -/
theorem getD_append_self {l : List Sample} {v d : Sample} {n : Nat} (h : l.length = n) : (l ++ [v]).getD n d = v := by
  subst h; simp

/-- R261: a sample of the transition quarter. -/
theorem outSample_fade (n : Nat) (hn : n < fadeLen s.cfg) :
    outSample env s n = (ltpfFade env s (ltpfCase s) (ltpfRun env s n) n).y.getD n Sample.zero := by
  unfold outSample
  simp only [ltpfRun, if_pos hn]

/-- R261: a sample of the rest of the frame. -/
theorem outSample_rest (n : Nat) (hn : fadeLen s.cfg ≤ n) :
    outSample env s n =
      if s.frm.ltpf.active then filterFull env s (ltpfRun env s n).y n else ltpfIn env.num s n := by
  unfold outSample
  simp only [ltpfRun, if_neg (Nat.not_lt.mpr hn), ltpfRest]
  rw [getD_append_self (ltpfRun_length n)]

/-- The full filter on the signal built so far is the full filter on the whole signal. -/
theorem filterFull_eq (n : Nat) (hq : lagOk s.cfg s.frm.ltpf = true) :
    filterFull env s (ltpfRun env s n).y n =
      env.num.add (env.num.sub (ltpfIn env.num s n)
          (NumTaps env s.cfg.lden.toNat s.frm.ltpf.gidx.toNat (ltpfIn env.num s) n))
        (DenTaps env s.cfg.lden.toNat s.frm.ltpf (outSignal env s) n) := by
  simp only [filterFull]
  rw [ltpfNum_eq, ltpfDen_congr (lagOk_causal hq) (fun i hi => signalAt_out n i hi), ltpfDen_eq]

/-- A weighted difference on the signal built so far is the one on the whole signal. -/
theorem filterDiff_eq (q : LtpfParams) (src : Int → Sample) (n : Nat) (hq : lagOk s.cfg q = true) :
    filterDiff env s q src (signalAt env.num (ltpfHist env.num s) (ltpfRun env s n).y) n =
      env.num.sub (NumTaps env s.cfg.lden.toNat q.gidx.toNat src n)
        (DenTaps env s.cfg.lden.toNat q (outSignal env s) n) := by
  unfold filterDiff
  rw [ltpfNum_eq, ltpfDen_congr (lagOk_causal hq) (fun i hi => signalAt_out n i hi), ltpfDen_eq]

theorem outSample_inactive (n : Nat) (hn : n < fadeLen s.cfg) (hc : ltpfCase s = .inactive) :
    outSample env s n = ltpfIn env.num s n := by
  rw [outSample_fade n hn, hc]
  exact getD_append_self (ltpfRun_length n)

theorem outSample_activation (n : Nat) (hn : n < fadeLen s.cfg) (hc : ltpfCase s = .activation)
    (hq : lagOk s.cfg s.frm.ltpf = true) :
    outSample env s n = env.num.sub (ltpfIn env.num s n) (env.num.mul (rampUp env.num s n)
      (env.num.sub (NumTaps env s.cfg.lden.toNat s.frm.ltpf.gidx.toNat (ltpfIn env.num s) n)
        (DenTaps env s.cfg.lden.toNat s.frm.ltpf (outSignal env s) n))) := by
  rw [outSample_fade n hn, hc]
  simp only [ltpfFade]
  rw [getD_append_self (ltpfRun_length n), filterDiff_eq _ _ _ hq]

theorem outSample_deactivation (n : Nat) (hn : n < fadeLen s.cfg) (hc : ltpfCase s = .deactivation)
    (hq : lagOk s.cfg s.ltpfMem = true) :
    outSample env s n = env.num.sub (ltpfIn env.num s n) (env.num.mul (rampDown env.num s n)
      (env.num.sub (NumTaps env s.cfg.lden.toNat s.ltpfMem.gidx.toNat (ltpfIn env.num s) n)
        (DenTaps env s.cfg.lden.toNat s.ltpfMem (outSignal env s) n))) := by
  rw [outSample_fade n hn, hc]
  simp only [ltpfFade]
  rw [getD_append_self (ltpfRun_length n), filterDiff_eq _ _ _ hq]

theorem outSample_samePitch (n : Nat) (hn : n < fadeLen s.cfg) (hc : ltpfCase s = .samePitch)
    (hq : lagOk s.cfg s.frm.ltpf = true) :
    outSample env s n = env.num.add (env.num.sub (ltpfIn env.num s n)
        (NumTaps env s.cfg.lden.toNat s.frm.ltpf.gidx.toNat (ltpfIn env.num s) n))
      (DenTaps env s.cfg.lden.toNat s.frm.ltpf (outSignal env s) n) := by
  rw [outSample_fade n hn, hc]
  simp only [ltpfFade]
  rw [getD_append_self (ltpfRun_length n), filterFull_eq _ hq]

/-- R261, case 5: the intermediate sample and the output sample. -/
theorem outSample_pitchChange (n : Nat) (hn : n < fadeLen s.cfg) (hc : ltpfCase s = .pitchChange)
    (hq : lagOk s.cfg s.frm.ltpf = true) (hm : lagOk s.cfg s.ltpfMem = true) :
    midSample env s n = env.num.sub (ltpfIn env.num s n) (env.num.mul (rampDown env.num s n)
      (env.num.sub (NumTaps env s.cfg.lden.toNat s.ltpfMem.gidx.toNat (ltpfIn env.num s) n)
        (DenTaps env s.cfg.lden.toNat s.ltpfMem
          (fun i => if i < 0 then outSignal env s i else midSignal env s i) n))) ∧
    outSample env s n = env.num.sub (midSample env s n) (env.num.mul (rampUp env.num s n)
      (env.num.sub (NumTaps env s.cfg.lden.toNat s.frm.ltpf.gidx.toNat
          (fun i => if i < 0 then ltpfIn env.num s i else midSignal env s i) n)
        (DenTaps env s.cfg.lden.toNat s.frm.ltpf (outSignal env s) n))) := by
  have hxp : ∀ v, (ltpfRun env s n).xp ++ [v] = (ltpfRun env s (n + 1)).xp → v = midSample env s n := by
    intro v hv
    unfold midSample
    rw [← hv, getD_append_self (ltpfRun_xp_length hc n (by omega))]
  have hstep : ltpfRun env s (n + 1) = ltpfFade env s .pitchChange (ltpfRun env s n) n := by
    simp only [ltpfRun, if_pos hn, hc]
  have hd : filterDiff env s s.ltpfMem (ltpfIn env.num s)
      (signalAt env.num (ltpfHist env.num s) (ltpfRun env s n).xp) n =
      env.num.sub (NumTaps env s.cfg.lden.toNat s.ltpfMem.gidx.toNat (ltpfIn env.num s) n)
        (DenTaps env s.cfg.lden.toNat s.ltpfMem
          (fun i => if i < 0 then outSignal env s i else midSignal env s i) n) := by
    unfold filterDiff
    rw [ltpfNum_eq, ltpfDen_congr (lagOk_causal hm)
      (dst' := fun i => if i < 0 then outSignal env s i else midSignal env s i) (fun i hi => ?_), ltpfDen_eq]
    rw [signalAt_mid hc _ n (by omega) i hi]
    split
    · rename_i h; unfold outSignal; rw [if_pos h]
    · rfl
  have h1 : env.num.sub (ltpfIn env.num s n) (env.num.mul (rampDown env.num s n)
      (filterDiff env s s.ltpfMem (ltpfIn env.num s)
        (signalAt env.num (ltpfHist env.num s) (ltpfRun env s n).xp) n)) = midSample env s n := by
    apply hxp
    rw [hstep]
    simp only [ltpfFade]
  refine ⟨by rw [← h1, hd], ?_⟩
  rw [outSample_fade n hn, hc]
  simp only [ltpfFade]
  rw [getD_append_self (ltpfRun_length n), h1, filterDiff_eq _ _ _ hq]
  have hsrc : ∀ i : Int, i ≤ n →
      signalAt env.num (ltpfIn env.num s) ((ltpfRun env s n).xp ++ [midSample env s n]) i =
        if i < 0 then ltpfIn env.num s i else midSignal env s i := by
    intro i hi
    have e : (ltpfRun env s n).xp ++ [midSample env s n] = (ltpfRun env s (n + 1)).xp := by
      rw [← h1, hstep]
      simp only [ltpfFade]
    rw [e, signalAt_mid hc _ (n + 1) (by omega) i (by omega)]
  have hn' := ltpfNum_congr (env := env) (ld := s.cfg.lden.toNat) (g := s.frm.ltpf.gidx.toNat) hsrc
  rw [ltpfNum_eq, ltpfNum_eq] at hn'
  rw [hn']

/-- R261: the frame's samples as the list the history takes in. -/
theorem ltpfRun_getD (n i : Nat) (hi : i < n) : (ltpfRun env s n).y.getD i Sample.zero = outSample env s i := by
  rw [List.getD_eq_getElem?_getD, ltpfRun_getElem? n i hi]; rfl

end Sys2Proof.Machine
end

