-- ==== Sys2Proof/Laws/Step.lean ====
section
/-! SUPPORT. What one step can do: a HOST access, or a command word run (R84, R110, R120). -/

namespace Sys2Proof.Machine

open Sys2Proof

/-- A HOST read changes only the field that holds the word read. -/
theorem hostAccess_read {num : Numerics} {addr : Nat} {s t : State}
    (h : hostAccess num (.read addr) s = .done (.next t)) :
    ∃ p, portOf addr = .ok p ∧ t = { s with rdata := some (readPort num s p) } := by
  simp only [hostAccess] at h
  split at h
  · simp at h
  · next p hp => simp at h; exact ⟨p, hp, h.symm⟩

/-- A HOST write at an offset other than `CMD`'s ends at once. -/
theorem hostAccess_write {num : Numerics} {addr : Nat} {v : Word} {s t : State}
    (h : hostAccess num (.write addr v) s = .done (.next t)) :
    ∃ p, portOf addr = .ok p ∧ p ≠ .cmd ∧ t = writePort num p v s := by
  simp only [hostAccess] at h
  split at h
  · simp at h
  · simp at h
  · next p hp hc => simp at h; exact ⟨p, hc, hp, h.symm⟩

/-- Only a write to `CMD` is a command; the state has the word in `CMD` already. -/
theorem hostAccess_command {num : Numerics} {op : HostOp} {w : Word} {s t : State}
    (h : hostAccess num op s = .command w t) :
    ∃ addr, op = .write addr w ∧ portOf addr = .ok .cmd ∧ t = { s with cmd := w } := by
  cases op with
  | reset => simp [hostAccess] at h
  | read addr => simp only [hostAccess] at h; split at h <;> simp at h
  | write addr v =>
    simp only [hostAccess] at h
    split at h
    · simp at h
    · next hp => simp at h; obtain ⟨rfl, rfl⟩ := h; exact ⟨addr, rfl, hp, rfl⟩
    · simp at h

/-- The offset of a port (R81). -/
def portOffset : Port → Nat
  | .cmd => 0
  | .status => 4
  | .res => 8
  | .cfg r => 4 * (4 + cfgRegs.idxOf r)
  | .bits r => 4 * (0x10 + bitRegs.idxOf r)
  | .frm r => 4 * (0x18 + frmRegs.idxOf r)
  | .ltpfMem => 0xC0
  | .fb i => 0x400 + 4 * i
  | .bands i => 0x600 + 4 * i
  | .scf i => 0x800 + 4 * i
  | .x i => 0x1000 + 4 * i
  | .tblk i => 0x2000 + 4 * i
  | .out i => 0x3000 + 4 * i
  | .ola i => 0x4000 + 4 * i
  | .win i => 0x6000 + 4 * i

theorem cfgRegs_idxOf : ∀ k, k < 12 → ∀ r, cfgRegs[k]? = some r → cfgRegs.idxOf r = k := by decide
theorem bitRegs_idxOf : ∀ k, k < 8 → ∀ r, bitRegs[k]? = some r → bitRegs.idxOf r = k := by decide
theorem frmRegs_idxOf : ∀ k, k < 24 → ∀ r, frmRegs[k]? = some r → frmRegs.idxOf r = k := by decide

/-- A window serves the entries below its size. -/
theorem window_some {n i : Nat} {f : Nat → Port} {p : Port} (h : window n i f = some p) : i < n ∧ p = f i := by
  unfold window at h
  split at h
  · cases h; exact ⟨‹_›, rfl⟩
  · cases h

/-- Whatever port an answer of the address map names stands at word `i`. -/
def NamesWord (i : Nat) (o : Option Port) : Prop := ∀ p, o = some p → portOffset p = 4 * i

theorem NamesWord.none (i : Nat) : NamesWord i none := nofun

theorem NamesWord.some {i : Nat} {p : Port} (h : portOffset p = 4 * i) : NamesWord i (some p) := by
  rintro _ ⟨⟩
  exact h

theorem NamesWord.map {R : Type} {i : Nat} {o : Option R} {f : R → Port} (h : ∀ r, o = .some r → portOffset (f r) = 4 * i) :
    NamesWord i (o.map f) := by
  intro p hp
  obtain ⟨r, hr, rfl⟩ := Option.map_eq_some_iff.mp hp
  exact h r hr

theorem NamesWord.ite {i : Nat} {c : Prop} [Decidable c] {x y : Option Port} (hx : c → NamesWord i x)
    (hy : ¬c → NamesWord i y) : NamesWord i (if c then x else y) := by
  by_cases h : c
  · simpa only [h, if_true] using hx h
  · simpa only [h, if_false] using hy h

/-- The address map names ports that stand where it was asked (R81). -/
theorem portOfWord_namesWord (i : Nat) : NamesWord i (portOfWord i) := by
  unfold portOfWord window
  repeat' (apply NamesWord.ite <;> intro _)
  all_goals first
    | exact NamesWord.none i
    | exact NamesWord.some (by simp only [portOffset]; omega)
    | refine NamesWord.map fun r hr => ?_
  · have := cfgRegs_idxOf (i - 4) (by omega) r hr
    simp only [portOffset]
    omega
  · have := bitRegs_idxOf (i - 0x10) (by omega) r hr
    simp only [portOffset]
    omega
  · have := frmRegs_idxOf (i - 0x18) (by omega) r hr
    simp only [portOffset]
    omega

/-- A served word index is its port's. -/
theorem portOfWord_offset {i : Nat} {p : Port} (h : portOfWord i = some p) : portOffset p = 4 * i :=
  portOfWord_namesWord i p h

/-- A served offset is its port's (R81, R85). -/
theorem portOf_offset {a : Nat} {p : Port} (h : portOf a = .ok p) : portOffset p = a := by
  unfold portOf at h
  by_cases h1 : a % 4 ≠ 0
  · rw [if_pos h1] at h; cases h
  by_cases h2 : 0x8000 ≤ a
  · rw [if_neg h1, if_pos h2] at h; cases h
  rw [if_neg h1, if_neg h2] at h
  split at h
  · next q hq =>
    cases h
    rw [portOfWord_offset hq]
    omega
  · cases h

/-- Two served offsets are the same exactly when their ports are. -/
theorem portOf_inj {a b : Nat} {p q : Port} (h : portOf a = .ok p) (h' : portOf b = .ok q) : b = a ↔ q = p := by
  constructor
  · rintro rfl
    rw [h] at h'
    cases h'
    rfl
  · rintro rfl
    rw [← portOf_offset h, ← portOf_offset h']

/-- `CMD` stands at offset 0 and nowhere else (R81, R85). -/
theorem portOf_cmd {addr : Nat} (h : portOf addr = .ok .cmd) : addr = 0 := (portOf_offset h).symm

/-! ### The ports of the windows (R81) -/

theorem portOf_of_word {i : Nat} {p : Port} (h : portOfWord i = some p) (hi : i < 0x2000) {a : Nat} (ha : a = 4 * i) :
    portOf a = .ok p := by
  subst ha
  unfold portOf
  rw [if_neg (by omega), if_neg (by omega), show 4 * i / 4 = i by omega, h]

/-- R81: the windows of the HOST space: first word, entries, the port of an entry. -/
def windows : List (Nat × Nat × (Nat → Port)) :=
  [(0x100, 100, .fb), (0x180, 65, .bands), (0x200, 16, .scf), (0x400, 1024, .x), (0x800, 1024, .tblk), (0xC00, 1024, .out),
    (0x1000, 1024, .ola), (0x1800, 2048, .win)]

/-- An alternative of the address map that does not apply is passed over. -/
theorem passed {c : Prop} [Decidable c] {x y z : Option Port} (hc : ¬c) (h : y = z) : (if c then x else y) = z :=
  (if_neg hc).trans h

/-- An alternative of the address map that applies is the answer. -/
theorem taken {c : Prop} [Decidable c] {x y z : Option Port} (hc : c) (h : x = z) : (if c then x else y) = z :=
  (if_pos hc).trans h

/-- R81: entry `i` of a window stands `i` words after its first. -/
theorem portOfWord_window {k n : Nat} {f : Nat → Port} (hw : (k, n, f) ∈ windows) {i : Nat} (h : i < n) :
    portOfWord (k + i) = some (f i) := by
  have here : window n (k + i - k) f = some (f i) := by
    rw [Nat.add_sub_cancel_left]
    exact if_pos h
  unfold portOfWord
  fin_cases hw <;>
  · repeat refine passed (by omega) ?_
    first
      | refine taken (by omega) ?_
        with_reducible exact here
      | with_reducible exact here

theorem portOf_fb {i : Nat} (h : i < 100) : portOf (0x400 + 4 * i) = .ok (.fb i) :=
  portOf_of_word (portOfWord_window (k := 0x100) (by simp [windows]) h) (by omega) (by omega)

theorem portOf_bands {i : Nat} (h : i < 65) : portOf (0x600 + 4 * i) = .ok (.bands i) :=
  portOf_of_word (portOfWord_window (k := 0x180) (by simp [windows]) h) (by omega) (by omega)

theorem portOf_scf {i : Nat} (h : i < 16) : portOf (0x800 + 4 * i) = .ok (.scf i) :=
  portOf_of_word (portOfWord_window (k := 0x200) (by simp [windows]) h) (by omega) (by omega)

theorem portOf_x {i : Nat} (h : i < 1024) : portOf (0x1000 + 4 * i) = .ok (.x i) :=
  portOf_of_word (portOfWord_window (k := 0x400) (by simp [windows]) h) (by omega) (by omega)

theorem portOf_tblk {i : Nat} (h : i < 1024) : portOf (0x2000 + 4 * i) = .ok (.tblk i) :=
  portOf_of_word (portOfWord_window (k := 0x800) (by simp [windows]) h) (by omega) (by omega)

theorem portOf_out {i : Nat} (h : i < 1024) : portOf (0x3000 + 4 * i) = .ok (.out i) :=
  portOf_of_word (portOfWord_window (k := 0xC00) (by simp [windows]) h) (by omega) (by omega)

theorem portOf_ola {i : Nat} (h : i < 1024) : portOf (0x4000 + 4 * i) = .ok (.ola i) :=
  portOf_of_word (portOfWord_window (k := 0x1000) (by simp [windows]) h) (by omega) (by omega)

theorem portOf_win {i : Nat} (h : i < 2048) : portOf (0x6000 + 4 * i) = .ok (.win i) :=
  portOf_of_word (portOfWord_window (k := 0x1800) (by simp [windows]) h) (by omega) (by omega)

/-! ### The words of the registers, as numbers (R28, R32, R37) -/

theorem toNat_append_add {n m : Nat} (x : BitVec n) (y : BitVec m) : (x ++ y).toNat = x.toNat * 2 ^ m + y.toNat := by
  rw [BitVec.toNat_append, Nat.shiftLeft_eq, Nat.mul_comm, ← Nat.two_pow_add_eq_or_of_lt y.isLt]

theorem zext_toNat {w : Nat} (v : BitVec w) (h : w ≤ 32) : (zext v).toNat = v.toNat := by
  unfold zext
  rw [BitVec.toNat_setWidth, Nat.mod_eq_of_lt]
  exact lt_of_lt_of_le v.isLt (Nat.pow_le_pow_right (by decide) h)

theorem errBits_toNat (e : ErrCode) : (errBits e).toNat = errNumber e := by cases e <;> rfl

theorem causeBits_toNat (c : Cause) : (causeBits c).toNat = causeNumber c := by cases c <;> rfl

theorem statusWord_toNat (s : State) : (statusWord s).toNat =
    ofFields [(0, s.bec.toNat), (1, s.skip.toNat), (2, s.cfglock.toNat), (4, errNumber s.err), (8, causeNumber s.cause)] := by
  change BitVec.toNat (w := 20 + 4 + 4 + 1 + 1 + 1 + 1) (0#20 ++ causeBits s.cause ++ errBits s.err ++ 0#1 ++
    BitVec.ofBool s.cfglock ++ BitVec.ofBool s.skip ++ BitVec.ofBool s.bec) = _
  simp only [toNat_append_add, BitVec.toNat_ofBool, errBits_toNat, causeBits_toNat]
  simp [ofFields]
  omega

theorem ltpfWord_toNat (q : LtpfParams) : (ltpfWord q).toNat = ofFields (ltpfFields q) := by
  change BitVec.toNat (w := 17 + 10 + 2 + 2 + 1) (0#17 ++ q.pint ++ q.pfr ++ q.gidx ++ BitVec.ofBool q.active) = _
  simp only [toNat_append_add, BitVec.toNat_ofBool]
  simp [ofFields, ltpfFields]
  omega

/-- Running a command word: an illegal word is refused with its code, a command is executed. -/
theorem runCommand_next {w : Word} {s t : State} (h : runCommand w s = .next t) :
    (∃ e, decode w = .error e ∧ t = rejectWord e s) ∨ ∃ i, decode w = .ok i ∧ exec i s = .next t := by
  unfold runCommand at h
  split at h
  · next e he => exact .inl ⟨e, he, by simpa [completed] using h.symm⟩
  · next i hi => exact .inr ⟨i, hi, h⟩

/-- Everything a step with a next state can be: idle, the hardware reset, a read, a write other than `CMD`'s, an illegal
command word, a command. -/
theorem step_cases {s t : State} (h : step s = .next t) :
    (s.host = [] ∧ t = s) ∨
      ∃ op rest, s.host = op :: rest ∧
        ((op = .reset ∧ t = hardwareReset { s with host := rest }) ∨
          (∃ addr p, op = .read addr ∧ portOf addr = .ok p ∧
            t = { s with host := rest, rdata := some (readPort Config.env.num { s with host := rest } p) }) ∨
          (∃ addr v p, op = .write addr v ∧ portOf addr = .ok p ∧ p ≠ .cmd ∧
            t = writePort Config.env.num p v { s with host := rest }) ∨
          (∃ w e, op = .write 0 w ∧ decode w = .error e ∧ t = rejectWord e { s with host := rest, cmd := w }) ∨
          ∃ w i, op = .write 0 w ∧ decode w = .ok i ∧ exec i { s with host := rest, cmd := w } = .next t) := by
  unfold step nextAccess at h
  cases hs : s.host with
  | nil => rw [hs] at h; simp at h; exact .inl ⟨rfl, h.symm⟩
  | cons op rest =>
    rw [hs] at h
    refine .inr ⟨op, rest, rfl, ?_⟩
    simp only at h
    split at h
    · next r hr =>
      subst h
      cases op with
      | reset => simp [hostAccess] at hr; exact .inl ⟨rfl, hr.symm⟩
      | read addr =>
        obtain ⟨p, hp, rfl⟩ := hostAccess_read hr
        exact .inr (.inl ⟨addr, p, rfl, hp, rfl⟩)
      | write addr v =>
        obtain ⟨p, hp, hc, rfl⟩ := hostAccess_write hr
        exact .inr (.inr (.inl ⟨addr, v, p, rfl, hp, hc, rfl⟩))
    · next w s' hw =>
      obtain ⟨addr, rfl, hp, rfl⟩ := hostAccess_command hw
      obtain rfl := portOf_cmd hp
      rcases runCommand_next h with ⟨e, he, rfl⟩ | ⟨i, hi, hx⟩
      · exact .inr (.inr (.inr (.inl ⟨w, e, rfl, he, rfl⟩)))
      · exact .inr (.inr (.inr (.inr ⟨w, i, rfl, hi, hx⟩)))

/-- A write of `STATUS` sets the flag when bit 0 is 1 and does nothing otherwise (R304). -/
theorem writeStatus_outcome (v : Word) (s : State) :
    (v.getLsbD 0 = true ∧ writeStatus v s = { s with bec := true, cause := if s.bec then s.cause else .hostset }) ∨
      (v.getLsbD 0 = false ∧ writeStatus v s = s) := by
  unfold writeStatus
  cases v.getLsbD 0
  · exact .inr ⟨rfl, rfl⟩
  · exact .inl ⟨rfl, rfl⟩

/-- What a write other than `CMD`'s can change: the flag, the unlocked configuration, a frame register, the frame buffer,
`X` or `TBLK`. -/
theorem writePort_outcome (num : Numerics) (p : Port) (v : Word) (s : State) :
    writePort num p v s = s ∨ (p = .status ∧ v.getLsbD 0 = true ∧ writePort num p v s = setBec .hostset s) ∨
      (s.cfglock = false ∧ ∃ c, writePort num p v s = { s with cfg := c }) ∨
      (∃ r, p = .frm r ∧ writePort num p v s = { s with frm := writeFrm s.frm r v }) ∨
      (∃ i, p = .fb i ∧ writePort num p v s = { s with fb := setFbWord s.fb i v }) ∨
      (∃ i, p = .x i ∧ writePort num p v s = { s with x := memWrite s.x i (num.dec v) }) ∨
      ∃ i, p = .tblk i ∧ writePort num p v s = { s with tblk := memWrite s.tblk i (num.dec v) } := by
  have hu : ∀ c, ifUnlocked s c = s ∨ (s.cfglock = false ∧ ifUnlocked s c = { s with cfg := c }) := by
    intro c
    unfold ifUnlocked
    cases s.cfglock <;> simp
  have hlift : ∀ c, writePort num p v s = ifUnlocked s c →
      writePort num p v s = s ∨ s.cfglock = false ∧ ∃ c, writePort num p v s = { s with cfg := c } := by
    intro c hc
    rw [hc]
    rcases hu c with h | ⟨h1, h2⟩
    · exact .inl h
    · exact .inr ⟨h1, c, h2⟩
  cases p with
  | status =>
    rcases writeStatus_outcome v s with ⟨hv, h⟩ | ⟨_, h⟩
    · exact .inr (.inl ⟨rfl, hv, h⟩)
    · exact .inl h
  | cfg r =>
    rcases hlift _ rfl with h | h
    · exact .inl h
    · exact .inr (.inr (.inl h))
  | bands i =>
    rcases hlift _ rfl with h | h
    · exact .inl h
    · exact .inr (.inr (.inl h))
  | win i =>
    rcases hlift _ rfl with h | h
    · exact .inl h
    · exact .inr (.inr (.inl h))
  | frm r => exact .inr (.inr (.inr (.inl ⟨r, rfl, rfl⟩)))
  | fb i => exact .inr (.inr (.inr (.inr (.inl ⟨i, rfl, rfl⟩))))
  | x i => exact .inr (.inr (.inr (.inr (.inr (.inl ⟨i, rfl, rfl⟩)))))
  | tblk i => exact .inr (.inr (.inr (.inr (.inr (.inr ⟨i, rfl, rfl⟩)))))
  | cmd => exact .inl rfl
  | res => exact .inl rfl
  | bits r => exact .inl rfl
  | ltpfMem => exact .inl rfl
  | scf i => exact .inl rfl
  | out i => exact .inl rfl
  | ola i => exact .inl rfl

end Sys2Proof.Machine
end

