-- ==== Sys2Proof/Tests/Slice0.lean ====
section
/-! SUPPORT. Tests: ill-formed terms refused, every command's word decoded, the vectors of 95_test_vectors.md, one step
each, and for every statement a state that meets its hypotheses. -/

namespace Sys2Proof.Tests

open Sys2Proof Sys2Proof.Machine

set_option Elab.async false

/-! ### A test record: samples in 4-bit fixed point, and the tables ROM_T of 95_test_vectors.md, section 2.2 -/

/-- `2^e` in the test's fixed point. -/
def fixExp2 (v : Sample) : Sample :=
  let e := v.toInt / 16
  if 0 ≤ e then BitVec.ofInt 32 ((2 ^ (4 + e.toNat) : Nat) : Int) else BitVec.ofInt 32 ((2 ^ (4 - (-e).toNat) : Nat) : Int)

/-- Fixed-point numerics with four fraction bits; the transform is the identity, as in NUM_FOLD. -/
def testNum : Numerics where
  isSample _ := true
  ofInt z := BitVec.ofInt 32 (16 * z)
  ofRat q := BitVec.ofInt 32 (16 * q.num / (q.den : Int))
  add a b := a + b
  sub a b := a - b
  mul a b := BitVec.ofInt 32 (a.toInt * b.toInt / 16)
  neg a := -a
  isZero a := a == 0#32
  exp2 := fixExp2
  pow10_28 e := BitVec.ofInt 32 (16 * ((10 ^ (e / 28).toNat : Nat) : Int))
  rsqrtInt n := BitVec.ofInt 32 (16 / (Nat.sqrt n : Int))
  dct4 _ v := v
  enc v := v
  dec w := w

/-- `MODEL[0]` of ROM_T. -/
def romModel0 : Model where
  nsym := 17
  cumfreq s := 60 * s
  symfreq s := if s = 16 then 64 else 60
  lutshift := 6
  lut i := i + 1

/-- `MODEL[1]` of ROM_T. -/
def romModel1 : Model where
  nsym := 17
  cumfreq s := 32 * s
  symfreq s := if s = 16 then 512 else 32
  lutshift := 5
  lut i := min i 16

/-- `MODEL[2]` and `MODEL[3]` of ROM_T. -/
def romModel2 : Model where
  nsym := 8
  cumfreq s := 128 * s
  symfreq _ := 128
  lutshift := 7
  lut i := i

/-- ROM_T. -/
def testRom : Rom where
  nspec := 2
  model m := if m = 1 then romModel1 else if m = 2 ∨ m = 3 then romModel2 else romModel0
  specLookup i := (i / 1024) % 2
  tnsRcTab i := BitVec.ofInt 32 ((i : Int) - 8)
  snsLfcb i n := BitVec.ofInt 32 (16 * (8 * (((i + n) % 3 : Nat) : Int) - 8))
  snsHfcb i n := BitVec.ofInt 32 (16 * (8 * (((i + 2 * n) % 3 : Nat) : Int) - 8))
  snsGain c g := BitVec.ofNat 32 (16 * (match c with | 0 => 40 * g | 3 => 48 * g | _ => 32 * g))
  snsD n c := if c = (n + 1) % 16 then 16#32 else 0#32
  ltpfCnum g k := if k = 0 then BitVec.ofNat 32 (2 * (g + 1)) else if k = 1 then 1#32 else 0#32
  ltpfCden _ f k := if k = f then 4#32 else 0#32

def testEnv : Env := { num := testNum, rom := testRom, param := Params.recommended }

/-- ROM_T3 of 95_test_vectors.md. -/
def testEnv3 : Env := { testEnv with rom := { testRom with model := fun m => if m = 1 then romModel1 else romModel0 } }

/-- A sample of the test's numerics from an integer. -/
def smp (z : Int) : Sample := testNum.ofInt z

/-- A memory from its first entries. -/
def memOf {V : Type} [Zero V] [DecidableEq V] (l : List V) : Memory V := memFill [] 0 (fun i => l.getD i 0) l.length

/-- The first `n` entries of a sample memory. -/
def firstOf (m : Memory Sample) (n : Nat) : List Sample := (List.range n).map (memRead m)

/-- CFG_T of 95_test_vectors.md, section 2.3. -/
def testCfg : CfgRegs where
  ns := 8
  ne := 8
  nz := 2
  nb := 16
  maxbytes := 40
  nfstart := 2
  nfwidth := 1
  ltpfNblk := 2
  lden := 4
  tscale := smp 16
  bands := memFill [] 0 (fun b => BitVec.ofNat 10 (b / 2)) 17
  win := memFill [] 0 (fun n => smp n) 16

/-- The booted block with the bytes given in the frame buffer. -/
def booted (bytes : List Byte) : State := { State.reset with cfglock := true, cfg := testCfg, fb := memOf bytes }

/-- The booted block after `FINIT 0, 20`. -/
def good (bytes : List Byte) : State := finit testEnv false 20 (booted bytes)

def frameF1 : List Byte :=
  [0x12, 0x34, 0x56, 0x78, 0x9A, 0xBC, 0xDE, 0xF0, 0x0F, 0x1E, 0x2D, 0x3C, 0x4B, 0x5A, 0x69, 0x78, 0x87, 0x96, 0xA5, 0xB4]

def frameFS : List Byte := [0xFB, 0x04, 0xBA, 0, 0, 0, 0, 0, 0, 0, 0, 0, 0, 0, 0, 0, 0, 0, 0, 0x0E]

def frameFT : List Byte := [0x5E, 0x0A, 0x13, 0x1E]

def frameFE : List Byte := [0xFF, 0xF6, 0x34, 0x10]

/-! ### Ill-formed terms -/

theorem test_bruint_33_is_ill_formed : (Instr.bruint 33).wellFormed 2 = false := by decide
theorem test_bruint_32_is_well_formed : (Instr.bruint 32).wellFormed 2 = true := by decide
theorem test_acdec_20_is_ill_formed : (Instr.acdec 20).wellFormed 2 = false := by decide
theorem test_acdec_19_is_well_formed : (Instr.acdec 19).wellFormed 2 = true := by decide

theorem test_rom_model_is_well_formed : romModel0.wf = true := by decide +kernel
theorem test_model_of_33_symbols_is_ill_formed : { romModel0 with nsym := 33 }.wf = false := by decide +kernel
theorem test_model_with_a_low_start_is_ill_formed : { romModel0 with cumfreq := fun s => 60 * s + 1 }.wf = false := by
  decide +kernel
theorem test_model_with_a_zero_frequency_is_ill_formed :
    { romModel0 with symfreq := fun s => if s = 3 then 0 else romModel0.symfreq s }.wf = false := by decide +kernel
theorem test_model_short_of_1024_is_ill_formed : { romModel0 with symfreq := fun _ => 60 }.wf = false := by
  decide +kernel
theorem test_model_with_a_low_lookup_is_ill_formed : { romModel0 with lut := fun i => i }.wf = false := by decide +kernel
theorem test_model_with_a_wide_shift_is_ill_formed : { Config.witnessModel with lutshift := 11 }.wf = false := by
  decide +kernel
theorem test_params_above_1024_are_ill_formed : { Params.recommended with nsMax := 1025 }.wf = false := by decide
theorem test_params_below_the_least_are_ill_formed : { Params.recommended with neMax := 1 }.wf = false := by decide

theorem test_cfg_is_valid : cfgValid Params.recommended testCfg = true := by decide +kernel

/-- 95_test_vectors.md, 12.4: each register alone makes the configuration invalid. -/
theorem test_cfg_refusals :
    [{ testCfg with ns := 10 }, { testCfg with ne := 7 }, { testCfg with ne := 10 }, { testCfg with nz := 8 },
      { testCfg with nb := 15 }, { testCfg with nb := 65 }, { testCfg with maxbytes := 19 },
      { testCfg with maxbytes := 401 }, { testCfg with nfstart := 9 }, { testCfg with ltpfNblk := 5 },
      { testCfg with lden := 5 }, { testCfg with lden := 14 },
      { testCfg with bands := memWrite testCfg.bands 0 1 }, { testCfg with bands := memWrite testCfg.bands 3 0 },
      { testCfg with bands := memWrite testCfg.bands 16 9 }].all
      (fun c => cfgValid Params.recommended c == false) = true := by
  decide +kernel

/-! ### Words (95_test_vectors.md, section 3) -/

theorem test_decode_nop : decode 0x00000000 = .ok .nop := by decide
theorem test_decode_cfglock : decode 0x01000000 = .ok .cfglock := by decide
theorem test_decode_finit : decode 0x0200018F = .ok (.finit false 399) := by decide
theorem test_decode_lost : decode 0x02010014 = .ok (.finit true 20) := by decide
theorem test_decode_sreset : decode 0x0F000000 = .ok .sreset := by decide
theorem test_decode_brbit : decode 0x10000000 = .ok .brbit := by decide
theorem test_decode_bruint : decode 0x11000019 = .ok (.bruint 25) := by decide
theorem test_decode_brsync : decode 0x12000000 = .ok .brsync := by decide
theorem test_decode_acdec : decode 0x20000013 = .ok (.acdec 19) := by decide
theorem test_decode_actns : decode 0x21000001 = .ok (.actns 1) := by decide
theorem test_decode_acpair : decode 0x22000000 = .ok .acpair := by decide
theorem test_decode_nfill : decode 0x30000000 = .ok .nfill := by decide
theorem test_decode_ggain : decode 0x31000000 = .ok .ggain := by decide
theorem test_decode_tnssyn : decode 0x32000000 = .ok .tnssyn := by decide
theorem test_decode_snssyn : decode 0x33000000 = .ok .snssyn := by decide
theorem test_decode_imdct : decode 0x40000000 = .ok .imdct := by decide
theorem test_decode_ltpf : decode 0x41000000 = .ok .ltpf := by decide

theorem test_reserved_bits_are_badfield :
    [0x02020014, 0x02000214, 0x10000001, 0x11000040, 0x20000100, 0x21000002].all
      (fun w => decide (decode w = .error .badfield)) = true := by decide

theorem test_other_opcodes_are_illop :
    [0x03000000, 0x0E000000, 0x13000000, 0x23000000, 0x34000000, 0x42000000, 0x50000000, 0xFF000000, 0x50FFFFFF].all
      (fun w => decide (decode w = .error .illop)) = true := by decide

theorem test_table_word_decodes : decodeTableWord 32 0x11000005 = some (.bruint 5) := by decide

/-- R110: the word placed where the next step takes it is executed by that step. -/
theorem test_fetched_word_is_executed :
    step (State.reset.withFetchWord 32 0x12000000) = exec .brsync { State.reset with cmd := 0x12000000 } := rfl

/-! ### System commands -/

theorem test_nop_at_reset : statusWord (nop testEnv State.reset) = 0x00000F01 := by decide +kernel

theorem test_cfglock_locks :
    statusWord (cfglock testEnv { State.reset with cfg := testCfg }) = 0x00000F05 := by decide +kernel
theorem test_cfglock_refuses :
    statusWord (cfglock testEnv { State.reset with cfg := { testCfg with ns := 10 } }) = 0x00000F11 := by decide +kernel

theorem test_sreset : statusWord (sreset testEnv (good frameF1)) = 0x00000F01 := by decide +kernel
theorem test_sreset_cmd : (sreset testEnv (good frameF1)).cmd = 0x0F000000 := by decide +kernel

/-- 95_test_vectors.md, 12.3: SETBEC on a good frame, and the first cause kept. -/
theorem test_setbec :
    statusWord (writeStatus 1 (good frameF1)) = 0x00000205 ∧ statusWord (writeStatus 0xFFFFFFFE (good frameF1)) = 4 ∧
      statusWord (writeStatus 1 (finit testEnv true 20 (booted frameF1))) = 0x00000105 := by decide +kernel

/-- 95_test_vectors.md, section 3: skipped under BEC, and BADFIELD before the gate. -/
theorem test_gate : statusWord (bruint testEnv 32 (booted [])) = 0x00000F07 ∧
    statusWord (bruint testEnv 33 (booted [])) = 0x00000F45 := by decide +kernel

/-! ### Frame start and tail reader (95_test_vectors.md, section 4) -/

theorem test_finit :
    (good frameF1).coder = { low := 0x123456, range := 0xFFFFFF, cur := 3 } ∧ bitsLeft (good frameF1) = 160 ∧
      statusWord (good frameF1) = 4 := by decide +kernel
theorem test_finit_badlen : statusWord (finit testEnv false 41 (booted frameF1)) = 0x00000F25 := by decide +kernel

theorem test_brbit : (brbit testEnv (good frameF1)).reader = { cur := 16, cache := 0x43CB52DA, cnt := 31 } := by
  decide +kernel
theorem test_brbit_overrun :
    statusWord (brbit testEnv { good frameF1 with reader := { cur := 0, cache := 0, cnt := 0 } }) = 0x00000705 := by
  decide +kernel

/-- The 25-bit read of 4.2, across a refill. -/
theorem test_bruint :
    (bruint testEnv 25 { good frameF1 with reader := { cur := 16, cache := 0x0008796A, cnt := 20 } }).res = 0x0188796A ∧
      (bruint testEnv 25 { good frameF1 with reader := { cur := 16, cache := 0x0008796A, cnt := 20 } }).reader =
        { cur := 12, cache := 0x025AD34B, cnt := 27 } := by decide +kernel
/-- The partial refill of 4.4: two bytes are left. -/
theorem test_bruint_partial_refill :
    (bruint testEnv 12 { good [0xC3, 0x5A, 0x12, 0x34] with reader := { cur := 2, cache := 0, cnt := 0 } }).res = 0x35A ∧
      (bruint testEnv 12 { good [0xC3, 0x5A, 0x12, 0x34] with reader := { cur := 2, cache := 0, cnt := 0 } }).reader =
        { cur := 0, cache := 0xC, cnt := 4 } := by decide +kernel

theorem test_brsync :
    (brsync testEnv { good frameF1 with reader := { cur := 12, cache := 0x025AD34B, cnt := 27 } }).res = 0x0020000F := by
  decide +kernel
theorem test_brsync_at_the_end :
    (brsync testEnv { good frameF1 with reader := { cur := 0, cache := 0, cnt := 0 } }).res = 0x0001FFFF := by
  decide +kernel

/-! ### Arithmetic decoder (95_test_vectors.md, section 5) -/

theorem test_acdec : (acdec testEnv 0 (good frameF1)).res = 1 ∧
    (acdec testEnv 0 (good frameF1)).coder = { low := 0x033492, range := 0x0EFFC4, cur := 3 } := by decide +kernel
/-- Step 1 of 5.1: one renormalisation pass takes `FB[3]`. -/
theorem test_acdec_renormalises :
    (acdec testEnv 0 { good frameF1 with coder := { low := 0x033492, range := 0x0EFFC4, cur := 3 } }).coder =
      { low := 0x924678, range := 0xE0C400, cur := 4 } := by decide +kernel

theorem test_actns : (actns testEnv 1 (good frameFT)).res = 3 ∧
    rcWord (actns testEnv 1 (good frameFT)).frm.tns1 0 = 0x00080010 ∧
    (actns testEnv 1 (good frameFT)).coder = { low := 0x00DF3E, range := 0x01BE7C, cur := 4 } := by decide +kernel
theorem test_actns_tnsdata : statusWord (actns testEnv3 0 (good [0x80])) = 0x00000805 ∧
    (actns testEnv3 0 (good [0x80])).frm.tns0.order = 0 := by decide +kernel

/-- Row `FS` of 5.4: two escapes, four raw bits, two signs. -/
theorem test_acpair : (acpair testEnv (good frameFS)).res = 0x62 ∧
    firstOf (acpair testEnv (good frameFS)).x 2 = [smp 10, smp 7] ∧
    (acpair testEnv (good frameFS)).frm.specCtx = 14 ∧ bitsLeft (acpair testEnv (good frameFS)) = 146 := by
  decide +kernel
/-- 5.6 (a): fourteen escapes. -/
theorem test_acpair_esclevel : statusWord (acpair testEnv (good frameFE)) = 0x00000505 ∧
    (acpair testEnv (good frameFE)).coder = { low := 0x07F000, range := 0x0FE000, cur := 5 } := by decide +kernel

/-! ### Spectrum (95_test_vectors.md, sections 6 to 9) -/

/-- Row 1 of section 6. -/
def fillState : State :=
  { good frameF1 with
    cfg := { testCfg with ns := 16, ne := 16 }
    x := memOf ([1, 0, 3, 0, -3, 2, -1, 0].map smp)
    frm := { FrameRegs.reset with bwStop := 12, nfLevel := 3, nfSeed := 0x1234, lastnz := 8 } }

theorem test_nfill : firstOf (nfill testEnv fillState).x 16 =
      [1, 0, 3, 0, -3, 2, -1, 0, -5, 5, -5, 5, 0, 0, 0, 0].map smp ∧
    (nfill testEnv fillState).frm.nfSeed = 0x4160 ∧ (nfill testEnv fillState).frm.lastnz = 12 ∧
    (nfill testEnv fillState).res = 4 := by decide +kernel
theorem test_nfill_zero :
    (nfill testEnv { fillState with frm := { fillState.frm with zero := true } }).x = fillState.x := by decide +kernel

/-- Rows 5 and 6 of section 8, by the exponent alone: `e = 28` and a clamp to `NE`; bins above `LASTNZ` are cleared. -/
theorem test_ggain :
    firstOf (ggain testEnv { good frameF1 with
        x := memOf ([1, -2, 3, 0, 5, 0, -7, 8].map smp)
        frm := { FrameRegs.reset with ggInd := 56, ggOff := 0x3E4, lastnz := 3 } }).x 8 =
      [10, -20, 30, 0, 0, 0, 0, 0].map smp := by decide +kernel
theorem test_gain_offset_is_signed :
    gainExponent { State.reset with frm := { FrameRegs.reset with ggInd := 0, ggOff := 0x200 } } = -512 := by decide

/-- Row 1 of section 7, scaled by 16. -/
theorem test_tnssyn :
    firstOf (tnssyn testEnv { good frameF1 with
        x := memOf [smp 16]
        frm := { FrameRegs.reset with
          ntns := 1, lastnz := 2
          tns0 := { TnsFilter.reset with order := 1, rc := TnsFilter.reset.rc.setIfInBounds 0 16, stop := 4 } } }).x 8 =
      [16, -8, 4, -2, 0, 0, 0, 0].map smp := by decide +kernel
/-- Row 9 of section 7. -/
theorem test_tnssyn_badstate :
    statusWord (tnssyn testEnv { good frameF1 with
      frm := { FrameRegs.reset with ntns := 2, tns1 := { TnsFilter.reset with order := 9 } } }) = 0x00000054 := by
  decide +kernel

/-- 9.1: class A. -/
theorem test_snssyn :
    (snssyn testEnv { good frameF1 with
        frm := { FrameRegs.reset with snsLf := 1, snsHf := 2, snsShape := 1, snsGain := 1, snsIdxA := 928015 } }).scf.toList =
      [8, 16, 0, 16, 24, 8, 0, 8, 8, 0, -8, 8, 0, -8, 8, 8].map smp := by decide +kernel
/-- 9.6. -/
theorem test_snssyn_snsidx :
    statusWord (snssyn testEnv { good frameF1 with frm := { FrameRegs.reset with snsShape := 1, snsIdxA := 2390004 } }) =
      0x00000905 := by decide +kernel

/-- 9.2: the pulse vector of class B. -/
theorem test_pulse_vector :
    pulseVector { State.reset with
      frm := { FrameRegs.reset with snsLsb := true, snsIdxA := 77251, snsIdxB := 1 } } =
      [3, 3, 2, 1, 1, 0, 0, 0, 0, 0, 0, -1, 0, 0, 0, 0] := by decide +kernel
/-- 9.5, `NB = 20`. -/
theorem test_interpolation :
    (List.range 20).map (bandScale testNum
      (Vector.ofFn fun i : Fin 16 => smp (16 * ((i.val % 4 : Nat) : Int))) 20) =
      [2, 16, 32, 40, 8, 16, 32, 40, 8, 16, 32, 40, 12, 4, 12, 20, 28, 36, 44, 52].map smp := by decide +kernel

/-! ### Transform and postfilter (95_test_vectors.md, sections 10 and 11) -/

/-- Row 1 of 10.1. -/
def imdctState : State :=
  { good frameF1 with cfg := { testCfg with ne := 6 }, x := memOf ([1, 2, 3, 4, 5, 6].map smp) }

theorem test_imdct :
    firstOf (imdct testEnv imdctState).tblk 8 = [0, 0, 0, 0, -36, -35, -32, -27].map smp ∧
      firstOf (imdct testEnv imdctState).ola 8 = [-20, -11, -12, -26, -42, -60, 0, 0].map smp := by decide +kernel
/-- The second column: the overlap is added. -/
theorem test_imdct_overlap :
    firstOf (imdct testEnv (imdct testEnv imdctState)).tblk 8 =
      [-20, -11, -12, -26, -78, -95, -32, -27].map smp := by decide +kernel

/-- The end of P1 in 13.1, first two samples: `up(0) = 0`, `up(1) = 1/2`. -/
def ltpfState : State :=
  { good frameF1 with
    tblk := memOf ([18, -1008, 1344, -45, 36864, 0, -65536, 54].map smp)
    frm := { FrameRegs.reset with ltpf := { active := true, gidx := 0, pfr := 1, pint := 4 } } }

theorem test_ltpf : (ltpf testEnv ltpfState).res = 2 ∧
    firstOf (ltpf testEnv ltpfState).yh 10 = [0, 0, 0, 0, 0, 0, 0, 0, smp 18, BitVec.ofInt 32 (-15129)] ∧
    (ltpf testEnv ltpfState).xt.toList = [0, 0, 18, -1008, 1344, -45, 36864, 0, -65536, 54].map smp ∧
    ltpfWord (ltpf testEnv ltpfState).ltpfMem = 0x089 := by decide +kernel
/-- Section 11: `PINT = 2` is refused. -/
theorem test_ltpf_badstate :
    statusWord (ltpf testEnv { good frameF1 with
      frm := { FrameRegs.reset with ltpf := { active := true, gidx := 0, pfr := 0, pint := 2 } } }) = 0x00000054 := by
  decide +kernel

/-! ### States that meet the hypotheses of the statements

The smallest configuration that every record accepts, locked, with a frame of twenty zero bytes in progress and an active
postfilter memorised. -/

def leastCfg : CfgRegs :=
  { CfgRegs.reset with ns := 4, ne := 2, nb := 16, maxbytes := 20, ltpfNblk := 2, lden := 4 }

def leastLtpf : LtpfParams := { active := true, gidx := 0, pfr := 0, pint := 3 }

def openState : State :=
  { State.reset with
    bec := false
    cfglock := true
    cause := .none
    cfg := leastCfg
    fbLen := 20
    reader := { cur := 20, cache := 0, cnt := 0 }
    coder := { low := 0, range := 0xFFFFFF, cur := 3 }
    frm := { FrameRegs.reset with ltpf := leastLtpf }
    ltpfMem := leastLtpf }

theorem leastCfg_valid : cfgValid Config.env.param leastCfg = true := by
  have h := Config.env_wf.param
  simp only [Params.wf, Bool.and_eq_true, decide_eq_true_eq] at h
  have hb : bandsValid leastCfg = true := by decide +kernel
  have h1 : leastCfg.ns.toNat = 4 := rfl
  have h2 : leastCfg.ne.toNat = 2 := rfl
  have h3 : leastCfg.nz.toNat = 0 := rfl
  have h4 : leastCfg.nb.toNat = 16 := rfl
  have h5 : leastCfg.maxbytes.toNat = 20 := rfl
  have h6 : leastCfg.nfstart.toNat = 0 := rfl
  have h7 : leastCfg.lden.toNat = 4 := rfl
  have h8 : leastCfg.ltpfNblk = 2#4 := rfl
  simp [cfgValid, hb, h1, h2, h3, h4, h5, h6, h7, h8]
  omega

theorem witness_open : Open openState := ⟨rfl, rfl⟩

theorem witness_MemoryInv : MemoryInv openState :=
  ⟨rfl, rfl, rfl, rfl, rfl, rfl, rfl, fun _ => leastCfg_valid⟩

theorem witness_BitstreamOk : BitstreamOk openState :=
  ⟨rfl, by decide, by decide, by decide, by decide, by decide, by decide, by decide, by decide⟩

theorem witness_BitstreamInv : BitstreamInv openState := fun _ => witness_BitstreamOk

theorem witness_StatusInv : StatusInv openState := ⟨by decide, by decide, by decide, by decide⟩

theorem witness_LtpfInv : LtpfInv openState := fun _ => ⟨rfl, by decide⟩

theorem witness_SampleInv : SampleInv openState where
  tscale := Config.env_wf.num.zero_mem
  win := nofun
  x := nofun
  tblk := nofun
  ola := nofun
  yh := nofun
  scf i := by
    have : vecAt openState.scf i = Sample.zero := vecAt_replicate 16 i
    rw [this]; exact Config.env_wf.num.zero_mem
  xt i := by
    have : vecAt openState.xt i = Sample.zero := vecAt_replicate 10 i
    rw [this]; exact Config.env_wf.num.zero_mem

theorem witness_CacheFresh : CacheFresh openState := fun i hi => absurd hi (Nat.not_lt_zero i)

/-- A step with no HOST access to come. -/
theorem witness_idle_step : step openState = .next openState := rfl

/-! The five invariants, each with a step from a state that has it. -/

theorem witness_StepsKeepMemoriesCanonical : MemoryInv openState ∧ step openState = .next openState :=
  ⟨witness_MemoryInv, rfl⟩
theorem witness_StepsKeepTheBitstreamConsistent : BitstreamInv openState ∧ step openState = .next openState :=
  ⟨witness_BitstreamInv, rfl⟩
theorem witness_StepsKeepStatusCoherent : StatusInv openState ∧ step openState = .next openState :=
  ⟨witness_StatusInv, rfl⟩
theorem witness_StepsKeepTheMemorisedPitch : LtpfInv openState ∧ step openState = .next openState :=
  ⟨witness_LtpfInv, rfl⟩
theorem witness_StepsKeepSamplesInS : SampleInv openState ∧ step openState = .next openState :=
  ⟨witness_SampleInv, rfl⟩

/-- A step that runs a command from a state with all five invariants. -/
theorem witness_command_step :
    step { openState with host := [.write 0 0x00000000] } = .next { openState with cmd := 0 } := rfl

/-! #### Encoding, steps, the HOST port -/

theorem witness_CommandHasOneWord : decode 0x02010014 = .ok (.finit true 20) := by decide

/-- A word that matches a row, one whose opcode stands in no row, and one of neither kind. -/
theorem witness_OpcodeMapIsComplete :
    decode 0x21000001 = .ok (.actns 1) ∧ (0x21000001 &&& 0xFFFFFFFE : Word) = 0x21000000 ∧
      decode 0x50000000 = .error .illop ∧ decode 0x21000002 = .error .badfield := by decide

theorem witness_StepRunsDecodedCommand : ∃ (s : State) (w : Word) (rest : List HostOp) (i : Instr),
    s.host = .write 0x000 w :: rest ∧ decode w = .ok i ∧ step s = exec i { s with host := rest, cmd := w } :=
  ⟨{ openState with host := [.write 0 0x11000020, .reset] }, 0x11000020, [.reset], .bruint 32, rfl, by decide, rfl⟩

theorem witness_IllegalWordEndsWithItsCode :
    (∃ (s : State) (w : Word) (rest : List HostOp), s.host = .write 0x000 w :: rest ∧ decode w = .error .illop) ∧
      ∃ (s : State) (w : Word) (rest : List HostOp), s.host = .write 0x000 w :: rest ∧ decode w = .error .badfield :=
  ⟨⟨{ openState with host := [.write 0 0x03000000] }, 0x03000000, [], rfl, by decide⟩,
    ⟨{ openState with host := [.write 0 0x02020014] }, 0x02020014, [], rfl, by decide⟩⟩

/-- Boundaries of R81's map: the last offset of each part is served and the next one refused. -/
theorem witness_AccessesOutsideTheMapAreRefused :
    portOf 0x008 = .ok .res ∧ portOf 0x00C = .error (.unmapped 0x00C) ∧ portOf 0x034 = .ok (.cfg .tscale) ∧
      portOf 0x038 = .error (.unmapped 0x038) ∧ portOf 0x0C0 = .ok .ltpfMem ∧
      portOf 0x0C4 = .error (.unmapped 0x0C4) ∧ portOf 0x58C = .ok (.fb 99) ∧
      portOf 0x590 = .error (.unmapped 0x590) ∧ portOf 0x700 = .ok (.bands 64) ∧
      portOf 0x704 = .error (.unmapped 0x704) ∧ portOf 0x83C = .ok (.scf 15) ∧
      portOf 0x840 = .error (.unmapped 0x840) ∧ portOf 0x4FFC = .ok (.ola 1023) ∧
      portOf 0x5000 = .error (.unmapped 0x5000) ∧ portOf 0x7FFC = .ok (.win 2047) ∧
      portOf 0x8000 = .error (.outOfSpace 0x8000) ∧ portOf 0x002 = .error (.misaligned 0x002) := by decide

theorem witness_refused_write : ∃ s : State, s.host = .write 0x8000 1 :: [] ∧ step s = .refused (.outOfSpace 0x8000) :=
  ⟨{ openState with host := [.write 0x8000 1] }, rfl, rfl⟩

theorem witness_ResetReadsAsTheTableSays :
    (∃ s t : State, (∃ rest, s.host = .reset :: rest) ∧ step s = .next t) ∧ ∃ s t : State, exec .sreset s = .next t :=
  ⟨⟨{ openState with host := [.reset] }, _, ⟨[], rfl⟩, rfl⟩, ⟨openState, _, rfl⟩⟩

/-- A read inside the map, and one just past a part of it. -/
theorem witness_HostReadHasNoEffect :
    (∃ (s : State) (a : Nat) (rest : List HostOp), s.host = .read a :: rest ∧ a % 4 = 0 ∧ Mapped a) ∧
      ∃ (s : State) (a : Nat) (rest : List HostOp), s.host = .read a :: rest ∧ ¬(a % 4 = 0 ∧ Mapped a) := by
  refine ⟨⟨{ openState with host := [.read 0x8] }, 0x8, [], rfl, rfl, .inl (by decide)⟩,
    ⟨{ openState with host := [.read 0xC] }, 0xC, [], rfl, ?_⟩⟩
  unfold Mapped
  decide

/-- The word of a STATUS with `SKIP`, `CFGLOCK`, `BADSTATE` and `HOSTSET`: bits 1 and 2, [7:4] = 5, [11:8] = 2 (R28, R301, R310). -/
theorem test_status_fields :
    statusWord { State.reset with
      bec := false, skip := true, cfglock := true, err := .badstate, cause := .hostset } = 0x00000256 := by decide

/-- R28, R29, R37: registers at the first and last offsets of their parts, with their fields. -/
theorem test_registers :
    (0x004, [(0, 1), (1, 0), (2, 0), (4, 0), (8, 15)]) ∈ registers State.reset ∧
      (0x040, [(0, 20)]) ∈ registers openState ∧ (0x05C, [(0, 160)]) ∈ registers openState ∧
      (0x0C0, [(0, 1), (1, 0), (3, 0), (5, 3)]) ∈ registers openState := by decide +kernel

/-- A read at every kind of offset the statement tells apart, at its last entry; both sides of `CFG_NS` for `OUT`. -/
theorem witness_HostReadHasNoEffect_words :
    (∃ s : State, s.host = .read 0x83C :: [] ∧ 0x83C % 4 = 0 ∧ 0x83C = 0x800 + 4 * 15) ∧
      (∃ s : State, s.host = .read 0x300C :: [] ∧ 0x300C = 0x3000 + 4 * 3 ∧ 3 < s.cfg.ns.toNat ∧
        1 ≤ s.cfg.ltpfNblk.toNat) ∧
      (∃ s : State, s.host = .read 0x3010 :: [] ∧ 0x3010 = 0x3000 + 4 * 4 ∧ s.cfg.ns.toNat ≤ 4) ∧
      (Mapped 0x000 ∧ Mapped 0x034 ∧ Mapped 0x05C ∧ Mapped 0x0C0 ∧ Mapped 0x700 ∧ Mapped 0x83C ∧ Mapped 0x1FFC ∧
        Mapped 0x2FFC ∧ Mapped 0x3FFC ∧ Mapped 0x4FFC ∧ Mapped 0x7FFC) := by
  refine ⟨⟨{ openState with host := [.read 0x83C] }, rfl, rfl, rfl⟩,
    ⟨{ openState with host := [.read 0x300C] }, rfl, rfl, by decide, by decide⟩,
    ⟨{ openState with host := [.read 0x3010] }, rfl, rfl, by decide⟩, ?_⟩
  unfold Mapped
  omega

/-- The last word of the window. -/
theorem witness_FrameBufferWindowIsLittleEndian : ∃ (s : State) (w : Nat) (v : Word) (rest : List HostOp),
    Memory.wf 400 s.fb = true ∧ w = 99 ∧ s.host = .write (0x400 + 4 * w) v :: rest :=
  ⟨{ openState with host := [.write (0x400 + 4 * 99) 0x04030201] }, 99, 0x04030201, [], rfl, rfl, rfl⟩

/-- The last entries of both windows, and a wire form that is a sample's. -/
theorem witness_SampleWindowsStoreDecodedWords :
    (∃ (s : State) (k : Nat) (v : Word) (rest : List HostOp) (u : Sample), k = 1023 ∧ Memory.wf 1024 s.x = true ∧
        s.host = .write (0x1000 + 4 * k) v :: rest ∧ Config.env.num.isSample u = true ∧ v = Config.env.num.enc u) ∧
      ∃ (s : State) (k : Nat) (v : Word) (rest : List HostOp) (u : Sample), k = 1023 ∧ Memory.wf 1024 s.tblk = true ∧
        s.host = .write (0x2000 + 4 * k) v :: rest ∧ Config.env.num.isSample u = true ∧ v = Config.env.num.enc u :=
  ⟨⟨{ openState with host := [.write (0x1000 + 4 * 1023) (Config.env.num.enc Sample.zero)] }, 1023, _, [], Sample.zero,
      rfl, rfl, rfl, Config.env_wf.num.zero_mem, rfl⟩,
    ⟨{ openState with host := [.write (0x2000 + 4 * 1023) (Config.env.num.enc Sample.zero)] }, 1023, _, [], Sample.zero,
      rfl, rfl, rfl, Config.env_wf.num.zero_mem, rfl⟩⟩

/-- The first and the last of the registers. -/
theorem witness_FrameRegistersKeepTheirFields :
    ((0x060, 0x3F) ∈ frameRegisters ∧ (0x0BC, 0x7FFF) ∈ frameRegisters ∧ portOf 0x0BC = .ok (.frm .ltpfCtl)) ∧
      ∃ (s : State) (rest : List HostOp), s.host = .write 0x0BC 0xFFFFFFFF :: rest :=
  ⟨by decide, { openState with host := [.write 0x0BC 0xFFFFFFFF] }, [], rfl⟩

/-- The first and the last of the registers, and the last entry of each table. -/
theorem witness_ConfigRegistersTakeTheirFields :
    ((0x010, 0x3FF) ∈ configRegisters ∧ (0x030, 0xF) ∈ configRegisters) ∧
      (∃ (s : State) (rest : List HostOp), s.cfglock = false ∧ s.host = .write 0x030 0xFFFFFFFF :: rest) ∧
      (∃ (s : State) (rest : List HostOp), s.cfglock = false ∧ s.host = .write 0x034 7 :: rest) ∧
      (∃ (s : State) (b : Nat) (rest : List HostOp), s.cfglock = false ∧ b = 64 ∧ Memory.wf 65 s.cfg.bands = true ∧
        s.host = .write (0x600 + 4 * b) 0xFFFFFFFF :: rest) ∧
      (∃ (s : State) (n : Nat) (rest : List HostOp), s.cfglock = false ∧ n = 2047 ∧ Memory.wf 2048 s.cfg.win = true ∧
        s.host = .write (0x6000 + 4 * n) 7 :: rest) ∧
      portOf 0x034 = .ok (.cfg .tscale) ∧ portOf 0x700 = .ok (.bands 64) ∧ portOf 0x7FFC = .ok (.win 2047) :=
  ⟨by decide, ⟨{ State.reset with host := [.write 0x030 0xFFFFFFFF] }, [], rfl, rfl⟩,
    ⟨{ State.reset with host := [.write 0x034 7] }, [], rfl, rfl⟩,
    ⟨{ State.reset with host := [.write (0x600 + 4 * 64) 0xFFFFFFFF] }, 64, [], rfl, rfl, rfl, rfl⟩,
    ⟨{ State.reset with host := [.write (0x6000 + 4 * 2047) 7] }, 2047, [], rfl, rfl, rfl, rfl⟩, by decide⟩

/-- An offset of each part that the statement names. -/
theorem witness_IgnoredWritesChangeNothing :
    (∃ (s : State) (v : Word) (rest : List HostOp), s.host = .write 0x034 v :: rest ∧ s.cfglock = true) ∧
      portOf 0x008 = .ok .res ∧ portOf 0x05C = .ok (.bits .bitsLeft) ∧
      portOf 0x0C0 = .ok .ltpfMem ∧ portOf 0x800 = .ok (.scf 0) ∧ portOf 0x3000 = .ok (.out 0) ∧
      portOf 0x4FFC = .ok (.ola 1023) ∧ portOf 0x034 = .ok (.cfg .tscale) ∧ portOf 0x700 = .ok (.bands 64) ∧
      portOf 0x6000 = .ok (.win 0) :=
  ⟨⟨{ openState with host := [.write 0x034 7] }, 7, [], rfl, rfl⟩, by decide⟩

theorem witness_StatusWriteRaisesHostset :
    (∃ (s : State) (v : Word) (rest : List HostOp), s.host = .write 0x004 v :: rest ∧ v.getLsbD 0 = true) ∧
      ∃ (s : State) (v : Word) (rest : List HostOp), s.host = .write 0x004 v :: rest ∧ v.getLsbD 0 = false :=
  ⟨⟨{ openState with host := [.write 0x004 1] }, 1, [], rfl, by decide⟩,
    ⟨{ openState with host := [.write 0x004 0xFFFFFFFE] }, 0xFFFFFFFE, [], rfl, by decide⟩⟩

/-! #### System commands, admission, events -/

theorem leastCfg_ConfigValid : ConfigValid Config.env.param leastCfg := by
  have h := Config.env_wf.param
  simp only [Params.wf, Bool.and_eq_true, decide_eq_true_eq] at h
  refine ⟨⟨rfl, by decide, ?_⟩, ⟨rfl, by decide, ?_⟩, by decide, by decide, by decide, by decide, by decide, by decide, rfl, ?_, ?_⟩
  · change 4 ≤ _; omega
  · change 2 ≤ min 4 _; omega
  · intro b _; exact le_refl 0
  · exact Nat.zero_le _

theorem witness_CfglockValidatesAndLocks :
    (State.reset.cfglock = false ∧ ¬ConfigValid Config.env.param State.reset.cfg) ∧
      (({ State.reset with cfg := leastCfg } : State).cfglock = false ∧ ConfigValid Config.env.param leastCfg) ∧
      openState.cfglock = true :=
  ⟨⟨rfl, fun h => absurd h.ns.2.1 (by decide)⟩, ⟨rfl, leastCfg_ConfigValid⟩, rfl⟩

theorem witness_ResetsRestoreTheResetState :
    ({ openState with host := [.reset, .read 0] } : State).host = .reset :: [.read 0] := rfl

/-- The open state with other frame registers. -/
def withFrm (f : FrameRegs) : State := { openState with frm := f }

/-- For each clause a state with the check just failing: lengths 19 and 21 against `CFG_MAXBYTES = 20`, an odd and a last
position, an order of 9, a sub-range past `NE`, gain indices at the class's entries, lags of 2 and 7. -/
theorem witness_FailedChecksChangeOnlyStatus :
    (openState.cfglock = true ∧ (19 : BitVec 9).toNat < 20 ∧ openState.cfg.maxbytes.toNat < (21 : BitVec 9).toNat) ∧
    (Open (withFrm { FrameRegs.reset with specK := 1 }) ∧
      (withFrm { FrameRegs.reset with specK := 1 }).frm.specK.toNat % 2 = 1) ∧
    (Open (withFrm { FrameRegs.reset with specK := 2 }) ∧
      (withFrm { FrameRegs.reset with specK := 2 }).cfg.ne.toNat <
        (withFrm { FrameRegs.reset with specK := 2 }).frm.specK.toNat + 2) ∧
    (∃ s : State, Open s ∧ 1 ≤ s.frm.ntns.toNat ∧ ¬TnsFilterOk s.cfg.ne.toNat s.frm.tns0) ∧
    (∃ s : State, Open s ∧ 2 ≤ s.frm.ntns.toNat ∧ ¬TnsFilterOk s.cfg.ne.toNat s.frm.tns1) ∧
    (∃ s : State, Open s ∧ s.frm.snsShape = 0#2 ∧ s.frm.snsGain.toNat = 2) ∧
    (∃ s : State, Open s ∧ s.frm.snsShape = 1#2 ∧ s.frm.snsGain.toNat = 4) ∧
    (∃ s : State, Open s ∧ s.frm.snsShape = 2#2 ∧ s.frm.snsGain.toNat = 4) ∧
    (∃ s : State, s.cfglock = true ∧ s.frm.ltpf.active = true ∧ ¬(s.cfg.lden.toNat / 2 + 1 ≤ s.frm.ltpf.pint.toNat)) ∧
    ∃ s : State, s.cfglock = true ∧ s.frm.ltpf.active = true ∧
      ¬(s.frm.ltpf.pint.toNat + s.cfg.lden.toNat / 2 ≤ s.cfg.ltpfNblk.toNat * s.cfg.ns.toNat) := by
  refine ⟨by decide, ⟨⟨rfl, rfl⟩, by decide⟩, ⟨⟨rfl, rfl⟩, by decide⟩,
    ⟨withFrm { FrameRegs.reset with ntns := 1, tns0 := { TnsFilter.reset with order := 9 } }, ⟨rfl, rfl⟩, by decide, ?_⟩,
    ⟨withFrm { FrameRegs.reset with ntns := 3, tns1 := { TnsFilter.reset with order := 1, stop := 3 } }, ⟨rfl, rfl⟩,
      by decide, ?_⟩,
    ⟨withFrm { FrameRegs.reset with snsShape := 0, snsGain := 2 }, ⟨rfl, rfl⟩, rfl, rfl⟩,
    ⟨withFrm { FrameRegs.reset with snsShape := 1, snsGain := 4 }, ⟨rfl, rfl⟩, rfl, rfl⟩,
    ⟨withFrm { FrameRegs.reset with snsShape := 2, snsGain := 4 }, ⟨rfl, rfl⟩, rfl, rfl⟩,
    ⟨withFrm { FrameRegs.reset with ltpf := { leastLtpf with pint := 2 } }, rfl, rfl, by decide⟩,
    ⟨withFrm { FrameRegs.reset with ltpf := { leastLtpf with pint := 7 } }, rfl, rfl, by decide⟩⟩ <;>
  unfold TnsFilterOk <;> decide

/-- A reader at its end, a code value at the range, a slice of 1024, indices at their class sizes. -/
theorem witness_EarlyEventsWriteOnlyTheFlag :
    (∃ (s : State) (n : BitVec 6), Open s ∧ n.toNat ≤ 32 ∧ bitsLeft s < n.toNat ∧ bitsLeft s < 1) ∧
    (∃ (s : State) (m : BitVec 8), Open s ∧ m.toNat < Config.env.rom.nspec + 18 ∧ 0x10000 ≤ s.coder.range.toNat ∧
      s.coder.range ≤ s.coder.low) ∧
    (∃ (s : State) (m : BitVec 8), Open s ∧ m.toNat < Config.env.rom.nspec + 18 ∧ 0x10000 ≤ s.coder.range.toNat ∧
      s.coder.low < s.coder.range ∧ 1024 ≤ s.coder.low.toNat / (s.coder.range.toNat / 1024)) ∧
    (∃ s : State, Open s ∧ 0x10000 ≤ s.coder.range.toNat ∧ RaisesAt s.coder .acinv ∧ s.frm.specK.toNat % 2 = 0 ∧
      s.frm.specK.toNat + 2 ≤ s.cfg.ne.toNat) ∧
    (∃ s : State, Open s ∧ 0x10000 ≤ s.coder.range.toNat ∧ RaisesAt s.coder .acslice ∧ s.frm.specK.toNat % 2 = 0 ∧
      s.frm.specK.toNat + 2 ≤ s.cfg.ne.toNat) ∧
    (∃ s : State, Open s ∧ s.frm.snsShape = 0#2 ∧ s.frm.snsGain.toNat < 2 ∧ 2390004 ≤ s.frm.snsIdxA.toNat) ∧
    (∃ s : State, Open s ∧ s.frm.snsShape = 0#2 ∧ s.frm.snsGain.toNat < 2 ∧ 6 ≤ s.frm.snsIdxB.toNat) ∧
    (∃ s : State, Open s ∧ s.frm.snsShape = 1#2 ∧ s.frm.snsGain.toNat < 4 ∧ 2390004 ≤ s.frm.snsIdxA.toNat) ∧
    (∃ s : State, Open s ∧ s.frm.snsShape = 2#2 ∧ s.frm.snsGain.toNat < 4 ∧ 15158272 ≤ s.frm.snsIdxA.toNat) ∧
    ∃ s : State, Open s ∧ s.frm.snsShape = 3#2 ∧ 774912 ≤ s.frm.snsIdxA.toNat := by
  have h0 : (0 : BitVec 8).toNat < Config.env.rom.nspec + 18 :=
    Nat.lt_of_lt_of_le (by decide : 0 < 18) (Nat.le_add_left _ _)
  exact ⟨⟨{ openState with reader := { cur := 0, cache := 0, cnt := 0 } }, 1, ⟨rfl, rfl⟩, by decide, by decide, by decide⟩,
    ⟨{ openState with coder := { low := 0xFFFFFF, range := 0xFFFFFF, cur := 3 } }, 0, ⟨rfl, rfl⟩, h0, by decide, by decide⟩,
    ⟨{ openState with coder := { low := 0xFFFE00, range := 0xFFFFFF, cur := 3 } }, 0, ⟨rfl, rfl⟩, h0, by decide, by decide,
      by decide⟩,
    ⟨{ openState with coder := { low := 0xFFFFFF, range := 0xFFFFFF, cur := 3 } }, ⟨rfl, rfl⟩, by decide,
      .inl ⟨rfl, by decide⟩, by decide, by decide⟩,
    ⟨{ openState with coder := { low := 0xFFFE00, range := 0xFFFFFF, cur := 3 } }, ⟨rfl, rfl⟩, by decide,
      .inr ⟨rfl, by decide, by decide⟩, by decide, by decide⟩,
    ⟨withFrm { FrameRegs.reset with snsIdxA := 2390004 }, ⟨rfl, rfl⟩, rfl, by decide, by decide⟩,
    ⟨withFrm { FrameRegs.reset with snsIdxB := 6 }, ⟨rfl, rfl⟩, rfl, by decide, by decide⟩,
    ⟨withFrm { FrameRegs.reset with snsShape := 1, snsIdxA := 2390004 }, ⟨rfl, rfl⟩, rfl, by decide, by decide⟩,
    ⟨withFrm { FrameRegs.reset with snsShape := 2, snsIdxA := 15158272 }, ⟨rfl, rfl⟩, rfl, by decide, by decide⟩,
    ⟨withFrm { FrameRegs.reset with snsShape := 3, snsIdxA := 774912 }, ⟨rfl, rfl⟩, rfl, by decide⟩⟩

theorem witness_OperandOutOfRangeIsBadfield :
    32 < (33 : BitVec 6).toNat ∧ testEnv.rom.nspec + 18 ≤ (20 : BitVec 8).toNat := by decide

theorem acdec0_wellFormed : (Instr.acdec 0).wellFormed Config.env.rom.nspec = true := by
  have h := wf_nspec_pos Config.env_wf
  simp [Instr.wellFormed]

theorem witness_UnlockedCommandsFail :
    (Instr.ltpf).wellFormed Config.env.rom.nspec = true ∧ Instr.ltpf ≠ .nop ∧ Instr.ltpf ≠ .cfglock ∧
      Instr.ltpf ≠ .sreset ∧ State.reset.cfglock = false := by
  refine ⟨rfl, ?_⟩
  decide

theorem witness_CorruptionGatesDecodeClass : ∃ (i : Instr) (s : State),
    (∃ m, i = .acdec m) ∧ i.wellFormed Config.env.rom.nspec = true ∧ s.cfglock = true ∧ s.bec = true :=
  ⟨.acdec 0, { openState with bec := true, cause := .hostset }, ⟨0, rfl⟩, acdec0_wellFormed, rfl, rfl⟩

theorem witness_ErrorsAndCausesFollowTheMatrix :
    exec (.finit true 20) openState = .next (finit Config.env true 20 openState) ∧ openState.bec = false ∧
      (finit Config.env true 20 openState).bec = true :=
  ⟨rfl, rfl, rfl⟩

def corruptState : State := { openState with bec := true, cause := .acinv }

theorem witness_OnlyFinitClearsCorruption : ∃ s t : State,
    step s = .next t ∧ s.bec = true ∧ t.bec = false :=
  ⟨{ corruptState with host := [.write 0 0x02000014] },
    finit Config.env false 20 { corruptState with host := [], cmd := 0x02000014 }, rfl, rfl, rfl⟩

/-- A reset under `BEC`, and the flag raised by the HOST. -/
theorem witness_FirstCauseIsKept :
    (∃ s t : State, step s = .next t ∧ s.bec = true ∧ t.cause ≠ s.cause) ∧
      ∃ s t : State, step s = .next t ∧ s.bec = false ∧ t.cause ≠ s.cause :=
  ⟨⟨{ corruptState with host := [.reset] }, _, rfl, rfl, by decide⟩,
    ⟨{ openState with host := [.write 0x004 1] }, _, rfl, rfl, by decide⟩⟩

theorem witness_LockedConfigurationIsImmutable : ∃ s t : State, step s = .next t ∧ s.cfglock = true :=
  ⟨{ openState with host := [.write 0x010 0xFF] }, { openState with host := [] }, rfl, rfl⟩

theorem witness_CommandsNeverWriteTheFrameBuffer :
    exec .nop openState = .next openState ∧ Instr.nop ≠ .sreset := ⟨rfl, by decide⟩

/-! #### Frame start and tail reader -/

theorem witness_FinitStartsAFrame :
    openState.cfglock = true ∧ Memory.wf 1024 openState.x = true ∧ 20 ≤ (20 : BitVec 9).toNat ∧
      (20 : BitVec 9).toNat ≤ openState.cfg.maxbytes.toNat := by decide

/-- The whole width and no bit at all, with exactly as many bits left as are read. -/
theorem witness_TailReadsReturnNextBits :
    (∃ s : State, Open s ∧ 3 ≤ s.coder.cur.toNat ∧ bitsLeft s = 32) ∧
      (Open openState ∧ 3 ≤ openState.coder.cur.toNat ∧ ((0 : BitVec 6).toNat : Int) ≤ bitsLeft openState) ∧
      (1 : Int) ≤ bitsLeft openState :=
  ⟨⟨{ openState with reader := { cur := 4, cache := 0, cnt := 0 } }, ⟨rfl, rfl⟩, by decide, by decide⟩,
    ⟨witness_open, by decide, by decide⟩, by decide⟩

/-- A reader in the middle of a frame that is not all zero, its cache holding the last byte but for one bit read. -/
def midState : State :=
  { openState with fb := [(19, 0xB4#8)], reader := { cur := 19, cache := 0x5A, cnt := 7 } }

theorem witness_PendingBitsAreTailBits : BitstreamOk midState ∧ CacheFresh midState := by
  refine ⟨⟨rfl, by decide, by decide, by decide, by decide, by decide, by decide, by decide, by decide⟩, ?_⟩
  unfold CacheFresh
  decide

theorem witness_CommandsKeepCacheFresh :
    (exec (.finit false 20) openState = .next (finit Config.env false 20 openState) ∧
        (finit Config.env false 20 openState).err = .ok) ∧
      BitstreamOk midState ∧ CacheFresh midState ∧ exec .nop midState = .next midState :=
  ⟨⟨rfl, rfl⟩, witness_PendingBitsAreTailBits.1, witness_PendingBitsAreTailBits.2, rfl⟩

theorem witness_BrsyncReportsPosition : Open midState ∧ BitstreamOk midState :=
  ⟨⟨rfl, rfl⟩, witness_PendingBitsAreTailBits.1⟩

/-! #### The arithmetic decoder -/

theorem zero_model : 0 < Config.env.rom.nspec + 18 := by omega

/-- The three outcomes of a decode step. -/
theorem witness_DecodeStepFindsTheSymbol :
    Config.env.Wf ∧ 0 < Config.env.rom.nspec + 18 ∧ 0x10000 ≤ (0xFFFFFF : BitVec 24).toNat ∧
      ((0 : BitVec 24) < 0xFFFFFF ∧ (0 : BitVec 24).toNat / ((0xFFFFFF : BitVec 24).toNat / 1024) < 1024) ∧
      (0xFFFFFF : BitVec 24) ≤ 0xFFFFFF ∧
      ((0xFFFE00 : BitVec 24) < 0xFFFFFF ∧ 1024 ≤ (0xFFFE00 : BitVec 24).toNat / ((0xFFFFFF : BitVec 24).toNat / 1024)) :=
  ⟨Config.env_wf, zero_model, by decide, by decide, by decide, by decide⟩

/-- A completed step, and a raising one. -/
theorem witness_DecodeStepKeepsTheCoderInvariant :
    Config.env.Wf ∧ (∃ sym s', acStep Config.env 0 openState = .ok sym s') ∧
      acStep Config.env 0 { openState with coder := { low := 0xFFFFFF, range := 0xFFFFFF, cur := 3 } } =
        .raised .acinv { openState with coder := { low := 0xFFFFFF, range := 0xFFFFFF, cur := 3 } } := by
  refine ⟨Config.env_wf, ?_, ?_⟩
  · obtain ⟨sym, c', h, _⟩ := acStep_ok Config.env_wf zero_model (s := openState) (by decide) (by decide) (by decide)
    exact ⟨sym, _, h⟩
  · unfold acStep
    exact if_pos (by decide)

theorem witness_AcdecDecodesOneSymbol :
    Open openState ∧ (0 : BitVec 8).toNat < Config.env.rom.nspec + 18 ∧ 0x10000 ≤ openState.coder.range.toNat ∧
      openState.coder.low < openState.coder.range ∧
      openState.coder.low.toNat / (openState.coder.range.toNat / 1024) < 1024 :=
  ⟨witness_open, zero_model, by decide, by decide, by decide⟩

/-- Order 1, its one index 0. -/
theorem witness_ActnsDecodesOrderAndIndices : ∃ (s : State) (order : Nat) (v : Nat → Nat) (c : Nat → Coder),
    Open s ∧ 0x10000 ≤ s.coder.range.toNat ∧ 1 ≤ order ∧ order ≤ 8 ∧
      DecodesTo (Config.env.rom.model (Config.env.rom.nspec + s.frm.lowRate.toNat)) s s.coder (order - 1) (c 0) ∧
      ∀ j, j < order →
        DecodesTo (Config.env.rom.model (Config.env.rom.nspec + 2 + 8 * s.frm.lowRate.toNat + j)) s (c j) (v j)
          (c (j + 1)) ∧ v j ≤ 16 := by
  obtain ⟨c0, h0, hl, hr⟩ := decodesTo_zero Config.env_wf (m := Config.env.rom.nspec + openState.frm.lowRate.toNat)
    (by change _ + 0 < _; omega) (s := openState) (c := openState.coder) rfl (by decide) rfl
  obtain ⟨c1, h1, _, _⟩ := decodesTo_zero Config.env_wf
    (m := Config.env.rom.nspec + 2 + 8 * openState.frm.lowRate.toNat + 0) (by change _ + 2 + 8 * 0 + 0 < _; omega)
    (s := openState) (c := c0) rfl hr hl
  refine ⟨openState, 1, fun _ => 0, fun j => if j = 0 then c0 else c1, witness_open, by decide, by decide, by decide, h0, ?_⟩
  intro j hj
  obtain rfl : j = 0 := by omega
  exact ⟨h1, by decide⟩

/-- A step without renormalisation. -/
theorem decodesTo_still {m : Model} {s : State} {c c' : Coder} {sym : Nat} (h1 : c.low < c.range)
    (h2 : c.low.toNat / (c.range.toNat / 1024) < 1024)
    (h3 : sym < m.nsym ∧ m.cumfreq sym ≤ c.low.toNat / (c.range.toNat / 1024) ∧
      c.low.toNat / (c.range.toNat / 1024) < m.cumfreq sym + m.symfreq sym)
    (h4 : 0x10000 ≤ c'.range.toNat ∧ c'.range.toNat = c.range.toNat / 1024 * m.symfreq sym ∧
      c'.low.toNat = c.low.toNat - c.range.toNat / 1024 * m.cumfreq sym ∧ c'.cur = c.cur) :
    DecodesTo m s c sym c' := by
  refine ⟨h1, h2, h3, 0, by omega, by omega, h4.1, ?_, h4.2.2.1, ?_⟩
  · rw [h4.2.1, Nat.pow_zero, Nat.mul_one]
  · rw [h4.2.2.2]
    have := c.cur.isLt
    omega

/-- A model of 32 symbols of equal frequency. -/
def evenModel : Model where
  nsym := 32
  cumfreq s := 32 * s
  symfreq _ := 32
  lutshift := 5
  lut i := i

/-- A model whose escape takes almost the whole range. -/
def escapeModel : Model where
  nsym := 17
  cumfreq s := s
  symfreq s := if s = 16 then 1008 else 1
  lutshift := 10
  lut _ := 16

/-- A model whose first symbol takes almost the whole range. -/
def skewModel : Model where
  nsym := 32
  cumfreq s := if s = 0 then 0 else 992 + s
  symfreq s := if s = 0 then 993 else 1
  lutshift := 10
  lut _ := 31

/-- The witness record of Config.lean with a spectral model that escapes, TNS order models of 32 symbols and the given TNS
coefficient models. -/
def wideEnvOf (coef : Model) : Env :=
  { Config.witnessEnv with
    rom := { Config.witnessEnv.rom with model := fun m => if m = 0 then escapeModel else if m < 3 then evenModel else coef } }

theorem wideEnvOf_wf {coef : Model} (h : coef.wf = true) : (wideEnvOf coef).Wf where
  num := Config.witnessEnv_num_lawful
  rom := by
    have h0 : escapeModel.wf = true := by decide +kernel
    have h1 : evenModel.wf = true := by decide +kernel
    have h2 : escapeModel.nsym = 17 := rfl
    have hw : ∀ m, ((if m = 0 then escapeModel else if m < 3 then evenModel else coef : Model)).wf = true := by
      intro m
      split
      · exact h0
      · split
        · exact h1
        · exact h
    simp [Over.Rom.wf, wideEnvOf, Config.witnessEnv, hw, h2]
  inS := ⟨fun _ => rfl, fun _ _ => rfl, fun _ _ => rfl, fun _ _ => rfl, fun _ _ => rfl, fun _ _ => rfl, fun _ _ _ => rfl⟩
  param := (by decide : Params.recommended.wf = true)

/-- TNS coefficient models of 32 symbols too. -/
def wideEnv : Env := wideEnvOf evenModel

theorem wideEnv_wf : wideEnv.Wf := wideEnvOf_wf (by decide +kernel)

/-- Order 1: the step of its one index raises. -/
theorem witness_EarlyEventsWriteOnlyTheFlag_order : ∃ (s : State) (c : Nat → Coder),
    wideEnv.Wf ∧ Open s ∧ 0x10000 ≤ s.coder.range.toNat ∧
      DecodesTo (wideEnv.rom.model (wideEnv.rom.nspec + s.frm.lowRate.toNat)) s s.coder 0 (c 0) ∧
      RaisesAt (c 0) .acslice := by
  refine ⟨{ openState with coder := { low := 523300, range := 0xFFFFFF, cur := 3 } },
    fun _ => { low := 523300, range := 524256, cur := 3 }, wideEnv_wf, ⟨rfl, rfl⟩, by decide, ?_,
    .inr ⟨rfl, by decide, by decide⟩⟩
  exact decodesTo_still (by decide +kernel) (by decide +kernel) (by decide +kernel) (by decide +kernel)

/-- Order 2: the step of its second index raises, after the first one's. -/
theorem witness_EarlyEventsWriteOnlyTheFlag_index : ∃ (s : State) (v : Nat → Nat) (c : Nat → Coder),
    (wideEnvOf skewModel).Wf ∧ Open s ∧ 0x10000 ≤ s.coder.range.toNat ∧
      DecodesTo ((wideEnvOf skewModel).rom.model ((wideEnvOf skewModel).rom.nspec + s.frm.lowRate.toNat)) s s.coder 1
        (c 0) ∧
      (∀ j, j < 1 →
        DecodesTo ((wideEnvOf skewModel).rom.model ((wideEnvOf skewModel).rom.nspec + 2 + 8 * s.frm.lowRate.toNat + j)) s
          (c j) (v j) (c (j + 1)) ∧ v j ≤ 16) ∧
      RaisesAt (c 1) .acslice := by
  refine ⟨{ openState with coder := { low := 1031156, range := 0xFFFFFF, cur := 3 } }, fun _ => 0,
    fun j => if j = 0 then { low := 506900, range := 524256, cur := 3 } else { low := 506900, range := 507423, cur := 3 },
    wideEnvOf_wf (by decide +kernel), ⟨rfl, rfl⟩, by decide, ?_, ?_, .inr ⟨rfl, by decide, by decide⟩⟩
  · exact decodesTo_still (by decide +kernel) (by decide +kernel) (by decide +kernel) (by decide +kernel)
  · intro j hj
    obtain rfl : j = 0 := by omega
    exact ⟨decodesTo_still (by decide +kernel) (by decide +kernel) (by decide +kernel) (by decide +kernel), by decide⟩

/-- An order symbol of 8, the least that is out of range. -/
theorem witness_ActnsRaisesTnsdata_order : ∃ (s : State) (c : Nat → Coder),
    Open s ∧ 0x10000 ≤ s.coder.range.toNat ∧
      DecodesTo (wideEnv.rom.model (wideEnv.rom.nspec + s.frm.lowRate.toNat)) s s.coder 8 (c 0) := by
  refine ⟨{ openState with coder := { low := 4194048, range := 0xFFFFFF, cur := 3 } },
    fun _ => { low := 0, range := 524256, cur := 3 }, ⟨rfl, rfl⟩, by decide, ?_⟩
  exact decodesTo_still (by decide +kernel) (by decide +kernel) (by decide +kernel) (by decide +kernel)

/-- Order 1 and a coefficient symbol of 17, the least that is out of range. -/
theorem witness_ActnsRaisesTnsdata_index : ∃ (s : State) (v : Nat → Nat) (c : Nat → Coder),
    Open s ∧ 0x10000 ≤ s.coder.range.toNat ∧
      DecodesTo (wideEnv.rom.model (wideEnv.rom.nspec + s.frm.lowRate.toNat)) s s.coder 0 (c 0) ∧
      (∀ j, j ≤ 0 →
        DecodesTo (wideEnv.rom.model (wideEnv.rom.nspec + 2 + 8 * s.frm.lowRate.toNat + j)) s (c j) (v j) (c (j + 1))) ∧
      16 < v 0 := by
  refine ⟨{ openState with coder := { low := 278000, range := 0xFFFFFF, cur := 3 } }, fun _ => 17,
    fun j => if j = 0 then { low := 278000, range := 524256, cur := 3 }
      else { low := 0x001000, range := 0x3FE000, cur := 4 }, ⟨rfl, rfl⟩, by decide, ?_, ?_, by decide⟩
  · exact decodesTo_still (by decide +kernel) (by decide +kernel) (by decide +kernel) (by decide +kernel)
  · intro j hj
    obtain rfl : j = 0 := by omega
    refine ⟨by decide +kernel, by decide +kernel, ?_, 1, by omega, fun _ => by decide +kernel, by decide +kernel,
      by decide +kernel, by decide +kernel, by decide +kernel⟩
    exact ⟨by decide +kernel, by decide +kernel, by decide +kernel⟩

/-- The coder after `i` escapes from a full range. -/
def escapeCoder (low : BitVec 24) : Nat → Coder
  | 0 => { low := low, range := 0xFFFFFF, cur := 3 }
  | i + 1 => acNarrow escapeModel 16 (escapeCoder low i)

/-- The open state before those escapes. -/
def escapeState (low : BitVec 24) : State := { openState with coder := escapeCoder low 0 }

/-- An escape without renormalisation, as a check. -/
def escapesStill (c c' : Coder) : Bool :=
  decide (c.low < c.range) && decide (c.low.toNat / (c.range.toNat / 1024) < 1024) &&
    decide (16 < escapeModel.nsym ∧ escapeModel.cumfreq 16 ≤ c.low.toNat / (c.range.toNat / 1024) ∧
      c.low.toNat / (c.range.toNat / 1024) < escapeModel.cumfreq 16 + escapeModel.symfreq 16) &&
    decide (0x10000 ≤ c'.range.toNat ∧ c'.range.toNat = c.range.toNat / 1024 * escapeModel.symfreq 16 ∧
      c'.low.toNat = c.low.toNat - c.range.toNat / 1024 * escapeModel.cumfreq 16 ∧ c'.cur = c.cur)

theorem escapes_of_check {low : BitVec 24} {lev : Nat}
    (h : (List.range lev).all (fun i => escapesStill (escapeCoder low i) (escapeCoder low (i + 1))) = true) :
    Escapes wideEnv.rom (escapeState low) lev (escapeCoder low) := by
  refine ⟨rfl, fun i hi => ?_⟩
  have hm : levelModel wideEnv.rom (escapeState low) i = escapeModel := rfl
  rw [hm]
  have hi' := List.all_eq_true.mp h i (List.mem_range.mpr hi)
  simp only [escapesStill, Bool.and_eq_true, decide_eq_true_eq] at hi'
  exact decodesTo_still hi'.1.1.1 hi'.1.1.2 hi'.1.2 hi'.2

/-- Fourteen escapes in a row. -/
theorem witness_AcpairBoundsEscapeLevels : ∃ (s : State) (c : Nat → Coder),
    wideEnv.Wf ∧ Open s ∧ s.frm.specK.toNat % 2 = 0 ∧ s.frm.specK.toNat + 2 ≤ s.cfg.ne.toNat ∧
      0x10000 ≤ s.coder.range.toNat ∧ Escapes wideEnv.rom s 14 c :=
  ⟨escapeState 8000000, escapeCoder 8000000, wideEnv_wf, ⟨rfl, rfl⟩, by decide, by decide, by decide,
    escapes_of_check (by decide +kernel)⟩

/-- A pair whose step raises after one escape, and after thirteen. -/
theorem witness_EarlyEventsWriteOnlyTheFlag_pair :
    (∃ (s : State) (c : Nat → Coder), wideEnv.Wf ∧ Open s ∧ 0x10000 ≤ s.coder.range.toNat ∧ s.frm.specK.toNat % 2 = 0 ∧
      s.frm.specK.toNat + 2 ≤ s.cfg.ne.toNat ∧ Escapes wideEnv.rom s 1 c ∧ RaisesAt (c 1) .acslice) ∧
    ∃ (s : State) (c : Nat → Coder), wideEnv.Wf ∧ Open s ∧ 0x10000 ≤ s.coder.range.toNat ∧ s.frm.specK.toNat % 2 = 0 ∧
      s.frm.specK.toNat + 2 ≤ s.cfg.ne.toNat ∧ Escapes wideEnv.rom s 13 c ∧ RaisesAt (c 13) .acslice :=
  ⟨⟨escapeState 16776178, escapeCoder 16776178, wideEnv_wf, ⟨rfl, rfl⟩, by decide, by decide, by decide,
      escapes_of_check (by decide +kernel), .inr ⟨rfl, by decide +kernel, by decide +kernel⟩⟩,
    ⟨escapeState 16769600, escapeCoder 16769600, wideEnv_wf, ⟨rfl, rfl⟩, by decide, by decide, by decide,
      escapes_of_check (by decide +kernel), .inr ⟨rfl, by decide +kernel, by decide +kernel⟩⟩⟩

/-- Every symbol of every model is decoded by some code value of a full range. -/
theorem decodesTo_symbol {env : Env} (he : env.Wf) {m : Nat} (hm : m < env.rom.nspec + 18) (s : State) {sym : Nat}
    (hsym : sym < (env.rom.model m).nsym) {cur : BitVec 16} :
    ∃ low c', DecodesTo (env.rom.model m) s { low := low, range := 0xFFFFFF, cur := cur } sym c' := by
  have hok := wf_modelOk he hm
  have htop := hok.top_le hsym
  have hpos := hok.freq_pos sym hsym
  have hlow : (BitVec.ofNat 24 (16383 * (env.rom.model m).cumfreq sym)).toNat = 16383 * (env.rom.model m).cumfreq sym := by
    rw [BitVec.toNat_ofNat, Nat.mod_eq_of_lt (by omega)]
  have hrange : (0xFFFFFF : BitVec 24).toNat = 16777215 := rfl
  have hslice : 16383 * (env.rom.model m).cumfreq sym / (16777215 / 1024) = (env.rom.model m).cumfreq sym := by omega
  obtain ⟨sym', c', _, hd, _⟩ := acStep_ok he hm
    (s := { s with coder := { low := BitVec.ofNat 24 (16383 * (env.rom.model m).cumfreq sym), range := 0xFFFFFF, cur := cur } })
    (show 0x10000 ≤ (0xFFFFFF : BitVec 24).toNat by decide) (by rw [BitVec.lt_def, hlow, hrange]; omega) (by simp only [hlow, hrange, hslice]; omega)
  refine ⟨BitVec.ofNat 24 (16383 * (env.rom.model m).cumfreq sym), c', ?_⟩
  have h3 := hd.2.2.1
  simp only [hlow, hrange, hslice] at h3
  have : sym' = sym := hok.symbol_unique h3 ⟨hsym, le_refl _, by omega⟩
  rw [this] at hd
  exact hd.congr rfl rfl

/-- The model of the first decode step of a pair in the open state. -/
theorem levelModel_open (s : State) (lev : Nat) :
    ∃ m, m < Config.env.rom.nspec ∧ levelModel Config.env.rom s lev = Config.env.rom.model m :=
  ⟨_, wf_specLookup_lt Config.env_wf (i := tableIndex s + 1024 * min lev 3)
    (by have := tableIndex_lt s; omega), rfl⟩

/-- A pair of level 0 and symbol 5: both values 1, two sign bits. -/
theorem witness_AcpairDecodesAPair : ∃ (s : State) (c : Nat → Coder),
    Open s ∧ Memory.wf 1024 s.x = true ∧ s.frm.specK.toNat % 2 = 0 ∧ s.frm.specK.toNat + 2 ≤ s.cfg.ne.toNat ∧
      0x10000 ≤ s.coder.range.toNat ∧ 3 ≤ s.coder.cur.toNat ∧ Escapes Config.env.rom s 0 c ∧
      DecodesTo (levelModel Config.env.rom s 0) s (c 0) 5 (c 1) ∧
      (pairTailBits s 0 5 : Int) ≤ bitsLeft { s with coder := c 1 } := by
  obtain ⟨m, hm, he⟩ := levelModel_open openState 0
  have hn := wf_spectral_nsym Config.env_wf hm
  obtain ⟨low, c', hd⟩ := decodesTo_symbol Config.env_wf (m := m) (by omega) openState (sym := 5) (by omega) (cur := 3)
  refine ⟨{ openState with coder := { low := low, range := 0xFFFFFF, cur := 3 } },
    fun i => if i = 0 then { low := low, range := 0xFFFFFF, cur := 3 } else c', ⟨rfl, rfl⟩, rfl, rfl,
    (show 2 ≤ (2 : BitVec 10).toNat by decide), (show 0x10000 ≤ (0xFFFFFF : BitVec 24).toNat by decide),
    (show 3 ≤ (3 : BitVec 16).toNat by decide), ⟨rfl, fun i hi => absurd hi (Nat.not_lt_zero i)⟩, ?_, ?_⟩
  · change DecodesTo (levelModel Config.env.rom openState 0) _ _ _ _
    rw [he]
    exact hd.congr rfl rfl
  · have hc : c'.cur.toNat ≤ 5 := by
      obtain ⟨_, _, _, k, hk, _, _, _, _, h5⟩ := hd
      have : (3 : BitVec 16).toNat = 3 := rfl
      simp only [this] at h5
      omega
    have h1 : pairTailBits { openState with coder := { low := low, range := 0xFFFFFF, cur := 3 } } 0 5 = 2 :=
      (by decide : pairTailBits openState 0 5 = 2)
    have h2 : brPos openState = 0 := by decide
    have h3 : (20 : BitVec 9).toNat = 20 := rfl
    rw [h1]
    change (2 : Int) ≤ 8 * ((20 : BitVec 9).toNat : Int) - brPos openState - 8 * ((c'.cur.toNat : Int) - 3)
    omega

/-- No tail bit left and the coder one byte on: a zero pair collides. -/
theorem witness_AcpairCollisionKeepsThePair : ∃ (s : State) (c : Nat → Coder),
    Open s ∧ Memory.wf 1024 s.x = true ∧ s.frm.specK.toNat % 2 = 0 ∧ s.frm.specK.toNat + 2 ≤ s.cfg.ne.toNat ∧
      0x10000 ≤ s.coder.range.toNat ∧ 0 ≤ s.frm.lsbMode.toNat ∧ Escapes Config.env.rom s 0 c ∧
      DecodesTo (levelModel Config.env.rom s 0) s (c 0) 0 (c 1) ∧ bitsLeft { s with coder := c 1 } < 0 := by
  obtain ⟨m, hm, he⟩ := levelModel_open openState 0
  obtain ⟨c', hd, _, _⟩ := decodesTo_zero Config.env_wf (m := m) (by omega) (s := openState)
    (c := { low := 0, range := 0xFFFFFF, cur := 4 }) rfl (by decide) rfl
  refine ⟨{ openState with coder := { low := 0, range := 0xFFFFFF, cur := 4 }, reader := { cur := 0, cache := 0, cnt := 0 } },
    fun i => if i = 0 then { low := 0, range := 0xFFFFFF, cur := 4 } else c', ⟨rfl, rfl⟩, rfl, rfl, by decide, by decide,
    by decide, ⟨rfl, fun i hi => absurd hi (Nat.not_lt_zero i)⟩, ?_, ?_⟩
  · change DecodesTo (levelModel Config.env.rom openState 0) _ _ _ _
    rw [he]
    exact hd.congr rfl rfl
  · have hc : 4 ≤ c'.cur.toNat := by
      obtain ⟨_, _, _, k, hk, _, _, _, _, h5⟩ := hd
      have : (4 : BitVec 16).toNat = 4 := rfl
      simp only [this] at h5
      omega
    have h2 : brPos { openState with reader := { cur := 0, cache := 0, cnt := 0 } } = 160 := by decide
    have h3 : (20 : BitVec 9).toNat = 20 := rfl
    change 8 * ((20 : BitVec 9).toNat : Int) - brPos { openState with reader := { cur := 0, cache := 0, cnt := 0 } } -
      8 * ((c'.cur.toNat : Int) - 3) < 0
    omega

/-- A pair with one sign bit to read and no tail bit left. -/
theorem witness_AcpairOverrunDropsThePair : ∃ (s : State) (c : Nat → Coder),
    Open s ∧ s.frm.specK.toNat % 2 = 0 ∧ s.frm.specK.toNat + 2 ≤ s.cfg.ne.toNat ∧ 0x10000 ≤ s.coder.range.toNat ∧
      3 ≤ s.coder.cur.toNat ∧ Escapes Config.env.rom s 0 c ∧
      DecodesTo (levelModel Config.env.rom s 0) s (c 0) 1 (c 1) ∧ 0 < pairTailBits s 0 1 ∧
      bitsLeft { s with coder := c 1 } < pairTailBits s 0 1 := by
  obtain ⟨m, hm, he⟩ := levelModel_open openState 0
  have hn := wf_spectral_nsym Config.env_wf hm
  obtain ⟨low, c', hd⟩ := decodesTo_symbol Config.env_wf (m := m) (by omega) openState (sym := 1) (by omega) (cur := 3)
  refine ⟨{ openState with coder := { low := low, range := 0xFFFFFF, cur := 3 }, reader := { cur := 0, cache := 0, cnt := 0 } },
    fun i => if i = 0 then { low := low, range := 0xFFFFFF, cur := 3 } else c', ⟨rfl, rfl⟩, rfl,
    (show 2 ≤ (2 : BitVec 10).toNat by decide), (show 0x10000 ≤ (0xFFFFFF : BitVec 24).toNat by decide),
    (show 3 ≤ (3 : BitVec 16).toNat by decide), ⟨rfl, fun i hi => absurd hi (Nat.not_lt_zero i)⟩, ?_, ?_, ?_⟩
  · change DecodesTo (levelModel Config.env.rom openState 0) _ _ _ _
    rw [he]
    exact hd.congr rfl rfl
  · exact (by decide : 0 < pairTailBits { openState with reader := { cur := 0, cache := 0, cnt := 0 } } 0 1)
  · have hc : 3 ≤ c'.cur.toNat := hd.front (show 3 ≤ (3 : BitVec 16).toNat by decide)
    have h1 : pairTailBits { openState with
        coder := { low := low, range := 0xFFFFFF, cur := 3 }, reader := { cur := 0, cache := 0, cnt := 0 } } 0 1 = 1 :=
      (by decide : pairTailBits { openState with reader := { cur := 0, cache := 0, cnt := 0 } } 0 1 = 1)
    have h2 : brPos { openState with reader := { cur := 0, cache := 0, cnt := 0 } } = 160 := by decide
    have h3 : (20 : BitVec 9).toNat = 20 := rfl
    rw [h1]
    change 8 * ((20 : BitVec 9).toNat : Int) - brPos { openState with reader := { cur := 0, cache := 0, cnt := 0 } } -
      8 * ((c'.cur.toNat : Int) - 3) < (1 : Nat)
    omega

/-- A pair with two sign bits to read and one tail bit left: the first sign is read, the second is not. -/
theorem witness_AcpairOverrunDropsThePair_secondSign : ∃ (s : State) (c : Nat → Coder),
    Open s ∧ s.frm.specK.toNat % 2 = 0 ∧ s.frm.specK.toNat + 2 ≤ s.cfg.ne.toNat ∧ 0x10000 ≤ s.coder.range.toNat ∧
      3 ≤ s.coder.cur.toNat ∧ Escapes Config.env.rom s 0 c ∧
      DecodesTo (levelModel Config.env.rom s 0) s (c 0) 5 (c 1) ∧ 0 < pairTailBits s 0 5 ∧
      bitsLeft { s with coder := c 1 } < pairTailBits s 0 5 ∧
      pairTailTaken s 0 5 (bitsLeft { s with coder := c 1 }) = 1 := by
  obtain ⟨m, hm, he⟩ := levelModel_open openState 0
  have hn := wf_spectral_nsym Config.env_wf hm
  obtain ⟨low, c', hd⟩ := decodesTo_symbol Config.env_wf (m := m) (by omega) openState (sym := 5) (by omega) (cur := 3)
  obtain ⟨r, hr, hcnt, hcur⟩ : ∃ r : TailReader, r.cur.toNat = c'.cur.toNat - 3 ∧ r.cnt.toNat = 1 ∧ 3 ≤ c'.cur.toNat := by
    obtain ⟨_, _, _, k, hk, _, _, _, _, h5⟩ := hd
    have : (3 : BitVec 16).toNat = 3 := rfl
    simp only [this] at h5
    refine ⟨{ cur := BitVec.ofNat 9 (c'.cur.toNat - 3), cache := 0, cnt := 1 }, ?_, rfl, by omega⟩
    rw [BitVec.toNat_ofNat, Nat.mod_eq_of_lt (by omega)]
  have h1 : ∀ q : TailReader, pairTailBits { openState with
      coder := { low := low, range := 0xFFFFFF, cur := 3 }, reader := q } 0 5 = 2 :=
    fun _ => (by decide : pairTailBits openState 0 5 = 2)
  have h2 : ∀ q : TailReader, pairTailTaken { openState with
      coder := { low := low, range := 0xFFFFFF, cur := 3 }, reader := q } 0 5 1 = 1 :=
    fun _ => (by decide : pairTailTaken openState 0 5 1 = 1)
  have h3 : bitsLeft { openState with coder := c', reader := r } = 1 := by
    have h4 : (20 : BitVec 9).toNat = 20 := rfl
    simp only [bitsLeft, brPos, acFront, openState, h4, hr, hcnt]
    omega
  refine ⟨{ openState with coder := { low := low, range := 0xFFFFFF, cur := 3 }, reader := r },
    fun i => if i = 0 then { low := low, range := 0xFFFFFF, cur := 3 } else c', ⟨rfl, rfl⟩, rfl,
    (show 2 ≤ (2 : BitVec 10).toNat by decide), (show 0x10000 ≤ (0xFFFFFF : BitVec 24).toNat by decide),
    (show 3 ≤ (3 : BitVec 16).toNat by decide), ⟨rfl, fun i hi => absurd hi (Nat.not_lt_zero i)⟩, ?_, ?_, ?_, ?_⟩
  · change DecodesTo (levelModel Config.env.rom openState 0) _ _ _ _
    rw [he]
    exact hd.congr rfl rfl
  · rw [h1]; decide
  · rw [h1]; exact lt_of_eq_of_lt h3 (by decide)
  · exact (congrArg _ h3).trans (h2 r)

/-! #### Spectrum, transform, postfilter -/

/-- Bin 0 of an empty spectrum is a gap; beside a sample that is not zero it is none. -/
theorem witness_NfillFillsTheGaps :
    Open openState ∧ Memory.wf 1024 openState.x = true ∧
      ({ openState with frm := { openState.frm with zero := true } } : State).frm.zero = true ∧
      openState.frm.zero = false ∧ GapAt Config.env.num openState 1 0 ∧
      ¬GapAt Config.env.num { openState with x := [(0, Config.env.num.ofInt 1)] } 1 0 := by
  refine ⟨witness_open, rfl, rfl, rfl, fun _ _ _ => Config.env_wf.num.isZero_zero, fun h => ?_⟩
  have h1 := h 0 (by decide) (by decide)
  exact absurd ((Config.env_wf.num.isZero_ofInt 1 (by decide)).mp h1) (by decide)

theorem witness_GgainScalesAndClears : Open openState ∧ Memory.wf 1024 openState.x = true := ⟨witness_open, rfl⟩

/-- Two filters at the edge of what is admitted: order 8 over the whole spectrum with the largest index, and an empty
sub-range. -/
theorem witness_TnssynRunsTheLattice : ∃ s : State,
    Open s ∧ Memory.wf 1024 s.x = true ∧ 2 ≤ s.frm.ntns.toNat ∧ TnsFilterOk s.cfg.ne.toNat s.frm.tns0 ∧
      TnsFilterOk s.cfg.ne.toNat s.frm.tns1 := by
  refine ⟨withFrm { FrameRegs.reset with
    ntns := 2
    tns0 := { order := 8, rc := Vector.replicate 8 16#5, start := 0, stop := 2 }
    tns1 := { order := 1, rc := Vector.replicate 8 0#5, start := 2, stop := 2 } }, ⟨rfl, rfl⟩, rfl, by decide, ?_, ?_⟩ <;>
  unfold TnsFilterOk <;> decide +kernel

/-- The least and the largest index of a class. -/
theorem witness_DeenumGivesKPulses :
    0 < (mpvqA 1 1 + mpvqA 1 2) / 2 ∧ 774911 < (mpvqA 16 6 + mpvqA 16 7) / 2 ∧
      2390003 < (mpvqA 10 10 + mpvqA 10 11) / 2 := by decide +kernel

theorem witness_PulseEnergyIsPositive :
    pulseIndexBad openState = false ∧
      pulseIndexBad { openState with frm := { openState.frm with snsShape := 3, snsIdxA := 774911 } } = false := by
  decide +kernel

/-- Each shape class at its last gain and its last index. -/
theorem witness_SnssynSetsScaleFactors :
    (∃ (s : State) (y : List Int), Open s ∧ s.frm.snsShape = 0#2 ∧ s.frm.snsGain.toNat < 2 ∧
      s.frm.snsIdxA.toNat < 2390004 ∧ s.frm.snsIdxB.toNat < 6 ∧
      y = deenum 10 10 s.frm.snsLsa s.frm.snsIdxA.toNat ++ deenum 6 1 s.frm.snsLsb s.frm.snsIdxB.toNat) ∧
    (∃ (s : State) (y : List Int), Open s ∧ s.frm.snsShape = 1#2 ∧ s.frm.snsGain.toNat < 4 ∧
      s.frm.snsIdxA.toNat < 2390004 ∧
      y = deenum 10 10 s.frm.snsLsa s.frm.snsIdxA.toNat ++ [0, 0, 0, 0, 0, 0]) ∧
    (∃ (s : State) (y : List Int), Open s ∧ s.frm.snsShape = 2#2 ∧ s.frm.snsGain.toNat < 4 ∧
      s.frm.snsIdxA.toNat < 15158272 ∧ y = deenum 16 8 s.frm.snsLsa s.frm.snsIdxA.toNat) ∧
    ∃ (s : State) (y : List Int), Open s ∧ s.frm.snsShape = 3#2 ∧ s.frm.snsIdxA.toNat < 774912 ∧
      y = deenum 16 6 s.frm.snsLsa s.frm.snsIdxA.toNat :=
  ⟨⟨withFrm { FrameRegs.reset with snsGain := 1, snsIdxA := 2390003, snsIdxB := 5 }, _, ⟨rfl, rfl⟩, rfl, by decide,
      by decide, by decide, rfl⟩,
    ⟨withFrm { FrameRegs.reset with snsShape := 1, snsGain := 3, snsIdxA := 2390003 }, _, ⟨rfl, rfl⟩, rfl, by decide,
      by decide, rfl⟩,
    ⟨withFrm { FrameRegs.reset with snsShape := 2, snsGain := 3, snsIdxA := 15158271 }, _, ⟨rfl, rfl⟩, rfl, by decide,
      by decide, rfl⟩,
    ⟨withFrm { FrameRegs.reset with snsShape := 3, snsGain := 7, snsIdxA := 774911 }, _, ⟨rfl, rfl⟩, rfl, by decide, rfl⟩⟩

theorem witness_SnssynAppliesTheEnvelope : ∃ t : State,
    Open openState ∧ MemoryInv openState ∧ exec .snssyn openState = .next t ∧ t.err = .ok ∧ t.bec = false := by
  refine ⟨snssynBody Config.env openState, witness_open, witness_MemoryInv, ?_, ?_, ?_⟩
  · rw [exec_snssyn, admission_of_open _ rfl witness_open]
  · unfold snssynBody
    rw [if_neg (by decide), if_neg (by decide +kernel)]
    rfl
  · unfold snssynBody
    rw [if_neg (by decide), if_neg (by decide +kernel)]
    rfl

theorem witness_ImdctOverlapsAndAdds : openState.cfglock = true ∧ MemoryInv openState := ⟨rfl, witness_MemoryInv⟩

/-- The largest lag that is admitted: `PINT + LDEN/2 = H`. -/
theorem witness_LtpfAdvancesTheHistory :
    openState.cfglock = true ∧ MemoryInv openState ∧ lagOk openState.cfg openState.frm.ltpf = true ∧
      lagOk openState.cfg { leastLtpf with pint := 6 } = true ∧ lagOk openState.cfg { leastLtpf with pint := 7 } = false :=
  ⟨rfl, witness_MemoryInv, by decide, by decide, by decide⟩

/-- All five transition cases. -/
theorem witness_LtpfSolvesTheFilterEquations :
    openState.cfglock = true ∧ MemoryInv openState ∧ LtpfInv openState ∧
      lagOk openState.cfg openState.frm.ltpf = true ∧ ltpfCase openState = .samePitch ∧
      ltpfCase { openState with ltpfMem := LtpfParams.reset } = .activation ∧
      ltpfCase { openState with frm := FrameRegs.reset } = .deactivation ∧
      ltpfCase { openState with frm := FrameRegs.reset, ltpfMem := LtpfParams.reset } = .inactive ∧
      ltpfCase { openState with ltpfMem := { leastLtpf with pint := 4 } } = .pitchChange :=
  ⟨rfl, witness_MemoryInv, witness_LtpfInv, by decide, by decide, by decide, by decide, by decide, by decide⟩

/-! ### NUM_EXACT -/

/-- The spectrum before the example of R241. -/
noncomputable def exactBins : List ℝ := [1, 0, 3, 0, -3, 2, -1, 0, -5, 5, -5, 5, 7, 7, 7, 7]

/-- The state before the example of R241, over the real numbers. -/
noncomputable def exactGain : Over.State ℝ :=
  { State.cleared with
    cfglock := true
    bec := false
    cfg := { CfgRegs.reset with ne := 16, tscale := 2 }
    x := memFill [] 0 (fun k => exactBins.getD k 0) 16
    frm := { FrameRegs.reset with ggInd := 60, ggOff := 0x3FC, lastnz := 12 } }

/-- R241: "`g = 100/16 * 2 = 25/2`", under NUM_EXACT. -/
theorem test_exact_gain (enc : ℝ → Word) (dec : Word → ℝ) : globalGain (numExact enc dec) exactGain = 25 / 2 := by
  have he : gainExponent exactGain = 28 * 2 := by decide
  have h := numExact_pow10_28 (enc := enc) (dec := dec) 2
  unfold globalGain
  rw [he, h]
  show (10 : ℝ) ^ (2 : Int) * ((mkRat 1 16 : ℚ) : ℝ) * 2 = _
  norm_num [Rat.mkRat_eq_div]

/-- The example of R241: the whole command under NUM_EXACT. -/
theorem test_exact_ggain (enc : ℝ → Word) (dec : Word → ℝ) (rom : Over.Rom ℝ) (k : Nat) (hk : k < 16) :
    memRead (command (recommendedEnv enc dec rom) .ggain exactGain).x k =
      ([25 / 2, 0, 75 / 2, 0, -75 / 2, 25, -25 / 2, 0, -125 / 2, 125 / 2, -125 / 2, 125 / 2, 0, 0, 0, 0] : List ℝ).getD k 0 := by
  have hnil : Memory.wf 16 ([] : Memory ℝ) = true := rfl
  have hwf : Memory.wf 16 exactGain.x = true := Memory.wf_memFill hnil 0 (fun k => exactBins.getD k 0) 16 (le_refl _)
  have hx : memRead exactGain.x k = exactBins.getD k 0 := by
    have h := memRead_memFill hnil 0 (fun k => exactBins.getD k 0) 16 (le_refl _) k
    rwa [if_pos ⟨Nat.zero_le k, by omega⟩, Nat.sub_zero] at h
  have hn : exactGain.cfg.ne.toNat = 16 := rfl
  have hl : min exactGain.frm.lastnz.toNat exactGain.cfg.ne.toNat = 12 := rfl
  have ho : command (recommendedEnv enc dec rom) .ggain exactGain = ggainBody (recommendedEnv enc dec rom) exactGain := by
    simp [command, ggain, admission, Instr.wellFormed, needsConfig, decodeClass, exactGain]
  rw [ho, ggainBody, finish_x, hn, memRead_memFill hwf 0 _ 16 (le_refl _), if_pos ⟨Nat.zero_le k, by omega⟩, gainBin, hl]
  show (if k - 0 < 12 then memRead exactGain.x (k - 0) * globalGain (numExact enc dec) exactGain else (0 : ℝ)) = _
  rw [test_exact_gain, Nat.sub_zero, hx]
  interval_cases k <;> norm_num [exactBins]

/-- The example of R252: `N = 4`, `x = 1, 0, 0, 0` gives `cos((2n+1)*pi/16)`. -/
theorem test_exact_dct4 (i : Nat) (h : i < 4) :
    (exactDct4 4 #v[1, 0, 0, 0])[i] = Real.cos ((2 * i + 1) * Real.pi / 16) := by
  rw [exactDct4_getElem, Fin.sum_univ_four]
  simp
  congr 1
  ring

end Sys2Proof.Tests
end

section
/-! The samples of the state stay values of `S` (R14, R16, R83): closure of the shared operations first, then of each stage of
a command, then of the commands, the HOST port and a step. Every sample that is stored is the result of a field of NUM, a
table entry of ROM, or a sample that stood in the state before. -/

namespace Sys2Proof.Machine

open Sys2Proof

/-! ### Memories -/

/-- A write lists nothing new but its own entry. -/
theorem mem_of_mem_memWrite {V : Type} [Zero V] [DecidableEq V] {m : Memory V} {a : Nat} {v : V} {e : Nat × V}
    (h : e ∈ memWrite m a v) : e = (a, v) ∨ e ∈ m := by
  induction m with
  | nil =>
    rw [memWrite] at h
    split at h
    · exact .inr h
    · exact .inl (List.mem_singleton.mp h)
  | cons d rest ih =>
    obtain ⟨b, u⟩ := d
    rw [memWrite] at h
    split_ifs at h
    · exact .inr h
    · exact List.mem_cons.mp h
    · exact .inr (List.mem_cons_of_mem _ h)
    · exact (List.mem_cons.mp h).imp_right (List.mem_cons_of_mem _)
    · rcases List.mem_cons.mp h with rfl | hr
      · exact .inr List.mem_cons_self
      · exact (ih hr).imp_right (List.mem_cons_of_mem _)

section memory

variable {n : Numerics} {m : Memory Sample}

theorem SamplesIn.memRead (hn : n.Lawful) (h : SamplesIn n m) (a : Nat) : n.isSample (memRead m a) = true := by
  induction m with
  | nil => exact hn.zero_mem
  | cons e rest ih =>
    obtain ⟨hv, hr⟩ := List.forall_mem_cons.mp h
    rw [memRead_cons]
    split
    · exact hv
    · exact ih hr

theorem SamplesIn.memWrite (h : SamplesIn n m) (a : Nat) {v : Sample} (hv : n.isSample v = true) :
    SamplesIn n (memWrite m a v) := by
  intro e he
  rcases mem_of_mem_memWrite he with rfl | hm
  · exact hv
  · exact h e hm

theorem SamplesIn.memFill (h : SamplesIn n m) (lo : Nat) {f : Nat → Sample} (hf : ∀ i, n.isSample (f i) = true) (k : Nat) :
    SamplesIn n (memFill m lo f k) := by
  induction k with
  | zero => exact h
  | succ k ih => exact ih.memWrite (lo + k) (hf k)

end memory

/-! ### Fixed banks and sums -/

theorem isSample_vecAt {n : Numerics} (hn : n.Lawful) {k : Nat} {v : Vector Sample k}
    (h : ∀ i (hi : i < k), n.isSample v[i] = true) (i : Nat) : n.isSample (vecAt v i) = true := by
  by_cases hi : i < k
  · simpa [vecAt, hi] using h i hi
  · rw [vecAt, Vector.getElem?_eq_none (Nat.le_of_not_lt hi)]
    exact hn.zero_mem

theorem isSample_vecAt_ofFn {n : Numerics} (hn : n.Lawful) {k : Nat} {f : Fin k → Sample}
    (h : ∀ i, n.isSample (f i) = true) (i : Nat) : n.isSample (vecAt (Vector.ofFn f) i) = true :=
  isSample_vecAt hn (fun j hj => by simpa using h ⟨j, hj⟩) i

theorem isSample_sumAsc {n : Numerics} (hn : n.Lawful) (f : Nat → Sample) : ∀ k, n.isSample (sumAsc n f k) = true
  | 0 => hn.zero_mem
  | _ + 1 => hn.add_mem _ _

/-! ### The stages that walk the spectrum -/

section spectrum

variable {env : Env} (he : env.num.Lawful)

include he

theorem isSample_gainBin (s : State) (k : Nat) : env.num.isSample (gainBin env.num s k) = true := by
  unfold gainBin
  split
  · exact he.mul_mem _ _
  · exact he.zero_mem

theorem noiseBin_samplesIn (x0 : Memory Sample) (level w stop : Nat) {a : NoiseAcc Sample} (ha : SamplesIn env.num a.x) (k : Nat) :
    SamplesIn env.num (noiseBin env x0 level w stop a k).x := by
  unfold noiseBin
  split
  · refine ha.memWrite k ?_
    split <;> exact he.ofInt_mem _
  · exact ha

theorem noiseFill_samplesIn {s : State} (hx : SamplesIn env.num s.x) : ∀ n, SamplesIn env.num (noiseFill env s n).x
  | 0 => hx
  | n + 1 => noiseBin_samplesIn he _ _ _ _ (noiseFill_samplesIn hx n) _

/-- Every stage of the lattice ends in a difference, so the memory cells need not be looked at. -/
theorem isSample_latticeStages (coef : Nat → Sample) (j : Nat) {t : Sample} (ht : env.num.isSample t = true) (mem : Vector Sample 8) :
    env.num.isSample (latticeStages env.num coef j t mem).1 = true := by
  induction j generalizing t mem with
  | zero => exact ht
  | succ j ih => exact ih (he.sub_mem _ _) _

theorem isSample_latticeBin (coef : Nat → Sample) (k : Nat) (v : Sample) (mem : Vector Sample 8) :
    env.num.isSample (latticeBin env.num coef k v mem).1 = true :=
  isSample_latticeStages he coef (k - 1) (he.sub_mem _ _) mem

theorem latticeRun_samplesIn (coef : Nat → Sample) (k lo : Nat) (mem : Vector Sample 8) {x : Memory Sample}
    (hx : SamplesIn env.num x) : ∀ n, SamplesIn env.num (latticeRun env.num coef k lo mem x n).2
  | 0 => hx
  | n + 1 => (latticeRun_samplesIn coef k lo mem hx n).memWrite _ (isSample_latticeBin he _ _ _ _)

theorem tnsFilterRun_samplesIn {a : TnsAcc Sample} (ha : SamplesIn env.num a.x) (t : TnsFilter) :
    SamplesIn env.num (tnsFilterRun env a t).x := by
  unfold tnsFilterRun
  split
  · exact ha
  · exact latticeRun_samplesIn he _ _ _ _ ha _

theorem tnsRun_samplesIn {s : State} (hx : SamplesIn env.num s.x) : SamplesIn env.num (tnsRun env s).x :=
  List.foldlRecOn (motive := fun a => SamplesIn env.num a.x) (tnsActive s) (tnsFilterRun env) hx
    fun _ ha t _ => tnsFilterRun_samplesIn he ha t

theorem applyBands_samplesIn (bands : Memory (BitVec 10)) (scale : Nat → Sample) {x : Memory Sample} (hx : SamplesIn env.num x) :
    ∀ n, SamplesIn env.num (applyBands env.num bands scale x n)
  | 0 => hx
  | n + 1 => (applyBands_samplesIn bands scale hx n).memFill _ (fun _ => he.mul_mem _ _) _

theorem isSample_scaleFactors (s : State) (i : Nat) : env.num.isSample (vecAt (scaleFactors env s) i) = true :=
  isSample_vecAt_ofFn he (fun _ => he.add_mem _ _) i

/-! ### The transform -/

theorem isSample_overlapAdd (s : State) (u : Vector Sample s.cfg.ns.toNat) (n : Nat) :
    env.num.isSample (overlapAdd env.num s u n) = true := by
  unfold overlapAdd
  split
  · exact he.add_mem _ _
  · exact he.mul_mem _ _

end spectrum

/-! ### The postfilter -/

section postfilter

variable {env : Env} (he : env.num.Lawful) {s : State}

include he

theorem isSample_ltpfIn (hb : SamplesIn env.num s.tblk) (ht : ∀ i, env.num.isSample (vecAt s.xt i) = true) (i : Int) :
    env.num.isSample (ltpfIn env.num s i) = true := by
  unfold ltpfIn
  split_ifs
  · exact hb.memRead he _
  · exact ht _
  · exact he.dec_mem _

/-- A step of the filter appends a sample: one of the input, or a sum or difference. -/
theorem ltpfFade_samples (hin : ∀ i, env.num.isSample (ltpfIn env.num s i) = true) (c : LtpfCase) {a : LtpfAcc Sample}
    (ha : ∀ v ∈ a.y, env.num.isSample v = true) (n : Nat) : ∀ v ∈ (ltpfFade env s c a n).y, env.num.isSample v = true := by
  have append {v : Sample} (hv : env.num.isSample v = true) : ∀ w ∈ a.y ++ [v], env.num.isSample w = true :=
    List.forall_mem_append.mpr ⟨ha, List.forall_mem_singleton.mpr hv⟩
  cases c with
  | inactive => exact append (hin n)
  | activation => exact append (he.sub_mem _ _)
  | deactivation => exact append (he.sub_mem _ _)
  | samePitch => exact append (he.add_mem _ _)
  | pitchChange => exact append (he.sub_mem _ _)

theorem ltpfRest_samples (hin : ∀ i, env.num.isSample (ltpfIn env.num s i) = true) {a : LtpfAcc Sample}
    (ha : ∀ v ∈ a.y, env.num.isSample v = true) (n : Nat) : ∀ v ∈ (ltpfRest env s a n).y, env.num.isSample v = true := by
  refine List.forall_mem_append.mpr ⟨ha, List.forall_mem_singleton.mpr ?_⟩
  split
  · exact he.add_mem _ _
  · exact hin n

theorem ltpfRun_samples (hin : ∀ i, env.num.isSample (ltpfIn env.num s i) = true) (n : Nat) :
    ∀ v ∈ (ltpfRun env s n).y, env.num.isSample v = true := by
  induction n with
  | zero => exact nofun
  | succ n ih =>
    rw [ltpfRun]
    split
    · exact ltpfFade_samples he hin _ ih n
    · exact ltpfRest_samples he hin ih n

theorem isSample_historyAfter (hy : SamplesIn env.num s.yh) {y : List Sample} (h : ∀ v ∈ y, env.num.isSample v = true) (i : Nat) :
    env.num.isSample (historyAfter s y i) = true := by
  unfold historyAfter
  dsimp only
  split
  · exact hy.memRead he _
  · rw [List.getD_eq_getElem?_getD]
    cases hg : y[s.cfg.ns.toNat + i - histLen s.cfg]? with
    | none => exact he.zero_mem
    | some v => exact h v (List.mem_of_getElem? hg)

theorem isSample_inputAfter (hb : SamplesIn env.num s.tblk) (ht : ∀ i, env.num.isSample (vecAt s.xt i) = true) (i : Nat) :
    env.num.isSample (inputAfter s i) = true := by
  unfold inputAfter
  dsimp only
  split
  · exact ht _
  · exact hb.memRead he _

end postfilter

/-! ### Everything that leaves the samples alone -/

/-- The samples of a state: all that `SampleInv` speaks of. -/
def samplesOf (s : State) :
    Sample × Memory Sample × Memory Sample × Memory Sample × Memory Sample × Memory Sample × Vector Sample 16 × Vector Sample 10 :=
  (s.cfg.tscale, s.cfg.win, s.x, s.tblk, s.ola, s.yh, s.scf, s.xt)

theorem SampleInv.of_samplesOf_eq {s t : State} (hs : SampleInv s) (h : samplesOf t = samplesOf s) : SampleInv t := by
  simp only [samplesOf, Prod.mk.injEq] at h
  obtain ⟨htscale, hwin, hx, htblk, hola, hyh, hscf, hxt⟩ := h
  exact
    { tscale := htscale ▸ hs.tscale, win := hwin ▸ hs.win, x := hx ▸ hs.x, tblk := htblk ▸ hs.tblk
      ola := hola ▸ hs.ola, yh := hyh ▸ hs.yh, scf := hscf ▸ hs.scf, xt := hxt ▸ hs.xt }

/-- The decode steps, the tail reads and the writes of TNS registers touch no sample. -/
theorem respected_samplesOf (env : Env) : Respected env fun s t => samplesOf t = samplesOf s where
  refl _ := rfl
  trans h h' := h'.trans h
  coder _ _ _ _ _ _ := rfl
  reader _ _ _ _ := rfl
  filter s f t := by unfold setTns; split <;> rfl

theorem readResult_samplesOf {n : Nat} (hn : n ≤ 32) (s : State) : samplesOf (readResult n s) = samplesOf s := by
  have h := (respected_samplesOf Config.env).brRead hn s
  unfold readResult
  cases hr : brRead n s with
  | ok v s' => rw [hr] at h; exact h
  | raised c s' => rw [hr] at h; exact h.1

theorem acdecBody_samplesOf {m : BitVec 8} (hm : m.toNat < Config.env.rom.nspec + 18) (s : State) :
    samplesOf (acdecBody Config.env m s) = samplesOf s := by
  have h := (respected_samplesOf Config.env).acStep hm s
  unfold acdecBody
  cases hr : acStep Config.env m.toNat s with
  | ok v s' => rw [hr] at h; exact h
  | raised c s' => rw [hr] at h; exact h.1

theorem actnsBody_samplesOf (f : BitVec 1) (s : State) : samplesOf (actnsBody Config.env f s) = samplesOf s := by
  have h := (respected_samplesOf Config.env).actnsRun f s
  unfold actnsBody
  cases hr : actnsRun Config.env f s with
  | ok v s' => rw [hr] at h; exact h
  | raised c s' => rw [hr] at h; exact h.1

theorem cfglockBody_samplesOf (s : State) : samplesOf (cfglockBody Config.env s) = samplesOf s := by
  unfold cfglockBody
  split_ifs <;> rfl

theorem rejectWord_samplesOf (e : DecodeError) (s : State) : samplesOf (rejectWord e s) = samplesOf s := by
  cases e <;> rfl

theorem writeStatus_samplesOf (v : Word) (s : State) : samplesOf (writeStatus v s) = samplesOf s := by
  simp [samplesOf]

/-! ### The commands -/

theorem sampleInv_reset : SampleInv State.reset where
  tscale := Config.env_wf.num.zero_mem
  win := nofun
  x := nofun
  tblk := nofun
  ola := nofun
  yh := nofun
  scf i := (congrArg _ (vecAt_replicate 16 i)).trans Config.env_wf.num.zero_mem
  xt i := (congrArg _ (vecAt_replicate 10 i)).trans Config.env_wf.num.zero_mem

section commands

variable {s : State} (hs : SampleInv s)

include hs

/-- A command that is not admitted changes no sample. -/
theorem SampleInv.admission {i : Instr} {body : State → State}
    (h : i.wellFormed Config.env.rom.nspec = true → SampleInv (body s)) : SampleInv (admission Config.env i body s) := by
  rcases admission_outcome Config.env i body s with ⟨_, he⟩ | ⟨_, _, _, he⟩ | ⟨_, _, _, _, he⟩ | ⟨hw, _, _, he⟩ <;> rw [he]
  · exact hs.of_samplesOf_eq rfl
  · exact hs.of_samplesOf_eq rfl
  · exact hs.of_samplesOf_eq rfl
  · exact h hw

theorem SampleInv.finitBody (loss : Bool) (len : BitVec 9) : SampleInv (finitBody loss len s) := by
  unfold Machine.finitBody
  split
  · exact hs.of_samplesOf_eq rfl
  · exact { hs with x := hs.x.memFill 0 (fun _ => Config.env_wf.num.zero_mem) _ }

theorem SampleInv.pairCommit (p : Pair) : SampleInv (pairCommit Config.env p s) :=
  { hs with x := (hs.x.memWrite _ (Config.env_wf.num.ofInt_mem _)).memWrite _ (Config.env_wf.num.ofInt_mem _) }

theorem SampleInv.acpairBody : SampleInv (acpairBody Config.env s) := by
  have h := (respected_samplesOf Config.env).pairDecode (fun _ lev ht => pairModel_lt_all lev ht) s
  unfold Machine.acpairBody
  split
  · exact hs.of_samplesOf_eq rfl
  · cases hr : pairDecode Config.env s with
    | ok p s' =>
      rw [hr] at h
      refine ((hs.of_samplesOf_eq h).pairCommit p).of_samplesOf_eq ?_
      change samplesOf (pairFinish p _) = _
      unfold pairFinish
      split <;> rfl
    | raised c s' => rw [hr] at h; exact hs.of_samplesOf_eq h.1

theorem SampleInv.nfillBody : SampleInv (nfillBody Config.env s) := by
  unfold Machine.nfillBody
  split
  · exact hs.of_samplesOf_eq rfl
  · exact { hs with x := noiseFill_samplesIn Config.env_wf.num hs.x _ }

theorem SampleInv.ggainBody : SampleInv (ggainBody Config.env s) :=
  { hs with x := hs.x.memFill 0 (isSample_gainBin Config.env_wf.num s) _ }

theorem SampleInv.tnssynBody : SampleInv (tnssynBody Config.env s) := by
  unfold Machine.tnssynBody
  split_ifs
  · exact hs.of_samplesOf_eq rfl
  · exact hs.of_samplesOf_eq rfl
  · exact { hs with x := tnsRun_samplesIn Config.env_wf.num hs.x }

theorem SampleInv.snssynBody : SampleInv (snssynBody Config.env s) := by
  unfold Machine.snssynBody
  split_ifs
  · exact hs.of_samplesOf_eq rfl
  · exact hs.of_samplesOf_eq rfl
  · exact
      { hs with
        scf := isSample_scaleFactors Config.env_wf.num s
        x := applyBands_samplesIn Config.env_wf.num _ _ hs.x _ }

theorem SampleInv.imdctBody : SampleInv (imdctBody Config.env s) :=
  { hs with
    tblk := hs.tblk.memFill 0 (isSample_overlapAdd Config.env_wf.num s _) _
    ola := hs.ola.memFill 0 (fun _ => Config.env_wf.num.mul_mem _ _) _ }

theorem SampleInv.ltpfBody : SampleInv (ltpfBody Config.env s) := by
  have hin := isSample_ltpfIn Config.env_wf.num hs.tblk hs.xt
  have hout := ltpfRun_samples Config.env_wf.num hin s.cfg.ns.toNat
  unfold Machine.ltpfBody
  split
  · exact hs.of_samplesOf_eq rfl
  · exact
      { hs with
        yh := hs.yh.memFill 0 (isSample_historyAfter Config.env_wf.num hs.yh hout) _
        xt := isSample_vecAt_ofFn Config.env_wf.num fun i => isSample_inputAfter Config.env_wf.num hs.tblk hs.xt i }

/-- Every command keeps the samples in `S`. -/
theorem SampleInv.exec {i : Instr} {t : State} (h : exec i s = .next t) : SampleInv t := by
  cases i with
  | nop => cases h; exact hs.admission fun _ => hs.of_samplesOf_eq rfl
  | cfglock => cases h; exact hs.admission fun _ => hs.of_samplesOf_eq (cfglockBody_samplesOf s)
  | finit loss len => cases h; exact hs.admission fun _ => hs.finitBody loss len
  | sreset => cases h; exact hs.admission fun _ => sampleInv_reset.of_samplesOf_eq rfl
  | brbit => cases h; exact hs.admission fun _ => hs.of_samplesOf_eq (readResult_samplesOf (by decide) s)
  | bruint n =>
    cases h
    exact hs.admission fun hw => hs.of_samplesOf_eq (readResult_samplesOf (by simpa [Instr.wellFormed] using hw) s)
  | brsync => cases h; exact hs.admission fun _ => hs.of_samplesOf_eq rfl
  | acdec m =>
    cases h
    exact hs.admission fun hw => hs.of_samplesOf_eq (acdecBody_samplesOf (by simpa [Instr.wellFormed] using hw) s)
  | actns f => cases h; exact hs.admission fun _ => hs.of_samplesOf_eq (actnsBody_samplesOf f s)
  | acpair => cases h; exact hs.admission fun _ => hs.acpairBody
  | nfill => cases h; exact hs.admission fun _ => hs.nfillBody
  | ggain => cases h; exact hs.admission fun _ => hs.ggainBody
  | tnssyn => cases h; exact hs.admission fun _ => hs.tnssynBody
  | snssyn => cases h; exact hs.admission fun _ => hs.snssynBody
  | imdct => cases h; exact hs.admission fun _ => hs.imdctBody
  | ltpf => cases h; exact hs.admission fun _ => hs.ltpfBody

/-! ### The HOST port -/

theorem SampleInv.ifUnlocked {c : CfgRegs} (ht : Config.env.num.isSample c.tscale = true)
    (hw : SamplesIn Config.env.num c.win) : SampleInv (ifUnlocked s c) := by
  unfold Machine.ifUnlocked
  split
  · exact hs
  · exact { hs with tscale := ht, win := hw }

/-- What the HOST stores as a sample is an `S.dec` of its word (R83). -/
theorem SampleInv.writePort (p : Port) (v : Word) : SampleInv (writePort Config.env.num p v s) := by
  have hdec := Config.env_wf.num.dec_mem v
  cases p with
  | status => exact hs.of_samplesOf_eq (writeStatus_samplesOf v s)
  | cfg r => cases r with
    | tscale => exact hs.ifUnlocked hdec hs.win
    | _ => exact hs.ifUnlocked hs.tscale hs.win
  | bands i => exact hs.ifUnlocked hs.tscale hs.win
  | win i => exact hs.ifUnlocked hs.tscale (hs.win.memWrite i hdec)
  | x i => exact { hs with x := hs.x.memWrite i hdec }
  | tblk i => exact { hs with tblk := hs.tblk.memWrite i hdec }
  | _ => exact hs.of_samplesOf_eq rfl

end commands

/-! ### A step -/

/-- Settles O59: every way a step can go keeps the samples in `S`. -/
theorem stepsKeepSamplesInS : Obligations.StepsKeepSamplesInS := by
  intro s t hs h
  have hrest (host : List HostOp) (cmd : Word) : SampleInv { s with host := host, cmd := cmd } := hs.of_samplesOf_eq rfl
  rcases step_cases h with
    ⟨_, rfl⟩ | ⟨op, rest, _, ⟨_, rfl⟩ | ⟨_, _, _, _, rfl⟩ | ⟨_, v, p, _, _, _, rfl⟩ | ⟨w, e, _, _, rfl⟩ | ⟨w, i, _, _, hx⟩⟩
  · exact hs
  · exact sampleInv_reset.of_samplesOf_eq rfl
  · exact hs.of_samplesOf_eq rfl
  · exact (hrest rest s.cmd).writePort p v
  · exact hs.of_samplesOf_eq (rejectWord_samplesOf e _)
  · exact (hrest rest w).exec hx

end Sys2Proof.Machine
end

section
/-! The memories stay canonical and a locked configuration valid (R26, R27, R282; log entries 18 and 19): the entries a port
can name and what it takes for a step to keep a property first, then the four sample blocks through the stages of each
command, then the frame buffer and the configuration through everything a command can end with. -/

namespace Sys2Proof.Machine

open Sys2Proof

/-! ### The entries of the windows (R81) -/

/-- The entry a port names lies in its window (R81). -/
def InWindow : Port → Prop
  | .fb i => i < 100
  | .bands i => i < 65
  | .scf i => i < 16
  | .x i => i < 1024
  | .tblk i => i < 1024
  | .out i => i < 1024
  | .ola i => i < 1024
  | .win i => i < 2048
  | _ => True

/-- Every port an answer of the address map names lies in its window. -/
def AnswersInWindow (o : Option Port) : Prop := ∀ p, o = some p → InWindow p

theorem AnswersInWindow.none : AnswersInWindow none := nofun

theorem AnswersInWindow.ite {c : Prop} [Decidable c] {x y : Option Port} (hx : AnswersInWindow x) (hy : AnswersInWindow y) :
    AnswersInWindow (if c then x else y) := by
  split
  · exact hx
  · exact hy

theorem AnswersInWindow.some {p : Port} (h : InWindow p) : AnswersInWindow (some p) := by
  rintro _ ⟨⟩
  exact h

theorem AnswersInWindow.map {R : Type} {o : Option R} {f : R → Port} (h : ∀ r, InWindow (f r)) :
    AnswersInWindow (o.map f) := by
  intro p hp
  obtain ⟨r, _, rfl⟩ := Option.map_eq_some_iff.mp hp
  exact h r

theorem AnswersInWindow.window {n i : Nat} {f : Nat → Port} (h : i < n → InWindow (f i)) :
    AnswersInWindow (window n i f) := by
  intro p hp
  obtain ⟨hi, rfl⟩ := window_some hp
  exact h hi

theorem portOfWord_inWindow (i : Nat) : AnswersInWindow (portOfWord i) := by
  unfold portOfWord
  repeat' with_reducible apply AnswersInWindow.ite
  all_goals with_reducible first
    | exact AnswersInWindow.none
    | refine AnswersInWindow.some ?_
    | refine AnswersInWindow.map fun _ => ?_
    | refine AnswersInWindow.window ?_
  all_goals first
    | exact trivial
    | exact id

theorem portOf_inWindow {a : Nat} {p : Port} (h : portOf a = .ok p) : InWindow p := by
  unfold portOf at h
  split_ifs at h
  split at h
  · next q hq => cases h; exact portOfWord_inWindow _ _ hq
  · cases h

/-! ### What every step keeps -/

/-- A property of states that a step keeps: it does not depend on the HOST's side of the port, holds after reset, and is kept by
a HOST write, by the refusal of a word that is no command, and by every command. -/
theorem step_keeps {I : State → Prop} (hframe : ∀ s cmd host rdata, I s → I { s with cmd := cmd, host := host, rdata := rdata })
    (hreset : I State.reset) (hwrite : ∀ s p v, InWindow p → I s → I (writePort Config.env.num p v s))
    (hreject : ∀ s e, I s → I (rejectWord e s)) (hexec : ∀ s i t, I s → exec i s = .next t → I t) {s t : State} (hs : I s)
    (h : step s = .next t) : I t := by
  rcases step_cases h with
    ⟨_, rfl⟩ | ⟨op, rest, _,
      ⟨_, rfl⟩ | ⟨_, _, _, _, rfl⟩ | ⟨_, v, p, _, hp, _, rfl⟩ | ⟨w, e, _, _, rfl⟩ | ⟨w, i, _, _, hx⟩⟩
  · exact hs
  · exact hframe State.reset 0 rest s.rdata hreset
  · exact hframe s s.cmd rest _ hs
  · exact hwrite _ p v (portOf_inWindow hp) (hframe s s.cmd rest s.rdata hs)
  · exact hreject _ e (hframe s w rest s.rdata hs)
  · exact hexec _ i t (hframe s w rest s.rdata hs) hx

/-! ### The sample blocks -/

/-- The four sample blocks of the frame path are canonical inside their sizes: the part of `MemoryInv` that commands write. -/
structure BlocksWf (s : State) : Prop where
  x : Memory.wf 1024 s.x = true
  tblk : Memory.wf 1024 s.tblk = true
  ola : Memory.wf 1024 s.ola = true
  yh : Memory.wf 8192 s.yh = true

theorem MemoryInv.blocks {s : State} (hs : MemoryInv s) : BlocksWf s := ⟨hs.x, hs.tblk, hs.ola, hs.yh⟩

theorem BlocksWf.of_samplesOf_eq {s t : State} (hs : BlocksWf s) (h : samplesOf t = samplesOf s) : BlocksWf t := by
  simp only [samplesOf, Prod.mk.injEq] at h
  obtain ⟨_, _, hx, htblk, hola, hyh, _, _⟩ := h
  exact { x := hx ▸ hs.x, tblk := htblk ▸ hs.tblk, ola := hola ▸ hs.ola, yh := hyh ▸ hs.yh }

theorem tnsFilterRun_wf {env : Env} {a : TnsAcc Sample} (ha : Memory.wf 1024 a.x = true) (t : TnsFilter) :
    Memory.wf 1024 (tnsFilterRun env a t).x = true := by
  have hstart := t.start.isLt
  have hstop := t.stop.isLt
  unfold tnsFilterRun
  split
  · exact ha
  · exact latticeRun_wf ha _ (by omega)

theorem tnsRun_wf {env : Env} {s : State} (hx : Memory.wf 1024 s.x = true) : Memory.wf 1024 (tnsRun env s).x = true :=
  List.foldlRecOn (motive := fun a => Memory.wf 1024 a.x = true) (tnsActive s) (tnsFilterRun env) hx
    fun _ ha t _ => tnsFilterRun_wf ha t

/-- R24, R37: `NBLK * NS` of a valid configuration is at most `8 * 1023` (log entry 19). -/
theorem histLen_le {p : Params} {c : CfgRegs} (h : cfgValid p c = true) : histLen c ≤ 8192 := by
  have hns := c.ns.isLt
  have hblk : c.ltpfNblk.toNat ≤ 8 := by
    simp only [cfgValid, Bool.and_eq_true, Bool.or_eq_true, beq_iff_eq] at h
    rcases h.1.1.1.1.2 with ((hb | hb) | hb) | hb <;> rw [hb] <;> decide
  calc c.ltpfNblk.toNat * c.ns.toNat ≤ 8 * 1023 := Nat.mul_le_mul hblk (by omega)
    _ ≤ 8192 := by decide

/-- The decode of a pair leaves the samples and `SPEC_K` alone. -/
theorem respected_samplesOf_specK (env : Env) :
    Respected env fun s t => samplesOf t = samplesOf s ∧ t.frm.specK = s.frm.specK where
  refl _ := ⟨rfl, rfl⟩
  trans h h' := ⟨h'.1.trans h.1, h'.2.trans h.2⟩
  coder _ _ _ _ _ _ := ⟨rfl, rfl⟩
  reader _ _ _ _ := ⟨rfl, rfl⟩
  filter s f t := by unfold setTns; split <;> exact ⟨rfl, rfl⟩

section commands

variable {s : State} (hs : BlocksWf s)

include hs

/-- A command that is not admitted writes no block. -/
theorem BlocksWf.admission {i : Instr} {body : State → State}
    (h : i.wellFormed Config.env.rom.nspec = true → (needsConfig i = true → s.cfglock = true) → BlocksWf (body s)) :
    BlocksWf (admission Config.env i body s) := by
  rcases admission_outcome Config.env i body s with
    ⟨_, he⟩ | ⟨_, _, _, he⟩ | ⟨_, _, _, _, he⟩ | ⟨hw, hl, _, he⟩ <;> rw [he]
  · exact hs.of_samplesOf_eq rfl
  · exact hs.of_samplesOf_eq rfl
  · exact hs.of_samplesOf_eq rfl
  · exact h hw hl

theorem BlocksWf.finitBody (loss : Bool) (len : BitVec 9) : BlocksWf (finitBody loss len s) := by
  have hne := s.cfg.ne.isLt
  unfold Machine.finitBody
  split
  · exact hs.of_samplesOf_eq rfl
  · exact { hs with x := Memory.wf_memFill hs.x 0 _ _ (by omega) }

theorem BlocksWf.acpairBody : BlocksWf (acpairBody Config.env s) := by
  have hd := (respected_samplesOf_specK Config.env).pairDecode (fun _ lev ht => pairModel_lt_all lev ht) s
  have hne := s.cfg.ne.isLt
  unfold Machine.acpairBody
  split
  · exact hs.of_samplesOf_eq rfl
  · next hk =>
    cases hr : pairDecode Config.env s with
    | ok p s' =>
      rw [hr] at hd
      obtain ⟨hsame, hspec⟩ := hd
      have hk' : s'.frm.specK.toNat + 2 ≤ s.cfg.ne.toNat := by rw [hspec]; omega
      have hs' := hs.of_samplesOf_eq hsame
      have hx := Memory.wf_memWrite hs'.x (a := s'.frm.specK.toNat) (by omega) (Config.env.num.ofInt p.qa)
      have hcommit : BlocksWf (pairCommit Config.env p s') :=
        { hs' with x := Memory.wf_memWrite hx (by omega) (Config.env.num.ofInt p.qb) }
      refine hcommit.of_samplesOf_eq ?_
      change samplesOf (pairFinish p _) = _
      unfold pairFinish
      split <;> rfl
    | raised c s' => rw [hr] at hd; exact hs.of_samplesOf_eq hd.1.1

theorem BlocksWf.nfillBody : BlocksWf (nfillBody Config.env s) := by
  have hne := s.cfg.ne.isLt
  have hstart := s.cfg.nfstart.isLt
  have hstop : noiseStop s ≤ s.cfg.ne.toNat := Nat.min_le_right _ _
  unfold Machine.nfillBody
  split
  · exact hs.of_samplesOf_eq rfl
  · exact { hs with x := noiseFill_wf hs.x _ (by omega) }

theorem BlocksWf.ggainBody : BlocksWf (ggainBody Config.env s) :=
  have hne := s.cfg.ne.isLt
  { hs with x := Memory.wf_memFill hs.x 0 _ _ (by omega) }

theorem BlocksWf.tnssynBody : BlocksWf (tnssynBody Config.env s) := by
  unfold Machine.tnssynBody
  split_ifs
  · exact hs.of_samplesOf_eq rfl
  · exact hs.of_samplesOf_eq rfl
  · exact { hs with x := tnsRun_wf hs.x }

theorem BlocksWf.snssynBody : BlocksWf (snssynBody Config.env s) := by
  unfold Machine.snssynBody
  split_ifs
  · exact hs.of_samplesOf_eq rfl
  · exact hs.of_samplesOf_eq rfl
  · exact { hs with x := applyBands_wf hs.x _ }

theorem BlocksWf.imdctBody : BlocksWf (imdctBody Config.env s) :=
  have hns := s.cfg.ns.isLt
  { hs with
    tblk := Memory.wf_memFill hs.tblk 0 _ _ (by omega)
    ola := Memory.wf_memFill hs.ola 0 _ _ (by omega) }

theorem BlocksWf.ltpfBody (hv : cfgValid Config.env.param s.cfg = true) : BlocksWf (ltpfBody Config.env s) := by
  have hlen := histLen_le hv
  unfold Machine.ltpfBody
  split
  · exact hs.of_samplesOf_eq rfl
  · exact { hs with yh := Memory.wf_memFill hs.yh 0 _ _ (by omega) }

/-- Every command keeps the blocks canonical; that the history fits its size is the locked configuration's validity. -/
theorem BlocksWf.exec {i : Instr} {t : State} (hv : s.cfglock = true → cfgValid Config.env.param s.cfg = true)
    (h : exec i s = .next t) : BlocksWf t := by
  cases i with
  | nop => cases h; exact hs.admission fun _ _ => hs.of_samplesOf_eq rfl
  | cfglock => cases h; exact hs.admission fun _ _ => hs.of_samplesOf_eq (cfglockBody_samplesOf s)
  | finit loss len => cases h; exact hs.admission fun _ _ => hs.finitBody loss len
  | sreset => cases h; exact hs.admission fun _ _ => ⟨rfl, rfl, rfl, rfl⟩
  | brbit => cases h; exact hs.admission fun _ _ => hs.of_samplesOf_eq (readResult_samplesOf (by decide) s)
  | bruint n =>
    cases h
    exact hs.admission fun hw _ => hs.of_samplesOf_eq (readResult_samplesOf (by simpa [Instr.wellFormed] using hw) s)
  | brsync => cases h; exact hs.admission fun _ _ => hs.of_samplesOf_eq rfl
  | acdec m =>
    cases h
    exact hs.admission fun hw _ => hs.of_samplesOf_eq (acdecBody_samplesOf (by simpa [Instr.wellFormed] using hw) s)
  | actns f => cases h; exact hs.admission fun _ _ => hs.of_samplesOf_eq (actnsBody_samplesOf f s)
  | acpair => cases h; exact hs.admission fun _ _ => hs.acpairBody
  | nfill => cases h; exact hs.admission fun _ _ => hs.nfillBody
  | ggain => cases h; exact hs.admission fun _ _ => hs.ggainBody
  | tnssyn => cases h; exact hs.admission fun _ _ => hs.tnssynBody
  | snssyn => cases h; exact hs.admission fun _ _ => hs.snssynBody
  | imdct => cases h; exact hs.admission fun _ _ => hs.imdctBody
  | ltpf => cases h; exact hs.admission fun _ hl => hs.ltpfBody (hv (hl rfl))

end commands

/-! ### The frame buffer and the configuration -/

/-- The memories that no command but a reset writes are canonical, and a locked configuration is valid: the rest of
`MemoryInv`. -/
structure SetupWf (s : State) : Prop where
  fb : Memory.wf 400 s.fb = true
  bands : Memory.wf 65 s.cfg.bands = true
  win : Memory.wf 2048 s.cfg.win = true
  locked : s.cfglock = true → cfgValid Config.env.param s.cfg = true

theorem MemoryInv.setup {s : State} (hs : MemoryInv s) : SetupWf s := ⟨hs.fb, hs.bands, hs.win, hs.locked⟩

theorem memoryInv_of_parts {s : State} (hb : BlocksWf s) (hu : SetupWf s) : MemoryInv s := { hb, hu with }

theorem memoryInv_reset : MemoryInv State.reset := ⟨rfl, rfl, rfl, rfl, rfl, rfl, rfl, nofun⟩

theorem SetupWf.of_eq {s t : State} (hs : SetupWf s) (hf : t.fb = s.fb) (hc : t.cfg = s.cfg) (hl : t.cfglock = s.cfglock) :
    SetupWf t :=
  ⟨hf ▸ hs.fb, hc ▸ hs.bands, hc ▸ hs.win, by rw [hc, hl]; exact hs.locked⟩

/-- Of all a command can end with, only the lock and the reset touch the configuration; `CFGLOCK` has validated it. -/
theorem SetupWf.ends {i : Instr} {s t : State} (hs : SetupWf s) (h : Ends i s t) : SetupWf t := by
  cases h with
  | failed c _ _ => exact hs.of_eq rfl rfl rfl
  | skipped _ _ _ => exact hs.of_eq rfl rfl rfl
  | locked _ hv => exact { hs with locked := fun _ => hv }
  | started loss len _ _ _ _ => exact hs.of_eq rfl rfl rfl
  | reset _ => exact memoryInv_reset.setup.of_eq rfl rfl rfl
  | done res s' _ hk => exact hs.of_eq hk.fb hk.cfg hk.cfglock
  | raised c res s' _ _ _ hk => exact hs.of_eq hk.fb hk.cfg hk.cfglock

/-! ### The HOST port -/

theorem MemoryInv.of_eq {s t : State} (hs : MemoryInv s) (h : samplesOf t = samplesOf s) (hf : t.fb = s.fb)
    (hc : t.cfg = s.cfg) (hl : t.cfglock = s.cfglock) : MemoryInv t :=
  memoryInv_of_parts (hs.blocks.of_samplesOf_eq h) (hs.setup.of_eq hf hc hl)

/-- The HOST replaces the configuration only while it is unlocked, so its validity is not asked for (R24, R25). -/
theorem MemoryInv.ifUnlocked {s : State} (hs : MemoryInv s) {c : CfgRegs} (hb : Memory.wf 65 c.bands = true)
    (hw : Memory.wf 2048 c.win = true) : MemoryInv (ifUnlocked s c) := by
  unfold Machine.ifUnlocked
  split
  · exact hs
  · next hl => exact { hs with bands := hb, win := hw, locked := fun h => absurd h hl }

theorem MemoryInv.writePort {s : State} (hs : MemoryInv s) {p : Port} (hp : InWindow p) (v : Word) :
    MemoryInv (writePort Config.env.num p v s) := by
  cases p with
  | status => exact hs.of_eq (writeStatus_samplesOf v s) (writeStatus_fb v s) (writeStatus_cfg v s) (writeStatus_cfglock v s)
  | cfg r => cases r <;> exact hs.ifUnlocked hs.bands hs.win
  | bands i => exact hs.ifUnlocked (Memory.wf_memWrite hs.bands hp _) hs.win
  | win i => exact hs.ifUnlocked hs.bands (Memory.wf_memWrite hs.win hp _)
  | fb i =>
    have hi : i < 100 := hp
    exact { hs with fb := Memory.wf_memFill hs.fb _ _ 4 (by omega) }
  | x i => exact { hs with x := Memory.wf_memWrite hs.x hp _ }
  | tblk i => exact { hs with tblk := Memory.wf_memWrite hs.tblk hp _ }
  | _ => exact hs.of_eq rfl rfl rfl rfl

/-! ### A step -/

theorem MemoryInv.rejectWord {s : State} (hs : MemoryInv s) (e : DecodeError) : MemoryInv (rejectWord e s) := by
  cases e <;> exact hs.of_eq rfl rfl rfl rfl

/-- Every command keeps both parts. -/
theorem MemoryInv.exec {s t : State} (hs : MemoryInv s) {i : Instr} (h : exec i s = .next t) : MemoryInv t :=
  memoryInv_of_parts (hs.blocks.exec hs.locked h) (hs.setup.ends (exec_ends h))

/-- Settles O55: a reset, every HOST write and every command keep the memories canonical and a locked configuration valid. -/
theorem stepsKeepMemoriesCanonical : Obligations.StepsKeepMemoriesCanonical := fun _ _ hs h =>
  step_keeps (fun _ _ _ _ hs => hs.of_eq rfl rfl rfl rfl) memoryInv_reset (fun _ _ v hp hs => hs.writePort hp v)
    (fun _ e hs => hs.rejectWord e) (fun _ _ _ hs hx => hs.exec hx) hs h

end Sys2Proof.Machine
end

section
/-! The bitstream registers while `BEC = 0` (R31, R146): the elementary parts of the decode commands keep them consistent, and
so do the commands, the HOST port and a step. -/

namespace Sys2Proof.Machine

open Sys2Proof

/-! ### The parts of a command -/

/-- All of the state that `BitstreamInv` speaks of. -/
def bitstreamOf (s : State) : Bool × Bool × BitVec 9 × BitVec 9 × TailReader × Coder :=
  (s.bec, s.cfglock, s.fbLen, s.cfg.maxbytes, s.reader, s.coder)

theorem BitstreamInv.of_bitstreamOf_eq {s t : State} (hs : BitstreamInv s) (h : bitstreamOf t = bitstreamOf s) :
    BitstreamInv t := by
  simp only [bitstreamOf, Prod.mk.injEq] at h
  obtain ⟨hbec, hlock, hlen, hmax, hreader, hcoder⟩ := h
  intro ht
  obtain ⟨locked, len_ge, len_le, cur_le, cnt_le, consumed, cache_lt, range_ge, front⟩ := hs (hbec ▸ ht)
  rw [← hlock] at locked
  rw [← hlen] at len_ge len_le cur_le consumed
  rw [← hmax] at len_le
  rw [← hreader] at cur_le cnt_le consumed cache_lt
  rw [← hcoder] at range_ge front
  exact ⟨locked, len_ge, len_le, cur_le, cnt_le, consumed, cache_lt, range_ge, front⟩

theorem bitstreamInv_of_bec {s : State} (h : s.bec = true) : BitstreamInv s := fun hb => absurd (h.symm.trans hb) nofun

/-- R168: a decode step leaves the coder renormalised, and the front no earlier. -/
theorem BitstreamOk.acStep {s : State} (hs : BitstreamOk s) {m sym : Nat} {c : Coder} (hm : m < Config.env.rom.nspec + 18)
    (h : acStep Config.env m s = .ok sym { s with coder := c }) : BitstreamOk { s with coder := c } := by
  rcases acStep_outcome Config.env_wf hm hs.range_ge with ⟨_, he⟩ | ⟨_, _, he⟩ | ⟨_, _, _, c', he, hd, _⟩
  · rw [he] at h; cases h
  · rw [he] at h; cases h
  · rw [he] at h
    injection h with _ hstate
    obtain rfl : c' = c := congrArg Over.State.coder hstate
    exact { hs with range_ge := hd.range_ge, front := hd.front hs.front }

/-- R146: a checked read moves the tail reader on inside the frame. -/
theorem BitstreamOk.takeBits {s : State} (hs : BitstreamOk s) {n : Nat} (hn : n ≤ 32) (hb : (n : Int) ≤ bitsLeft s) :
    BitstreamOk { s with reader := (takeBits s.fb s.reader n).2 } := by
  have hle := bitsLeft_le s hs.front
  have hconsumed := hs.consumed
  obtain ⟨_, hcount, hcur, _, hcnt, hcache⟩ := takeBits_spec s.fb s.reader n hn (by omega)
  exact
    { hs with
      cur_le := le_trans hcur hs.cur_le
      cnt_le := hcnt hs.cnt_le
      consumed := by simp only; omega
      cache_lt := hcache hs.cache_lt }

theorem respected_bitstreamInv : Respected Config.env fun s t => BitstreamInv s → BitstreamInv t where
  refl _ := id
  trans h h' := h' ∘ h
  coder _ _ _ _ hm he hs := fun hb => (hs hb).acStep hm he
  reader _ _ hn hb hs := fun hbec => (hs hbec).takeBits hn hb
  filter s f t hs := hs.of_bitstreamOf_eq (by unfold setTns; split <;> rfl)

/-- R141: a frame start puts the registers at the start of a frame of an admitted length. -/
theorem bitstreamOk_startFrame {s : State} {len : BitVec 9} (loss : Bool) (hl : s.cfglock = true) (h20 : 20 ≤ len.toNat)
    (hmax : len.toNat ≤ s.cfg.maxbytes.toNat) : BitstreamOk (startFrame loss len s) where
  locked := hl
  len_ge := h20
  len_le := hmax
  cur_le := le_refl _
  cnt_le := Nat.zero_le _
  consumed := le_refl _
  cache_lt := Nat.one_pos
  range_ge := show 0x10000 ≤ (0xFFFFFF#24).toNat by decide
  front := le_refl 3

section commands

variable {s : State} (hs : BitstreamInv s)

include hs

/-- A command that is not admitted touches neither reader. -/
theorem BitstreamInv.admission {i : Instr} {body : State → State}
    (h : i.wellFormed Config.env.rom.nspec = true → (needsConfig i = true → s.cfglock = true) → BitstreamInv (body s)) :
    BitstreamInv (admission Config.env i body s) := by
  rcases admission_outcome Config.env i body s with
    ⟨_, he⟩ | ⟨_, _, _, he⟩ | ⟨_, _, _, _, he⟩ | ⟨hw, hl, _, he⟩ <;> rw [he]
  · exact hs.of_bitstreamOf_eq rfl
  · exact hs.of_bitstreamOf_eq rfl
  · exact hs.of_bitstreamOf_eq rfl
  · exact h hw hl

/-- R282: while a frame is in progress the configuration is locked already. -/
theorem BitstreamInv.cfglockBody : BitstreamInv (cfglockBody Config.env s) := by
  unfold Machine.cfglockBody
  split_ifs with hl
  · exact hs.of_bitstreamOf_eq rfl
  · exact fun hb => absurd (hs hb).locked hl
  · exact hs.of_bitstreamOf_eq rfl

theorem BitstreamInv.finitBody (hl : s.cfglock = true) (loss : Bool) (len : BitVec 9) :
    BitstreamInv (finitBody loss len s) := by
  unfold Machine.finitBody
  split
  · exact hs.of_bitstreamOf_eq rfl
  · have hstart : BitstreamInv (startFrame loss len s) := fun _ => bitstreamOk_startFrame loss hl (by omega) (by omega)
    exact hstart.of_bitstreamOf_eq rfl

theorem BitstreamInv.readResult {n : Nat} (hn : n ≤ 32) : BitstreamInv (readResult n s) := by
  have h := respected_bitstreamInv.brRead hn s
  unfold Machine.readResult
  cases hr : brRead n s with
  | ok v s' => rw [hr] at h; exact (h hs).of_bitstreamOf_eq rfl
  | raised c s' => exact bitstreamInv_of_bec rfl

theorem BitstreamInv.acdecBody {m : BitVec 8} (hm : m.toNat < Config.env.rom.nspec + 18) :
    BitstreamInv (acdecBody Config.env m s) := by
  have h := respected_bitstreamInv.acStep hm s
  unfold Machine.acdecBody
  cases hr : acStep Config.env m.toNat s with
  | ok v s' => rw [hr] at h; exact (h hs).of_bitstreamOf_eq rfl
  | raised c s' => exact bitstreamInv_of_bec rfl

theorem BitstreamInv.actnsBody (f : BitVec 1) : BitstreamInv (actnsBody Config.env f s) := by
  have h := respected_bitstreamInv.actnsRun f s
  unfold Machine.actnsBody
  cases hr : actnsRun Config.env f s with
  | ok v s' => rw [hr] at h; exact (h hs).of_bitstreamOf_eq rfl
  | raised c s' => exact bitstreamInv_of_bec rfl

theorem BitstreamInv.acpairBody : BitstreamInv (acpairBody Config.env s) := by
  have h := respected_bitstreamInv.pairDecode (fun _ lev ht => pairModel_lt_all lev ht) s
  unfold Machine.acpairBody
  split
  · exact hs.of_bitstreamOf_eq rfl
  · cases hr : pairDecode Config.env s with
    | ok p s' =>
      rw [hr] at h
      change BitstreamInv (pairFinish p (pairCommit Config.env p s'))
      unfold pairFinish
      split
      · exact bitstreamInv_of_bec rfl
      · exact (h hs).of_bitstreamOf_eq rfl
    | raised c s' => exact bitstreamInv_of_bec rfl

/-- Every command keeps the bitstream registers consistent. The synthesis commands leave them alone, so each of the ends of
their bodies is the state before. -/
theorem BitstreamInv.exec {i : Instr} {t : State} (h : exec i s = .next t) : BitstreamInv t := by
  cases i with
  | nop => cases h; exact hs.admission fun _ _ => hs.of_bitstreamOf_eq rfl
  | cfglock => cases h; exact hs.admission fun _ _ => hs.cfglockBody
  | finit loss len => cases h; exact hs.admission fun _ hl => hs.finitBody (hl rfl) loss len
  | sreset => cases h; exact hs.admission fun _ _ => bitstreamInv_of_bec rfl
  | brbit => cases h; exact hs.admission fun _ _ => hs.readResult (by decide)
  | bruint n => cases h; exact hs.admission fun hw _ => hs.readResult (by simpa [Instr.wellFormed] using hw)
  | brsync => cases h; exact hs.admission fun _ _ => hs.of_bitstreamOf_eq rfl
  | acdec m => cases h; exact hs.admission fun hw _ => hs.acdecBody (by simpa [Instr.wellFormed] using hw)
  | actns f => cases h; exact hs.admission fun _ _ => hs.actnsBody f
  | acpair => cases h; exact hs.admission fun _ _ => hs.acpairBody
  | nfill =>
    cases h
    exact hs.admission fun _ _ => hs.of_bitstreamOf_eq (by unfold nfillBody; split <;> rfl)
  | ggain => cases h; exact hs.admission fun _ _ => hs.of_bitstreamOf_eq rfl
  | tnssyn =>
    cases h
    exact hs.admission fun _ _ => hs.of_bitstreamOf_eq (by unfold tnssynBody; split_ifs <;> rfl)
  | snssyn =>
    cases h
    refine hs.admission fun _ _ => ?_
    unfold snssynBody
    split_ifs
    · exact hs.of_bitstreamOf_eq rfl
    · exact bitstreamInv_of_bec rfl
    · exact hs.of_bitstreamOf_eq rfl
  | imdct => cases h; exact hs.admission fun _ _ => hs.of_bitstreamOf_eq rfl
  | ltpf =>
    cases h
    exact hs.admission fun _ _ => hs.of_bitstreamOf_eq (by unfold ltpfBody; split <;> rfl)

/-- The HOST writes no bitstream register (R29); it can set `BEC`, and a configuration only where no frame is in progress. -/
theorem BitstreamInv.writePort (p : Port) (v : Word) : BitstreamInv (writePort Config.env.num p v s) := by
  rcases writePort_outcome Config.env.num p v s with
    he | ⟨_, _, he⟩ | ⟨hl, c, he⟩ | ⟨r, _, he⟩ | ⟨i, _, he⟩ | ⟨i, _, he⟩ | ⟨i, _, he⟩ <;> rw [he]
  · exact hs
  · exact bitstreamInv_of_bec rfl
  · exact fun hb => absurd ((hs hb).locked.symm.trans hl) nofun
  · exact hs.of_bitstreamOf_eq rfl
  · exact hs.of_bitstreamOf_eq rfl
  · exact hs.of_bitstreamOf_eq rfl
  · exact hs.of_bitstreamOf_eq rfl

end commands

theorem BitstreamInv.rejectWord {s : State} (hs : BitstreamInv s) (e : DecodeError) : BitstreamInv (rejectWord e s) := by
  cases e <;> exact hs.of_bitstreamOf_eq rfl

/-- Settles O56: a reset sets `BEC`; every HOST write and every command keep the bitstream registers consistent. -/
theorem stepsKeepTheBitstreamConsistent : Obligations.StepsKeepTheBitstreamConsistent := fun _ _ hs h =>
  step_keeps (fun _ _ _ _ hs => hs.of_bitstreamOf_eq rfl) (bitstreamInv_of_bec rfl) (fun _ p v _ hs => hs.writePort p v)
    (fun _ e hs => hs.rejectWord e) (fun _ _ _ hs hx => hs.exec hx) hs h

end Sys2Proof.Machine
end

section
/-! STATUS stays coherent (R28, R290, R301, R302, R305, R310), and a locked configuration stays as it is (R27): both read off
everything a command can end with. -/

namespace Sys2Proof.Machine

open Sys2Proof

/-! ### STATUS -/

/-- No command raises the cause that stands for no corruption (R301). -/
theorem none_notMem_causesOf (i : Instr) : Cause.none ∉ causesOf i := by cases i <;> simp [causesOf]

theorem statusInv_reset : StatusInv State.reset := ⟨by decide, nofun, fun _ => ⟨rfl, rfl⟩, nofun⟩

section status

variable {s : State} (hs : StatusInv s)

include hs

theorem StatusInv.of_eq {t : State} (hbec : t.bec = s.bec) (hcause : t.cause = s.cause) (hskip : t.skip = s.skip)
    (herr : t.err = s.err) (hres : t.res = s.res) (hl : t.cfglock = s.cfglock) : StatusInv t := by
  obtain ⟨cause, skip, unlocked, nocfg⟩ := hs
  exact ⟨by rwa [hbec, hcause], by rwa [hskip, hbec, herr, hres], by rwa [hl, hbec, hcause], by rwa [herr, hl]⟩

/-- R120, R309: an end that is no skip and keeps the flag, its cause and the lock. -/
theorem StatusInv.ended {t : State} (hbec : t.bec = s.bec) (hcause : t.cause = s.cause) (hl : t.cfglock = s.cfglock)
    (hskip : t.skip = false) (herr : t.err = .nocfg → s.cfglock = false) : StatusInv t where
  cause := by rw [hbec, hcause]; exact hs.cause
  skip h := absurd (hskip.symm.trans h) nofun
  unlocked h := by rw [hbec, hcause]; exact hs.unlocked (hl ▸ h)
  nocfg h := hl.trans (herr h)

/-- R302, R304: the flag set, the first cause kept. -/
theorem StatusInv.setBec {c : Cause} (hc : c ≠ .none) : StatusInv (setBec c s) where
  cause := by
    have hcause := hs.cause
    cases hb : s.bec <;> simp_all
  skip h := ⟨rfl, (hs.skip h).2⟩
  unlocked h := by
    obtain ⟨hb, hcause⟩ := hs.unlocked h
    exact ⟨rfl, by simpa [hb] using hcause⟩
  nocfg := hs.nocfg

theorem StatusInv.ends {i : Instr} {t : State} (h : Ends i s t) : StatusInv t := by
  cases h with
  | failed c _ hn => exact hs.ended rfl rfl rfl rfl hn
  | skipped _ hl hb => exact ⟨hs.cause, fun _ => ⟨hb, rfl, rfl⟩, hs.unlocked, nofun⟩
  | locked _ _ => exact ⟨hs.cause, nofun, nofun, nofun⟩
  | started loss len _ hl _ _ =>
    have hflags : (loss = false) ↔ (if loss then Cause.extloss else Cause.none) = .none := by cases loss <;> simp
    exact ⟨hflags, nofun, fun h => absurd (hl.symm.trans h) nofun, nofun⟩
  | reset _ => exact statusInv_reset.of_eq rfl rfl rfl rfl rfl rfl
  | done res s' _ hk => exact hs.ended hk.bec hk.cause hk.cfglock rfl nofun
  | raised c res s' hc hl hb hk =>
    exact
      { cause := by
          have hne : c ≠ .none := fun he => none_notMem_causesOf i (he ▸ hc)
          simp [hk.bec, hb, hne]
        skip := nofun
        unlocked := fun h => absurd (hl.symm.trans (hk.cfglock.symm.trans h)) nofun
        nocfg := nofun }

theorem StatusInv.rejectWord (e : DecodeError) : StatusInv (rejectWord e s) := by
  cases e <;> exact hs.ended rfl rfl rfl rfl nofun

theorem StatusInv.writePort (p : Port) (v : Word) : StatusInv (writePort Config.env.num p v s) := by
  rcases writePort_outcome Config.env.num p v s with
    he | ⟨_, _, he⟩ | ⟨_, c, he⟩ | ⟨r, _, he⟩ | ⟨i, _, he⟩ | ⟨i, _, he⟩ | ⟨i, _, he⟩ <;> rw [he]
  · exact hs
  · exact hs.setBec nofun
  · exact hs.of_eq rfl rfl rfl rfl rfl rfl
  · exact hs.of_eq rfl rfl rfl rfl rfl rfl
  · exact hs.of_eq rfl rfl rfl rfl rfl rfl
  · exact hs.of_eq rfl rfl rfl rfl rfl rfl
  · exact hs.of_eq rfl rfl rfl rfl rfl rfl

end status

/-- Settles O57: a reset, every HOST write and everything a command can end with keep STATUS coherent. -/
theorem stepsKeepStatusCoherent : Obligations.StepsKeepStatusCoherent := fun _ _ hs h =>
  step_keeps (fun _ _ _ _ hs => hs.of_eq rfl rfl rfl rfl rfl rfl) statusInv_reset (fun _ p v _ hs => hs.writePort p v)
    (fun _ e hs => hs.rejectWord e) (fun _ _ _ hs hx => hs.ends (exec_ends hx)) hs h

/-! ### The lock -/

theorem decodeZ_eq_ok {i j : Instr} {w : Word} (h : decodeZ i w = .ok j) : j = i ∧ w.extractLsb' 0 24 = 0#24 := by
  unfold decodeZ at h
  split at h
  · next hz => cases h; exact ⟨rfl, hz⟩
  · cases h

/-- R283: `SRESET` has one word. -/
theorem word_of_decode_sreset {w : Word} (h : decode w = .ok .sreset) : w = 0x0F000000 := by
  unfold decode at h
  split at h
  case h_4 hop =>
    obtain ⟨_, hz⟩ := decodeZ_eq_ok h
    have hz' := congrArg BitVec.toNat hz
    simp only [BitVec.extractLsb'_toNat, BitVec.toNat_ofNat] at hop hz'
    apply BitVec.eq_of_toNat_eq
    change w.toNat = 0x0F000000
    omega
  all_goals first
    | cases (decodeZ_eq_ok h).1
    | (simp only [decodeL, decodeN, decodeM, decodeF] at h; split at h <;> cases h)
    | cases h

theorem writePort_locked {num : Numerics} (p : Port) (v : Word) {s : State} (hl : s.cfglock = true) :
    (writePort num p v s).cfglock = true ∧ (writePort num p v s).cfg = s.cfg := by
  rcases writePort_outcome num p v s with
    he | ⟨_, _, he⟩ | ⟨hu, _, _⟩ | ⟨r, _, he⟩ | ⟨i, _, he⟩ | ⟨i, _, he⟩ | ⟨i, _, he⟩
  case inr.inr.inl => exact absurd (hl.symm.trans hu) nofun
  all_goals rw [he]; exact ⟨hl, rfl⟩

/-- Of all a command can end with, on a locked state only the reset touches the configuration or its lock. -/
theorem Ends.locked_immutable {i : Instr} {s t : State} (h : Ends i s t) (hl : s.cfglock = true) :
    i = .sreset ∨ t.cfglock = true ∧ t.cfg = s.cfg := by
  cases h with
  | failed _ _ _ => exact .inr ⟨hl, rfl⟩
  | skipped _ _ _ => exact .inr ⟨hl, rfl⟩
  | locked _ _ => exact .inr ⟨rfl, rfl⟩
  | started _ _ _ _ _ _ => exact .inr ⟨hl, rfl⟩
  | reset hi => exact .inl hi
  | done _ _ _ hk => exact .inr ⟨hk.cfglock.trans hl, hk.cfg⟩
  | raised _ _ _ _ _ _ hk => exact .inr ⟨hk.cfglock.trans hl, hk.cfg⟩

/-- Settles O28: on a locked state, a step that is neither reset keeps the lock and the configuration. -/
theorem lockedConfigurationIsImmutable : Obligations.LockedConfigurationIsImmutable := by
  intro s t h hl
  rcases step_cases h with
    ⟨_, rfl⟩ | ⟨op, rest, hop,
      ⟨rfl, _⟩ | ⟨_, _, _, _, rfl⟩ | ⟨_, v, p, _, _, _, rfl⟩ | ⟨w, e, _, _, rfl⟩ | ⟨w, i, rfl, hi, hx⟩⟩
  · exact .inl ⟨hl, rfl⟩
  · exact .inr ⟨rest, .inl hop⟩
  · exact .inl ⟨hl, rfl⟩
  · exact .inl (writePort_locked p v hl)
  · cases e <;> exact .inl ⟨hl, rfl⟩
  · rcases (exec_ends hx).locked_immutable hl with rfl | hkept
    · exact .inr ⟨rest, .inr (by rw [hop, word_of_decode_sreset hi])⟩
    · exact .inl hkept

/-! ### The reset state -/

/-- Settles O60: the reset state is unlocked, with `BEC` set and every memory empty. -/
theorem resetMeetsTheInvariants : Obligations.ResetMeetsTheInvariants :=
  ⟨memoryInv_reset, bitstreamInv_of_bec rfl, statusInv_reset, nofun, sampleInv_reset⟩

end Sys2Proof.Machine
end

section
/-! The HOST port (R81 to R85): which offsets are served, and what one access makes of a state. -/

namespace Sys2Proof.Machine

open Sys2Proof

/-! ### The served offsets (R81, R85) -/

/-- R81: a port inside its window stands at an aligned offset of the address map. -/
theorem mapped_portOffset {p : Port} (h : InWindow p) : portOffset p % 4 = 0 ∧ Mapped (portOffset p) := by
  unfold Mapped
  cases p with
  | cfg r => cases r <;> decide
  | bits r => cases r <;> decide
  | frm r => cases r <;> decide
  | cmd => decide
  | status => decide
  | res => decide
  | ltpfMem => decide
  | _ => simp only [portOffset, InWindow] at *; omega

/-- R81: the words below the windows that are served. -/
theorem portOfWord_register : ∀ i, i < 3 ∨ 4 ≤ i ∧ i < 14 ∨ 16 ≤ i ∧ i < 49 → ∃ p, portOfWord i = some p := by
  have h : ∀ i < 49, i < 3 ∨ 4 ≤ i ∧ i < 14 ∨ 16 ≤ i → (portOfWord i).isSome = true := by decide
  exact fun i hi => Option.isSome_iff_exists.mp (h i (by omega) (by omega))

/-- R81, R85: the served offsets are the aligned ones of the address map. -/
theorem portOf_ok_iff (a : Nat) : (∃ p, portOf a = .ok p) ↔ a % 4 = 0 ∧ Mapped a := by
  constructor
  · rintro ⟨p, hp⟩
    rw [← portOf_offset hp]
    exact mapped_portOffset (portOf_inWindow hp)
  · rintro ⟨h4, hm⟩
    have served {b j : Nat} {p : Port} (hp : portOf (b + 4 * j) = .ok p) (ha : a = b + 4 * j) :
        ∃ p, portOf a = .ok p :=
      ⟨p, ha ▸ hp⟩
    have register (hi : a / 4 < 3 ∨ 4 ≤ a / 4 ∧ a / 4 < 14 ∨ 16 ≤ a / 4 ∧ a / 4 < 49) : ∃ p, portOf a = .ok p := by
      obtain ⟨p, hp⟩ := portOfWord_register _ hi
      exact ⟨p, portOf_of_word hp (by omega) (by omega)⟩
    have blocks (h : 0x1000 ≤ a ∧ a < 0x5000) : ∃ p, portOf a = .ok p := by
      rcases Nat.lt_or_ge a 0x2000 with hx | hx
      · exact served (portOf_x (i := (a - 0x1000) / 4) (by omega)) (by omega)
      rcases Nat.lt_or_ge a 0x3000 with htblk | htblk
      · exact served (portOf_tblk (i := (a - 0x2000) / 4) (by omega)) (by omega)
      rcases Nat.lt_or_ge a 0x4000 with hout | hout
      · exact served (portOf_out (i := (a - 0x3000) / 4) (by omega)) (by omega)
      · exact served (portOf_ola (i := (a - 0x4000) / 4) (by omega)) (by omega)
    rcases hm with h | h | h | h | h | h | h | h
    · exact register (by omega)
    · exact register (by omega)
    · exact register (by omega)
    · exact served (portOf_fb (i := (a - 0x400) / 4) (by omega)) (by omega)
    · exact served (portOf_bands (i := (a - 0x600) / 4) (by omega)) (by omega)
    · exact served (portOf_scf (i := (a - 0x800) / 4) (by omega)) (by omega)
    · exact blocks h
    · exact served (portOf_win (i := (a - 0x6000) / 4) (by omega)) (by omega)

/-- An offset names one port. -/
theorem port_unique {a : Nat} {p q : Port} (hp : portOf a = .ok p) (hq : portOf a = .ok q) : p = q :=
  Except.ok.inj (hp.symm.trans hq)

/-! ### One access -/

section access

variable {s : State} {a : Nat} {rest : List HostOp}

theorem step_of_read {p : Port} (hs : s.host = .read a :: rest) (hp : portOf a = .ok p) :
    step s = .next { s with host := rest, rdata := some (readPort Config.env.num s p) } := by
  simp only [step, nextAccess, hs, hostAccess, hp]
  rfl

theorem step_of_read_refused {r : Refusal} (hs : s.host = .read a :: rest) (hr : portOf a = .error r) :
    step s = .refused r := by
  simp only [step, nextAccess, hs, hostAccess, hr]

/-- R84: a write at an offset other than `CMD`'s. -/
theorem step_of_write {v : Word} {p : Port} (hs : s.host = .write a v :: rest) (hp : portOf a = .ok p) (hc : p ≠ .cmd) :
    step s = .next (writePort Config.env.num p v { s with host := rest }) := by
  simp only [step, nextAccess, hs, hostAccess, hp]

/-- A written port reads `back` and every other one as before: so do the offsets. -/
theorem readPort_after_write {t : State} {b : Nat} {p q : Port} {back : Word} (hq : portOf a = .ok q)
    (hp : portOf b = .ok p) (hself : readPort Config.env.num t q = back)
    (hother : p ≠ q → readPort Config.env.num t p = readPort Config.env.num s p) :
    readPort Config.env.num t p = if b = a then back else readPort Config.env.num s p := by
  have hab := portOf_inj hq hp
  split
  · next hb => rw [hab.mp hb, hself]
  · next hb => exact hother fun he => hb (hab.mpr he)

end access

theorem ifUnlocked_of_unlocked {s : State} (hl : s.cfglock = false) (c : CfgRegs) : ifUnlocked s c = { s with cfg := c } := by
  simp [ifUnlocked, hl]

end Sys2Proof.Machine
end

section
/-! A HOST read (R28 to R30, R32, R37, R81, R83): every register's word by its fields, every sample by its wire form. -/

namespace Sys2Proof.Machine

open Sys2Proof

/-! ### The words of the registers, as numbers -/

theorem ofFields_single (n : Nat) : ofFields [(0, n)] = n := by simp [ofFields]

theorem rcWord_toNat (t : TnsFilter) (h : Nat) : (rcWord t h).toNat = ofFields (rcFields t h) := by
  change BitVec.toNat (w := 3 + 5 + 3 + 5 + 3 + 5 + 3 + 5) (0#3 ++ vecAt t.rc (4 * h + 3) ++ 0#3 ++ vecAt t.rc (4 * h + 2) ++
    0#3 ++ vecAt t.rc (4 * h + 1) ++ 0#3 ++ vecAt t.rc (4 * h)) = _
  simp only [toNat_append_add]
  simp [ofFields, rcFields, List.range_succ]
  omega

theorem frmCtlWord_toNat (f : FrameRegs) : (frmCtlWord f).toNat =
    ofFields [(0, f.lsbMode.toNat), (1, f.rateFlag.toNat), (2, f.lowRate.toNat), (3, f.zero.toNat), (4, f.ntns.toNat)] := by
  change BitVec.toNat (w := 26 + 2 + 1 + 1 + 1 + 1) (0#26 ++ f.ntns ++ BitVec.ofBool f.zero ++ BitVec.ofBool f.lowRate ++
    BitVec.ofBool f.rateFlag ++ BitVec.ofBool f.lsbMode) = _
  simp only [toNat_append_add, BitVec.toNat_ofBool]
  simp [ofFields]
  omega

theorem snsShapeWord_toNat (f : FrameRegs) : (snsShapeWord f).toNat =
    ofFields [(0, f.snsShape.toNat), (4, f.snsGain.toNat), (8, f.snsLsa.toNat), (9, f.snsLsb.toNat)] := by
  change BitVec.toNat (w := 22 + 1 + 1 + 1 + 3 + 2 + 2) (0#22 ++ BitVec.ofBool f.snsLsb ++ BitVec.ofBool f.snsLsa ++ 0#1 ++
    f.snsGain ++ 0#2 ++ f.snsShape) = _
  simp only [toNat_append_add, BitVec.toNat_ofBool]
  simp [ofFields]
  omega

theorem snsIndWord_toNat (f : FrameRegs) : (snsIndWord f).toNat = ofFields [(0, f.snsLf.toNat), (8, f.snsHf.toNat)] := by
  change BitVec.toNat (w := 19 + 5 + 3 + 5) (0#19 ++ f.snsHf ++ 0#3 ++ f.snsLf) = _
  simp only [toNat_append_add]
  simp [ofFields]
  omega

/-! ### The table of registers -/

/-- The register at an offset reads the number of the fields. -/
def ReadsFields (s : State) (e : Nat × List (Nat × Nat)) : Prop :=
  ∃ p, portOf e.1 = .ok p ∧ (readPort Config.env.num s p).toNat = ofFields e.2

theorem ReadsFields.fields {s : State} {a : Nat} {l : List (Nat × Nat)} (p : Port)
    (hr : (readPort Config.env.num s p).toNat = ofFields l) (hp : portOf a = .ok p := by decide) :
    ReadsFields s (a, l) := ⟨p, hp, hr⟩

/-- A register that is one field from bit 0. -/
theorem ReadsFields.field {s : State} {a w : Nat} {v : BitVec w} (p : Port) (hr : readPort Config.env.num s p = zext v)
    (hp : portOf a = .ok p := by decide) (hw : w ≤ 32 := by decide) : ReadsFields s (a, [(0, v.toNat)]) :=
  ⟨p, hp, by rw [hr, zext_toNat v hw, ofFields_single]⟩

/-- A register that is one field of 32 bits. -/
theorem ReadsFields.word {s : State} {a : Nat} {v : Word} (p : Port) (hr : readPort Config.env.num s p = v)
    (hp : portOf a = .ok p := by decide) : ReadsFields s (a, [(0, v.toNat)]) :=
  ⟨p, hp, by rw [hr, ofFields_single]⟩

/-- R24, R28 to R30, R32, R37: every register of the table reads its fields. -/
theorem registers_read (s : State) : ∀ e ∈ registers s, ReadsFields s e := by
  have hleft : (readPort Config.env.num s (.bits .bitsLeft)).toNat = ofFields [(0, (bitsLeft s % 2 ^ 32).toNat)] := by
    rw [ofFields_single]
    exact BitVec.toNat_ofInt (bitsLeft s)
  simp only [registers, List.forall_mem_cons]
  exact
    ⟨.word .cmd rfl, .fields .status (statusWord_toNat s), .word .res rfl,
      .field (.cfg .ns) rfl, .field (.cfg .ne) rfl, .field (.cfg .nz) rfl, .field (.cfg .nb) rfl, .field (.cfg .maxbytes) rfl,
      .field (.cfg .nfstart) rfl, .field (.cfg .nfwidth) rfl, .field (.cfg .ltpfNblk) rfl, .field (.cfg .lden) rfl,
      .field (.bits .fbLen) rfl, .field (.bits .brCur) rfl, .word (.bits .brCache) rfl, .field (.bits .brCnt) rfl,
      .field (.bits .acLow) rfl, .field (.bits .acRange) rfl, .field (.bits .acCur) rfl, .fields (.bits .bitsLeft) hleft,
      .fields (.frm .frmCtl) (frmCtlWord_toNat s.frm), .field (.frm .specK) rfl, .field (.frm .specCtx) rfl,
      .field (.frm .lastnz) rfl, .field (.frm .bwStop) rfl, .field (.frm .nfSeed) rfl, .field (.frm .nfLevel) rfl,
      .field (.frm .ggInd) rfl, .field (.frm .ggOff) rfl, .field (.frm .tnsOrder0) rfl, .field (.frm .tnsOrder1) rfl,
      .fields (.frm .tnsRc0Lo) (rcWord_toNat s.frm.tns0 0), .fields (.frm .tnsRc0Hi) (rcWord_toNat s.frm.tns0 1),
      .fields (.frm .tnsRc1Lo) (rcWord_toNat s.frm.tns1 0), .fields (.frm .tnsRc1Hi) (rcWord_toNat s.frm.tns1 1),
      .field (.frm .tnsStart0) rfl, .field (.frm .tnsStop0) rfl, .field (.frm .tnsStart1) rfl, .field (.frm .tnsStop1) rfl,
      .fields (.frm .snsInd) (snsIndWord_toNat s.frm), .fields (.frm .snsShape) (snsShapeWord_toNat s.frm),
      .field (.frm .snsIdxA) rfl, .field (.frm .snsIdxB) rfl, .fields (.frm .ltpfCtl) (ltpfWord_toNat s.frm.ltpf),
      .fields .ltpfMem (ltpfWord_toNat s.ltpfMem), nofun⟩

/-! ### What stands at an offset -/

theorem standsAt_readPort (s : State) {a : Nat} {p : Port} (hp : portOf a = .ok p) :
    StandsAt s a (readPort Config.env.num s p) where
  register fields hf := by
    obtain ⟨q, hq, hw⟩ := registers_read s _ hf
    rw [port_unique hp hq, hw]
  tscale ha := by
    subst ha
    rw [port_unique hp (q := .cfg .tscale) rfl]
    rfl
  bands b hb ha := by
    rw [port_unique hp (ha ▸ portOf_bands hb)]
    exact zext_toNat _ (by decide)
  scf n hn ha := by rw [port_unique hp (ha ▸ portOf_scf hn)]; rfl
  x k hk ha := by rw [port_unique hp (ha ▸ portOf_x hk)]; rfl
  tblk n hn ha := by rw [port_unique hp (ha ▸ portOf_tblk hn)]; rfl
  outPast n hn ha hns := by
    rw [port_unique hp (ha ▸ portOf_out hn)]
    have hlt : ¬n < s.cfg.ns.toNat := by omega
    simp only [readPort, outRead, outAt, hlt, and_false, if_false]
    rfl
  out n ha hn hblk := by
    have hns := s.cfg.ns.isLt
    rw [port_unique hp (ha ▸ portOf_out (i := n) (by omega))]
    have hne : s.cfg.ltpfNblk ≠ 0#4 := fun h0 => by rw [h0] at hblk; exact absurd hblk (by decide)
    simp only [readPort, outRead, outAt, hne, hn, false_and, if_false, if_true]
  ola n hn ha := by rw [port_unique hp (ha ▸ portOf_ola hn)]; rfl
  win n hn ha := by rw [port_unique hp (ha ▸ portOf_win hn)]; rfl

/-- Settles O8: a served offset is read without effect, and an access outside the map is refused. -/
theorem hostReadHasNoEffect : Obligations.HostReadHasNoEffect := by
  intro s a rest hs
  constructor
  · intro hm
    obtain ⟨p, hp⟩ := (portOf_ok_iff a).mpr hm
    exact ⟨p, hp, standsAt_readPort s hp, step_of_read hs hp⟩
  · intro hm
    cases hr : portOf a with
    | error r => exact ⟨r, step_of_read_refused hs hr⟩
    | ok p => exact absurd ((portOf_ok_iff a).mp ⟨p, hr⟩) hm

end Sys2Proof.Machine
end

section
/-! A HOST write of a frame or configuration register (R24, R25, R32, R33, R84): the word comes back masked to the fields, and
every other register, entry and offset reads as before. -/

namespace Sys2Proof.Machine

open Sys2Proof

/-! ### A word masked to its fields (R24, R32) -/

/-- A field from bit 0 holds the word masked to it. -/
theorem zext_setWidth_eq_and {k : Nat} (v m : Word) (hm : m = BitVec.ofNat 32 (2 ^ k - 1)) :
    zext (v.setWidth k) = v &&& m := by
  subst hm
  apply BitVec.eq_of_getLsbD_eq
  intro i hi
  have hbit : (BitVec.ofNat 32 (2 ^ k - 1)).getLsbD i = decide (i < k) := by
    rw [BitVec.getLsbD_ofNat, Nat.testBit_two_pow_sub_one]
    simp [hi]
  rw [zext, BitVec.getLsbD_setWidth, BitVec.getLsbD_setWidth, BitVec.getLsbD_and, hbit]
  simp [hi, Bool.and_comm]

theorem frmCtlWord_writeFrm (f : FrameRegs) (v : Word) : frmCtlWord (writeFrm f .frmCtl v) = v &&& 0x3F := by
  apply BitVec.eq_of_getLsbD_eq
  intro i hi
  change BitVec.getLsbD (w := 26 + 2 + 1 + 1 + 1 + 1) (0#26 ++ v.extractLsb' 4 2 ++ BitVec.ofBool (v.getLsbD 3) ++
    BitVec.ofBool (v.getLsbD 2) ++ BitVec.ofBool (v.getLsbD 1) ++ BitVec.ofBool (v.getLsbD 0)) i = _
  simp only [BitVec.getLsbD_append, BitVec.getLsbD_extractLsb', BitVec.getLsbD_ofBool, BitVec.getLsbD_zero, BitVec.getLsbD_and]
  interval_cases i <;> simp

theorem snsShapeWord_writeFrm (f : FrameRegs) (v : Word) : snsShapeWord (writeFrm f .snsShape v) = v &&& 0x373 := by
  apply BitVec.eq_of_getLsbD_eq
  intro i hi
  change BitVec.getLsbD (w := 22 + 1 + 1 + 1 + 3 + 2 + 2) (0#22 ++ BitVec.ofBool (v.getLsbD 9) ++ BitVec.ofBool (v.getLsbD 8) ++
    0#1 ++ v.extractLsb' 4 3 ++ 0#2 ++ v.extractLsb' 0 2) i = _
  simp only [BitVec.getLsbD_append, BitVec.getLsbD_extractLsb', BitVec.getLsbD_ofBool, BitVec.getLsbD_zero, BitVec.getLsbD_and]
  interval_cases i <;> simp

theorem snsIndWord_writeFrm (f : FrameRegs) (v : Word) : snsIndWord (writeFrm f .snsInd v) = v &&& 0x1F1F := by
  apply BitVec.eq_of_getLsbD_eq
  intro i hi
  change BitVec.getLsbD (w := 19 + 5 + 3 + 5) (0#19 ++ v.extractLsb' 8 5 ++ 0#3 ++ v.extractLsb' 0 5) i = _
  simp only [BitVec.getLsbD_append, BitVec.getLsbD_extractLsb', BitVec.getLsbD_zero, BitVec.getLsbD_and]
  interval_cases i <;> simp

theorem ltpfWord_ltpfOfWord (v : Word) : ltpfWord (ltpfOfWord v) = v &&& 0x7FFF := by
  apply BitVec.eq_of_getLsbD_eq
  intro i hi
  change BitVec.getLsbD (w := 17 + 10 + 2 + 2 + 1) (0#17 ++ v.extractLsb' 5 10 ++ v.extractLsb' 3 2 ++ v.extractLsb' 1 2 ++
    BitVec.ofBool (v.getLsbD 0)) i = _
  simp only [BitVec.getLsbD_append, BitVec.getLsbD_extractLsb', BitVec.getLsbD_ofBool, BitVec.getLsbD_zero, BitVec.getLsbD_and]
  interval_cases i <;> simp

/-- R32: a write of `LO` or `HI` replaces its four indices and no others. -/
theorem vecAt_setRcWord (t : TnsFilter) {h : Nat} (hh : h < 2) (v : Word) (k : Nat) :
    vecAt (setRcWord t h v).rc k =
      if 4 * h ≤ k ∧ k < 4 * h + 4 then v.extractLsb' (8 * (k - 4 * h)) 5 else vecAt t.rc k := by
  simp only [setRcWord]
  rw [vecAt_setIfInBounds _ _ _ _ (by omega), vecAt_setIfInBounds _ _ _ _ (by omega), vecAt_setIfInBounds _ _ _ _ (by omega),
    vecAt_setIfInBounds _ _ _ _ (by omega)]
  by_cases hk : 4 * h ≤ k ∧ k < 4 * h + 4
  · rw [if_pos hk]
    obtain ⟨j, rfl⟩ : ∃ j, k = 4 * h + j := ⟨k - 4 * h, by omega⟩
    have hj : j < 4 := by omega
    interval_cases j <;> simp
  · rw [if_neg hk, if_neg (by omega), if_neg (by omega), if_neg (by omega), if_neg (by omega)]

theorem rcWord_setRcWord (t : TnsFilter) {h : Nat} (hh : h < 2) (v : Word) :
    rcWord (setRcWord t h v) h = v &&& 0x1F1F1F1F := by
  have cell (j : Nat) (hj : j < 4) : vecAt (setRcWord t h v).rc (4 * h + j) = v.extractLsb' (8 * j) 5 := by
    rw [vecAt_setRcWord t hh, if_pos (by omega), Nat.add_sub_cancel_left]
  have cell0 : vecAt (setRcWord t h v).rc (4 * h) = v.extractLsb' 0 5 := cell 0 (by decide)
  apply BitVec.eq_of_getLsbD_eq
  intro i hi
  unfold rcWord
  rw [cell 3 (by decide), cell 2 (by decide), cell 1 (by decide), cell0]
  change BitVec.getLsbD (w := 3 + 5 + 3 + 5 + 3 + 5 + 3 + 5) (0#3 ++ v.extractLsb' 24 5 ++ 0#3 ++ v.extractLsb' 16 5 ++ 0#3 ++
    v.extractLsb' 8 5 ++ 0#3 ++ v.extractLsb' 0 5) i = _
  simp only [BitVec.getLsbD_append, BitVec.getLsbD_extractLsb', BitVec.getLsbD_zero, BitVec.getLsbD_and]
  interval_cases i <;> simp

theorem rcWord_setRcWord_of_ne (t : TnsFilter) {h g : Nat} (hh : h < 2) (hg : g ≠ h) (v : Word) :
    rcWord (setRcWord t h v) g = rcWord t g := by
  have cell (j : Nat) (hj : j < 4) : vecAt (setRcWord t h v).rc (4 * g + j) = vecAt t.rc (4 * g + j) := by
    rw [vecAt_setRcWord t hh, if_neg (by omega)]
  have cell0 : vecAt (setRcWord t h v).rc (4 * g) = vecAt t.rc (4 * g) := cell 0 (by decide)
  unfold rcWord
  rw [cell 3 (by decide), cell 2 (by decide), cell 1 (by decide), cell0]

/-! ### The frame registers (R32, R33) -/

/-- The frame register at an offset reads the word last written masked to its fields. -/
def TakesFields (r : Nat × Word) : Prop :=
  ∃ q, portOf r.1 = .ok (.frm q) ∧ ∀ (f : FrameRegs) (v : Word), readFrm (writeFrm f q v) q = v &&& r.2

theorem TakesFields.fields {a : Nat} {m : Word} (q : FrmReg)
    (hr : ∀ (f : FrameRegs) (v : Word), readFrm (writeFrm f q v) q = v &&& m)
    (hq : portOf a = .ok (.frm q) := by decide) : TakesFields (a, m) := ⟨q, hq, hr⟩

/-- A register that is one field of `k` bits from bit 0. -/
theorem TakesFields.field {a : Nat} {m : Word} (q : FrmReg) (k : Nat)
    (hr : ∀ (f : FrameRegs) (v : Word), readFrm (writeFrm f q v) q = zext (v.setWidth k))
    (hm : m = BitVec.ofNat 32 (2 ^ k - 1) := by decide) (hq : portOf a = .ok (.frm q) := by decide) : TakesFields (a, m) :=
  ⟨q, hq, fun f v => (hr f v).trans (zext_setWidth_eq_and v m hm)⟩

theorem frameRegisters_takeFields : ∀ r ∈ frameRegisters, TakesFields r := by
  have rc {h : Nat} (hh : h < 2) (t : TnsFilter) (v : Word) := rcWord_setRcWord t hh v
  simp only [frameRegisters, List.forall_mem_cons]
  exact
    ⟨.fields .frmCtl frmCtlWord_writeFrm, .field .specK 10 fun _ _ => rfl, .field .specCtx 8 fun _ _ => rfl,
      .field .lastnz 10 fun _ _ => rfl, .field .bwStop 10 fun _ _ => rfl, .field .nfSeed 16 fun _ _ => rfl,
      .field .nfLevel 3 fun _ _ => rfl, .field .ggInd 8 fun _ _ => rfl, .field .ggOff 10 fun _ _ => rfl,
      .field .tnsOrder0 4 fun _ _ => rfl, .field .tnsOrder1 4 fun _ _ => rfl,
      .fields .tnsRc0Lo fun f => rc (h := 0) (by decide) f.tns0, .fields .tnsRc0Hi fun f => rc (h := 1) (by decide) f.tns0,
      .fields .tnsRc1Lo fun f => rc (h := 0) (by decide) f.tns1, .fields .tnsRc1Hi fun f => rc (h := 1) (by decide) f.tns1,
      .field .tnsStart0 10 fun _ _ => rfl, .field .tnsStop0 10 fun _ _ => rfl, .field .tnsStart1 10 fun _ _ => rfl,
      .field .tnsStop1 10 fun _ _ => rfl, .fields .snsInd snsIndWord_writeFrm, .fields .snsShape snsShapeWord_writeFrm,
      .field .snsIdxA 25 fun _ _ => rfl, .field .snsIdxB 4 fun _ _ => rfl, .fields .ltpfCtl fun _ => ltpfWord_ltpfOfWord, nofun⟩

/-- R32: the coefficient indices of a filter are read through its `LO` and `HI` registers alone. -/
theorem readFrm_rc0 (f : FrameRegs) (rc : Vector (BitVec 5) 8) {q : FrmReg} (hlo : q ≠ .tnsRc0Lo) (hhi : q ≠ .tnsRc0Hi) :
    readFrm { f with tns0 := { f.tns0 with rc := rc } } q = readFrm f q := by
  cases q with
  | tnsRc0Lo => exact absurd rfl hlo
  | tnsRc0Hi => exact absurd rfl hhi
  | _ => rfl

theorem readFrm_rc1 (f : FrameRegs) (rc : Vector (BitVec 5) 8) {q : FrmReg} (hlo : q ≠ .tnsRc1Lo) (hhi : q ≠ .tnsRc1Hi) :
    readFrm { f with tns1 := { f.tns1 with rc := rc } } q = readFrm f q := by
  cases q with
  | tnsRc1Lo => exact absurd rfl hlo
  | tnsRc1Hi => exact absurd rfl hhi
  | _ => rfl

/-- R32: no two frame registers share a field; `LO` and `HI` of a filter share its bank of indices and no index. -/
theorem readFrm_writeFrm_of_ne (f : FrameRegs) {q r : FrmReg} (h : q ≠ r) (v : Word) :
    readFrm (writeFrm f r v) q = readFrm f q := by
  cases r with
  | tnsRc0Lo =>
    by_cases hq : q = .tnsRc0Hi
    · subst hq; exact rcWord_setRcWord_of_ne f.tns0 (by decide) (by decide) v
    · exact readFrm_rc0 f _ h hq
  | tnsRc0Hi =>
    by_cases hq : q = .tnsRc0Lo
    · subst hq; exact rcWord_setRcWord_of_ne f.tns0 (by decide) (by decide) v
    · exact readFrm_rc0 f _ hq h
  | tnsRc1Lo =>
    by_cases hq : q = .tnsRc1Hi
    · subst hq; exact rcWord_setRcWord_of_ne f.tns1 (by decide) (by decide) v
    · exact readFrm_rc1 f _ h hq
  | tnsRc1Hi =>
    by_cases hq : q = .tnsRc1Lo
    · subst hq; exact rcWord_setRcWord_of_ne f.tns1 (by decide) (by decide) v
    · exact readFrm_rc1 f _ hq h
  | _ => cases q <;> first | exact absurd rfl h | rfl

/-- Where the frame registers are not read, replacing them and consuming the HOST's accesses changes no word. -/
theorem readPort_frm_congr {s : State} {f : FrameRegs} {rest : List HostOp} {p : Port}
    (h : ∀ q, p = .frm q → readFrm f q = readFrm s.frm q) :
    readPort Config.env.num { s with host := rest, frm := f } p = readPort Config.env.num s p := by
  cases p with
  | frm q => exact h q rfl
  | _ => rfl

/-- Settles O12: a frame register takes its fields, and no other port depends on them. -/
theorem frameRegistersKeepTheirFields : Obligations.FrameRegistersKeepTheirFields := by
  intro r hr s v rest hs
  obtain ⟨q, hq, hself⟩ := frameRegisters_takeFields r hr
  refine ⟨_, step_of_write hs hq nofun, rfl, fun a p hp => ?_⟩
  refine readPort_after_write hq hp (hself s.frm v) fun hne => readPort_frm_congr fun q' hq' => ?_
  exact readFrm_writeFrm_of_ne s.frm (fun he => hne (hq'.trans (congrArg _ he))) v

/-! ### The configuration (R24, R25) -/

/-- The configuration register at an offset reads the word last written masked to its field, and holds no sample. -/
def TakesCfgField (r : Nat × Word) : Prop :=
  ∃ q, q ≠ .tscale ∧ portOf r.1 = .ok (.cfg q) ∧
    ∀ (n : Numerics) (c : CfgRegs) (v : Word), readCfg n (writeCfg n c q v) q = v &&& r.2

theorem TakesCfgField.field {a : Nat} {m : Word} (q : CfgReg) (k : Nat)
    (hr : ∀ (n : Numerics) (c : CfgRegs) (v : Word), readCfg n (writeCfg n c q v) q = zext (v.setWidth k))
    (hm : m = BitVec.ofNat 32 (2 ^ k - 1) := by decide) (hq : portOf a = .ok (.cfg q) := by decide)
    (ht : q ≠ .tscale := by decide) : TakesCfgField (a, m) :=
  ⟨q, ht, hq, fun n c v => (hr n c v).trans (zext_setWidth_eq_and v m hm)⟩

theorem configRegisters_takeField : ∀ r ∈ configRegisters, TakesCfgField r := by
  simp only [configRegisters, List.forall_mem_cons]
  exact
    ⟨.field .ns 10 fun _ _ _ => rfl, .field .ne 10 fun _ _ _ => rfl, .field .nz 10 fun _ _ _ => rfl, .field .nb 7 fun _ _ _ => rfl,
      .field .maxbytes 9 fun _ _ _ => rfl, .field .nfstart 10 fun _ _ _ => rfl, .field .nfwidth 4 fun _ _ _ => rfl,
      .field .ltpfNblk 4 fun _ _ _ => rfl, .field .lden 4 fun _ _ _ => rfl, nofun⟩

theorem readCfg_writeCfg_of_ne (n : Numerics) (c : CfgRegs) {q r : CfgReg} (h : q ≠ r) (v : Word) :
    readCfg n (writeCfg n c r v) q = readCfg n c q := by
  cases r <;> cases q <;> first | exact absurd rfl h | rfl

theorem writeCfg_bands (n : Numerics) (c : CfgRegs) (r : CfgReg) (v : Word) : (writeCfg n c r v).bands = c.bands := by
  cases r <;> rfl

theorem writeCfg_win (n : Numerics) (c : CfgRegs) (r : CfgReg) (v : Word) : (writeCfg n c r v).win = c.win := by
  cases r <;> rfl

/-- A register that holds no sample is one of the integer fields. -/
theorem writeCfg_eq_of_ne (n : Numerics) (c : CfgRegs) {r : CfgReg} (h : r ≠ .tscale) (v : Word) :
    writeCfg n c r v = { writeCfg n c r v with tscale := c.tscale, bands := c.bands, win := c.win } := by
  cases r with
  | tscale => exact absurd rfl h
  | _ => rfl

/-- R37: `OUT` is a view through `CFG_NS` and `CFG_LTPF_NBLK` and through no other configuration register. -/
theorem outRead_writeCfg (n : Numerics) (s : State) {r : CfgReg} (hns : r ≠ .ns) (hblk : r ≠ .ltpfNblk) (v : Word) (i : Nat) :
    outRead n { s with cfg := writeCfg n s.cfg r v } i = outRead n s i := by
  cases r with
  | ns => exact absurd rfl hns
  | ltpfNblk => exact absurd rfl hblk
  | _ => rfl

/-- Where the configuration is not read, replacing it and consuming the HOST's accesses changes no word. -/
theorem readPort_cfg_congr {s : State} {c : CfgRegs} {rest : List HostOp} {p : Port}
    (hcfg : ∀ q, p = .cfg q → readCfg Config.env.num c q = readCfg Config.env.num s.cfg q)
    (hbands : ∀ i, p = .bands i → memRead c.bands i = memRead s.cfg.bands i)
    (hwin : ∀ i, p = .win i → memRead c.win i = memRead s.cfg.win i)
    (hout : ∀ i, p = .out i → outRead Config.env.num { s with cfg := c } i = outRead Config.env.num s i) :
    readPort Config.env.num { s with host := rest, cfg := c } p = readPort Config.env.num s p := by
  cases p with
  | cfg q => exact hcfg q rfl
  | bands i => exact congrArg zext (hbands i rfl)
  | win i => exact congrArg Config.env.num.enc (hwin i rfl)
  | out i => exact congrArg Config.env.num.enc (hout i rfl)
  | _ => rfl

theorem readsBack_writeCfg {s : State} {a : Nat} {v : Word} {rest : List HostOp} {q : CfgReg} {back : Word}
    (hq : portOf a = .ok (.cfg q)) (hself : readCfg Config.env.num (writeCfg Config.env.num s.cfg q v) q = back) :
    ReadsBack s { s with host := rest, cfg := writeCfg Config.env.num s.cfg q v } a back := by
  intro b p hp hout
  have hne (r : CfgReg) (ho : a ≠ portOffset (.cfg r)) : q ≠ r := fun he => ho (he ▸ (portOf_offset hq).symm)
  refine readPort_after_write hq hp hself fun hpq => readPort_cfg_congr (fun r hr => ?_) (fun i _ => ?_) (fun i _ => ?_) fun i hi => ?_
  · exact readCfg_writeCfg_of_ne _ _ (fun he => hpq (hr.trans (congrArg _ he))) v
  · rw [writeCfg_bands]
  · rw [writeCfg_win]
  · obtain ⟨hns, hblk⟩ := hout ⟨i, hi⟩
    exact outRead_writeCfg _ s (hne .ns hns) (hne .ltpfNblk hblk) v i

section entries

variable {s : State} {a : Nat} {v : Word} {rest : List HostOp}

theorem readsBack_writeBands {b : Nat} (hwf : Memory.wf 65 s.cfg.bands = true) (hb : portOf a = .ok (.bands b)) :
    ReadsBack s { s with host := rest, cfg := { s.cfg with bands := memWrite s.cfg.bands b (v.setWidth 10) } } a (v &&& 0x3FF) := by
  intro o p hp _
  refine readPort_after_write hb hp ?_ fun hne =>
    readPort_cfg_congr (fun q _ => ?_) (fun i hi => ?_) (fun _ _ => rfl) fun _ _ => rfl
  · change zext (memRead (memWrite s.cfg.bands b _) b) = _
    rw [memRead_memWrite hwf, if_pos rfl]
    exact zext_setWidth_eq_and v _ rfl
  · cases q <;> rfl
  · change memRead (memWrite s.cfg.bands b _) i = _
    rw [memRead_memWrite hwf, if_neg fun he => hne (hi.trans (congrArg _ he))]

theorem readsBack_writeWin {n : Nat} (hwf : Memory.wf 2048 s.cfg.win = true) (hn : portOf a = .ok (.win n)) :
    ReadsBack s { s with host := rest, cfg := { s.cfg with win := memWrite s.cfg.win n (Config.env.num.dec v) } } a
      (Config.env.num.enc (Config.env.num.dec v)) := by
  intro o p hp _
  refine readPort_after_write hn hp ?_ fun hne =>
    readPort_cfg_congr (fun q _ => ?_) (fun _ _ => rfl) (fun i hi => ?_) fun _ _ => rfl
  · change Config.env.num.enc (memRead (memWrite s.cfg.win n _) n) = _
    rw [memRead_memWrite hwf, if_pos rfl]
  · cases q <;> rfl
  · change memRead (memWrite s.cfg.win n _) i = _
    rw [memRead_memWrite hwf, if_neg fun he => hne (hi.trans (congrArg _ he))]

end entries

section unlocked

variable {s : State} {a : Nat} {v : Word} {rest : List HostOp} (hl : s.cfglock = false) (hs : s.host = .write a v :: rest)

include hl hs

/-- R24, R84: a write of a register of an unlocked configuration. -/
theorem step_writeCfg {q : CfgReg} (hq : portOf a = .ok (.cfg q)) :
    step s = .next { s with host := rest, cfg := writeCfg Config.env.num s.cfg q v } :=
  (step_of_write hs hq nofun).trans (congrArg _ (ifUnlocked_of_unlocked (s := { s with host := rest }) hl _))

/-- R25, R84: a write of an entry of an unlocked `BANDS`. -/
theorem step_writeBands {b : Nat} (hb : portOf a = .ok (.bands b)) :
    step s = .next { s with host := rest, cfg := { s.cfg with bands := memWrite s.cfg.bands b (v.setWidth 10) } } :=
  (step_of_write hs hb nofun).trans (congrArg _ (ifUnlocked_of_unlocked (s := { s with host := rest }) hl _))

/-- R25, R83, R84: a write of an entry of an unlocked `WIN`. -/
theorem step_writeWin {n : Nat} (hn : portOf a = .ok (.win n)) :
    step s = .next { s with host := rest, cfg := { s.cfg with win := memWrite s.cfg.win n (Config.env.num.dec v) } } :=
  (step_of_write hs hn nofun).trans (congrArg _ (ifUnlocked_of_unlocked (s := { s with host := rest }) hl _))

end unlocked

/-- Settles O13: each kind of configuration offset reads back what it took, and no other offset depends on it, `OUT` apart. -/
theorem configRegistersTakeTheirFields : Obligations.ConfigRegistersTakeTheirFields := by
  intro s v rest hl
  refine ⟨fun r hr hs => ?_, fun hs => ?_, fun b hb hwf hs => ?_, fun n hn hwf hs => ?_⟩
  · obtain ⟨q, ht, hq, hself⟩ := configRegisters_takeField r hr
    exact ⟨_, step_writeCfg hl hs hq, readsBack_writeCfg hq (hself _ _ v),
      congrArg (fun c => ({ s with host := rest, cfg := c } : State)) (writeCfg_eq_of_ne Config.env.num s.cfg ht v)⟩
  · have hq : portOf 0x034 = .ok (.cfg .tscale) := by decide
    exact ⟨_, step_writeCfg hl hs hq, readsBack_writeCfg hq rfl, rfl⟩
  · refine ⟨_, step_writeBands hl hs (portOf_bands hb), readsBack_writeBands hwf (portOf_bands hb), fun i => ?_, rfl⟩
    change (memRead (memWrite s.cfg.bands b _) i).toNat = _
    rw [memRead_memWrite hwf]
    split
    · exact BitVec.toNat_setWidth 10 v
    · rfl
  · exact ⟨_, step_writeWin hl hs (portOf_win hn), readsBack_writeWin hwf (portOf_win hn), memRead_memWrite hwf n _, rfl⟩

end Sys2Proof.Machine
end

section
/-! The address map from the HOST's side (R81, R85): a served access has a next state, every other one is refused, and a write
where nothing can be written is ignored (R24, R25, R27). -/

namespace Sys2Proof.Machine

open Sys2Proof

/-! ### Served and refused accesses (R85) -/

/-- R120, R291: a command word has a next state, whether or not it is a command. -/
theorem runCommand_total (w : Word) (s : State) : ∃ t, runCommand w s = .next t := by
  unfold runCommand
  cases decode w with
  | error e => exact ⟨_, rfl⟩
  | ok i => exact ⟨_, exec_eq_command i s⟩

section access

variable {s : State} {a : Nat} {v : Word} {rest : List HostOp}

theorem step_of_write_cmd (hs : s.host = .write a v :: rest) (hp : portOf a = .ok .cmd) :
    step s = runCommand v { s with host := rest, cmd := v } := by
  simp only [step, nextAccess, hs, hostAccess, hp]

theorem step_of_write_refused {r : Refusal} (hs : s.host = .write a v :: rest) (hr : portOf a = .error r) :
    step s = .refused r := by
  simp only [step, nextAccess, hs, hostAccess, hr]

theorem step_of_write_served {p : Port} (hs : s.host = .write a v :: rest) (hp : portOf a = .ok p) : ∃ t, step s = .next t := by
  by_cases hc : p = .cmd
  · subst hc
    rw [step_of_write_cmd hs hp]
    exact runCommand_total v _
  · exact ⟨_, step_of_write hs hp hc⟩

/-- R85: an access is refused exactly when its offset has no port. -/
theorem step_refused_iff (hs : s.host = .read a :: rest ∨ s.host = .write a v :: rest) :
    (∃ r, step s = .refused r) ↔ ¬∃ p, portOf a = .ok p := by
  constructor
  · rintro ⟨r, hr⟩ ⟨p, hp⟩
    obtain ⟨t, ht⟩ : ∃ t, step s = .next t :=
      hs.elim (fun hread => ⟨_, step_of_read hread hp⟩) fun hwrite => step_of_write_served hwrite hp
    exact nomatch ht.symm.trans hr
  · intro hn
    cases hr : portOf a with
    | error r => exact ⟨r, hs.elim (step_of_read_refused · hr) (step_of_write_refused · hr)⟩
    | ok p => exact absurd ⟨p, hr⟩ hn

end access

/-- Settles O7: the served offsets are those of the map, and a step is refused exactly where no port is. -/
theorem accessesOutsideTheMapAreRefused : Obligations.AccessesOutsideTheMapAreRefused :=
  ⟨portOf_ok_iff, fun _ a _ _ hs => (step_refused_iff hs).trans (not_congr (portOf_ok_iff a))⟩

/-! ### Ignored writes (R24, R25, R27, R81) -/

theorem ifUnlocked_of_locked {s : State} (hl : s.cfglock = true) (c : CfgRegs) : ifUnlocked s c = s := by
  simp [ifUnlocked, hl]

theorem portOffset_cfg (r : CfgReg) : 0x010 ≤ portOffset (.cfg r) ∧ portOffset (.cfg r) < 0x038 := by
  cases r <;> decide

theorem portOffset_bits (r : BitReg) : 0x040 ≤ portOffset (.bits r) ∧ portOffset (.bits r) < 0x060 := by
  cases r <;> decide

theorem portOffset_frm (r : FrmReg) : 0x060 ≤ portOffset (.frm r) ∧ portOffset (.frm r) < 0x0C0 := by
  cases r <;> decide

/-- A port whose content the HOST's writes do not reach: read-only ones, and the configuration's while it is locked. -/
def IgnoresWrites (s : State) : Port → Prop
  | .res | .bits _ | .ltpfMem | .scf _ | .out _ | .ola _ => True
  | .cfg _ | .bands _ | .win _ => s.cfglock = true
  | .cmd | .status | .frm _ | .fb _ | .x _ | .tblk _ => False

theorem writePort_of_ignoresWrites {num : Numerics} {s : State} {p : Port} (h : IgnoresWrites s p) (v : Word) :
    writePort num p v s = s := by
  cases p with
  | res | bits | ltpfMem | scf | out | ola => rfl
  | cfg | bands | win => exact ifUnlocked_of_locked h _
  | cmd | status | frm | fb | x | tblk => exact h.elim

/-- R81: the ports at the read-only offsets are read-only. -/
theorem ignoresWrites_of_readOnly (s : State) {p : Port} (hin : InWindow p)
    (h : portOffset p = 0x008 ∨ 0x040 ≤ portOffset p ∧ portOffset p < 0x060 ∨ portOffset p = 0x0C0 ∨
      0x800 ≤ portOffset p ∧ portOffset p < 0x840 ∨ 0x3000 ≤ portOffset p ∧ portOffset p < 0x5000) : IgnoresWrites s p := by
  cases p with
  | res | bits | ltpfMem | scf | out | ola => trivial
  | cfg r => have := portOffset_cfg r; omega
  | frm r => have := portOffset_frm r; omega
  | cmd | status | fb | bands | x | tblk | win => simp only [portOffset, InWindow] at h hin; omega

/-- R24, R25, R27: the ports at the configuration's offsets are the configuration's. -/
theorem ignoresWrites_of_locked {s : State} (hl : s.cfglock = true) {p : Port} (hin : InWindow p)
    (h : 0x010 ≤ portOffset p ∧ portOffset p < 0x038 ∨ 0x600 ≤ portOffset p ∧ portOffset p < 0x704 ∨ 0x6000 ≤ portOffset p) :
    IgnoresWrites s p := by
  cases p with
  | cfg | bands | win => exact hl
  | bits r => have := portOffset_bits r; omega
  | frm r => have := portOffset_frm r; omega
  | cmd | status | res | ltpfMem | fb | scf | x | tblk | out | ola => simp only [portOffset, InWindow] at h hin; omega

/-- Settles O14: the port at a named offset ignores writes, so the step only consumes the access. -/
theorem ignoredWritesChangeNothing : Obligations.IgnoredWritesChangeNothing := by
  intro s a v rest p hs hp h
  have hin := portOf_inWindow hp
  have hi : IgnoresWrites { s with host := rest } p := by
    rw [← portOf_offset hp] at h
    rcases h with h | h | h | h | h | ⟨hl, h⟩
    case inr.inr.inr.inr.inr => exact ignoresWrites_of_locked hl hin h
    all_goals exact ignoresWrites_of_readOnly _ hin (by omega)
  have hc : p ≠ .cmd := by
    rintro rfl
    exact hi
  rw [step_of_write hs hp hc, writePort_of_ignoresWrites hi]

end Sys2Proof.Machine
end

section
/-! The memory windows of the HOST port: the frame buffer's bytes (R82) and the samples of `X` and `TBLK` (R83). -/

namespace Sys2Proof.Machine

open Sys2Proof

/-! ### The bytes of a word (R82) -/

theorem fbWord_toNat (s : State) (w : Nat) : (fbWord s w).toNat =
    16777216 * (fbByte s (4 * w + 3)).toNat + 65536 * (fbByte s (4 * w + 2)).toNat + 256 * (fbByte s (4 * w + 1)).toNat +
      (fbByte s (4 * w)).toNat := by
  change BitVec.toNat (w := 8 + 8 + 8 + 8)
    (fbByte s (4 * w + 3) ++ fbByte s (4 * w + 2) ++ fbByte s (4 * w + 1) ++ fbByte s (4 * w)) = _
  simp only [toNat_append_add]
  omega

/-- The four bytes of a word of the window, lowest index lowest. -/
theorem extractLsb'_fbWord (s : State) (w : Nat) {j : Nat} (hj : j < 4) :
    (fbWord s w).extractLsb' (8 * j) 8 = fbByte s (4 * w + j) := by
  apply BitVec.eq_of_toNat_eq
  rw [BitVec.extractLsb'_toNat, Nat.shiftRight_eq_div_pow, fbWord_toNat]
  obtain rfl | rfl | rfl | rfl : j = 0 ∨ j = 1 ∨ j = 2 ∨ j = 3 := by omega
  · rw [Nat.add_zero (4 * w)]
    omega
  all_goals omega

/-- A word is its four bytes. -/
theorem word_ext_bytes {u v : Word} (h : ∀ j, j < 4 → u.extractLsb' (8 * j) 8 = v.extractLsb' (8 * j) 8) : u = v := by
  apply BitVec.eq_of_getLsbD_eq
  intro i hi
  have hbit := congrArg (·.getLsbD (i % 8)) (h (i / 8) (by omega))
  simpa [Nat.div_add_mod, Nat.mod_lt] using hbit

/-- R82: the bytes after a write of word `w`: the four of the word, and every other as before. -/
theorem memRead_setFbWord {m : Memory Byte} (hwf : Memory.wf 400 m = true) {w : Nat} (hw : w < 100) (v : Word) (i : Nat) :
    memRead (setFbWord m w v) i =
      if 4 * w ≤ i ∧ i < 4 * w + 4 then v.extractLsb' (8 * (i - 4 * w)) 8 else memRead m i :=
  memRead_memFill hwf (4 * w) (fun j => v.extractLsb' (8 * j) 8) 4 (by omega) i

/-- Settles O10: a word of the window is read byte by byte, and a write replaces its four bytes, which are the word again. -/
theorem frameBufferWindowIsLittleEndian : Obligations.FrameBufferWindowIsLittleEndian := by
  intro w hw
  refine ⟨portOf_fb hw, fun s j hj => extractLsb'_fbWord s w hj, fun s v rest hwf hs => ?_⟩
  refine ⟨_, step_of_write hs (portOf_fb hw) nofun, ?_⟩
  generalize ht : writePort Config.env.num (.fb w) v { s with host := rest } = t
  have hfb (i : Nat) : fbByte t i =
      if 4 * w ≤ i ∧ i < 4 * w + 4 then v.extractLsb' (8 * (i - 4 * w)) 8 else fbByte s i := by
    subst ht
    exact memRead_setFbWord hwf hw v i
  have hnew (j : Nat) (hj : j < 4) : fbByte t (4 * w + j) = v.extractLsb' (8 * j) 8 := by
    rw [hfb, if_pos (by omega), Nat.add_sub_cancel_left]
  refine ⟨hnew, fun i hi => (hfb i).trans (if_neg hi), ?_, ht ▸ rfl⟩
  exact word_ext_bytes fun j hj => (extractLsb'_fbWord t w hj).trans (hnew j hj)

/-! ### The samples of `X` and `TBLK` (R83) -/

/-- R14: a word that is a sample's wire form survives decoding and encoding. -/
theorem enc_dec_of_enc {u : Sample} (hu : Config.env.num.isSample u = true) {v : Word} (hv : v = Config.env.num.enc u) :
    Config.env.num.enc (Config.env.num.dec v) = v := by
  rw [hv, Config.env_wf.num.dec_enc u hu]

/-- R83: what an entry reads that took the sample of a word. -/
theorem enc_memRead_memWrite {n k : Nat} {m : Memory Sample} (hwf : Memory.wf n m = true) (v : Word) :
    Config.env.num.enc (memRead (memWrite m k (Config.env.num.dec v)) k) = Config.env.num.enc (Config.env.num.dec v) := by
  rw [memRead_memWrite hwf, if_pos rfl]

/-- Settles O11: either window stores the sample of the word, by the law of a read after a write. -/
theorem sampleWindowsStoreDecodedWords : Obligations.SampleWindowsStoreDecodedWords := by
  intro s k v rest hk
  constructor
  · intro hwf hs
    have hback := enc_memRead_memWrite (k := k) hwf v
    exact ⟨_, step_of_write hs (portOf_x hk) nofun, memRead_memWrite hwf k _, hback,
      fun u hu hv => hback.trans (enc_dec_of_enc hu hv), rfl⟩
  · intro hwf hs
    have hback := enc_memRead_memWrite (k := k) hwf v
    exact ⟨_, step_of_write hs (portOf_tblk hk) nofun, memRead_memWrite hwf k _, hback,
      fun u hu hv => hback.trans (enc_dec_of_enc hu hv), rfl⟩

end Sys2Proof.Machine
end

section
/-! The tail bits still to come (R30, R86, R146): those in the cache by its agreement with the frame buffer, those below the
cursor by where the cursor stands. -/

namespace Sys2Proof.Machine

open Sys2Proof

/-- R30: `BR_POS` of a reader inside the frame, as a natural number. -/
theorem BitstreamOk.brPos_toNat {s : State} (hs : BitstreamOk s) :
    (brPos s).toNat + s.reader.cnt.toNat = 8 * (s.fbLen.toNat - s.reader.cur.toNat) := by
  have hcur := hs.cur_le
  have hconsumed := hs.consumed
  unfold brPos
  omega

/-- R86: past the cache, the bits to come are the tail bits whose bytes lie below the cursor. -/
theorem pendingBit_of_cnt_le {s : State} (hs : BitstreamOk s) {j : Nat} (hj : s.reader.cnt.toNat ≤ j) :
    pendingBit s j = tailbit s ((brPos s).toNat + j) := by
  have hpos := hs.brPos_toNat
  have hcur := hs.cur_le
  have hbyte : s.reader.cur.toNat - 1 - (j - s.reader.cnt.toNat) / 8 = s.fbLen.toNat - 1 - ((brPos s).toNat + j) / 8 := by
    omega
  have hbit : (j - s.reader.cnt.toNat) % 8 = ((brPos s).toNat + j) % 8 := by omega
  unfold pendingBit readerBit tailbit fbByte
  rw [if_neg (by omega), hbyte, hbit]

/-- Settles O32: the cached bits agree with the frame buffer by hypothesis, the others are read from it. -/
theorem pendingBitsAreTailBits : Obligations.PendingBitsAreTailBits := by
  intro s hs hfresh j _
  rcases Nat.lt_or_ge j s.reader.cnt.toNat with hj | hj
  · exact (if_pos hj).trans (hfresh j hj)
  · exact pendingBit_of_cnt_le hs hj

end Sys2Proof.Machine
end

section
/-! The command words (R111, R112, R118, R119): a word as its fields, the rows of the opcode map, and everything `decode` can
answer. -/

namespace Sys2Proof.Machine

open Sys2Proof Sys2Proof.Laws

/-! ### The fields of a word -/

theorem append_fields {n : Nat} (w : BitVec n) {s t u a b c : Nat} (ht : t = s + c) (hu : u = t + b) :
    w.extractLsb' u a ++ w.extractLsb' t b ++ w.extractLsb' s c = w.extractLsb' s (a + b + c) := by
  rw [BitVec.extractLsb'_append_extractLsb'_eq_extractLsb' hu, BitVec.extractLsb'_append_extractLsb'_eq_extractLsb' ht]

theorem append_all {a b c : Nat} (w : BitVec (a + b + c)) {t u : Nat} (ht : t = c) (hu : u = t + b) :
    w.extractLsb' u a ++ w.extractLsb' t b ++ w.extractLsb' 0 c = w :=
  (append_fields w (ht.trans (Nat.zero_add c).symm) hu).trans BitVec.extractLsb'_eq_self

theorem extractLsb'_middle {a b c : Nat} (x : BitVec a) (y : BitVec b) (z : BitVec c) :
    (x ++ y ++ z).extractLsb' c b = y := by
  rw [BitVec.extractLsb'_append_eq_of_le le_rfl, Nat.sub_self, BitVec.extractLsb'_append_eq_right]

theorem ofBool_getLsbD {n : Nat} (w : BitVec n) (j : Nat) : BitVec.ofBool (w.getLsbD j) = w.extractLsb' j 1 := by
  rw [BitVec.getLsbD_eq_extractLsb']
  rcases BitVec.eq_zero_or_eq_one (w.extractLsb' j 1) with h | h <;> rw [h] <;> rfl

/-- A field that the mask keeps whole. -/
theorem field_of_masked {w m v : Word} (h : w &&& m = v) {start len : Nat} {f : BitVec len}
    (hm : m.extractLsb' start len = BitVec.allOnes len) (hv : v.extractLsb' start len = f) : w.extractLsb' start len = f := by
  rw [← hv, ← h, BitVec.extractLsb'_and, hm, BitVec.and_allOnes]

theorem and_opcodeMask (w : Word) : w &&& 0xFF000000 = w.extractLsb' 24 8 ++ 0#24 := by
  have hword : w.extractLsb' 24 8 ++ w.extractLsb' 0 24 = w := BitVec.extractLsb'_append_extractLsb' (w := 8) (len := 24)
  have hmask : (0xFF000000 : Word) = BitVec.allOnes 8 ++ 0#24 := by decide
  calc w &&& 0xFF000000
      = (w.extractLsb' 24 8 ++ w.extractLsb' 0 24) &&& (BitVec.allOnes 8 ++ 0#24) := by rw [hword, hmask]
    _ = w.extractLsb' 24 8 ++ 0#24 := by rw [BitVec.and_append, BitVec.and_allOnes, BitVec.and_zero]

/-! ### The rows of the opcode map (R118) -/

theorem opcodeMap_mask : ∀ r ∈ opcodeMap, r.2.extractLsb' 24 8 = BitVec.allOnes 8 := by simp [opcodeMap]

theorem opcodeMap_nodup : (opcodeMap.map fun r => r.1.extractLsb' 24 8).Nodup := by decide

theorem opcodeMap_opcodes : (opcodeMap.map fun r => (r.1.extractLsb' 24 8).toNat) =
    [0x00, 0x01, 0x02, 0x0F, 0x10, 0x11, 0x12, 0x20, 0x21, 0x22, 0x30, 0x31, 0x32, 0x33, 0x40, 0x41] := by decide

theorem opcode_of_match {w : Word} {r : Word × Word} (hr : r ∈ opcodeMap) (h : w &&& r.2 = r.1) :
    w.extractLsb' 24 8 = r.1.extractLsb' 24 8 := field_of_masked h (opcodeMap_mask r hr) rfl

/-- A word with the opcode of a row and its reserved bits 0 matches the row. -/
theorem match_of_fields {w m v : Word} {op : BitVec 8} {reserved : Word} (h : w.extractLsb' 24 8 = op ∧ w &&& reserved = 0#32)
    (hm : m = 0xFF000000 ||| reserved) (hv : v = op ++ 0#24) : w &&& m = v := by
  obtain ⟨hop, hreserved⟩ := h
  rw [hm, hv, BitVec.and_or_distrib_left, hreserved, BitVec.or_zero, and_opcodeMask, hop]

/-! ### Decoding -/

/-- What decoding a word with the opcode of row `r` answers: the command whose word it is where the word matches the row,
`BADFIELD` elsewhere. -/
structure DecodesByRow (w : Word) (r : Word × Word) (d : Except DecodeError Instr) : Prop where
  mem : r ∈ opcodeMap
  opcode : w.extractLsb' 24 8 = r.1.extractLsb' 24 8
  answer : (w &&& r.2 = r.1 ∧ ∃ i, d = .ok i ∧ encode i = w) ∨ (w &&& r.2 ≠ r.1 ∧ d = .error .badfield)

section formats

variable {w : Word} {i : Instr} {r : Word × Word}

/-- A format whose check `c` says that the reserved bits are 0. -/
theorem decodesByRow_of_check {c : Prop} [Decidable c] (hr : r ∈ opcodeMap) (hop : w.extractLsb' 24 8 = r.1.extractLsb' 24 8)
    (hcheck : w &&& r.2 = r.1 → c) (hword : c → encode i = w) (hrow : encode i &&& r.2 = r.1) :
    DecodesByRow w r (if c then .ok i else .error .badfield) where
  mem := hr
  opcode := hop
  answer := by
    split
    · next hc => exact .inl ⟨hword hc ▸ hrow, i, rfl, hword hc⟩
    · next hc => exact .inr ⟨mt hcheck hc, rfl⟩

theorem decodeZ_byRow {op : BitVec 8} (hop : w.extractLsb' 24 8 = op) (henc : encode i = encodeZ op)
    (hr : (encodeZ op, 0xFFFFFFFF) ∈ opcodeMap) : DecodesByRow w (encodeZ op, 0xFFFFFFFF) (decodeZ i w) := by
  have hfull : (0xFFFFFFFF : Word) = BitVec.allOnes 32 := by decide
  refine decodesByRow_of_check hr ?_ (fun h => ?_) (fun hz => ?_) ?_
  · exact hop.trans BitVec.extractLsb'_append_eq_left.symm
  · exact field_of_masked (m := 0xFFFFFFFF) h (by decide) BitVec.extractLsb'_append_eq_right
  · rw [henc, encodeZ, ← hop, ← hz]
    exact BitVec.extractLsb'_append_extractLsb' (w := 8) (len := 24)
  · rw [henc, hfull]
    exact BitVec.and_allOnes

theorem decodeL_byRow (hop : w.extractLsb' 24 8 = 0x02#8) :
    DecodesByRow w (0x02000000, 0xFFFEFE00) (decodeL .finit w) := by
  refine decodesByRow_of_check (by decide) hop (fun h => ?_) (fun ⟨hhigh, hlow⟩ => ?_)
    (match_of_fields (op := 0x02) (reserved := 0x00FEFE00) (WordShape.finit _ _) (by decide) (by decide))
  · exact ⟨field_of_masked h (by decide) (by decide), field_of_masked h (by decide) (by decide)⟩
  · have hupper : 0x02#8 ++ 0#7 ++ BitVec.ofBool (w.getLsbD 16) = w.extractLsb' 16 16 := by
      rw [← hop, ← hhigh, ofBool_getLsbD]
      exact append_fields w rfl rfl
    rw [encode, hupper, ← hlow]
    exact append_all (a := 16) (b := 7) (c := 9) w rfl rfl

theorem decodeN_byRow (hop : w.extractLsb' 24 8 = 0x11#8) :
    DecodesByRow w (0x11000000, 0xFFFFFFC0) (decodeN .bruint w) := by
  refine decodesByRow_of_check (by decide) hop (fun h => field_of_masked h (by decide) (by decide)) (fun hz => ?_)
    (match_of_fields (op := 0x11) (reserved := 0x00FFFFC0) (WordShape.bruint _) (by decide) (by decide))
  rw [encode, ← hop, ← hz]
  exact append_all (a := 8) (b := 18) (c := 6) w rfl rfl

theorem decodeM_byRow (hop : w.extractLsb' 24 8 = 0x20#8) :
    DecodesByRow w (0x20000000, 0xFFFFFF00) (decodeM .acdec w) := by
  refine decodesByRow_of_check (by decide) hop (fun h => field_of_masked h (by decide) (by decide)) (fun hz => ?_)
    (match_of_fields (op := 0x20) (reserved := 0x00FFFF00) (WordShape.acdec _) (by decide) (by decide))
  rw [encode, ← hop, ← hz]
  exact append_all (a := 8) (b := 16) (c := 8) w rfl rfl

theorem decodeF_byRow (hop : w.extractLsb' 24 8 = 0x21#8) :
    DecodesByRow w (0x21000000, 0xFFFFFFFE) (decodeF .actns w) := by
  refine decodesByRow_of_check (by decide) hop (fun h => field_of_masked h (by decide) (by decide)) (fun hz => ?_)
    (match_of_fields (op := 0x21) (reserved := 0x00FFFFFE) (WordShape.actns _) (by decide) (by decide))
  rw [encode, ← hop, ← hz]
  exact append_all (a := 8) (b := 23) (c := 1) w rfl rfl

end formats

/-! ### Everything `decode` can answer (R119, R120) -/

/-- A word decodes by the row that holds its opcode, or it is `ILLOP`. -/
theorem decode_outcome (w : Word) :
    (∃ r, DecodesByRow w r (decode w)) ∨
      ((∀ r ∈ opcodeMap, w.extractLsb' 24 8 ≠ r.1.extractLsb' 24 8) ∧ decode w = .error .illop) := by
  unfold decode
  split
  · next h => exact .inl ⟨_, decodeZ_byRow (op := 0x00) (BitVec.eq_of_toNat_eq h) rfl (by decide)⟩
  · next h => exact .inl ⟨_, decodeZ_byRow (op := 0x01) (BitVec.eq_of_toNat_eq h) rfl (by decide)⟩
  · next h => exact .inl ⟨_, decodeL_byRow (BitVec.eq_of_toNat_eq h)⟩
  · next h => exact .inl ⟨_, decodeZ_byRow (op := 0x0F) (BitVec.eq_of_toNat_eq h) rfl (by decide)⟩
  · next h => exact .inl ⟨_, decodeZ_byRow (op := 0x10) (BitVec.eq_of_toNat_eq h) rfl (by decide)⟩
  · next h => exact .inl ⟨_, decodeN_byRow (BitVec.eq_of_toNat_eq h)⟩
  · next h => exact .inl ⟨_, decodeZ_byRow (op := 0x12) (BitVec.eq_of_toNat_eq h) rfl (by decide)⟩
  · next h => exact .inl ⟨_, decodeM_byRow (BitVec.eq_of_toNat_eq h)⟩
  · next h => exact .inl ⟨_, decodeF_byRow (BitVec.eq_of_toNat_eq h)⟩
  · next h => exact .inl ⟨_, decodeZ_byRow (op := 0x22) (BitVec.eq_of_toNat_eq h) rfl (by decide)⟩
  · next h => exact .inl ⟨_, decodeZ_byRow (op := 0x30) (BitVec.eq_of_toNat_eq h) rfl (by decide)⟩
  · next h => exact .inl ⟨_, decodeZ_byRow (op := 0x31) (BitVec.eq_of_toNat_eq h) rfl (by decide)⟩
  · next h => exact .inl ⟨_, decodeZ_byRow (op := 0x32) (BitVec.eq_of_toNat_eq h) rfl (by decide)⟩
  · next h => exact .inl ⟨_, decodeZ_byRow (op := 0x33) (BitVec.eq_of_toNat_eq h) rfl (by decide)⟩
  · next h => exact .inl ⟨_, decodeZ_byRow (op := 0x40) (BitVec.eq_of_toNat_eq h) rfl (by decide)⟩
  · next h => exact .inl ⟨_, decodeZ_byRow (op := 0x41) (BitVec.eq_of_toNat_eq h) rfl (by decide)⟩
  · refine .inr ⟨fun r hr he => ?_, rfl⟩
    have hmem := List.mem_map_of_mem (f := fun q : Word × Word => (q.1.extractLsb' 24 8).toNat) hr
    simp only [opcodeMap_opcodes, ← he, List.mem_cons, List.not_mem_nil, or_false] at hmem
    tauto

/-- Settles O3: a word that is a command decodes by the row it matches, whose answer is the command of that word. -/
theorem commandHasOneWord : Obligations.CommandHasOneWord := by
  intro w i hi
  rcases decode_outcome w with ⟨r, hr⟩ | ⟨_, hillop⟩
  · rcases hr.answer with ⟨_, j, hj, hword⟩ | ⟨_, hbad⟩
    · cases hi.symm.trans hj
      exact hword
    · exact nomatch hi.symm.trans hbad
  · exact nomatch hi.symm.trans hillop

theorem isCommand_iff_matches (w : Word) : (∃ i, decode w = .ok i) ↔ ∃ r ∈ opcodeMap, w &&& r.2 = r.1 := by
  rcases decode_outcome w with ⟨r, hr⟩ | ⟨hnone, hillop⟩
  · rcases hr.answer with ⟨hmatch, i, hi, _⟩ | ⟨hno, hbad⟩
    · exact ⟨fun _ => ⟨r, hr.mem, hmatch⟩, fun _ => ⟨i, hi⟩⟩
    · refine ⟨fun ⟨i, hi⟩ => (nomatch hi.symm.trans hbad), fun ⟨q, hq, hmatch⟩ => ?_⟩
      have hop := (opcode_of_match hq hmatch).symm.trans hr.opcode
      obtain rfl : q = r := List.inj_on_of_nodup_map opcodeMap_nodup hq hr.mem hop
      exact absurd hmatch hno
  · refine ⟨fun ⟨i, hi⟩ => (nomatch hi.symm.trans hillop), fun ⟨q, hq, hmatch⟩ => ?_⟩
    exact absurd (opcode_of_match hq hmatch) (hnone q hq)

theorem illop_iff_opcode_not_mapped (w : Word) :
    decode w = .error .illop ↔ ∀ r ∈ opcodeMap, w.extractLsb' 24 8 ≠ r.1.extractLsb' 24 8 := by
  rcases decode_outcome w with ⟨r, hr⟩ | ⟨hnone, hillop⟩
  · refine ⟨fun hillop => ?_, fun hnone => absurd hr.opcode (hnone r hr.mem)⟩
    rcases hr.answer with ⟨_, i, hi, _⟩ | ⟨_, hbad⟩
    · exact nomatch hi.symm.trans hillop
    · exact nomatch hbad.symm.trans hillop
  · exact ⟨fun _ => hnone, fun _ => hillop⟩

/-- Settles O4: a word decodes by the one row of its opcode, whose mask decides between a command and `BADFIELD`. -/
theorem opcodeMapIsComplete : Obligations.OpcodeMapIsComplete := fun w =>
  ⟨isCommand_iff_matches w, illop_iff_opcode_not_mapped w⟩

/-! ### Decoding an encoded command -/

theorem decodeL_append (i : Bool → BitVec 9 → Instr) (op : BitVec 8) (loss : Bool) (len : BitVec 9) :
    decodeL i (op ++ 0#7 ++ BitVec.ofBool loss ++ 0#7 ++ len) = .ok (i loss len) := by
  have hhigh : (op ++ 0#7 ++ BitVec.ofBool loss ++ 0#7 ++ len).extractLsb' 17 7 = 0#7 := by
    rw [BitVec.extractLsb'_append_eq_of_le (by decide), BitVec.extractLsb'_append_eq_of_le (by decide)]
    exact extractLsb'_middle op 0#7 (BitVec.ofBool loss)
  have hlow := extractLsb'_middle (op ++ 0#7 ++ BitVec.ofBool loss) 0#7 len
  have hloss : (op ++ 0#7 ++ BitVec.ofBool loss ++ 0#7 ++ len).getLsbD 16 = loss := by
    simp only [BitVec.getLsbD_append, BitVec.getLsbD_ofBool]
    simp
  have hlen : (op ++ 0#7 ++ BitVec.ofBool loss ++ 0#7 ++ len).extractLsb' 0 9 = len := BitVec.extractLsb'_append_eq_right
  exact (if_pos ⟨hhigh, hlow⟩).trans (by rw [hloss, hlen])

/-- The formats `N`, `M` and `F`: below the opcode and `m` reserved bits, `k` operand bits. -/
theorem lowOperand_append {k m : Nat} (i : BitVec k → Instr) (op : BitVec 8) (v : BitVec k) :
    (if (op ++ 0#m ++ v).extractLsb' k m = 0#m then .ok (i ((op ++ 0#m ++ v).extractLsb' 0 k))
      else .error .badfield : Except DecodeError Instr) = .ok (i v) := by
  rw [if_pos (extractLsb'_middle op 0#m v), BitVec.extractLsb'_append_eq_right]

/-- Settles O2: the opcode selects the format, which finds its reserved bits 0 and the operands in their fields. -/
theorem encodedCommandDecodesBack : Obligations.EncodedCommandDecodesBack := by
  intro i
  cases i with
  | finit loss len =>
    unfold decode
    rw [(WordShape.finit loss len).1]
    exact decodeL_append .finit 0x02 loss len
  | bruint n =>
    unfold decode
    rw [(WordShape.bruint n).1]
    exact lowOperand_append .bruint 0x11 n
  | acdec m =>
    unfold decode
    rw [(WordShape.acdec m).1]
    exact lowOperand_append .acdec 0x20 m
  | actns f =>
    unfold decode
    rw [(WordShape.actns f).1]
    exact lowOperand_append .actns 0x21 f
  | nop | cfglock | sreset | brbit | brsync | acpair | nfill | ggain | tnssyn | snssyn | imdct | ltpf => rfl

/-- Settles O1: seven of the words are encodings, the other two answer with their codes. -/
theorem wordsDecodeAsTheMapSays : Obligations.WordsDecodeAsTheMapSays :=
  ⟨encodedCommandDecodesBack .nop, encodedCommandDecodesBack (.finit true 20), encodedCommandDecodesBack (.bruint 32),
    encodedCommandDecodesBack (.acdec 19), encodedCommandDecodesBack (.actns 1), encodedCommandDecodesBack .acpair,
    encodedCommandDecodesBack .ltpf, rfl, rfl⟩

end Sys2Proof.Machine
end

section
/-! A command word written to `CMD` (R110, R120): it is run at once, and a bad operand or a missing lock ends the command before
its own checks. -/

namespace Sys2Proof.Machine

open Sys2Proof

/-! ### A command word at the HOST port (R110, R120) -/

section fetch

variable {s : State} {w : Word} {rest : List HostOp}

theorem step_of_command_word (hs : s.host = .write 0x000 w :: rest) :
    step s = runCommand w { s with host := rest, cmd := w } := step_of_write_cmd hs rfl

theorem runCommand_of_ok {i : Instr} (h : decode w = .ok i) : runCommand w s = exec i s := by
  rw [runCommand, h]

theorem runCommand_of_error {e : DecodeError} (h : decode w = .error e) : runCommand w s = .next (rejectWord e s) := by
  rw [runCommand, h]
  rfl

end fetch

/-- Settles O5: the access is a command word, and a word that decodes is executed. -/
theorem stepRunsDecodedCommand : Obligations.StepRunsDecodedCommand := fun _ _ _ _ hs hi =>
  (step_of_command_word hs).trans (runCommand_of_ok hi)

/-- Settles O6: the access is a command word, and either error is a failure with its code. -/
theorem illegalWordEndsWithItsCode : Obligations.IllegalWordEndsWithItsCode := fun _ _ _ hs =>
  ⟨fun he => (step_of_command_word hs).trans (runCommand_of_error he),
    fun he => (step_of_command_word hs).trans (runCommand_of_error he)⟩

/-! ### The first checks of admission (R120, steps 4 and 5) -/

/-- Every command is its body behind admission. -/
theorem exec_eq_admission (i : Instr) : ∃ body, ∀ s, exec i s = .next (admission Config.env i body s) := by
  cases i <;> exact ⟨_, fun _ => rfl⟩

section admission

variable {env : Env} {i : Instr} {s : State} (body : State → State)

theorem admission_of_illFormed (hw : i.wellFormed env.rom.nspec = false) : admission env i body s = failErr .badfield s :=
  if_pos hw

theorem admission_of_unlocked (hw : i.wellFormed env.rom.nspec = true) (hc : needsConfig i = true) (hl : s.cfglock = false) :
    admission env i body s = failErr .nocfg s := by
  simp [admission, hw, hc, hl]

end admission

theorem needsConfig_of_ne {i : Instr} (hnop : i ≠ .nop) (hlock : i ≠ .cfglock) (hreset : i ≠ .sreset) :
    needsConfig i = true := by
  cases i with
  | nop => exact absurd rfl hnop
  | cfglock => exact absurd rfl hlock
  | sreset => exact absurd rfl hreset
  | _ => rfl

/-- Settles O21: the operand fails the range check, which admission makes first. -/
theorem operandOutOfRangeIsBadfield : Obligations.OperandOutOfRangeIsBadfield := by
  refine fun s => ⟨fun n hn => ?_, fun env m hm => ?_, fun m => rfl⟩
  · rw [exec_bruint, admission_of_illFormed (i := .bruint n) _ (decide_eq_false (Nat.not_le.mpr hn))]
    rfl
  · exact admission_of_illFormed (i := .acdec m) _ (decide_eq_false (Nat.not_lt.mpr hm))

/-- Settles O22: the lock is the second check of admission, and only the three commands pass it unlocked. -/
theorem unlockedCommandsFail : Obligations.UnlockedCommandsFail := by
  intro i s hnop hlock hreset hw hl
  obtain ⟨body, hbody⟩ := exec_eq_admission i
  rw [hbody, admission_of_unlocked body hw (needsConfig_of_ne hnop hlock hreset) hl]
  rfl

end Sys2Proof.Machine
end

section
/-! The decode commands on an open frame (R120, R303): each is its own part, ended by a result or by a corruption event. -/

namespace Sys2Proof.Machine

open Sys2Proof

/-! ### How a part that may raise ends a command -/

/-- R303: from `BEC = 0` the cause is the event's own. -/
theorem raiseBec_of_good {s : State} (h : s.bec = false) (c : Cause) :
    raiseBec c s = { s with bec := true, cause := c, res := 0, err := .ok, skip := false } := by
  have hcause : (raiseBec c s).cause = c := by rw [raiseBec_cause, h]; rfl
  calc raiseBec c s
      = { s with bec := true, cause := (raiseBec c s).cause, res := 0, err := .ok, skip := false } := rfl
    _ = { s with bec := true, cause := c, res := 0, err := .ok, skip := false } := by rw [hcause]

/-- The end of a decode command whose part `r` may raise: `fin` on completion, else the corruption event. -/
def endRan {α : Type} (fin : α → State → State) : Ran α Sample → State
  | .ok a s => fin a s
  | .raised c s => raiseBec c s

theorem endRan_of_raised {α : Type} {fin : α → State → State} {r : Ran α Sample} {c : Cause} {t : State}
    (hr : r = .raised c t) (hgood : t.bec = false) :
    endRan fin r = { t with bec := true, cause := c, res := 0, err := .ok, skip := false } := by
  rw [hr]
  exact raiseBec_of_good hgood c

variable {env : Env} {s : State}

theorem readResult_eq_endRan (n : Nat) : readResult n s = endRan finish (brRead n s) := by
  unfold readResult endRan
  cases brRead n s <;> rfl

theorem acdecBody_eq_endRan (m : BitVec 8) :
    acdecBody env m s = endRan (fun sym => finish (BitVec.ofNat 32 sym)) (acStep env m.toNat s) := by
  unfold acdecBody endRan
  cases acStep env m.toNat s <;> rfl

theorem actnsBody_eq_endRan (f : BitVec 1) :
    actnsBody env f s = endRan (fun order => finish (BitVec.ofNat 32 order)) (actnsRun env f s) := by
  unfold actnsBody endRan
  cases actnsRun env f s <;> rfl

theorem acpairBody_of_bad_position (h : s.frm.specK.toNat % 2 = 1 ∨ s.cfg.ne.toNat < s.frm.specK.toNat + 2) :
    acpairBody env s = failErr .badstate s := if_pos h

/-- R171: the pair's own admission check is passed. -/
theorem acpairBody_eq_endRan (heven : s.frm.specK.toNat % 2 = 0) (hk : s.frm.specK.toNat + 2 ≤ s.cfg.ne.toNat) :
    acpairBody env s = endRan (fun p s' => pairFinish p (pairCommit env p s')) (pairDecode env s) := by
  unfold acpairBody endRan
  rw [if_neg (by omega)]
  cases pairDecode env s <;> rfl

/-! ### The commands on an open frame -/

theorem bruint_of_open (ho : Open s) {n : BitVec 6} (hn : n.toNat ≤ 32) :
    bruint env n s = endRan finish (brRead n.toNat s) :=
  (admission_of_open (i := .bruint n) _ (decide_eq_true hn) ho).trans (readResult_eq_endRan _)

theorem brbit_of_open (ho : Open s) : brbit env s = endRan finish (brRead 1 s) :=
  (admission_of_open (i := .brbit) _ rfl ho).trans (readResult_eq_endRan 1)

theorem acdec_of_open (ho : Open s) {m : BitVec 8} (hm : m.toNat < env.rom.nspec + 18) :
    acdec env m s = endRan (fun sym => finish (BitVec.ofNat 32 sym)) (acStep env m.toNat s) :=
  (admission_of_open (i := .acdec m) _ (decide_eq_true hm) ho).trans (acdecBody_eq_endRan m)

theorem actns_of_open (ho : Open s) (f : BitVec 1) :
    actns env f s = endRan (fun order => finish (BitVec.ofNat 32 order)) (actnsRun env f s) :=
  (admission_of_open (i := .actns f) _ rfl ho).trans (actnsBody_eq_endRan f)

theorem acpair_of_open (ho : Open s) (heven : s.frm.specK.toNat % 2 = 0) (hk : s.frm.specK.toNat + 2 ≤ s.cfg.ne.toNat) :
    acpair env s = endRan (fun p s' => pairFinish p (pairCommit env p s')) (pairDecode env s) :=
  (admission_of_open (i := .acpair) _ rfl ho).trans (acpairBody_eq_endRan heven hk)

end Sys2Proof.Machine
end

section
/-! The tail reader's commands (R144 to R149): what `BRUINT`, `BRBIT` and `BRSYNC` return, and how far the reader moves. -/

namespace Sys2Proof.Machine

open Sys2Proof

/-! ### BRUINT and BRBIT (R147, R148) -/

/-- R144: with enough bits left, the next `n` stand in `RES` and the reader is past them. -/
theorem readsTail_of_enough {n : Nat} {s : State} (hn : n ≤ 32) (hc : 3 ≤ s.coder.cur.toNat) (h : (n : Int) ≤ bitsLeft s) :
    ReadsTail n s (endRan finish (brRead n s)) := by
  rcases brRead_moved hn hc with ⟨hlt, _⟩ | ⟨_, v, r, hread, hmoved, hbits⟩
  · omega
  · rw [hread]
    exact ⟨hbits, hmoved.brPos, fun j _ => hmoved.bits j, rfl⟩

/-- Settles O31: an open frame admits both commands, and both are the checked read. -/
theorem tailReadsReturnNextBits : Obligations.TailReadsReturnNextBits := fun _ ho hc =>
  ⟨fun _ hn h => ⟨_, congrArg Host.Outcome.next (bruint_of_open ho hn), readsTail_of_enough hn hc h⟩,
    fun h => ⟨_, congrArg Host.Outcome.next (brbit_of_open ho), readsTail_of_enough (by decide) hc h⟩⟩

/-! ### BRSYNC (R149) -/

theorem BitstreamOk.syncOffset_bounds {s : State} (hs : BitstreamOk s) : -1 ≤ syncOffset s ∧ syncOffset s < 512 := by
  have hlen := s.fbLen.isLt
  have hcur := hs.cur_le
  have hconsumed := hs.consumed
  unfold syncOffset brPos
  omega

theorem syncMask_toNat (s : State) : (syncMask s).toNat = 2 ^ (brPos s % 8).toNat := by
  have hlt : 2 ^ (brPos s % 8).toNat < 2 ^ 8 := Nat.pow_lt_pow_right (by decide) (by omega)
  simp only [syncMask, BitVec.toNat_shiftLeft, Nat.shiftLeft_eq]
  simpa using Nat.mod_eq_of_lt hlt

/-- R149: the three fields of the result word. -/
theorem syncWord_fields (s : State) :
    (syncWord s).extractLsb' 0 16 = BitVec.ofInt 16 (syncOffset s) ∧ (syncWord s).extractLsb' 16 8 = syncMask s ∧
      (syncWord s).extractLsb' 24 8 = 0#8 :=
  ⟨BitVec.extractLsb'_append_eq_right, extractLsb'_middle _ _ _,
    (BitVec.extractLsb'_append_eq_of_le (by decide)).trans BitVec.extractLsb'_append_eq_left⟩

/-- Settles O34: `BRSYNC` is admitted, its word's fields are the offset, which fits 16 bits, and the mask. -/
theorem brsyncReportsPosition : Obligations.BrsyncReportsPosition := by
  intro s ho hs
  obtain ⟨hoffset, hmask, hzero⟩ := syncWord_fields s
  obtain ⟨hlo, hhi⟩ := hs.syncOffset_bounds
  refine ⟨brsyncBody s, ?_, ?_, ?_, hzero, rfl⟩
  · rw [exec_brsync, admission_of_open (i := .brsync) _ rfl ho]
  · change ((syncWord s).extractLsb' 0 16).toInt = syncOffset s
    rw [hoffset]
    exact BitVec.toInt_ofInt_eq_self (by decide) (by norm_num; omega) (by norm_num; omega)
  · change ((syncWord s).extractLsb' 16 8).toNat = _
    rw [hmask, syncMask_toNat]

end Sys2Proof.Machine
end

section
/-! Frame start (R141, R161): what an admitted `FINIT` makes of the state. -/

namespace Sys2Proof.Machine

open Sys2Proof

theorem exec_finit_of_locked {s : State} (loss : Bool) (len : BitVec 9) (hl : s.cfglock = true) :
    exec (.finit loss len) s = .next (finitBody loss len s) := by
  rw [exec_finit, admission_of_locked (i := .finit loss len) _ rfl rfl hl]

theorem finitBody_of_len_ok {s : State} (loss : Bool) {len : BitVec 9} (h20 : 20 ≤ len.toNat)
    (hmax : len.toNat ≤ s.cfg.maxbytes.toNat) : finitBody loss len s = finish 0 (startFrame loss len s) :=
  if_neg (by omega)

/-- R161: the code value is three bytes, the first most significant. -/
theorem coderInit_low_toNat (s : State) : (coderInit s).low.toNat =
    65536 * (fbByte s 0).toNat + 256 * (fbByte s 1).toNat + (fbByte s 2).toNat := by
  change BitVec.toNat (w := 8 + 8 + 8) (fbByte s 0 ++ fbByte s 1 ++ fbByte s 2) = _
  simp only [toNat_append_add]
  omega

theorem readFrm_reset (r : FrmReg) : readFrm FrameRegs.reset r = 0 := by cases r <;> rfl

/-- R141: the spectrum of a new frame is zero below `NE`. -/
theorem memRead_startFrame_x {s : State} (hx : Memory.wf 1024 s.x = true) (loss : Bool) (len : BitVec 9) (k : Nat) :
    memRead (startFrame loss len s).x k = if k < s.cfg.ne.toNat then Sample.zero else memRead s.x k := by
  have hne := s.cfg.ne.isLt
  rw [startFrame_x, memRead_memFill hx 0 _ _ (by omega)]
  simp only [Nat.zero_le, true_and, Nat.zero_add]
  rfl

/-- Settles O30: an admitted length starts the frame. -/
theorem finitStartsAFrame : Obligations.FinitStartsAFrame := by
  intro s loss len hl hx h20 hmax
  refine ⟨finish 0 (startFrame loss len s), ?_, coderInit_low_toNat s, memRead_startFrame_x hx loss len, readFrm_reset, rfl⟩
  rw [exec_finit_of_locked loss len hl, finitBody_of_len_ok loss h20 hmax]

end Sys2Proof.Machine
end

section
/-! The bit cache agrees with the frame buffer (R95, R146): a frame starts with an empty cache, a checked read moves on inside
the tail bits, and nothing else a command does touches the tail reader or the frame buffer. -/

namespace Sys2Proof.Machine

open Sys2Proof

/-- All of the state that `CacheFresh` speaks of. -/
def tailOf (s : State) : Memory Byte × BitVec 9 × TailReader := (s.fb, s.fbLen, s.reader)

theorem CacheFresh.of_tailOf_eq {s t : State} (hs : CacheFresh s) (h : tailOf t = tailOf s) : CacheFresh t := by
  simp only [tailOf, Prod.mk.injEq] at h
  obtain ⟨hfb, hlen, hreader⟩ := h
  unfold CacheFresh tailbit brPos fbByte
  rw [hfb, hlen, hreader]
  exact hs

theorem cacheFresh_of_empty {s : State} (h : s.reader.cnt = 0#6) : CacheFresh s := by
  intro i hi
  rw [h] at hi
  exact absurd hi (Nat.not_lt_zero i)

/-- The cached bits are the first tail bits to come. -/
theorem pendingBit_of_lt_cnt {s : State} {j : Nat} (hj : j < s.reader.cnt.toNat) :
    pendingBit s j = s.reader.cache.getLsbD j := if_pos hj

/-- R146: the bits that a checked read leaves in the cache were to come before it. -/
theorem CacheFresh.takeBits {s : State} (hs : BitstreamOk s) (hf : CacheFresh s) {n : Nat} (hn : n ≤ 32)
    (hb : (n : Int) ≤ bitsLeft s) : CacheFresh { s with reader := (takeBits s.fb s.reader n).2 } := by
  have hle := bitsLeft_le s hs.front
  obtain ⟨_, hcount, _, hbits, _⟩ := takeBits_spec s.fb s.reader n hn (by omega)
  generalize (Machine.takeBits s.fb s.reader n).2 = r at hcount hbits
  have hpos : (brPos { s with reader := r }).toNat = (brPos s).toNat + n := by
    have hconsumed := hs.consumed
    simp only [brPos]
    omega
  intro i hi
  calc r.cache.getLsbD i
      = pendingBit { s with reader := r } i := (pendingBit_of_lt_cnt hi).symm
    _ = pendingBit s (n + i) := hbits i
    _ = tailbit s ((brPos s).toNat + (n + i)) := pendingBitsAreTailBits s hs hf _ (by simp only at hi; omega)
    _ = tailbit { s with reader := r } ((brPos { s with reader := r }).toNat + i) := by rw [hpos, Nat.add_assoc]; rfl

/-- Consistent bitstream registers with a cache that agrees: what the parts of the decode commands keep together. -/
structure FreshOk (s : State) : Prop where
  ok : BitstreamOk s
  fresh : CacheFresh s

theorem BitstreamOk.setTns {s : State} (hs : BitstreamOk s) (f : BitVec 1) (t : TnsFilter) : BitstreamOk (setTns s f t) := by
  unfold Machine.setTns
  split <;> exact { hs with }

theorem respected_freshOk : Respected Config.env fun s t => FreshOk s → FreshOk t where
  refl _ := id
  trans h h' := h' ∘ h
  coder _ _ _ _ hm he hs := ⟨hs.ok.acStep hm he, hs.fresh.of_tailOf_eq rfl⟩
  reader _ _ hn hb hs := ⟨hs.ok.takeBits hn hb, hs.fresh.takeBits hs.ok hn hb⟩
  filter s f t hs := ⟨hs.ok.setTns f t, hs.fresh.of_tailOf_eq (by simp [tailOf])⟩

/-! ### The commands -/

theorem cacheFresh_finitBody {s : State} (hf : CacheFresh s) (loss : Bool) (len : BitVec 9) :
    CacheFresh (finitBody loss len s) := by
  unfold finitBody
  split
  · exact hf.of_tailOf_eq rfl
  · exact cacheFresh_of_empty rfl

theorem pairFinish_tailOf (p : Pair) (s : State) : tailOf (pairFinish p s) = tailOf s := by
  unfold pairFinish
  split <;> rfl

section commands

variable {s : State} (hs : FreshOk s)

include hs

/-- A command that is not admitted touches no tail reader. -/
theorem FreshOk.admission {i : Instr} {body : State → State}
    (h : i.wellFormed Config.env.rom.nspec = true → CacheFresh (body s)) : CacheFresh (admission Config.env i body s) := by
  rcases admission_outcome Config.env i body s with ⟨_, he⟩ | ⟨_, _, _, he⟩ | ⟨_, _, _, _, he⟩ | ⟨hw, _, _, he⟩ <;> rw [he]
  · exact hs.fresh.of_tailOf_eq rfl
  · exact hs.fresh.of_tailOf_eq rfl
  · exact hs.fresh.of_tailOf_eq rfl
  · exact h hw

/-- A part that keeps the agreement, whichever way it ends the command. -/
theorem FreshOk.endRan {α : Type} {cs : List Cause} {r : Ran α Sample} {fin : α → State → State}
    (h : RanRel (fun s t => FreshOk s → FreshOk t) cs s r) (hfin : ∀ a t, tailOf (fin a t) = tailOf t) :
    CacheFresh (endRan fin r) := by
  cases r with
  | ok a t => exact (h hs).fresh.of_tailOf_eq (hfin a t)
  | raised c t => exact (h.1 hs).fresh.of_tailOf_eq rfl

theorem FreshOk.readResult {n : Nat} (hn : n ≤ 32) : CacheFresh (readResult n s) := by
  rw [readResult_eq_endRan]
  exact hs.endRan (respected_freshOk.brRead hn s) fun _ _ => rfl

theorem FreshOk.acdecBody {m : BitVec 8} (hm : m.toNat < Config.env.rom.nspec + 18) : CacheFresh (acdecBody Config.env m s) := by
  rw [acdecBody_eq_endRan]
  exact hs.endRan (respected_freshOk.acStep hm s) fun _ _ => rfl

theorem FreshOk.actnsBody (f : BitVec 1) : CacheFresh (actnsBody Config.env f s) := by
  rw [actnsBody_eq_endRan]
  exact hs.endRan (respected_freshOk.actnsRun f s) fun _ _ => rfl

theorem FreshOk.acpairBody : CacheFresh (acpairBody Config.env s) := by
  by_cases hk : s.frm.specK.toNat % 2 = 1 ∨ s.cfg.ne.toNat < s.frm.specK.toNat + 2
  · rw [acpairBody_of_bad_position hk]
    exact hs.fresh.of_tailOf_eq rfl
  · rw [acpairBody_eq_endRan (by omega) (by omega)]
    exact hs.endRan (respected_freshOk.pairDecode (fun _ lev ht => pairModel_lt_all lev ht) s) fun p t =>
      pairFinish_tailOf p (pairCommit Config.env p t)

/-- Every command keeps the cache in agreement. A reset empties it; the system and synthesis commands leave it alone. -/
theorem FreshOk.exec {i : Instr} {t : State} (h : exec i s = .next t) : CacheFresh t := by
  cases i with
  | nop => cases h; exact hs.admission fun _ => hs.fresh.of_tailOf_eq rfl
  | cfglock =>
    cases h
    exact hs.admission fun _ => hs.fresh.of_tailOf_eq (by unfold cfglockBody; split_ifs <;> rfl)
  | finit loss len => cases h; exact hs.admission fun _ => cacheFresh_finitBody hs.fresh loss len
  | sreset => cases h; exact hs.admission fun _ => cacheFresh_of_empty rfl
  | brbit => cases h; exact hs.admission fun _ => hs.readResult (by decide)
  | bruint n => cases h; exact hs.admission fun hw => hs.readResult (by simpa [Instr.wellFormed] using hw)
  | brsync => cases h; exact hs.admission fun _ => hs.fresh.of_tailOf_eq rfl
  | acdec m => cases h; exact hs.admission fun hw => hs.acdecBody (by simpa [Instr.wellFormed] using hw)
  | actns f => cases h; exact hs.admission fun _ => hs.actnsBody f
  | acpair => cases h; exact hs.admission fun _ => hs.acpairBody
  | nfill => cases h; exact hs.admission fun _ => hs.fresh.of_tailOf_eq (by unfold nfillBody; split <;> rfl)
  | ggain => cases h; exact hs.admission fun _ => hs.fresh.of_tailOf_eq rfl
  | tnssyn => cases h; exact hs.admission fun _ => hs.fresh.of_tailOf_eq (by unfold tnssynBody; split_ifs <;> rfl)
  | snssyn => cases h; exact hs.admission fun _ => hs.fresh.of_tailOf_eq (by unfold snssynBody; split_ifs <;> rfl)
  | imdct => cases h; exact hs.admission fun _ => hs.fresh.of_tailOf_eq rfl
  | ltpf => cases h; exact hs.admission fun _ => hs.fresh.of_tailOf_eq (by unfold ltpfBody; split <;> rfl)

end commands

/-- R141: a `FINIT` that ends without an error has started a frame. -/
theorem finit_ok_starts {s t : State} {loss : Bool} {len : BitVec 9} (h : exec (.finit loss len) s = .next t)
    (ht : t.err = .ok) : t = finish 0 (startFrame loss len s) := by
  rw [exec_finit] at h
  injection h with h
  subst h
  rcases admission_outcome Config.env (.finit loss len) (finitBody loss len) s with
    ⟨_, he⟩ | ⟨_, _, _, he⟩ | ⟨_, _, hd, _⟩ | ⟨_, _, _, he⟩
  · rw [he] at ht; cases ht
  · rw [he] at ht; cases ht
  · cases hd
  · rw [he] at ht ⊢
    unfold finitBody at ht ⊢
    split at ht
    · cases ht
    · next hlen => exact if_neg hlen

/-- Settles O33: a started frame has an empty cache, and every command keeps the agreement. -/
theorem commandsKeepCacheFresh : Obligations.CommandsKeepCacheFresh := by
  refine ⟨fun s t loss len h ht => ?_, fun i s t hs hf h => FreshOk.exec ⟨hs, hf⟩ h⟩
  rw [finit_ok_starts h ht]
  exact cacheFresh_of_empty rfl

end Sys2Proof.Machine
end

section
/-! A command's own admission check that fails (R141, R171, R201, R217, R264, R309): the command ends with its code. -/

namespace Sys2Proof.Machine

open Sys2Proof

variable {env : Env} {s : State}

theorem finitBody_of_bad_len (loss : Bool) {len : BitVec 9} (h : len.toNat < 20 ∨ s.cfg.maxbytes.toNat < len.toNat) :
    finitBody loss len s = failErr .badlen s := if_pos h

/-- R201: the check of a filter, as the rule states it. -/
theorem tnsFilterOk_iff {ne : Nat} {t : TnsFilter} : tnsFilterOk ne t = true ↔ TnsFilterOk ne t := by
  simp only [tnsFilterOk, TnsFilterOk, Bool.and_eq_true, Bool.or_eq_true, decide_eq_true_eq, List.all_eq_true, List.mem_range]
  refine and_congr_right fun _ => ?_
  rcases Nat.eq_zero_or_pos t.order.toNat with h0 | hpos
  · simp [h0]
  · simp [tnsRcAt, hpos, Nat.ne_of_gt hpos, and_assoc]

theorem tns0_mem_tnsActive (h : 1 ≤ s.frm.ntns.toNat) : s.frm.tns0 ∈ tnsActive s := by
  obtain ⟨n, hn⟩ : ∃ n, min s.frm.ntns.toNat 2 = n + 1 := ⟨min s.frm.ntns.toNat 2 - 1, by omega⟩
  simp [tnsActive, hn]

theorem tns1_mem_tnsActive (h : 2 ≤ s.frm.ntns.toNat) : s.frm.tns1 ∈ tnsActive s := by
  simp [tnsActive, Nat.min_eq_right h]

theorem tnssynBody_of_bad_filter {t : TnsFilter} (hmem : t ∈ tnsActive s) (h : ¬TnsFilterOk s.cfg.ne.toNat t) :
    tnssynBody env s = failErr .badstate s :=
  if_pos (List.all_eq_false.mpr ⟨t, hmem, mt tnsFilterOk_iff.mp h⟩)

theorem snssynBody_of_bad_gain (h : gainEntries s.frm.snsShape.toNat ≤ s.frm.snsGain.toNat) :
    snssynBody env s = failErr .badstate s := if_pos h

theorem ltpfBody_of_bad_lag (ha : s.frm.ltpf.active = true)
    (h : ¬(s.cfg.lden.toNat / 2 + 1 ≤ s.frm.ltpf.pint.toNat ∧
      s.frm.ltpf.pint.toNat + s.cfg.lden.toNat / 2 ≤ s.cfg.ltpfNblk.toNat * s.cfg.ns.toNat)) :
    ltpfBody env s = failErr .badstate s := by
  have hlag : lagOk s.cfg s.frm.ltpf = false := by
    rw [lagOk, ← Bool.decide_and]
    exact decide_eq_false h
  exact if_pos (by simp [ha, hlag])

/-- Settles O19: each command is admitted, and its own check comes before everything else it does. -/
theorem failedChecksChangeOnlyStatus : Obligations.FailedChecksChangeOnlyStatus := by
  refine ⟨fun s loss len hl hlen => ?_, fun s ho hk => ?_, fun s ho hf => ?_, fun s ho hg => ?_, fun s hl ha hlag => ?_⟩
  · rw [exec_finit_of_locked loss len hl, finitBody_of_bad_len loss hlen]
    rfl
  · rw [exec_acpair, admission_of_open (i := .acpair) _ rfl ho, acpairBody_of_bad_position hk]
    rfl
  · obtain ⟨t, hmem, hbad⟩ : ∃ t ∈ tnsActive s, ¬TnsFilterOk s.cfg.ne.toNat t := by
      rcases hf with ⟨hn, h⟩ | ⟨hn, h⟩
      · exact ⟨_, tns0_mem_tnsActive hn, h⟩
      · exact ⟨_, tns1_mem_tnsActive hn, h⟩
    rw [exec_tnssyn, admission_of_open (i := .tnssyn) _ rfl ho, tnssynBody_of_bad_filter hmem hbad]
    rfl
  · have hentries : gainEntries s.frm.snsShape.toNat ≤ s.frm.snsGain.toNat := by
      rcases hg with ⟨hshape, h⟩ | ⟨hshape, h⟩ | ⟨hshape, h⟩ <;> rw [hshape] <;> exact h
    rw [exec_snssyn, admission_of_open (i := .snssyn) _ rfl ho, snssynBody_of_bad_gain hentries]
    rfl
  · rw [exec_ltpf, admission_of_locked (i := .ltpf) _ rfl rfl hl, ltpfBody_of_bad_lag ha hlag]
    rfl

end Sys2Proof.Machine
end

section
/-! Corruption events (R144, R163, R164, R169, R171, R224, R303): what stands when a decode command raises. -/

namespace Sys2Proof.Machine

open Sys2Proof

variable {env : Env} {s : State}

/-! ### Events before the first write -/

theorem brRead_overrun {n : Nat} (h : bitsLeft s < n) : brRead n s = .raised .broverrun s := if_pos h

/-- R169: the first step of `ACTNS` raises. -/
theorem actnsRun_of_raisesAt (he : env.Wf) (hr : 0x10000 ≤ s.coder.range.toNat) {cause : Cause} (hc : RaisesAt s.coder cause)
    (f : BitVec 1) : actnsRun env f s = .raised cause s := by
  have hlr : s.frm.lowRate.toNat ≤ 1 := Bool.toNat_le s.frm.lowRate
  have hm : tnsOrderModel env.rom s.frm.lowRate.toNat < env.rom.nspec + 18 := by unfold tnsOrderModel; omega
  simp only [actnsRun]
  rw [acStep_of_raisesAt he hm hr hc, ranBind_raised]

/-- R171: the first step of `ACPAIR` raises. -/
theorem pairDecode_of_raisesAt (he : env.Wf) (hr : 0x10000 ≤ s.coder.range.toNat) {cause : Cause}
    (hc : RaisesAt s.coder cause) : pairDecode env s = .raised cause s :=
  pairDecode_raises (c := fun _ => s.coder) he hr (Nat.zero_le 13) ⟨rfl, nofun⟩ hc

/-- R213: the class sizes. -/
theorem sizeA_values : sizeA 0 = 2390004 ∧ sizeA 1 = 2390004 ∧ sizeA 2 = 15158272 ∧ sizeA 3 = 774912 := by decide +kernel

theorem sizeB_value : sizeB = 6 := by decide +kernel

/-- R224: a gain index that has an entry, a pulse index that has none. -/
theorem snssynBody_of_bad_index (hg : s.frm.snsGain.toNat < gainEntries s.frm.snsShape.toNat)
    (hi : sizeA s.frm.snsShape.toNat ≤ s.frm.snsIdxA.toNat ∨ s.frm.snsShape = 0#2 ∧ sizeB ≤ s.frm.snsIdxB.toNat) :
    snssynBody env s = raiseBec .snsidx s := by
  have hbad : pulseIndexBad s = true := by simpa [pulseIndexBad] using hi
  unfold snssynBody
  rw [if_neg (by omega), if_pos hbad]

/-- R217, R224: the four classes. -/
theorem bad_index_of_classes
    (h : s.frm.snsShape = 0#2 ∧ s.frm.snsGain.toNat < 2 ∧ (2390004 ≤ s.frm.snsIdxA.toNat ∨ 6 ≤ s.frm.snsIdxB.toNat) ∨
      s.frm.snsShape = 1#2 ∧ s.frm.snsGain.toNat < 4 ∧ 2390004 ≤ s.frm.snsIdxA.toNat ∨
      s.frm.snsShape = 2#2 ∧ s.frm.snsGain.toNat < 4 ∧ 15158272 ≤ s.frm.snsIdxA.toNat ∨
      s.frm.snsShape = 3#2 ∧ 774912 ≤ s.frm.snsIdxA.toNat) :
    s.frm.snsGain.toNat < gainEntries s.frm.snsShape.toNat ∧
      (sizeA s.frm.snsShape.toNat ≤ s.frm.snsIdxA.toNat ∨ s.frm.snsShape = 0#2 ∧ sizeB ≤ s.frm.snsIdxB.toNat) := by
  obtain ⟨size0, size1, size2, size3⟩ := sizeA_values
  rcases h with ⟨hshape, hg, hi⟩ | ⟨hshape, hg, hi⟩ | ⟨hshape, hg, hi⟩ | ⟨hshape, hi⟩ <;> rw [hshape]
  · exact ⟨hg, hi.imp size0.trans_le fun hb => ⟨rfl, sizeB_value.trans_le hb⟩⟩
  · exact ⟨hg, .inl (size1.trans_le hi)⟩
  · exact ⟨hg, .inl (size2.trans_le hi)⟩
  · exact ⟨s.frm.snsGain.isLt, .inl (size3.trans_le hi)⟩

/-! ### Events at a later step -/

/-- R169: a coefficient that raises ends the loop, however many were to come. -/
theorem actnsCoefs_raised_of_le {lr n m : Nat} {f : BitVec 1} {c : Cause} {t : State}
    (h : actnsCoefs env lr f s n = .raised c t) (hnm : n ≤ m) : actnsCoefs env lr f s m = .raised c t := by
  induction m, hnm using Nat.le_induction with
  | base => exact h
  | succ m _ ih => rw [actnsCoefs, ih, ranBind_raised]

/-- R169: `ACTNS` after an order that decodes: the order is written, and the coefficients follow. -/
theorem actnsRun_of_order (he : env.Wf) (hr : 0x10000 ≤ s.coder.range.toNat) {sym : Nat} (hsym : sym < 8) {c : Coder}
    (hd : DecodesTo (env.rom.model (env.rom.nspec + s.frm.lowRate.toNat)) s s.coder sym c) (f : BitVec 1) :
    actnsRun env f s =
      ranBind (actnsCoefs env s.frm.lowRate.toNat f (setTnsOrder { s with coder := c } f (sym + 1)) (sym + 1))
        fun _ t => .ok (sym + 1) t := by
  have hlr : s.frm.lowRate.toNat ≤ 1 := Bool.toNat_le s.frm.lowRate
  have hstep : acStep env (tnsOrderModel env.rom s.frm.lowRate.toNat) s = .ok sym { s with coder := c } :=
    acStep_of_decodesTo he (by unfold tnsOrderModel; omega) hr hd
  simp only [actnsRun]
  rw [hstep, ranBind_ok, if_neg (by omega)]

/-- R169: what a write of the order does to the two filters. -/
theorem setTnsOrder_spec (s : State) (f : BitVec 1) {order : Nat} (ho : order ≤ 8) :
    (tnsOf (setTnsOrder s f order) f).order.toNat = order ∧ (tnsOf (setTnsOrder s f order) f).rc = (tnsOf s f).rc ∧
      (tnsOf (setTnsOrder s f order) f).start = (tnsOf s f).start ∧
      (tnsOf (setTnsOrder s f order) f).stop = (tnsOf s f).stop ∧ tnsOf (setTnsOrder s f order) (1 - f) = tnsOf s (1 - f) ∧
      setTnsOrder s f order = { s with frm := { s.frm with
        tns0 := (setTnsOrder s f order).frm.tns0, tns1 := (setTnsOrder s f order).frm.tns1 } } := by
  have hmod : (BitVec.ofNat 4 order).toNat = order := by
    rw [BitVec.toNat_ofNat, Nat.mod_eq_of_lt (by omega)]
  rcases bitVec1_cases f with rfl | rfl <;> exact ⟨hmod, rfl, rfl, rfl, rfl, rfl⟩

/-- R163, R169: the step of coefficient `n` raises. The order, the indices before `n` and the coder after them stand. -/
theorem actnsRun_coef_raises (he : env.Wf) (hr : 0x10000 ≤ s.coder.range.toNat) {sym n : Nat} (hn : n ≤ sym) (hsym : sym < 8)
    {v : Nat → Nat} {c : Nat → Coder} {cause : Cause} {f : BitVec 1}
    (hd : DecodesTo (env.rom.model (env.rom.nspec + s.frm.lowRate.toNat)) s s.coder sym (c 0))
    (hcoefs : ∀ j, j < n →
      DecodesTo (env.rom.model (env.rom.nspec + 2 + 8 * s.frm.lowRate.toNat + j)) s (c j) (v j) (c (j + 1)) ∧ v j ≤ 16)
    (hc : RaisesAt (c n) cause) :
    ∃ t, actnsRun env f s = .raised cause t ∧
      (tnsOf t f).order.toNat = sym + 1 ∧
      (∀ j, j < 8 → (vecAt (tnsOf t f).rc j).toNat = if j < n then v j else (vecAt (tnsOf s f).rc j).toNat) ∧
      (tnsOf t f).start = (tnsOf s f).start ∧ (tnsOf t f).stop = (tnsOf s f).stop ∧ tnsOf t (1 - f) = tnsOf s (1 - f) ∧
      t = { s with coder := c n, frm := { s.frm with tns0 := t.frm.tns0, tns1 := t.frm.tns1 } } := by
  have hlr : s.frm.lowRate.toNat ≤ 1 := Bool.toNat_le s.frm.lowRate
  obtain ⟨order_u, rc_u, start_u, stop_u, other_u, frame_u⟩ :=
    setTnsOrder_spec { s with coder := c 0 } f (order := sym + 1) (by omega)
  rw [actnsRun_of_order he hr hsym hd]
  generalize setTnsOrder { s with coder := c 0 } f (sym + 1) = u at *
  have hcu : u.coder = c 0 := by rw [frame_u]
  obtain ⟨t, hrun, range_t, rc_t, order_t, start_t, stop_t, other_t, frame_t⟩ :=
    actnsCoefs_ok (s := u) (f := f) he hlr hcu (by rw [hcu]; exact hd.range_ge) n (by omega) fun j hj =>
      ⟨(hcoefs j hj).1.congr (by rw [frame_u]) (by rw [frame_u]), (hcoefs j hj).2⟩
  have hct : t.coder = c n := by rw [frame_t]
  have hstep : acStep env (tnsCoefModel env.rom s.frm.lowRate.toNat n) t = .raised cause t :=
    acStep_of_raisesAt he (by unfold tnsCoefModel; omega) range_t (hct ▸ hc)
  have hraised : actnsCoefs env s.frm.lowRate.toNat f u (n + 1) = .raised cause t := by
    rw [actnsCoefs, hrun, ranBind_ok, hstep, ranBind_raised]
  refine ⟨t, ?_, (congrArg BitVec.toNat order_t).trans order_u, fun j hj => ?_, start_t.trans start_u, stop_t.trans stop_u,
    other_t.trans other_u, ?_⟩
  · rw [actnsCoefs_raised_of_le hraised (by omega), ranBind_raised]
  · rw [rc_t j hj, rc_u]
    rfl
  · rw [frame_t, frame_u]

/-- Settles O20: every event leaves the state its part raised it in, but for the flag, its cause and the result. -/
theorem earlyEventsWriteOnlyTheFlag : Obligations.EarlyEventsWriteOnlyTheFlag := by
  refine ⟨fun s ho => ⟨fun n hn h => ?bruint, fun h => ?brbit, fun m hm hr => ?acdec,
      fun cause hr hc => ⟨fun f => ?actns, fun heven hk => ?acpair⟩, fun h => ?snssyn⟩,
    fun _ _ => rfl, fun _ => rfl,
    fun env s c cause he ho hr => ⟨fun f sym v n hn hsym hd hcoefs hc => ?actnsLater,
      fun lev _ hlev heven hk hesc hc => ?acpairLater⟩⟩
  case bruint =>
    exact congrArg Host.Outcome.next ((bruint_of_open ho hn).trans (endRan_of_raised (brRead_overrun h) ho.good))
  case brbit => exact congrArg Host.Outcome.next ((brbit_of_open ho).trans (endRan_of_raised (brRead_overrun h) ho.good))
  case acdec =>
    have hacdec {cause : Cause} (hc : RaisesAt s.coder cause) : exec (.acdec m) s =
        .next { s with bec := true, cause := cause, res := 0, err := .ok, skip := false } :=
      congrArg Host.Outcome.next ((acdec_of_open ho hm).trans
        (endRan_of_raised (acStep_of_raisesAt Config.env_wf hm hr hc) ho.good))
    exact ⟨fun h => hacdec (.inl ⟨rfl, h⟩), fun hlow h => hacdec (.inr ⟨rfl, hlow, h⟩)⟩
  case actns =>
    exact congrArg Host.Outcome.next ((actns_of_open ho f).trans
      (endRan_of_raised (actnsRun_of_raisesAt Config.env_wf hr hc f) ho.good))
  case acpair =>
    exact congrArg Host.Outcome.next ((acpair_of_open ho heven hk).trans
      (endRan_of_raised (pairDecode_of_raisesAt Config.env_wf hr hc) ho.good))
  case snssyn =>
    obtain ⟨hg, hi⟩ := bad_index_of_classes h
    rw [exec_snssyn, admission_of_open (i := .snssyn) _ rfl ho, snssynBody_of_bad_index hg hi, raiseBec_of_good ho.good]
  case actnsLater =>
    obtain ⟨t, hrun, horder, hrc, hstart, hstop, hother, ht⟩ := actnsRun_coef_raises (f := f) he hr hn hsym hd hcoefs hc
    have hgood : t.bec = false := by rw [ht]; exact ho.good
    rw [(actns_of_open ho f).trans (endRan_of_raised hrun hgood)]
    exact ⟨horder, hrc, hstart, hstop, hother, by rw [ht]⟩
  case acpairLater =>
    exact (acpair_of_open ho heven hk).trans (endRan_of_raised (pairDecode_raises he hr hlev hesc hc) ho.good)

/-! ### A pair that overruns the tail -/

/-- R144, R171: the decode of a pair that needs more tail bits than are left; the reads before the one that failed stand. -/
theorem pairDecode_overrun (he : env.Wf) {lev sym : Nat} {c : Nat → Coder} (hr : 0x10000 ≤ s.coder.range.toNat)
    (hfront : 3 ≤ s.coder.cur.toNat) (hlev : lev ≤ 13) (hsym : sym < 16) (hesc : Escapes env.rom s lev c)
    (hd : DecodesTo (levelModel env.rom s lev) s (c lev) sym (c (lev + 1))) (hpos : 0 < pairTailBits s lev sym)
    (hshort : bitsLeft { s with coder := c (lev + 1) } < pairTailBits s lev sym) :
    ∃ r, Moved (pairTailTaken s lev sym (bitsLeft { s with coder := c (lev + 1) })) s r ∧
      pairDecode env s = .raised .broverrun { s with coder := c (lev + 1), reader := r } := by
  have hfront' : 3 ≤ (c (lev + 1)).cur.toNat := hd.front (hesc.front hfront lev le_rfl)
  rw [pairDecode_eq he hr hlev hesc hd hsym]
  rcases pairValues_outcome (sym := sym) (s := { s with coder := c (lev + 1) }) hlev hfront' with
    ⟨_, _, r, hmoved, hraised⟩ | ⟨henough, _⟩
  · exact ⟨r, ⟨hmoved.count, hmoved.cur_le, hmoved.bits, hmoved.cnt_le, hmoved.cache_lt, hmoved.still⟩, hraised⟩
  · change pairTailBits s lev sym = 0 ∨ (pairTailBits s lev sym : Int) ≤ _ at henough
    omega

/-- Settles O43: the pair's reads raise before anything is committed, the tail reader past those that succeeded. -/
theorem acpairOverrunDropsThePair : Obligations.AcpairOverrunDropsThePair := by
  intro s lev sym c ho heven hk hr hfront hlev hsym hesc hd hpos hshort
  obtain ⟨r, hmoved, hdecode⟩ := pairDecode_overrun Config.env_wf hr hfront hlev hsym hesc hd hpos hshort
  exact ⟨_, congrArg Host.Outcome.next ((acpair_of_open ho heven hk).trans (endRan_of_raised hdecode ho.good)), hmoved.brPos,
    fun j _ => hmoved.bits j, hmoved.still, rfl⟩

end Sys2Proof.Machine
end

section
/-! The decode step (R163 to R168): the one symbol of the slice, the renormalised coder, and `ACDEC`. -/

namespace Sys2Proof.Machine

open Sys2Proof

/-- Settles O35: `acStep_ok` gives the step, and a well-formed model has one symbol for a slice. -/
theorem decodeStepFindsTheSymbol : Obligations.DecodeStepFindsTheSymbol := by
  intro env m s he hm hr
  refine ⟨fun hlow hslice => ?_, fun hlow => acStep_of_raisesAt he hm hr (.inl ⟨rfl, hlow⟩),
    fun hlow hslice => acStep_of_raisesAt he hm hr (.inr ⟨rfl, hlow, hslice⟩)⟩
  obtain ⟨sym, c', hstep, hd, _⟩ := acStep_ok he hm hr hlow hslice
  have ⟨_, _, hsym, _⟩ := hd
  exact ⟨sym, c', hstep, hd, fun sym' hsym' => (wf_modelOk he hm).symbol_unique hsym' hsym⟩

/-- R30: a coder that has shifted in `k` more bytes leaves `8 * k` bits fewer. -/
theorem bitsLeft_withCoder {s : State} {c : Coder} {k : Nat} (h : c.cur.toNat = s.coder.cur.toNat + k) :
    bitsLeft { s with coder := c } = bitsLeft s - 8 * k := by
  simp only [bitsLeft, brPos, acFront, h]
  omega

/-- Settles O36: each of the three outcomes of a decode step. -/
theorem decodeStepKeepsTheCoderInvariant : Obligations.DecodeStepKeepsTheCoderInvariant := by
  intro env m s he hm hr
  rcases acStep_outcome he hm hr with ⟨_, hstep⟩ | ⟨_, _, hstep⟩ | ⟨_, _, sym, c', hstep, hd, hlow⟩ <;> rw [hstep]
  case inl => exact ⟨fun _ _ h => (by cases h), fun _ _ h => (Ran.raised.inj h).2.symm⟩
  case inr.inl => exact ⟨fun _ _ h => (by cases h), fun _ _ h => (Ran.raised.inj h).2.symm⟩
  case inr.inr =>
    obtain ⟨_, _, _, k, hk, _, hrange, _, _, hcur⟩ := hd
    refine ⟨fun sym' s' h => ?_, fun _ _ h => by cases h⟩
    rw [← (Ran.ok.inj h).2]
    exact ⟨hlow, hrange, k, hk, hcur, fun hfits => bitsLeft_withCoder (hcur.trans (Nat.min_eq_left hfits))⟩

/-- Settles O37: an open frame admits `ACDEC`, which is one decode step. -/
theorem acdecDecodesOneSymbol : Obligations.AcdecDecodesOneSymbol := by
  intro s m ho hm hr hlow hslice
  obtain ⟨sym, c', hstep, hd, _⟩ := acStep_ok Config.env_wf hm hr hlow hslice
  refine ⟨sym, c', hd, congrArg Host.Outcome.next ?_⟩
  rw [acdec_of_open ho hm, hstep]
  rfl

end Sys2Proof.Machine
end

section
/-! `ACTNS` (R162, R169): the registers of a filter after its order and its first indices are written; all of them make the
command's result, an order or an index out of range ends it with `TNSDATA`. -/

namespace Sys2Proof.Machine

open Sys2Proof

/-- R169: `t` is `s` but for the coder and the registers of filter `f`, which hold `order` and the indices `v` below `n`. -/
structure FilterWritten (f : BitVec 1) (order n : Nat) (v : Nat → Nat) (s t : State) : Prop where
  order_eq : (tnsOf t f).order.toNat = order
  rc_eq : ∀ j, j < 8 → (vecAt (tnsOf t f).rc j).toNat = if j < n then v j else (vecAt (tnsOf s f).rc j).toNat
  start_eq : (tnsOf t f).start = (tnsOf s f).start
  stop_eq : (tnsOf t f).stop = (tnsOf s f).stop
  other_eq : tnsOf t (1 - f) = tnsOf s (1 - f)
  frame : t = { s with coder := t.coder, frm := { s.frm with tns0 := t.frm.tns0, tns1 := t.frm.tns1 } }

variable {env : Env} {s : State} {f : BitVec 1} {sym : Nat} {v : Nat → Nat} {c : Nat → Coder}

/-- R169: the order is written, then the first `n` indices. -/
theorem actnsCoefs_after_order (he : env.Wf) {n : Nat} (hn : n ≤ 8) (hsym : sym < 8) (hr : 0x10000 ≤ (c 0).range.toNat)
    (hcoefs : ∀ j, j < n →
      DecodesTo (env.rom.model (env.rom.nspec + 2 + 8 * s.frm.lowRate.toNat + j)) s (c j) (v j) (c (j + 1)) ∧ v j ≤ 16) :
    ∃ t, actnsCoefs env s.frm.lowRate.toNat f (setTnsOrder { s with coder := c 0 } f (sym + 1)) n = .ok () t ∧
      FilterWritten f (sym + 1) n v s t ∧ t.coder = c n ∧ 0x10000 ≤ t.coder.range.toNat := by
  obtain ⟨order_u, rc_u, start_u, stop_u, other_u, frame_u⟩ :=
    setTnsOrder_spec { s with coder := c 0 } f (order := sym + 1) (by omega)
  generalize setTnsOrder { s with coder := c 0 } f (sym + 1) = u at *
  have hcu : u.coder = c 0 := by rw [frame_u]
  obtain ⟨t, hrun, range_t, rc_t, order_t, start_t, stop_t, other_t, frame_t⟩ :=
    actnsCoefs_ok (s := u) (f := f) he (Bool.toNat_le s.frm.lowRate) hcu (by rwa [hcu]) n hn fun j hj =>
      ⟨(hcoefs j hj).1.congr (by rw [frame_u]) (by rw [frame_u]), (hcoefs j hj).2⟩
  refine ⟨t, hrun,
    { order_eq := (congrArg BitVec.toNat order_t).trans order_u
      rc_eq := fun j hj => by rw [rc_t j hj, rc_u]; rfl
      start_eq := start_t.trans start_u
      stop_eq := stop_t.trans stop_u
      other_eq := other_t.trans other_u
      frame := by rw [frame_t, frame_u] }, by rw [frame_t], range_t⟩

/-- Settles O38: the order's step, then the loop over all indices below the order. -/
theorem actnsDecodesOrderAndIndices : Obligations.ActnsDecodesOrderAndIndices := by
  intro s f order v c ho hr hpos hle hd hcoefs
  obtain ⟨sym, rfl⟩ : ∃ sym, order = sym + 1 := ⟨order - 1, by omega⟩
  obtain ⟨t, hrun, hw, hcoder, _⟩ := actnsCoefs_after_order (f := f) Config.env_wf hle hle hd.range_ge hcoefs
  have hexec : actns Config.env f s = finish (BitVec.ofNat 32 (sym + 1)) t := by
    rw [actns_of_open ho, actnsRun_of_order Config.env_wf hr hle hd, hrun]
    rfl
  refine ⟨_, congrArg Host.Outcome.next hexec, hw.order_eq, hw.rc_eq, hw.start_eq, hw.stop_eq, hw.other_eq, ?_⟩
  rw [hw.frame, hcoder]
  rfl

/-- R169: an order above 8 raises before a register of the filter is written. -/
theorem actnsRun_of_bad_order (he : env.Wf) (hr : 0x10000 ≤ s.coder.range.toNat) (hsym : 8 ≤ sym) {c : Coder}
    (hd : DecodesTo (env.rom.model (env.rom.nspec + s.frm.lowRate.toNat)) s s.coder sym c) :
    actnsRun env f s = .raised .tnsdata { s with coder := c } := by
  have hlr : s.frm.lowRate.toNat ≤ 1 := Bool.toNat_le s.frm.lowRate
  have hstep : acStep env (tnsOrderModel env.rom s.frm.lowRate.toNat) s = .ok sym { s with coder := c } :=
    acStep_of_decodesTo he (by unfold tnsOrderModel; omega) hr hd
  simp only [actnsRun]
  rw [hstep, ranBind_ok, if_pos (by omega)]

/-- R169: index `n` is above 16: it raises, the order and the indices before it written. -/
theorem actnsRun_of_bad_index (he : env.Wf) (hr : 0x10000 ≤ s.coder.range.toNat) (hsym : sym < 8) {n : Nat} (hn : n ≤ sym)
    (hd : DecodesTo (env.rom.model (env.rom.nspec + s.frm.lowRate.toNat)) s s.coder sym (c 0))
    (hcoefs : ∀ j, j ≤ n →
      DecodesTo (env.rom.model (env.rom.nspec + 2 + 8 * s.frm.lowRate.toNat + j)) s (c j) (v j) (c (j + 1)))
    (hgood : ∀ j, j < n → v j ≤ 16) (hbad : 16 < v n) :
    ∃ t, actnsRun env f s = .raised .tnsdata t ∧ FilterWritten f (sym + 1) n v s t ∧ t.coder = c (n + 1) := by
  have hlr : s.frm.lowRate.toNat ≤ 1 := Bool.toNat_le s.frm.lowRate
  obtain ⟨t, hrun, hw, hcoder, hrange⟩ := actnsCoefs_after_order (f := f) he (by omega : n ≤ 8) hsym hd.range_ge
    fun j hj => ⟨hcoefs j hj.le, hgood j hj⟩
  have hstep : acStep env (tnsCoefModel env.rom s.frm.lowRate.toNat n) t = .ok (v n) { t with coder := c (n + 1) } :=
    acStep_of_decodesTo he (by unfold tnsCoefModel; omega) hrange
      (hcoder ▸ (hcoefs n le_rfl).congr (by rw [hw.frame]) (by rw [hw.frame]))
  have hraised : actnsCoefs env s.frm.lowRate.toNat f (setTnsOrder { s with coder := c 0 } f (sym + 1)) (n + 1) =
      .raised .tnsdata { t with coder := c (n + 1) } := by
    rw [actnsCoefs, hrun, ranBind_ok, hstep, ranBind_ok, if_pos hbad]
  refine ⟨{ t with coder := c (n + 1) }, ?_,
    ⟨hw.order_eq, hw.rc_eq, hw.start_eq, hw.stop_eq, hw.other_eq, by rw [hw.frame]⟩, rfl⟩
  rw [actnsRun_of_order he hr hsym hd, actnsCoefs_raised_of_le hraised (by omega), ranBind_raised]

/-- Settles O39: the two raises end the command where they stand. -/
theorem actnsRaisesTnsdata : Obligations.ActnsRaisesTnsdata := by
  refine ⟨fun _ _ => rfl, fun env s f sym c he ho hr hd => ⟨fun hsym => ?_, fun hsym v n hn hcoefs hgood hbad => ?_⟩⟩
  · exact (actns_of_open ho f).trans (endRan_of_raised (actnsRun_of_bad_order he hr hsym hd) ho.good)
  · obtain ⟨t, hrun, hw, hcoder⟩ := actnsRun_of_bad_index (f := f) he hr hsym hn hd hcoefs hgood hbad
    have hbec : t.bec = false := by rw [hw.frame]; exact ho.good
    rw [(actns_of_open ho f).trans (endRan_of_raised hrun hbec)]
    exact ⟨hw.order_eq, hw.rc_eq, hw.start_eq, hw.stop_eq, hw.other_eq, by rw [hw.frame, hcoder]⟩

end Sys2Proof.Machine
end

section
/-! `ACPAIR` (R171 to R177): what a commit writes, the bound on the escapes, and the two ends of a pair that is committed, its
result or a collision. -/

namespace Sys2Proof.Machine

open Sys2Proof

variable {env : Env} {s : State}

/-! ### What a commit writes (R171, R174, R177) -/

theorem pairClass_eq (p : Pair) : pairClass p = contextClass p.lev p.sym := by
  have hsym : p.sym >>> 2 = p.sym / 4 := Nat.shiftRight_eq_div_pow p.sym 2
  unfold pairClass contextClass
  by_cases hlev : p.lev ≤ 1
  · simp only [Nat.min_eq_left (hlev.trans (by decide : 1 ≤ 3)), if_pos hlev, and_three, hsym]
  · rw [if_neg (by omega), if_neg hlev]

/-- R174: a class fits the four bits it has in the context. -/
theorem contextClass_lt (lev : Nat) {sym : Nat} (hsym : sym < 16) : contextClass lev sym < 16 := by
  unfold contextClass
  split
  next hlev =>
    have hmul : (sym % 4 + sym / 4) * (lev + 1) ≤ 6 * 2 := Nat.mul_le_mul (by omega) (by omega)
    omega
  next => omega

theorem nextContext_toNat (ctx : BitVec 8) {p : Pair} (hsym : p.sym < 16) :
    (nextContext ctx p).toNat = ctx.toNat % 16 * 16 + contextClass p.lev p.sym := by
  have hlow : ctx.toNat &&& 15 = ctx.toNat % 16 := Nat.and_two_pow_sub_one_eq_mod ctx.toNat 4
  have hclass := contextClass_lt p.lev hsym
  rw [nextContext, BitVec.toNat_ofNat, hlow, pairClass_eq, Nat.mod_eq_of_lt (by omega)]

/-- R177: level and symbol share no bit of the result. -/
theorem pairResult_eq {p : Pair} (hlev : p.lev < 16) : pairResult p = BitVec.ofNat 32 (p.lev + 16 * p.sym) := by
  have hor : p.lev ||| p.sym <<< 4 = p.lev + 16 * p.sym := by
    rw [Nat.shiftLeft_eq, Nat.mul_comm, Nat.or_comm, ← Nat.two_pow_add_eq_or_of_lt hlev, Nat.add_comm]
  rw [pairResult, hor]

theorem specK_add_two_toNat (hk : s.frm.specK.toNat + 2 ≤ s.cfg.ne.toNat) :
    (s.frm.specK + 2).toNat = s.frm.specK.toNat + 2 := by
  have hne := s.cfg.ne.isLt
  have htwo : (2 : BitVec 10).toNat = 2 := rfl
  rw [BitVec.toNat_add, htwo, Nat.mod_eq_of_lt (by omega)]

/-- R171: the spectrum holds the pair at `SPEC_K` and above it, and every other bin stays. -/
theorem memRead_pairCommit (hx : Memory.wf 1024 s.x = true) (p : Pair) (i : Nat) :
    memRead (pairCommit env p s).x i =
      if i = s.frm.specK.toNat then env.num.ofInt p.qa
      else if i = s.frm.specK.toNat + 1 then env.num.ofInt p.qb
      else memRead s.x i := by
  have hfirst := Memory.wf_memWrite hx s.frm.specK.isLt (env.num.ofInt p.qa)
  rw [pairCommit_x, memRead_memWrite hfirst, memRead_memWrite hx]
  exact ite_ite_comm _ _ _ _ fun hi => by omega

/-! ### Escapes without end (R176) -/

/-- Settles O41: the scan of a pair ends at its bound. -/
theorem acpairBoundsEscapeLevels : Obligations.AcpairBoundsEscapeLevels :=
  ⟨fun _ => rfl, fun _ _ _ he ho heven hk hr hesc =>
    (acpair_of_open ho heven hk).trans (endRan_of_raised (pairDecode_bound he hr hesc) ho.good)⟩

/-! ### The two ends of a committed pair (R175, R303) -/

/-- R171, R177: a decoded pair that leaves no negative `BITS_LEFT` ends the command with its result. -/
theorem acpair_of_decoded (ho : Open s) (heven : s.frm.specK.toNat % 2 = 0)
    (hk : s.frm.specK.toNat + 2 ≤ s.cfg.ne.toNat) {p : Pair} {t : State} (hdecode : pairDecode env s = .ok p t)
    (hleft : 0 ≤ bitsLeft t) : acpair env s = finish (pairResult p) (pairCommit env p t) := by
  rw [acpair_of_open ho heven hk, hdecode]
  exact if_neg (show ¬bitsLeft t < 0 from not_lt.mpr hleft)

/-- R175: a decoded pair that leaves a negative `BITS_LEFT` is committed all the same. -/
theorem acpair_of_collision (ho : Open s) (heven : s.frm.specK.toNat % 2 = 0)
    (hk : s.frm.specK.toNat + 2 ≤ s.cfg.ne.toNat) {p : Pair} {t : State} (hdecode : pairDecode env s = .ok p t)
    (hleft : bitsLeft t < 0) : acpair env s = raiseKeep .collision (pairResult p) (pairCommit env p t) := by
  rw [acpair_of_open ho heven hk, hdecode]
  exact if_pos hleft

/-! ### A pair with its tail bits (R171, R173) -/

/-- R171: the decode of a pair whose tail bits are left; the tail reader moves on by them. -/
theorem pairDecode_enough (he : env.Wf) {lev sym : Nat} {c : Nat → Coder} (hr : 0x10000 ≤ s.coder.range.toNat)
    (hfront : 3 ≤ s.coder.cur.toNat) (hlev : lev ≤ 13) (hsym : sym < 16) (hesc : Escapes env.rom s lev c)
    (hd : DecodesTo (levelModel env.rom s lev) s (c lev) sym (c (lev + 1)))
    (henough : (pairTailBits s lev sym : Int) ≤ bitsLeft { s with coder := c (lev + 1) }) :
    ∃ r, Moved (pairTailBits s lev sym) { s with coder := c (lev + 1) } r ∧
      pairDecode env s =
        .ok { lev := lev, sym := sym, qa := pairFirst s lev sym, qb := pairSecond s lev sym }
          { s with coder := c (lev + 1), reader := r } := by
  have hfront' : 3 ≤ (c (lev + 1)).cur.toNat := hd.front (hesc.front hfront lev le_rfl)
  rw [pairDecode_eq he hr hlev hesc hd hsym]
  rcases pairValues_outcome (sym := sym) (s := { s with coder := c (lev + 1) }) hlev hfront' with ⟨_, hshort, _⟩ | ⟨_, h⟩
  · change bitsLeft { s with coder := c (lev + 1) } < pairTailBits s lev sym at hshort
    omega
  · exact h

/-- Settles O40: the pair is decoded and committed, and what is left is not negative. -/
theorem acpairDecodesAPair : Obligations.AcpairDecodesAPair := by
  intro s lev sym c ho hx heven hk hr hfront hlev hsym hesc hd henough
  obtain ⟨r, hmoved, hdecode⟩ := pairDecode_enough Config.env_wf hr hfront hlev hsym hesc hd henough
  have hmove : bitsLeft { s with coder := c (lev + 1), reader := r } =
      bitsLeft { s with coder := c (lev + 1) } - pairTailBits s lev sym := hmoved.bitsLeft
  refine ⟨_, congrArg Host.Outcome.next (acpair_of_decoded ho heven hk hdecode (by omega)),
    memRead_pairCommit (s := { s with coder := c (lev + 1), reader := r }) hx _, hmoved.brPos, fun j _ => hmoved.bits j,
    nextContext_toNat _ hsym, specK_add_two_toNat hk, ?_⟩
  rw [pairResult_eq (show lev < 16 by omega)]
  rfl

/-! ### A pair without tail bits (R171, R175) -/

/-- R171: two zeros with no plane of raw bits take no read. -/
theorem pairValues_zero {lev : Nat} (hlev : lev ≤ s.frm.lsbMode.toNat) :
    pairValues lev 0 s = .ok { lev := lev, sym := 0, qa := 0, qb := 0 } s := by
  have hraw : rawBits s.frm.lsbMode lev = 0 := if_neg (by omega)
  simp [pairValues, hraw, readRaw, readSign, deinterleave]

/-- Settles O42: the pair is decoded without a read and committed, and what is left is negative. -/
theorem acpairCollisionKeepsThePair : Obligations.AcpairCollisionKeepsThePair := by
  intro s lev c ho hx heven hk hr hlev hesc hd hneg
  have hlsb : s.frm.lsbMode.toNat ≤ 1 := Bool.toNat_le s.frm.lsbMode
  have hdecode : pairDecode Config.env s =
      .ok { lev := lev, sym := 0, qa := 0, qb := 0 } { s with coder := c (lev + 1) } :=
    (pairDecode_eq Config.env_wf hr (by omega) hesc hd (by decide)).trans
      (pairValues_zero (s := { s with coder := c (lev + 1) }) hlev)
  refine ⟨_, congrArg Host.Outcome.next (acpair_of_collision ho heven hk hdecode hneg), fun i => ?_,
    nextContext_toNat _ (show 0 < 16 by decide), specK_add_two_toNat hk, ?_⟩
  · rw [raiseKeep_x, memRead_pairCommit (s := { s with coder := c (lev + 1) }) hx, Config.env_wf.num.ofInt_zero, ← ite_or]
    rfl
  · rw [pairResult_eq (show lev < 16 by omega), raiseKeep, setBec, pairCommit_bec, ho.good]
    rfl

end Sys2Proof.Machine
end

section
/-! Noise filling (R191, R192): what a whole run of `NFILL` leaves, bin by bin, and its registers. -/

namespace Sys2Proof.Machine

open Sys2Proof

variable {env : Env} {s : State}

/-- R191: what the fill of all bins that may be filled ends with. -/
abbrev noiseDone (env : Env) (s : State) : NoiseAcc Sample := noiseFill env s (noiseStop s - s.cfg.nfstart.toNat)

/-- R191: how many bins below bin `k` a run fills. -/
def filledBelow (env : Env) (s : State) (k : Nat) : Nat := (noiseFill env s (k - s.cfg.nfstart.toNat)).count

/-- R192: the generator is linear-congruential modulo 65536. -/
theorem lcg_toNat (p : Params) (seed : BitVec 16) : (lcg p seed).toNat = (p.lcgA * seed.toNat + p.lcgC) % 65536 :=
  BitVec.toNat_ofNat ..

theorem noiseLevel_cast : (noiseLevel s : Int) = 8 - (s.frm.nfLevel.toNat : Int) := by
  have := s.frm.nfLevel.isLt
  unfold noiseLevel
  omega

theorem noiseStop_lt : noiseStop s < 1024 := lt_of_le_of_lt (Nat.min_le_left _ _) s.frm.bwStop.isLt

/-- The bins of a run stand within the spectrum, also when the first lies past the last. -/
theorem noiseRange_le : s.cfg.nfstart.toNat + (noiseStop s - s.cfg.nfstart.toNat) ≤ 1024 := by
  have := s.cfg.nfstart.isLt
  have := noiseStop_lt (s := s)
  omega

/-! ### The bins -/

theorem filledBelow_of_le_start {k : Nat} (hk : k ≤ s.cfg.nfstart.toNat) : filledBelow env s k = 0 := by
  rw [filledBelow, Nat.sub_eq_zero_of_le hk]
  rfl

/-- R191: the last bin of a run ends its count. -/
theorem filledBelow_end : filledBelow env s (max s.cfg.nfstart.toNat (noiseStop s)) = (noiseDone env s).count := by
  have : max s.cfg.nfstart.toNat (noiseStop s) - s.cfg.nfstart.toNat = noiseStop s - s.cfg.nfstart.toNat := by omega
  rw [filledBelow, this]

/-- R191: a gap counts, takes the amplitude with the sign of the generator's next value, and lies below `hi`. -/
theorem noiseDone_gap (hx : Memory.wf 1024 s.x = true) {k : Nat} (hstart : s.cfg.nfstart.toNat ≤ k)
    (hstop : k < noiseStop s) (hgap : GapAt env.num s (noiseStop s) k) :
    filledBelow env s (k + 1) = filledBelow env s k + 1 ∧
      memRead (noiseDone env s).x k =
        env.num.ofInt (if ((lcg env.param)^[filledBelow env s (k + 1)] s.frm.nfSeed).toNat < 0x8000 then
          8 - (s.frm.nfLevel.toNat : Int) else -(8 - (s.frm.nfLevel.toNat : Int))) ∧
      k < (noiseDone env s).hi := by
  obtain ⟨j, rfl⟩ := Nat.exists_eq_add_of_le hstart
  have hread := ((noiseFill_read (env := env) hx _ noiseRange_le).2 j (by omega)).1 ((isGap_iff _ _ _ _ hstop).mpr hgap)
  rw [← noiseLevel_cast, apply_ite env.num.ofInt]
  simpa only [filledBelow, Nat.add_assoc, Nat.add_sub_cancel_left] using hread

/-- R191: a bin of the run that is no gap does not count and stays. -/
theorem noiseDone_not_gap (hx : Memory.wf 1024 s.x = true) {k : Nat} (hstart : s.cfg.nfstart.toNat ≤ k)
    (hstop : k < noiseStop s) (hgap : ¬GapAt env.num s (noiseStop s) k) :
    filledBelow env s (k + 1) = filledBelow env s k ∧ memRead (noiseDone env s).x k = memRead s.x k := by
  obtain ⟨j, rfl⟩ := Nat.exists_eq_add_of_le hstart
  have hread := ((noiseFill_read (env := env) hx _ noiseRange_le).2 j (by omega)).2
    (Bool.eq_false_iff.mpr (mt (isGap_iff _ _ _ _ hstop).mp hgap))
  simpa only [filledBelow, Nat.add_assoc, Nat.add_sub_cancel_left] using hread

theorem noiseDone_outside (hx : Memory.wf 1024 s.x = true) {k : Nat} (hk : k < s.cfg.nfstart.toNat ∨ noiseStop s ≤ k) :
    memRead (noiseDone env s).x k = memRead s.x k :=
  (noiseFill_read hx _ noiseRange_le).1 k (by omega)

/-! ### The highest bin filled -/

/-- R191: nothing was filled, or `hi` is one past a gap of the run. -/
theorem noiseDone_hi :
    ((noiseDone env s).count = 0 ∧ (noiseDone env s).hi = 0) ∨
      0 < (noiseDone env s).count ∧
        ∃ k, (noiseDone env s).hi = k + 1 ∧ s.cfg.nfstart.toNat ≤ k ∧ k < noiseStop s ∧
          GapAt env.num s (noiseStop s) k := by
  refine (noiseFill_hi _).imp_right fun ⟨hpos, j, hj, hhi, hgap⟩ => ?_
  have hstop : s.cfg.nfstart.toNat + j < noiseStop s := by omega
  exact ⟨hpos, _, hhi, Nat.le_add_right _ _, hstop, (isGap_iff _ _ _ _ hstop).mp hgap⟩

theorem noiseDone_hi_le : (noiseDone env s).hi ≤ noiseStop s := by
  rcases noiseDone_hi (env := env) (s := s) with ⟨_, hhi⟩ | ⟨_, k, hhi, _, hstop, _⟩ <;> omega

theorem noiseDone_count_lt : (noiseDone env s).count < 1024 :=
  calc (noiseDone env s).count
    _ ≤ noiseStop s - s.cfg.nfstart.toNat := noiseFill_count_le _
    _ ≤ noiseStop s := Nat.sub_le _ _
    _ < 1024 := noiseStop_lt

/-! ### The command -/

theorem nfillBody_of_zero (hz : s.frm.zero = true) : nfillBody env s = finish 0 s := if_pos hz

/-- R191: the result of a run. `hi` is 0 when nothing was filled, so `LASTNZ` is the greater of the two in either case. -/
theorem nfillBody_of_not_zero (hz : s.frm.zero = false) :
    nfillBody env s = finish (BitVec.ofNat 32 (noiseDone env s).count)
      { s with
        x := (noiseDone env s).x
        frm :=
          { s.frm with
            nfSeed := (noiseDone env s).seed
            lastnz := BitVec.ofNat 10 (max s.frm.lastnz.toNat (noiseDone env s).hi) } } := by
  have hlast : (if 0 < (noiseDone env s).count then BitVec.ofNat 10 (max s.frm.lastnz.toNat (noiseDone env s).hi)
      else s.frm.lastnz) = BitVec.ofNat 10 (max s.frm.lastnz.toNat (noiseDone env s).hi) := by
    split
    · rfl
    · next hcount =>
      obtain ⟨_, hhi⟩ := noiseDone_hi.resolve_right (mt And.left hcount)
      rw [hhi, Nat.max_zero, BitVec.ofNat_toNat, BitVec.setWidth_eq]
  rw [← hlast]
  exact if_neg (by rw [hz]; decide)

theorem nfillBody_res_toNat (hz : s.frm.zero = false) : (nfillBody env s).res.toNat = (noiseDone env s).count := by
  have hcount := noiseDone_count_lt (env := env) (s := s)
  rw [nfillBody_of_not_zero hz, finish_res, BitVec.toNat_ofNat, Nat.mod_eq_of_lt (by omega)]

theorem nfillBody_lastnz_toNat (hz : s.frm.zero = false) :
    (nfillBody env s).frm.lastnz.toNat = max s.frm.lastnz.toNat (noiseDone env s).hi := by
  have hhi := noiseDone_hi_le (env := env) (s := s)
  have hstop := noiseStop_lt (s := s)
  have hlast := s.frm.lastnz.isLt
  rw [nfillBody_of_not_zero hz, finish_frm, BitVec.toNat_ofNat, Nat.mod_eq_of_lt (by omega)]

/-- R191: `LASTNZ` changes only to one past a gap of the run. -/
theorem nfillBody_lastnz_changed (hz : s.frm.zero = false) (h : (nfillBody env s).frm.lastnz ≠ s.frm.lastnz) :
    ∃ k, (nfillBody env s).frm.lastnz.toNat = k + 1 ∧ s.cfg.nfstart.toNat ≤ k ∧ k < noiseStop s ∧
      GapAt env.num s (noiseStop s) k := by
  have hlast := nfillBody_lastnz_toNat (env := env) hz
  have hraised : (nfillBody env s).frm.lastnz.toNat ≠ s.frm.lastnz.toNat := mt BitVec.eq_of_toNat_eq h
  rcases noiseDone_hi (env := env) (s := s) with ⟨_, hhi⟩ | ⟨_, k, hhi, hgap⟩
  · omega
  · exact ⟨k, by omega, hgap⟩

theorem exec_nfill_of_open (ho : Open s) : exec .nfill s = .next (nfillBody Config.env s) := by
  rw [exec_nfill, admission_of_open (i := .nfill) _ rfl ho]

/-- Settles O44: the run fills each gap as its bin comes, and the registers follow from the last. -/
theorem nfillFillsTheGaps : Obligations.NfillFillsTheGaps := by
  refine ⟨lcg_toNat, fun s ho hx => ⟨fun hz => ?_, fun hz => ?_⟩⟩
  · rw [exec_nfill_of_open ho, nfillBody_of_zero hz]
    rfl
  · have hrun := nfillBody_of_not_zero (env := Config.env) hz
    have hxrun : (nfillBody Config.env s).x = (noiseDone Config.env s).x := by rw [hrun]; rfl
    have hres := nfillBody_res_toNat (env := Config.env) hz
    have hlast := nfillBody_lastnz_toNat (env := Config.env) hz
    refine ⟨nfillBody Config.env s, filledBelow Config.env s, exec_nfill_of_open ho, fun _ => filledBelow_of_le_start,
      fun k hstart hstop => ⟨fun hgap => ?gap, fun hgap => ?noGap⟩, fun k hk => ?outside, ?res, ?seed,
      hlast ▸ Nat.le_max_left _ _, fun hne => ?lastnz, ?frame⟩
    case gap =>
      obtain ⟨hcount, hread, hhi⟩ := noiseDone_gap hx hstart hstop hgap
      exact ⟨hcount, hxrun ▸ hread, hlast ▸ lt_max_of_lt_right hhi⟩
    case noGap =>
      obtain ⟨hcount, hread⟩ := noiseDone_not_gap hx hstart hstop hgap
      exact ⟨hcount, hxrun ▸ hread⟩
    case outside => exact hxrun ▸ noiseDone_outside hx hk
    case res => exact hres.trans filledBelow_end.symm
    case seed =>
      rw [hres, hrun]
      exact noiseFill_seed _
    case lastnz =>
      obtain ⟨k, hk, hstart, hstop, hgap⟩ := nfillBody_lastnz_changed hz hne
      exact ⟨k, hk, hstart, hstop, (noiseDone_gap hx hstart hstop hgap).1⟩
    case frame =>
      rw [hrun]
      rfl

end Sys2Proof.Machine
end

section
/-! TNS synthesis (R201 to R204): the two filters of a whole `TNSSYN`, one after the other, and its registers. -/

namespace Sys2Proof.Machine

open Sys2Proof

variable {env : Env} {s : State} {a : TnsAcc Sample} {t : TnsFilter}

/-! ### One filter of the cascade -/

theorem tnsFilterRun_of_order_zero (h : t.order = 0#4) : tnsFilterRun env a t = a := if_pos h

theorem tnsFilterRun_lastnz :
    (tnsFilterRun env a t).lastnz = max a.lastnz (if t.order ≠ 0#4 then t.stop.toNat else 0) := by
  by_cases h : t.order = 0#4 <;> simp [tnsFilterRun, h]

theorem tnsFilterRun_ran : (tnsFilterRun env a t).ran = a.ran + if t.order ≠ 0#4 then 1 else 0 := by
  by_cases h : t.order = 0#4 <;> simp [tnsFilterRun, h]

/-- R201: a filter that passes the admission check filters its sub-range as the rule states it. -/
theorem tnsFilterRun_filters {ne : Nat} (hx : Memory.wf 1024 a.x = true) (hok : TnsFilterOk ne t) :
    TnsFilters env t (memRead a.x) (memRead (tnsFilterRun env a t).x) (vecAt a.mem) (vecAt (tnsFilterRun env a t).mem) := by
  by_cases h0 : t.order = 0#4
  · rw [tnsFilterRun_of_order_zero h0, TnsFilters, if_pos h0]
    exact ⟨rfl, fun _ _ => rfl⟩
  · obtain ⟨horder, hrange⟩ := hok
    have hpos : 0 < t.order.toNat := Nat.pos_of_ne_zero fun h => h0 (BitVec.eq_of_toNat_eq h)
    obtain ⟨hstart, -, -⟩ := hrange hpos
    have hstop := t.stop.isLt
    have hrun := latticeRun_filters (num := env.num) (coef := fun j => env.rom.tnsRcTab (vecAt t.rc j).toNat)
      (lo := t.start.toNat) (mem := a.mem) hx hpos horder (t.stop.toNat - t.start.toNat) (by omega)
    rw [Nat.add_sub_of_le hstart] at hrun
    rw [TnsFilters, if_neg h0, tnsFilterRun, if_neg h0]
    exact hrun

/-! ### The cascade -/

/-- R201: a filter of the cascade that is run only when `NTNS` admits it, which `c` says. -/
def tnsFilterIf (env : Env) (c : Prop) [Decidable c] (a : TnsAcc Sample) (t : TnsFilter) : TnsAcc Sample :=
  if c then tnsFilterRun env a t else a

section conditional

variable {c : Prop} [Decidable c]

theorem tnsFilterIf_pos (h : c) : tnsFilterIf env c a t = tnsFilterRun env a t := if_pos h

theorem tnsFilterIf_neg (h : ¬c) : tnsFilterIf env c a t = a := if_neg h

theorem tnsFilterIf_wf (hx : Memory.wf 1024 a.x = true) : Memory.wf 1024 (tnsFilterIf env c a t).x = true := by
  unfold tnsFilterIf
  split
  · exact tnsFilterRun_wf hx t
  · exact hx

theorem tnsFilterIf_lastnz :
    (tnsFilterIf env c a t).lastnz = max a.lastnz (if c ∧ t.order ≠ 0#4 then t.stop.toNat else 0) := by
  by_cases h : c
  · rw [tnsFilterIf_pos h, tnsFilterRun_lastnz]
    simp only [h, true_and]
  · rw [tnsFilterIf_neg h]
    simp [h]

theorem tnsFilterIf_ran : (tnsFilterIf env c a t).ran = a.ran + if c ∧ t.order ≠ 0#4 then 1 else 0 := by
  by_cases h : c
  · rw [tnsFilterIf_pos h, tnsFilterRun_ran]
    simp only [h, true_and]
  · rw [tnsFilterIf_neg h]
    simp [h]

end conditional

/-- R203: what the cascade starts with, the memory cells cleared. -/
def tnsCleared (s : State) : TnsAcc Sample :=
  { mem := Vector.replicate 8 0, x := s.x, lastnz := s.frm.lastnz.toNat, ran := 0 }

/-- R201: what the cascade holds between its two filters. -/
def tnsMid (env : Env) (s : State) : TnsAcc Sample := tnsFilterIf env (1 ≤ s.frm.ntns.toNat) (tnsCleared s) s.frm.tns0

/-- R32, R201: filter `f` is active when `f` is below `NTNS`. -/
theorem tnsActive_eq : tnsActive s =
    (if 1 ≤ s.frm.ntns.toNat then [s.frm.tns0] else []) ++ if 2 ≤ s.frm.ntns.toNat then [s.frm.tns1] else [] := by
  unfold tnsActive
  match h : s.frm.ntns.toNat with
  | 0 => rfl
  | 1 => rfl
  | n + 2 => simp

/-- R201: the cascade is filter 0 and then filter 1, each where `NTNS` admits it. -/
theorem tnsRun_eq : tnsRun env s = tnsFilterIf env (2 ≤ s.frm.ntns.toNat) (tnsMid env s) s.frm.tns1 := by
  have hif (c : Prop) [Decidable c] (a : TnsAcc Sample) (t : TnsFilter) :
      (if c then [t] else []).foldl (tnsFilterRun env) a = tnsFilterIf env c a t := by
    unfold tnsFilterIf
    split <;> rfl
  rw [tnsRun, tnsActive_eq, List.foldl_append, hif, hif]
  rfl

theorem tnsRun_lastnz : (tnsRun env s).lastnz =
    max (max s.frm.lastnz.toNat (if 1 ≤ s.frm.ntns.toNat ∧ s.frm.tns0.order ≠ 0#4 then s.frm.tns0.stop.toNat else 0))
      (if 2 ≤ s.frm.ntns.toNat ∧ s.frm.tns1.order ≠ 0#4 then s.frm.tns1.stop.toNat else 0) := by
  rw [tnsRun_eq, tnsFilterIf_lastnz, tnsMid, tnsFilterIf_lastnz, tnsCleared]

theorem tnsRun_ran : (tnsRun env s).ran =
    (if 1 ≤ s.frm.ntns.toNat ∧ s.frm.tns0.order ≠ 0#4 then 1 else 0) +
      if 2 ≤ s.frm.ntns.toNat ∧ s.frm.tns1.order ≠ 0#4 then 1 else 0 := by
  rw [tnsRun_eq, tnsFilterIf_ran, tnsMid, tnsFilterIf_ran, tnsCleared, Nat.zero_add]

/-- R32: `LASTNZ` does not wrap, since it and both ends are 10-bit registers. -/
theorem tnsRun_lastnz_lt : (tnsRun env s).lastnz < 1024 := by
  have := s.frm.lastnz.isLt
  have := s.frm.tns0.stop.isLt
  have := s.frm.tns1.stop.isLt
  rw [tnsRun_lastnz]
  split <;> split <;> omega

theorem tnsRun_ran_le : (tnsRun env s).ran ≤ 2 := by
  rw [tnsRun_ran]
  split <;> split <;> omega

/-- R200, R201: a cascade whose filters all have order 0 runs none of them. -/
theorem tnsRun_of_orders_zero (h : ∀ t ∈ tnsActive s, t.order = 0#4) : tnsRun env s = tnsCleared s :=
  List.foldlRecOn (motive := fun a => a = tnsCleared s) (tnsActive s) (tnsFilterRun env) rfl
    fun _ ha t ht => (tnsFilterRun_of_order_zero (h t ht)).trans ha

/-! ### The command -/

/-- R200, R201: with its filters admitted, `TNSSYN` ends with what the cascade ends with; passing over a cascade of order 0
is running it. -/
theorem tnssynBody_of_ok (hok : ∀ t ∈ tnsActive s, TnsFilterOk s.cfg.ne.toNat t) :
    tnssynBody env s = finish (BitVec.ofNat 32 (tnsRun env s).ran)
      { s with x := (tnsRun env s).x, frm := { s.frm with lastnz := BitVec.ofNat 10 (tnsRun env s).lastnz } } := by
  have hall : (tnsActive s).all (tnsFilterOk s.cfg.ne.toNat) = true :=
    List.all_eq_true.mpr fun t ht => tnsFilterOk_iff.mpr (hok t ht)
  rw [tnssynBody, if_neg (by simp [hall])]
  split_ifs with hzero
  · have hrun : tnsRun env s = tnsCleared s :=
      tnsRun_of_orders_zero fun t ht => eq_of_beq (List.all_eq_true.mp hzero t ht)
    have hlast : BitVec.ofNat 10 (tnsCleared s).lastnz = s.frm.lastnz := by
      rw [tnsCleared, BitVec.ofNat_toNat, BitVec.setWidth_eq]
    rw [hrun, hlast]
    rfl
  · rfl

theorem tnsActive_ok (h0 : 1 ≤ s.frm.ntns.toNat → TnsFilterOk s.cfg.ne.toNat s.frm.tns0)
    (h1 : 2 ≤ s.frm.ntns.toNat → TnsFilterOk s.cfg.ne.toNat s.frm.tns1) :
    ∀ t ∈ tnsActive s, TnsFilterOk s.cfg.ne.toNat t := by
  intro t ht
  rw [tnsActive_eq, List.mem_append, List.mem_ite_nil_right, List.mem_ite_nil_right, List.mem_singleton,
    List.mem_singleton] at ht
  rcases ht with ⟨hn, rfl⟩ | ⟨hn, rfl⟩
  · exact h0 hn
  · exact h1 hn

/-- Settles O46: the cascade is filter 0 and then filter 1, each the rule's lattice from where the one before it ended. -/
theorem tnssynRunsTheLattice : Obligations.TnssynRunsTheLattice := by
  intro s ho hx h0 h1
  have hbody := tnssynBody_of_ok (env := Config.env) (tnsActive_ok h0 h1)
  have hcells : vecAt (tnsCleared s).mem = fun _ => Sample.zero := funext (vecAt_replicate 8)
  have hmid : Memory.wf 1024 (tnsMid Config.env s).x = true := tnsFilterIf_wf hx
  refine ⟨tnssynBody Config.env s, memRead (tnsMid Config.env s).x, vecAt (tnsMid Config.env s).mem,
    vecAt (tnsRun Config.env s).mem, ?exec, ?filter0, ?filter1, ?lastnz, ?res, ?frame⟩
  case exec => rw [exec_tnssyn, admission_of_open (i := .tnssyn) _ rfl ho]
  case filter0 =>
    rw [tnsMid, ← hcells]
    split_ifs with hn
    · rw [tnsFilterIf_pos hn]
      exact tnsFilterRun_filters hx (h0 hn)
    · rw [tnsFilterIf_neg hn]
      exact ⟨rfl, vecAt_replicate 8⟩
  case filter1 =>
    rw [hbody, finish_x, tnsRun_eq]
    split_ifs with hn
    · rw [tnsFilterIf_pos hn]
      exact tnsFilterRun_filters hmid (h1 hn)
    · rw [tnsFilterIf_neg hn]
  case lastnz =>
    rw [hbody, finish_frm, BitVec.toNat_ofNat, Nat.mod_eq_of_lt tnsRun_lastnz_lt, tnsRun_lastnz]
  case res =>
    have hran := tnsRun_ran_le (env := Config.env) (s := s)
    rw [hbody, finish_res, BitVec.toNat_ofNat, Nat.mod_eq_of_lt (by omega), tnsRun_ran]
  case frame =>
    rw [hbody]
    rfl

end Sys2Proof.Machine
end

section
/-! The pulse vector of the spectral envelope (R213 to R216): the offset table's recurrence and boundary values, the
de-enumeration as the rule's walk over that table, and the pulses and the energy of a vector whose index its class admits. -/

namespace Sys2Proof.Machine

open Sys2Proof

/-! ### The offset table (R214) -/

@[simp] theorem mpvqNext_length (prev left : Nat) (row : List Nat) : (mpvqNext prev left row).length = row.length := by
  induction row generalizing prev left with
  | nil => rfl
  | cons a rest ih => exact congrArg (· + 1) (ih a (a + prev + left))

/-- R214: the recurrence along a row, which starts with `left`, from the row before it, which starts with `prev`. -/
theorem mpvqNext_getD (prev left : Nat) (row : List Nat) (k : Nat) (hk : k < row.length) :
    (left :: mpvqNext prev left row).getD (k + 1) 0 =
      (prev :: row).getD (k + 1) 0 + (prev :: row).getD k 0 + (left :: mpvqNext prev left row).getD k 0 := by
  induction row generalizing prev left k with
  | nil => exact absurd hk (Nat.not_lt_zero k)
  | cons a rest ih =>
    cases k with
    | zero => rfl
    | succ k => exact ih a (a + prev + left) k (Nat.lt_of_succ_lt_succ hk)

/-- R214: each row has 12 entries, and the next one starts with 0. -/
theorem mpvqRow_shape (n : Nat) :
    ∃ a rest, mpvqRow n = a :: rest ∧ rest.length = 11 ∧ mpvqRow (n + 1) = 0 :: mpvqNext a 0 rest := by
  induction n with
  | zero => exact ⟨_, _, rfl, rfl, rfl⟩
  | succ n ih =>
    obtain ⟨a, rest, -, hlen, hnext⟩ := ih
    exact ⟨0, mpvqNext a 0 rest, hnext, (mpvqNext_length ..).trans hlen, by rw [mpvqRow, hnext]⟩

@[simp] theorem mpvqA_zero_zero : mpvqA 0 0 = 1 := rfl

@[simp] theorem mpvqA_zero_succ (k : Nat) : mpvqA 0 (k + 1) = 0 :=
  List.getElem?_getD_replicate_default_eq 0 11 k

@[simp] theorem mpvqA_succ_zero (n : Nat) : mpvqA (n + 1) 0 = 0 := by
  obtain ⟨a, rest, -, -, hnext⟩ := mpvqRow_shape n
  rw [mpvqA, hnext]
  rfl

theorem mpvqA_succ_succ (n : Nat) {k : Nat} (hk : k ≤ 10) :
    mpvqA (n + 1) (k + 1) = mpvqA n (k + 1) + mpvqA n k + mpvqA (n + 1) k := by
  obtain ⟨a, rest, hrow, hlen, hnext⟩ := mpvqRow_shape n
  simp only [mpvqA, hnext, hrow]
  exact mpvqNext_getD a 0 rest k (by omega)

@[simp] theorem mpvqA_succ_one (n : Nat) : mpvqA (n + 1) 1 = 1 := by
  induction n with
  | zero => rfl
  | succ n ih => rw [mpvqA_succ_succ _ (Nat.zero_le 10), ih, mpvqA_succ_zero, mpvqA_succ_zero]

/-- Settles O47: the entry after entry `k` of a row is the recurrence's. -/
theorem offsetTableRecurrence : Obligations.OffsetTableRecurrence := by
  refine ⟨mpvqA_zero_zero, fun k hk => ?_, fun n hn => ?_, fun n k h1 hk => ?_⟩
  · obtain ⟨j, rfl⟩ := Nat.exists_eq_add_of_lt hk
    rw [Nat.zero_add, mpvqA_zero_succ]
  · obtain ⟨m, rfl⟩ := Nat.exists_eq_add_of_le' hn
    exact mpvqA_succ_zero m
  · obtain ⟨j, rfl⟩ := Nat.exists_eq_add_of_le' h1
    exact mpvqA_succ_succ n (by omega)

/-! ### The class sizes (R213) -/

/-- R213: how many indices the vectors of `n` elements with `k` pulses have. -/
def classSize (n k : Nat) : Nat := (mpvqA n k + mpvqA n (k + 1)) / 2

theorem classSize_zero_succ (k : Nat) : classSize 0 (k + 1) = 0 := by
  simp only [classSize, mpvqA_zero_succ]

/-- The sum of two neighbouring entries is even, so a class size is its half without rounding. -/
theorem two_dvd_mpvqA_add_succ (n : Nat) {k : Nat} (h1 : 1 ≤ k) (hk : k ≤ 10) : 2 ∣ mpvqA n k + mpvqA n (k + 1) := by
  induction n with
  | zero =>
    obtain ⟨j, rfl⟩ := Nat.exists_eq_add_of_le' h1
    simp
  | succ n ih =>
    rw [mpvqA_succ_succ n hk]
    omega

theorem two_mul_classSize (n : Nat) {k : Nat} (h1 : 1 ≤ k) (hk : k ≤ 10) :
    2 * classSize n k = mpvqA n k + mpvqA n (k + 1) :=
  Nat.mul_div_cancel' (two_dvd_mpvqA_add_succ n h1 hk)

/-- R213, R214: the indices of a class are those whose first element is 0, from `A(n+1, k)` on, and those below. -/
theorem classSize_succ (n : Nat) {k : Nat} (h1 : 1 ≤ k) (hk : k ≤ 10) :
    classSize (n + 1) k = mpvqA (n + 1) k + classSize n k := by
  have hsize := two_mul_classSize n h1 hk
  have hsize' := two_mul_classSize (n + 1) h1 hk
  have hrec := mpvqA_succ_succ n hk
  omega

/-! ### De-enumeration (R215) -/

/-- R215: what the walk holds before a position: the pulses left, the index left, and the sign of the next pulse. -/
structure WalkAt where
  left : Nat
  index : Nat
  neg : Bool

/-- R215: what is de-enumerated over `d` elements from there. -/
def WalkAt.elements (d : Nat) (a : WalkAt) : List Int := deenumFrom d a.left a.neg a.index

/-- R215: one position of the walk with `d` elements to come, as `DeenumWalk` states it: the element is `v`, the count found
in the table is `acc`, and the walk goes on from `b`. -/
def WalkStep (d : Nat) (a : WalkAt) (acc : Nat) (v : Int) (b : WalkAt) : Prop :=
  (a.index = 0 → v = withSign a.neg a.left ∧ b.left = 0 ∧ b.index = 0) ∧
  (a.index ≠ 0 →
    acc ≤ a.left ∧ mpvqA d acc ≤ a.index ∧ (∀ j, acc < j → j ≤ a.left → a.index < mpvqA d j) ∧
    v = withSign a.neg (a.left - acc) ∧ b.left = acc ∧
    (acc = a.left → b.index = a.index - mpvqA d acc ∧ b.neg = a.neg) ∧
    (acc ≠ a.left → b.index = (a.index - mpvqA d acc) / 2 ∧ (b.neg = true ↔ (a.index - mpvqA d acc) % 2 = 1)))

@[simp] theorem withSign_zero (neg : Bool) : withSign neg 0 = 0 := by cases neg <;> rfl

@[simp] theorem natAbs_withSign (neg : Bool) (v : Nat) : (withSign neg v).natAbs = v := by cases neg <;> simp [withSign]

/-- R215: the scan finds the largest count whose offset is at most the index. -/
theorem pulseScan_spec {row : List Nat} (hrow : row.getD 0 0 = 0) (idx k : Nat) :
    pulseScan row idx k ≤ k ∧ row.getD (pulseScan row idx k) 0 ≤ idx ∧
      ∀ j, pulseScan row idx k < j → j ≤ k → idx < row.getD j 0 := by
  induction k with
  | zero => exact ⟨le_rfl, hrow.trans_le (Nat.zero_le idx), fun j hj hj0 => absurd hj hj0.not_gt⟩
  | succ k ih =>
    obtain ⟨hle, hat, habove⟩ := ih
    rw [pulseScan]
    split
    · next hlt =>
      refine ⟨hle.trans (Nat.le_succ k), hat, fun j hj hjk => ?_⟩
      rcases Nat.le_succ_iff.mp hjk with hjk | rfl
      · exact habove j hj hjk
      · exact hlt
    · next hge => exact ⟨le_rfl, Nat.not_lt.mp hge, fun j hj hjk => absurd hj hjk.not_gt⟩

/-- R215: no pulses and index 0 left: the other elements are 0. -/
theorem deenumFrom_done (d : Nat) (neg : Bool) : deenumFrom d 0 neg 0 = List.replicate d 0 := by
  cases d with
  | zero => rfl
  | succ d => exact congrArg (· :: List.replicate d 0) (withSign_zero neg)

/-- R215: the scan ends where it starts, so this element has no pulse. -/
theorem deenumFrom_of_scan_eq {d k idx : Nat} (neg : Bool) (h0 : idx ≠ 0) (hscan : pulseScan (mpvqRow (d + 1)) idx k = k) :
    deenumFrom (d + 1) k neg idx = 0 :: deenumFrom d k neg (idx - mpvqA (d + 1) k) := by
  simp [deenumFrom, h0, hscan, mpvqA]

/-- R215: the scan ends lower, so this element takes the pulses passed over. -/
theorem deenumFrom_of_scan_lt {d k idx acc : Nat} (neg : Bool) (h0 : idx ≠ 0)
    (hscan : pulseScan (mpvqRow (d + 1)) idx k = acc) (hlt : acc < k) :
    deenumFrom (d + 1) k neg idx = withSign neg (k - acc) ::
      deenumFrom d acc ((idx - mpvqA (d + 1) acc) % 2 == 1) ((idx - mpvqA (d + 1) acc) / 2) := by
  have hpulses : k - acc ≠ 0 := by omega
  simp only [deenumFrom, h0, hscan, hpulses, if_false]
  rfl

/-- R215: the first element that is de-enumerated and what is left after it are a step of the walk. -/
theorem elements_succ (d : Nat) (a : WalkAt) :
    ∃ acc v b, a.elements (d + 1) = v :: b.elements d ∧ WalkStep (d + 1) a acc v b := by
  obtain ⟨left, index, neg⟩ := a
  by_cases h0 : index = 0
  · subst h0
    refine ⟨0, withSign neg left, ⟨0, 0, neg⟩, ?_, fun _ => ⟨rfl, rfl, rfl⟩, fun h => absurd rfl h⟩
    exact congrArg (withSign neg left :: ·) (deenumFrom_done d neg).symm
  · obtain ⟨hle, hat, habove⟩ := pulseScan_spec (mpvqA_succ_zero d) index left
    generalize hscan : pulseScan (mpvqRow (d + 1)) index left = acc at *
    rcases hle.eq_or_lt with rfl | hlt
    · exact ⟨acc, 0, ⟨acc, index - mpvqA (d + 1) acc, neg⟩, deenumFrom_of_scan_eq neg h0 hscan, fun h => absurd h h0,
        fun _ => ⟨hle, hat, habove, by rw [Nat.sub_self, withSign_zero], rfl, fun _ => ⟨rfl, rfl⟩, fun h => absurd rfl h⟩⟩
    · exact ⟨acc, withSign neg (left - acc),
        ⟨acc, (index - mpvqA (d + 1) acc) / 2, (index - mpvqA (d + 1) acc) % 2 == 1⟩,
        deenumFrom_of_scan_lt neg h0 hscan hlt, fun h => absurd h h0,
        fun _ => ⟨hle, hat, habove, rfl, rfl, fun h => absurd h hlt.ne, fun _ => ⟨rfl, beq_iff_eq⟩⟩⟩

/-- A sequence with one more entry in front. -/
def seqCons {α : Type} (a : α) (f : Nat → α) : Nat → α
  | 0 => a
  | n + 1 => f n

/-- R215: a step and the walk from where it ends are a walk. -/
theorem DeenumWalk.cons {n acc : Nat} {a b : WalkAt} {v : Int} {y : List Int} (hstep : WalkStep (n + 1) a acc v b)
    (hwalk : DeenumWalk n b.left b.neg b.index y) : DeenumWalk (n + 1) a.left a.neg a.index (v :: y) := by
  obtain ⟨hlen, left, index, accs, neg, hleft, hindex, hneg, hsteps⟩ := hwalk
  refine ⟨congrArg (· + 1) hlen, seqCons a.left left, seqCons a.index index, seqCons acc accs, seqCons a.neg neg,
    rfl, rfl, rfl, fun pos hpos => ?_⟩
  cases pos with
  | zero =>
    simp only [seqCons, hleft, hindex, hneg]
    exact hstep
  | succ pos =>
    rw [Nat.add_sub_add_right]
    exact hsteps pos (Nat.lt_of_succ_lt_succ hpos)

theorem elements_walk (d : Nat) (a : WalkAt) : DeenumWalk d a.left a.neg a.index (a.elements d) := by
  induction d generalizing a with
  | zero =>
    exact ⟨rfl, fun _ => a.left, fun _ => a.index, fun _ => 0, fun _ => a.neg, rfl, rfl, rfl,
      fun pos hpos => absurd hpos (Nat.not_lt_zero pos)⟩
  | succ d ih =>
    obtain ⟨acc, v, b, helements, hstep⟩ := elements_succ d a
    rw [helements]
    exact .cons hstep (ih b)

/-- R215: `Deenum(n, k, ls, idx)` is the rule's walk. -/
theorem deenum_walk (n k : Nat) (ls : Bool) (idx : Nat) : DeenumWalk n k ls idx (deenum n k ls idx) :=
  elements_walk n ⟨k, idx, ls⟩

theorem deenum_length (n k : Nat) (ls : Bool) (idx : Nat) : (deenum n k ls idx).length = n :=
  (deenum_walk n k ls idx).1

/-! ### The pulses of a vector -/

/-- R213, R215: before a position of a walk that started below its class size, with `d` elements to come: all pulses are
placed, or the index is below the size of the class of the pulses left. -/
def WalkOk (d : Nat) (a : WalkAt) : Prop :=
  a.left = 0 ∧ a.index = 0 ∨ 1 ≤ a.left ∧ a.left ≤ 10 ∧ a.index < classSize d a.left

theorem left_eq_zero_of_walkOk {a : WalkAt} (h : WalkOk 0 a) : a.left = 0 := by
  rcases h with ⟨hleft, -⟩ | ⟨h1, -, hindex⟩
  · exact hleft
  · obtain ⟨k, hk⟩ := Nat.exists_eq_add_of_le' h1
    rw [hk, classSize_zero_succ] at hindex
    exact absurd hindex (Nat.not_lt_zero _)

/-- R214, R215: a step keeps the index below its class size, and no pulse is lost. -/
theorem WalkStep.walkOk {d acc : Nat} {a b : WalkAt} {v : Int} (hstep : WalkStep (d + 1) a acc v b)
    (ha : WalkOk (d + 1) a) : WalkOk d b ∧ v.natAbs + b.left = a.left := by
  obtain ⟨hend, hwalk⟩ := hstep
  by_cases h0 : a.index = 0
  · obtain ⟨rfl, hleft, hindex⟩ := hend h0
    exact ⟨.inl ⟨hleft, hindex⟩, by rw [natAbs_withSign, hleft, Nat.add_zero]⟩
  · obtain ⟨hle, hat, habove, rfl, hleft, hstay, hplace⟩ := hwalk h0
    obtain ⟨h1, h10, hlt⟩ := ha.resolve_left fun h => h0 h.2
    refine ⟨.inr ?_, by rw [natAbs_withSign, hleft, Nat.sub_add_cancel hle]⟩
    rw [hleft]
    by_cases hacc : acc = a.left
    · -- no pulse here: the offset is taken off the index
      subst hacc
      obtain ⟨hindex, -⟩ := hstay rfl
      rw [classSize_succ d h1 h10] at hlt
      exact ⟨h1, h10, by omega⟩
    · -- the index is below the next offset, so its half is below the size of the smaller class
      obtain ⟨hindex, -⟩ := hplace hacc
      have hnext := habove (acc + 1) (Nat.lt_succ_self acc) (by omega)
      have hpos : 1 ≤ acc := by
        refine Nat.pos_of_ne_zero fun hzero => ?_
        rw [hzero, mpvqA_succ_one] at hnext
        omega
      have hsize := two_mul_classSize d hpos (hle.trans h10)
      rw [mpvqA_succ_succ d (hle.trans h10)] at hnext
      exact ⟨hpos, hle.trans h10, by omega⟩

theorem sum_natAbs_elements {d : Nat} {a : WalkAt} (ha : WalkOk d a) : ((a.elements d).map Int.natAbs).sum = a.left := by
  induction d generalizing a with
  | zero => exact (left_eq_zero_of_walkOk ha).symm
  | succ d ih =>
    obtain ⟨acc, v, b, helements, hstep⟩ := elements_succ d a
    obtain ⟨hb, hpulses⟩ := hstep.walkOk ha
    rw [helements, List.map_cons, List.sum_cons, ih hb, hpulses]

/-- R213, R215: an index below its class size gives a vector with `k` pulses. -/
theorem sum_natAbs_deenum {n k : Nat} (ls : Bool) {idx : Nat} (h1 : 1 ≤ k) (hk : k ≤ 10) (hidx : idx < classSize n k) :
    ((deenum n k ls idx).map Int.natAbs).sum = k :=
  sum_natAbs_elements (a := ⟨k, idx, ls⟩) (.inr ⟨h1, hk, hidx⟩)

/-- Settles O48: by induction on the elements to come, each step of the walk keeping the index below its class size. -/
theorem deenumGivesKPulses : Obligations.DeenumGivesKPulses :=
  ⟨deenum_walk, fun n k ls idx _ h1 hk hidx => ⟨deenum_length n k ls idx, sum_natAbs_deenum ls h1 hk hidx⟩⟩

/-! ### The energy (R216) -/

theorem pulseEnergy_cons (v : Int) (y : List Int) : pulseEnergy (v :: y) = v.natAbs * v.natAbs + pulseEnergy y := rfl

theorem pulseEnergy_append (y z : List Int) : pulseEnergy (y ++ z) = pulseEnergy y + pulseEnergy z := by
  simp only [pulseEnergy, List.map_append, List.sum_append]

theorem sum_natAbs_le_pulseEnergy (y : List Int) : (y.map Int.natAbs).sum ≤ pulseEnergy y :=
  List.sum_le_sum fun v _ => Nat.le_mul_self v.natAbs

/-- The energy is greatest when all pulses stand at one position. -/
theorem pulseEnergy_le_sq (y : List Int) : pulseEnergy y ≤ (y.map Int.natAbs).sum * (y.map Int.natAbs).sum := by
  induction y with
  | nil => exact le_rfl
  | cons v y ih =>
    rw [pulseEnergy_cons, List.map_cons, List.sum_cons]
    calc v.natAbs * v.natAbs + pulseEnergy y
      _ ≤ v.natAbs * v.natAbs + (y.map Int.natAbs).sum * (y.map Int.natAbs).sum := Nat.add_le_add_left ih _
      _ ≤ (v.natAbs + (y.map Int.natAbs).sum) * (v.natAbs + (y.map Int.natAbs).sum) := by
        rw [Nat.add_mul, Nat.mul_add, Nat.mul_add]
        omega

/-- R213, R216: the energy of `k` pulses. -/
theorem pulseEnergy_deenum {n k : Nat} (ls : Bool) {idx : Nat} (h1 : 1 ≤ k) (hk : k ≤ 10) (hidx : idx < classSize n k) :
    k ≤ pulseEnergy (deenum n k ls idx) ∧ pulseEnergy (deenum n k ls idx) ≤ k * k := by
  have hmin := sum_natAbs_le_pulseEnergy (deenum n k ls idx)
  have hmax := pulseEnergy_le_sq (deenum n k ls idx)
  rw [sum_natAbs_deenum ls h1 hk hidx] at hmin hmax
  exact ⟨hmin, hmax⟩

/-! ### The four shape classes (R213) -/

section classes

variable {s : State}

theorem bitVec2_cases : ∀ v : BitVec 2, v = 0#2 ∨ v = 1#2 ∨ v = 2#2 ∨ v = 3#2 := by decide

theorem pulseVector_of_shape0 (h : s.frm.snsShape = 0#2) : pulseVector s =
    deenum 10 10 s.frm.snsLsa s.frm.snsIdxA.toNat ++ deenum 6 1 s.frm.snsLsb s.frm.snsIdxB.toNat := by
  rw [pulseVector, h]
  rfl

theorem pulseVector_of_shape1 (h : s.frm.snsShape = 1#2) :
    pulseVector s = deenum 10 10 s.frm.snsLsa s.frm.snsIdxA.toNat ++ List.replicate 6 0 := by
  rw [pulseVector, h]
  rfl

theorem pulseVector_of_shape2 (h : s.frm.snsShape = 2#2) :
    pulseVector s = deenum 16 8 s.frm.snsLsa s.frm.snsIdxA.toNat := by
  rw [pulseVector, h]
  rfl

theorem pulseVector_of_shape3 (h : s.frm.snsShape = 3#2) :
    pulseVector s = deenum 16 6 s.frm.snsLsa s.frm.snsIdxA.toNat := by
  rw [pulseVector, h]
  rfl

/-- R211: the indices that pass the check. -/
theorem pulseIndexBad_eq_false_iff : pulseIndexBad s = false ↔
    s.frm.snsIdxA.toNat < sizeA s.frm.snsShape.toNat ∧ (s.frm.snsShape = 0#2 → s.frm.snsIdxB.toNat < sizeB) := by
  simp [pulseIndexBad, imp_iff_not_or]

end classes

/-- Settles O49: the energy of a vector of `k` pulses is between `k` and `k` squared, class by class. -/
theorem pulseEnergyIsPositive : Obligations.PulseEnergyIsPositive := by
  intro s hgood
  obtain ⟨hidxA, hidxB⟩ := pulseIndexBad_eq_false_iff.mp hgood
  rcases bitVec2_cases s.frm.snsShape with hshape | hshape | hshape | hshape <;> rw [hshape] at hidxA
  · obtain ⟨hmin, hmax⟩ := pulseEnergy_deenum (n := 10) (k := 10) s.frm.snsLsa (by decide) (by decide) hidxA
    obtain ⟨hminB, hmaxB⟩ := pulseEnergy_deenum (n := 6) (k := 1) s.frm.snsLsb (by decide) (by decide) (hidxB hshape)
    rw [pulseVector_of_shape0 hshape, List.length_append, deenum_length, deenum_length, pulseEnergy_append]
    omega
  · obtain ⟨hmin, hmax⟩ := pulseEnergy_deenum (n := 10) (k := 10) s.frm.snsLsa (by decide) (by decide) hidxA
    have hzeros : pulseEnergy (List.replicate 6 0) = 0 := rfl
    rw [pulseVector_of_shape1 hshape, List.length_append, deenum_length, List.length_replicate, pulseEnergy_append, hzeros]
    omega
  · obtain ⟨hmin, hmax⟩ := pulseEnergy_deenum (n := 16) (k := 8) s.frm.snsLsa (by decide) (by decide) hidxA
    rw [pulseVector_of_shape2 hshape, deenum_length]
    omega
  · obtain ⟨hmin, hmax⟩ := pulseEnergy_deenum (n := 16) (k := 6) s.frm.snsLsa (by decide) (by decide) hidxA
    rw [pulseVector_of_shape3 hshape, deenum_length]
    omega

end Sys2Proof.Machine
end

section
/-! SNS synthesis (R211 to R223): the scale factors of the four shape classes, their interpolation to the bands, and the
envelope applied to the spectrum. -/

namespace Sys2Proof.Machine

open Sys2Proof

variable {env : Env} {s : State}

/-! ### The command -/

/-- R211: what `SNSSYN` ends with when its checks pass. -/
def snsApplied (env : Env) (s : State) : State :=
  finish 0
    { s with
      scf := scaleFactors env s
      x := applyBands env.num s.cfg.bands (bandScale env.num (scaleFactors env s) s.cfg.nb.toNat) s.x s.cfg.nb.toNat }

theorem snssynBody_of_ok (hg : s.frm.snsGain.toNat < gainEntries s.frm.snsShape.toNat) (hi : pulseIndexBad s = false) :
    snssynBody env s = snsApplied env s := by
  rw [snssynBody, if_neg hg.not_ge, hi]
  rfl

/-- R211, R224: a failed check shows in `ERR` or in `BEC`. -/
theorem snssynBody_eq_applied (herr : (snssynBody env s).err = .ok) (hbec : (snssynBody env s).bec = false) :
    snssynBody env s = snsApplied env s := by
  rcases Nat.lt_or_ge s.frm.snsGain.toNat (gainEntries s.frm.snsShape.toNat) with hg | hg
  · cases hi : pulseIndexBad s with
    | false => exact snssynBody_of_ok hg hi
    | true =>
      rw [snssynBody, if_neg hg.not_ge, hi] at hbec
      cases hbec
  · rw [snssynBody_of_bad_gain hg] at herr
    cases herr

theorem exec_snssyn_of_open (ho : Open s) : exec .snssyn s = .next (snssynBody Config.env s) := by
  rw [exec_snssyn, admission_of_open (i := .snssyn) _ rfl ho]

/-! ### The scale factors -/

/-- R213, R217: the four classes, each with a gain and indices that it admits and its pulse vector. -/
theorem admitted_of_classes {y : List Int}
    (h : s.frm.snsShape = 0#2 ∧ s.frm.snsGain.toNat < 2 ∧ s.frm.snsIdxA.toNat < 2390004 ∧ s.frm.snsIdxB.toNat < 6 ∧
        y = deenum 10 10 s.frm.snsLsa s.frm.snsIdxA.toNat ++ deenum 6 1 s.frm.snsLsb s.frm.snsIdxB.toNat ∨
      s.frm.snsShape = 1#2 ∧ s.frm.snsGain.toNat < 4 ∧ s.frm.snsIdxA.toNat < 2390004 ∧
        y = deenum 10 10 s.frm.snsLsa s.frm.snsIdxA.toNat ++ [0, 0, 0, 0, 0, 0] ∨
      s.frm.snsShape = 2#2 ∧ s.frm.snsGain.toNat < 4 ∧ s.frm.snsIdxA.toNat < 15158272 ∧
        y = deenum 16 8 s.frm.snsLsa s.frm.snsIdxA.toNat ∨
      s.frm.snsShape = 3#2 ∧ s.frm.snsIdxA.toNat < 774912 ∧ y = deenum 16 6 s.frm.snsLsa s.frm.snsIdxA.toNat) :
    s.frm.snsGain.toNat < gainEntries s.frm.snsShape.toNat ∧ pulseIndexBad s = false ∧ pulseVector s = y := by
  obtain ⟨size0, size1, size2, size3⟩ := sizeA_values
  rw [pulseIndexBad_eq_false_iff]
  rcases h with ⟨hshape, hg, hA, hB, rfl⟩ | ⟨hshape, hg, hA, rfl⟩ | ⟨hshape, hg, hA, rfl⟩ | ⟨hshape, hA, rfl⟩ <;>
    rw [hshape]
  · exact ⟨hg, ⟨hA.trans_eq size0.symm, fun _ => hB.trans_eq sizeB_value.symm⟩, pulseVector_of_shape0 hshape⟩
  · exact ⟨hg, ⟨hA.trans_eq size1.symm, nofun⟩, pulseVector_of_shape1 hshape⟩
  · exact ⟨hg, ⟨hA.trans_eq size2.symm, nofun⟩, pulseVector_of_shape2 hshape⟩
  · exact ⟨s.frm.snsGain.isLt, ⟨hA.trans_eq size3.symm, nofun⟩, pulseVector_of_shape3 hshape⟩

/-- R212, R216 to R219: a scale factor, its sum written as the fold over the ascending indices. -/
theorem vecAt_scaleFactors {n : Nat} (hn : n < 16) : vecAt (scaleFactors env s) n =
    env.num.add (stageOne env.rom s n)
      (env.num.mul (env.rom.snsGain s.frm.snsShape.toNat s.frm.snsGain.toNat)
        ((List.range 16).foldl
          (fun acc c => env.num.add acc (env.num.mul (env.rom.snsD n c) (normalised env.num (pulseVector s) c)))
          Sample.zero)) := by
  rw [scaleFactors, vecAt_ofFn _ _ hn, scaleFactor, sumAsc_eq_foldl]

/-- Settles O50: the four classes pass the checks with their pulse vector, and `SCF` is written from it. -/
theorem snssynSetsScaleFactors : Obligations.SnssynSetsScaleFactors := by
  intro s y ho hclass
  obtain ⟨hg, hi, rfl⟩ := admitted_of_classes hclass
  refine ⟨snsApplied Config.env s, ?_, fun n hn => vecAt_scaleFactors hn, rfl⟩
  rw [exec_snssyn_of_open ho, snssynBody_of_ok hg hi]

/-! ### Interpolation -/

section interpolation

variable {num : Numerics} {q : Vector Sample 16}

theorem grid64_mid {n r : Nat} (hn : n < 15) (hr : r < 4) :
    grid64 num q (4 * n + r + 2) = interpPoint num q n n (mkRat (2 * r + 1) 8) := by
  have hquot : (4 * n + r + 2 - 2) / 4 = n := by omega
  have hrem : (4 * n + r + 2 - 2) % 4 = r := by omega
  rw [grid64, if_neg (by omega), if_pos (by omega), hquot, hrem]

theorem grid32_mid {n r : Nat} (hn : n < 15) (hr : r < 2) :
    grid32 num q (2 * n + r + 1) = interpPoint num q n n (mkRat (2 * r + 1) 4) := by
  have hquot : (2 * n + r + 1 - 1) / 2 = n := by omega
  have hrem : (2 * n + r + 1 - 1) % 2 = r := by omega
  rw [grid32, if_neg (by omega), if_pos (by omega), hquot, hrem]

/-- R220: the weights of the grid are odd eighths. -/
theorem grid64_spec : Grid64 num (vecAt q) (grid64 num q) where
  low0 := rfl
  low1 := rfl
  mid n hn := by
    refine ⟨(grid64_mid (r := 0) hn (by decide)).trans ?_, (grid64_mid (r := 1) hn (by decide)).trans ?_,
      (grid64_mid (r := 2) hn (by decide)).trans ?_, (grid64_mid (r := 3) hn (by decide)).trans ?_⟩ <;>
    norm_num [interpPoint, Rat.mkRat_eq_div]
  high62 := by norm_num [grid64, interpPoint, Rat.mkRat_eq_div]
  high63 := by norm_num [grid64, interpPoint, Rat.mkRat_eq_div]

/-- R222: the weights of the grid are odd quarters. -/
theorem grid32_spec : Grid32 num (vecAt q) (grid32 num q) where
  low0 := rfl
  mid n hn := by
    refine ⟨(grid32_mid (r := 0) hn (by decide)).trans ?_, (grid32_mid (r := 1) hn (by decide)).trans ?_⟩ <;>
    norm_num [interpPoint, Rat.mkRat_eq_div]
  high31 := by norm_num [grid32, interpPoint, Rat.mkRat_eq_div]

/-- R221, R222: the lowest values merge in pairs, the others move down. -/
theorem mergeLow_reduced (size nb : Nat) (grid : Nat → Sample) :
    Reduced num size nb grid (mergeLow num grid (size - nb)) := by
  refine ⟨fun b hb => ?_, fun b hb _ => if_neg hb.not_gt⟩
  rw [mergeLow, if_pos hb, Rat.mkRat_eq_div]
  norm_num

theorem bandScale_interpolates (nb : Nat) : Interpolates num nb (vecAt q) (bandScale num q nb) := by
  unfold Interpolates
  split
  · next h =>
    have hscale : bandScale num q nb = mergeLow num (grid64 num q) (64 - nb) := funext fun _ => if_pos h
    exact ⟨_, grid64_spec, hscale ▸ mergeLow_reduced 64 nb _⟩
  · next h =>
    have hscale : bandScale num q nb = mergeLow num (grid32 num q) (32 - nb) := funext fun _ => if_neg h
    exact ⟨_, grid32_spec, hscale ▸ mergeLow_reduced 32 nb _⟩

end interpolation

/-! ### The envelope -/

/-- R26: the band table of a valid configuration does not decrease. -/
theorem bands_le_succ_of_cfgValid {p : Params} {c : CfgRegs} (h : cfgValid p c = true) {b : Nat} (hb : b < c.nb.toNat) :
    (memRead c.bands b).toNat ≤ (memRead c.bands (b + 1)).toNat := by
  have hbands : bandsValid c = true := (Bool.and_eq_true_iff.mp h).2
  simp only [bandsValid, Bool.and_eq_true, List.all_eq_true, List.mem_range, decide_eq_true_eq] at hbands
  obtain ⟨⟨-, hmono⟩, -⟩ := hbands
  exact hmono b hb

/-- Settles O51: the bands of a locked configuration do not overlap, so every bin below the last is scaled once. -/
theorem snssynAppliesTheEnvelope : Obligations.SnssynAppliesTheEnvelope := by
  intro s t ho hs hexec herr hbec
  obtain rfl : snssynBody Config.env s = t := Host.Outcome.next.inj ((exec_snssyn_of_open ho).symm.trans hexec)
  rw [snssynBody_eq_applied herr hbec]
  exact ⟨bandScale Config.env.num (scaleFactors Config.env s) s.cfg.nb.toNat, bandScale_interpolates _,
    applyBands_spec hs.x _ fun b hb => bands_le_succ_of_cfgValid (hs.locked ho.locked) hb⟩

end Sys2Proof.Machine
end

section
/-! The global gain (R241, R242): the factor, bin by bin the spectrum after `GGAIN`, and its registers. -/

namespace Sys2Proof.Machine

open Sys2Proof

variable {s : State}

/-- R241: `g` in the rule's order of multiplication, its constant as a quotient. -/
theorem globalGain_eq (num : Numerics) (s : State) : globalGain num s =
    num.mul (num.mul (num.pow10_28 ((s.frm.ggInd.toNat : Int) + s.frm.ggOff.toInt)) (num.ofRat (1 / 16))) s.cfg.tscale := by
  rw [globalGain, Rat.mkRat_eq_div]
  rfl

/-- R241: bins below `NE` are rewritten, those at and above it keep their values. -/
theorem memRead_ggainBody (env : Env) (hx : Memory.wf 1024 s.x = true) (k : Nat) :
    memRead (ggainBody env s).x k = if k < s.cfg.ne.toNat then gainBin env.num s k else memRead s.x k := by
  have hne := s.cfg.ne.isLt
  rw [ggainBody, finish_x, memRead_memFill hx 0 _ _ (by omega)]
  simp only [Nat.zero_le, true_and, Nat.zero_add, Nat.sub_zero]

theorem exec_ggain_of_open (ho : Open s) : exec .ggain s = .next (ggainBody Config.env s) := by
  rw [exec_ggain, admission_of_open (i := .ggain) _ rfl ho]

/-- Settles O45: a bin is significant, cleared, or outside the spectrum. -/
theorem ggainScalesAndClears : Obligations.GgainScalesAndClears := by
  intro s ho hx
  refine ⟨ggainBody Config.env s, exec_ggain_of_open ho, fun k => ?_, rfl⟩
  rw [memRead_ggainBody Config.env hx, ← globalGain_eq]
  by_cases hsig : k < min s.frm.lastnz.toNat s.cfg.ne.toNat
  · have hk : k < s.cfg.ne.toNat := (lt_min_iff.mp hsig).2
    rw [if_pos hk, gainBin, if_pos hsig, if_pos hsig]
  · rw [gainBin, if_neg hsig, if_neg hsig]
    rfl

end Sys2Proof.Machine
end

section
/-! The inverse transform (R251 to R255): the three pieces of the unfolded signal under the window, the two blocks after
`IMDCT`, and its registers. -/

namespace Sys2Proof.Machine

open Sys2Proof

variable {env : Env} {s : State}

/-! ### The windowed signal (R253, R254) -/

section
variable {num : Numerics} {u : Vector Sample s.cfg.ns.toNat} {n : Nat}

theorem windowed_of_lt_half (h : n < s.cfg.ns.toNat / 2) :
    windowed num s u n = num.mul (memRead s.cfg.win n) (vecAt u (n + s.cfg.ns.toNat / 2)) := by
  rw [windowed, Machine.unfold, if_pos h]

theorem windowed_of_half_le (hlo : s.cfg.ns.toNat / 2 ≤ n) (hhi : n < 3 * s.cfg.ns.toNat / 2) :
    windowed num s u n =
      num.mul (memRead s.cfg.win n) (num.neg (vecAt u (3 * s.cfg.ns.toNat / 2 - 1 - n))) := by
  rw [windowed, Machine.unfold, if_neg hlo.not_gt, if_pos hhi]

theorem windowed_of_three_halves_le (h : 3 * s.cfg.ns.toNat / 2 ≤ n) :
    windowed num s u n = num.mul (memRead s.cfg.win n) (num.neg (vecAt u (n - 3 * s.cfg.ns.toNat / 2))) := by
  rw [windowed, Machine.unfold, if_neg (by omega), if_neg h.not_gt]

end

/-! ### The command -/

/-- R251, R255: samples below `NS` are rewritten, those at and above it keep their values. -/
theorem memRead_tblk_imdctBody (htblk : Memory.wf 1024 s.tblk = true) (n : Nat) :
    memRead (imdctBody env s).tblk n =
      if n < s.cfg.ns.toNat then overlapAdd env.num s (imdctTransform env.num s) n else memRead s.tblk n := by
  have hns := s.cfg.ns.isLt
  rw [imdctBody, finish_tblk, memRead_memFill htblk 0 _ _ (by omega)]
  simp only [Nat.zero_le, true_and, Nat.zero_add, Nat.sub_zero]

/-- R251, R255: the first `NS - NZ` entries save the tail of the windowed signal, the others keep their values. -/
theorem memRead_ola_imdctBody (hola : Memory.wf 1024 s.ola = true) (n : Nat) :
    memRead (imdctBody env s).ola n =
      if n < s.cfg.ns.toNat - s.cfg.nz.toNat then
        windowed env.num s (imdctTransform env.num s) (s.cfg.ns.toNat + s.cfg.nz.toNat + n)
      else memRead s.ola n := by
  have hns := s.cfg.ns.isLt
  rw [imdctBody, finish_ola, memRead_memFill hola 0 _ _ (by omega)]
  simp only [Nat.zero_le, true_and, Nat.zero_add, Nat.sub_zero]

/-- `IMDCT` is not decode-class: the lock alone admits it. -/
theorem exec_imdct_of_locked (hl : s.cfglock = true) : exec .imdct s = .next (imdctBody Config.env s) := by
  rw [exec_imdct, admission_of_locked (i := .imdct) _ rfl rfl hl]

/-- Settles O52: a sample of the new block has an overlap term, has none, or is outside the frame. -/
theorem imdctOverlapsAndAdds : Obligations.ImdctOverlapsAndAdds := by
  intro s hl hs
  refine ⟨imdctBody Config.env s, vecAt (imdctTransform Config.env.num s),
    windowed Config.env.num s (imdctTransform Config.env.num s), exec_imdct_of_locked hl, fun n _ => rfl,
    fun n => windowed_of_lt_half, fun n => windowed_of_half_le, fun n h _ => windowed_of_three_halves_le h,
    fun n => ?_, memRead_ola_imdctBody hs.ola, rfl⟩
  rw [memRead_tblk_imdctBody hs.tblk]
  by_cases hover : n < s.cfg.ns.toNat - s.cfg.nz.toNat
  · have hn : n < s.cfg.ns.toNat := hover.trans_le (Nat.sub_le _ _)
    rw [if_pos hn, overlapAdd, if_pos hover, if_pos hover]
  · rw [overlapAdd, if_neg hover, if_neg hover]

end Sys2Proof.Machine
end

section
/-! The system commands and the two resets (R281 to R283, R330), the HOST's write of `STATUS` (R304), and the gate (R290). -/

namespace Sys2Proof.Machine

open Sys2Proof

/-! ### NOP and the resets -/

/-- Settles O16: admission lets `NOP` through on every state. -/
theorem nopClearsStatus : Obligations.NopClearsStatus := ⟨by decide, fun _ => rfl⟩

/-- The state after a reset: `CMD` and the HOST's side of the port are what is said of them (R330, R331). -/
def resetWith (cmd : Word) (host : List HostOp) (rdata : Option Word) : State :=
  { State.reset with cmd := cmd, host := host, rdata := rdata }

theorem exec_sreset_eq_resetWith (s : State) : exec .sreset s = .next (resetWith 0x0F000000 s.host s.rdata) := rfl

theorem step_of_reset {s : State} {rest : List HostOp} (hs : s.host = .reset :: rest) :
    step s = .next (resetWith 0 rest s.rdata) := by
  simp only [step, nextAccess, hs, hostAccess]
  rfl

/-- Settles O18: `SRESET` passes admission on every state, and the reset input is no command. -/
theorem resetsRestoreTheResetState : Obligations.ResetsRestoreTheResetState :=
  ⟨exec_sreset_eq_resetWith, fun _ _ hs => step_of_reset hs⟩

/-! ### What a reset state reads (R331) -/

section reads

variable {num : Numerics} {cmd : Word} {host : List HostOp} {rdata : Option Word}

/-- While `CFG_NS` is 0 every entry of `OUT` lies past the newest block (R81). -/
theorem outRead_resetWith (n : Nat) : outRead num (resetWith cmd host rdata) n = 0 := by
  have hns : ¬n < (resetWith cmd host rdata).cfg.ns.toNat := Nat.not_lt_zero n
  rw [outRead, if_neg fun h => hns h.2, outAt, if_neg hns]

theorem statusWord_resetWith : statusWord (resetWith cmd host rdata) = 0x00000F01 := by
  change statusWord State.reset = _
  decide

theorem ltpfWord_reset : ltpfWord LtpfParams.reset = 0 := by decide

theorem fbWord_resetWith (i : Nat) : fbWord (resetWith cmd host rdata) i = 0 := by
  change (0#8 ++ 0#8 ++ 0#8 ++ 0#8 : Word) = 0
  decide

end reads

/-- Settles O9: the three ways to a reset state differ only in `CMD` and on the HOST's side of the port. -/
theorem resetReadsAsTheTableSays : Obligations.ResetReadsAsTheTableSays := by
  intro s t c h
  have ht : ∃ host rdata, t = resetWith c host rdata := by
    rcases h with ⟨rfl, rfl⟩ | ⟨⟨rest, hs⟩, hstep, rfl⟩ | ⟨hexec, rfl⟩
    · exact ⟨[], none, rfl⟩
    · rw [step_of_reset hs] at hstep
      cases hstep
      exact ⟨_, _, rfl⟩
    · cases hexec
      exact ⟨_, _, rfl⟩
  obtain ⟨host, rdata, rfl⟩ := ht
  refine ⟨fun p => ?_, fun _ => rfl, vecAt_replicate 10⟩
  cases p with
  | cfg r => cases r <;> rfl
  | bits r => cases r <;> rfl
  | frm r => exact readFrm_reset r
  | scf i => exact congrArg Config.env.num.enc (vecAt_replicate 16 i)
  | out i => exact congrArg Config.env.num.enc (outRead_resetWith i)
  | status => exact statusWord_resetWith
  | ltpfMem => exact ltpfWord_reset
  | fb i => exact fbWord_resetWith i
  | _ => rfl

/-! ### CFGLOCK (R24, R26, R282) -/

section config

variable {p : Params} {c : CfgRegs}

theorem bandsValid_iff : bandsValid c = true ↔ memRead c.bands 0 = 0#10 ∧
    (∀ b, b < c.nb.toNat → (memRead c.bands b).toNat ≤ (memRead c.bands (b + 1)).toNat) ∧
      (memRead c.bands c.nb.toNat).toNat ≤ c.ne.toNat := by
  simp only [bandsValid, Bool.and_eq_true, beq_iff_eq, List.all_eq_true, List.mem_range, decide_eq_true_eq, and_assoc]

/-- The check that `CFGLOCK` makes is the validity of R24 and R26. -/
theorem cfgValid_iff : cfgValid p c = true ↔ ConfigValid p c := by
  have hblk (k : BitVec 4) : c.ltpfNblk = k ↔ c.ltpfNblk.toNat = k.toNat := BitVec.toNat_inj.symm
  simp only [cfgValid, bandsValid_iff, Bool.and_eq_true, Bool.or_eq_true, beq_iff_eq, decide_eq_true_eq, hblk, and_assoc, or_assoc]
  constructor
  · rintro ⟨hns4, hnsmod, hnsmax, hne2, hnemod, hnemax, hnz, hnb16, hnb64, hmax20, hmax400, hstart, hnblk, hlden4, hldenmod, hlden12,
      hzero, hmono, hle⟩
    exact ⟨⟨hnsmod, hns4, hnsmax⟩, ⟨hnemod, hne2, hnemax⟩, hnz, ⟨hnb16, hnb64⟩, ⟨hmax20, hmax400⟩, hstart, hnblk,
      ⟨hldenmod, hlden4, hlden12⟩, hzero, hmono, hle⟩
  · rintro ⟨⟨hnsmod, hns4, hnsmax⟩, ⟨hnemod, hne2, hnemax⟩, hnz, ⟨hnb16, hnb64⟩, ⟨hmax20, hmax400⟩, hstart, hnblk,
      ⟨hldenmod, hlden4, hlden12⟩, hzero, hmono, hle⟩
    exact ⟨hns4, hnsmod, hnsmax, hne2, hnemod, hnemax, hnz, hnb16, hnb64, hmax20, hmax400, hstart, hnblk, hlden4, hldenmod, hlden12,
      hzero, hmono, hle⟩

end config

/-- `CFGLOCK` is admitted on every state. -/
theorem exec_cfglock_eq_body (s : State) : exec .cfglock s = .next (cfglockBody Config.env s) := rfl

/-- Settles O17: locked already, unlocked with a valid configuration, unlocked with an invalid one. -/
theorem cfglockValidatesAndLocks : Obligations.CfglockValidatesAndLocks := by
  refine ⟨by decide, fun s => ⟨fun hl hv => ?_, fun hl hv => ?_, fun hl => ?_⟩⟩ <;> rw [exec_cfglock_eq_body, cfglockBody]
  · rw [if_neg (by simp [hl]), if_pos (cfgValid_iff.mpr hv)]
    rfl
  · rw [if_neg (by simp [hl]), if_neg (mt cfgValid_iff.mp hv)]
    rfl
  · rw [if_pos hl]
    rfl

/-! ### The HOST's write of STATUS (R302, R304) -/

/-- Settles O15: offset 0x004 is `STATUS`, and its write is one of two. -/
theorem statusWriteRaisesHostset : Obligations.StatusWriteRaisesHostset := by
  intro s v rest hs
  have hstep : step s = .next (writeStatus v { s with host := rest }) := step_of_write (p := .status) hs rfl nofun
  rw [hstep]
  rcases writeStatus_outcome v { s with host := rest } with ⟨hv, he⟩ | ⟨hv, he⟩ <;> rw [he]
  · exact ⟨fun _ => rfl, fun h => absurd (hv.symm.trans h) nofun⟩
  · exact ⟨fun h => absurd (hv.symm.trans h) nofun, fun _ => rfl⟩

/-! ### The gate (R290) -/

theorem admission_of_corrupt {env : Env} {i : Instr} {s : State} (body : State → State)
    (hw : i.wellFormed env.rom.nspec = true) (hl : s.cfglock = true) (hd : decodeClass i = true) (hb : s.bec = true) :
    admission env i body s = skipGated s := by
  simp [admission, hw, hl, hd, hb]

/-- Settles O23: the gate is the third check of admission, and the ten commands are the decode class. -/
theorem corruptionGatesDecodeClass : Obligations.CorruptionGatesDecodeClass := by
  intro i s hi hw hl hb
  have hd : decodeClass i = true := by
    rcases hi with rfl | ⟨_, rfl⟩ | rfl | ⟨_, rfl⟩ | ⟨_, rfl⟩ | rfl | rfl | rfl | rfl | rfl <;> rfl
  obtain ⟨body, hbody⟩ := exec_eq_admission i
  rw [hbody, admission_of_corrupt body hw hl hd hb]
  rfl

end Sys2Proof.Machine
end

section
/-! What any command does to the flags, the frame buffer and the configuration (R27, R287, R291, R302, R305, R306): each read off
everything a command can end with. -/

namespace Sys2Proof.Machine

open Sys2Proof

variable {i : Instr} {s t : State}

/-! ### A HOST write (R302, R304) -/

section hostWrite

variable {num : Numerics} (p : Port) (v : Word)

/-- The HOST cannot clear the flag (R304). -/
theorem writePort_bec (hs : s.bec = true) : (writePort num p v s).bec = true := by
  rcases writePort_outcome num p v s with
    he | ⟨_, _, he⟩ | ⟨_, c, he⟩ | ⟨r, _, he⟩ | ⟨k, _, he⟩ | ⟨k, _, he⟩ | ⟨k, _, he⟩ <;> rw [he]
  case inr.inl => rfl
  all_goals exact hs

/-- A HOST write gives a cause only where it raises the flag (R302, R304). -/
theorem writePort_cause_changed (hc : (writePort num p v s).cause ≠ s.cause) :
    s.bec = false ∧ (writePort num p v s).bec = true := by
  rcases writePort_outcome num p v s with
    he | ⟨_, _, he⟩ | ⟨_, c, he⟩ | ⟨r, _, he⟩ | ⟨k, _, he⟩ | ⟨k, _, he⟩ | ⟨k, _, he⟩ <;> rw [he] at hc ⊢
  case inr.inl =>
    refine ⟨Bool.eq_false_iff.mpr fun hb => hc ?_, rfl⟩
    rw [setBec_cause, if_pos hb]
  all_goals exact absurd rfl hc

end hostWrite

/-! ### Totality (R291) -/

/-- `OK` stands in no row of the error matrix (R306). -/
theorem ok_notMem_errorsOf (i : Instr) : ErrCode.ok ∉ errorsOf i := by cases i <;> simp [errorsOf]

theorem exec_total (i : Instr) (s : State) : ∃ t, exec i s = .next t := by
  obtain ⟨body, hbody⟩ := exec_eq_admission i
  exact ⟨_, hbody s⟩

/-- Settles O24: a failure, a skip, or an end with `ERR = 0` and `SKIP = 0`. -/
theorem everyCommandIsTotal : Obligations.EveryCommandIsTotal := by
  intro i s
  obtain ⟨t, ht⟩ := exec_total i s
  refine ⟨t, ht, ?_⟩
  cases exec_ends ht with
  | failed c hc _ => exact .inl ⟨c, fun he => ok_notMem_errorsOf i (he ▸ hc), rfl⟩
  | skipped _ _ _ => exact .inr (.inl rfl)
  | locked _ _ => exact .inr (.inr ⟨rfl, rfl⟩)
  | started _ _ _ _ _ _ => exact .inr (.inr ⟨rfl, rfl⟩)
  | reset _ => exact .inr (.inr ⟨rfl, rfl⟩)
  | done _ _ _ _ => exact .inr (.inr ⟨rfl, rfl⟩)
  | raised _ _ _ _ _ _ _ => exact .inr (.inr ⟨rfl, rfl⟩)

/-! ### The error and cause matrix (R306) -/

theorem Ends.err_mem (h : Ends i s t) : t.err = .ok ∨ t.err ∈ errorsOf i := by
  cases h with
  | failed c hc _ => exact .inr hc
  | _ => exact .inl rfl

/-- R301: only `FINIT`, `SRESET` and a corruption event take `BEC` from 0 to 1, each with a cause of its row. -/
theorem Ends.cause_mem (h : Ends i s t) (hs : s.bec = false) (ht : t.bec = true) : t.cause ∈ causesOf i := by
  have unchanged (hbec : t.bec = s.bec) : t.cause ∈ causesOf i := absurd (ht.symm.trans (hbec.trans hs)) nofun
  cases h with
  | failed _ _ _ => exact unchanged rfl
  | skipped _ _ _ => exact unchanged rfl
  | locked _ _ => exact unchanged rfl
  | started loss len hi _ _ _ =>
    obtain rfl : loss = true := ht
    rw [hi]
    exact List.mem_singleton_self _
  | reset hi => rw [hi]; exact List.mem_singleton_self _
  | done _ _ _ hk => exact unchanged hk.bec
  | raised c _ _ hc _ _ hk => simpa [hk.bec, hs] using hc

/-- Settles O25: both rows hold of everything a command can end with. -/
theorem errorsAndCausesFollowTheMatrix : Obligations.ErrorsAndCausesFollowTheMatrix := fun _ _ _ h =>
  ⟨(exec_ends h).err_mem, (exec_ends h).cause_mem⟩

/-! ### The frame buffer, the configuration and CMD (R27, R28, R80, R287) -/

/-- Settles O29: of all a command can end with, only the reset touches them, and the lock only `CFGLOCK`'s own end. -/
theorem commandsNeverWriteTheFrameBuffer : Obligations.CommandsNeverWriteTheFrameBuffer := by
  intro i s t h hi
  cases exec_ends h with
  | failed _ _ _ => exact ⟨rfl, rfl, rfl, fun _ => rfl⟩
  | skipped _ _ _ => exact ⟨rfl, rfl, rfl, fun _ => rfl⟩
  | locked hlock _ => exact ⟨rfl, rfl, rfl, fun hne => absurd hlock hne⟩
  | started _ _ _ _ _ _ => exact ⟨rfl, rfl, rfl, fun _ => rfl⟩
  | reset hreset => exact absurd hreset hi
  | done _ _ _ hk => exact ⟨hk.fb, hk.cfg, hk.cmd, fun _ => hk.cfglock⟩
  | raised _ _ _ _ _ _ hk => exact ⟨hk.fb, hk.cfg, hk.cmd, fun _ => hk.cfglock⟩

/-! ### The corruption flag is cleared (R305) -/

/-- Of all a command can end with, only the start of a frame that is not lost clears the flag. -/
theorem Ends.clears_bec (h : Ends i s t) (hs : s.bec = true) (ht : t.bec = false) :
    ∃ len, i = .finit false len ∧ s.cfglock = true ∧ 20 ≤ len.toNat ∧ len.toNat ≤ s.cfg.maxbytes.toNat ∧ t.cause = .none := by
  have kept {P : Prop} (hbec : t.bec = s.bec) : P := absurd (ht.symm.trans (hbec.trans hs)) nofun
  cases h with
  | failed _ _ _ => exact kept rfl
  | skipped _ _ _ => exact kept rfl
  | locked _ _ => exact kept rfl
  | started loss len hi hl h20 hmax =>
    obtain rfl : loss = false := ht
    exact ⟨len, hi, hl, h20, hmax, rfl⟩
  | reset _ => exact absurd ht nofun
  | done _ _ _ hk => exact kept hk.bec
  | raised _ _ _ _ _ _ _ => exact absurd ht nofun

/-- Settles O26: neither an idle step, a reset, a HOST access nor an illegal word clears the flag. -/
theorem onlyFinitClearsCorruption : Obligations.OnlyFinitClearsCorruption := by
  intro s t h hs ht
  have kept {P : Prop} (hbec : t.bec = true) : P := absurd (ht.symm.trans hbec) nofun
  rcases step_cases h with
    ⟨_, rfl⟩ | ⟨op, rest, hop,
      ⟨_, rfl⟩ | ⟨_, _, _, _, rfl⟩ | ⟨_, v, p, _, _, _, rfl⟩ | ⟨w, e, _, _, rfl⟩ | ⟨w, i, rfl, hi, hx⟩⟩
  · exact kept hs
  · exact kept rfl
  · exact kept hs
  · exact kept (writePort_bec p v hs)
  · exact kept (by cases e <;> exact hs)
  · obtain ⟨len, rfl, hl, h20, hmax, hcause⟩ := (exec_ends hx).clears_bec hs ht
    exact ⟨len, rest, by rw [hop, commandHasOneWord w _ hi], hl, h20, hmax, hcause⟩

/-! ### The first cause is kept (R302) -/

theorem Ends.cause_changed (h : Ends i s t) (hc : t.cause ≠ s.cause) :
    s.bec = false ∧ t.bec = true ∨ i = .sreset ∨ ∃ loss len, i = .finit loss len := by
  cases h with
  | failed _ _ _ => exact absurd rfl hc
  | skipped _ _ _ => exact absurd rfl hc
  | locked _ _ => exact absurd rfl hc
  | started loss len hi _ _ _ => exact .inr (.inr ⟨loss, len, hi⟩)
  | reset hi => exact .inr (.inl hi)
  | done _ _ _ hk => exact absurd hk.cause hc
  | raised _ _ _ _ _ hb _ => exact .inl ⟨hb, rfl⟩

/-- Settles O27: a HOST write changes the cause only as `HOSTSET` from `BEC = 0`. -/
theorem firstCauseIsKept : Obligations.FirstCauseIsKept := by
  intro s t h hc
  rcases step_cases h with
    ⟨_, rfl⟩ | ⟨op, rest, hop,
      ⟨rfl, _⟩ | ⟨_, _, _, _, rfl⟩ | ⟨_, v, p, _, _, _, rfl⟩ | ⟨w, e, _, _, rfl⟩ | ⟨w, i, rfl, hi, hx⟩⟩
  · exact absurd rfl hc
  · exact .inr ⟨_, rest, hop, .inl rfl⟩
  · exact absurd rfl hc
  · exact .inl (writePort_cause_changed p v hc)
  · exact absurd (by cases e <;> rfl) hc
  · rcases (exec_ends hx).cause_changed hc with hraised | rfl | ⟨loss, len, rfl⟩
    · exact .inl hraised
    · exact .inr ⟨_, rest, hop, .inr (.inl (by rw [word_of_decode_sreset hi]))⟩
    · exact .inr ⟨_, rest, hop, .inr (.inr ⟨loss, len, by rw [commandHasOneWord w _ hi]⟩)⟩

end Sys2Proof.Machine
end

section
/-! The postfilter's command (R261 to R264): the history and the registers after `LTPF`, the new block as the solution of the
filter equations, and the memorised lag in bounds after every step. -/

namespace Sys2Proof.Machine

open Sys2Proof

/-! ### The command -/

section command

variable {env : Env} {s : State}

/-- R261: the state after an admitted filter ran, before the command completes. -/
def ltpfApplied (env : Env) (s : State) : State :=
  { s with
    yh := memFill s.yh 0 (historyAfter s (ltpfRun env s s.cfg.ns.toNat).y) (histLen s.cfg)
    xt := Vector.ofFn fun i => inputAfter s i.val
    ltpfMem := s.frm.ltpf }

theorem ltpfBody_of_lagOk (h : s.frm.ltpf.active = true → lagOk s.cfg s.frm.ltpf = true) :
    ltpfBody env s = finish (caseNumber (ltpfCase s)) (ltpfApplied env s) :=
  if_neg (by simpa using h)

/-- R264: a filter is refused, or ran with its lag in bounds. -/
theorem ltpfBody_outcome (env : Env) (s : State) : ltpfBody env s = failErr .badstate s ∨
    (s.frm.ltpf.active = true → lagOk s.cfg s.frm.ltpf = true) ∧
      ltpfBody env s = finish (caseNumber (ltpfCase s)) (ltpfApplied env s) := by
  by_cases h : (s.frm.ltpf.active && !lagOk s.cfg s.frm.ltpf) = true
  · exact .inl (if_pos h)
  · have hlag : s.frm.ltpf.active = true → lagOk s.cfg s.frm.ltpf = true := by simpa using h
    exact .inr ⟨hlag, ltpfBody_of_lagOk hlag⟩

/-- `LTPF` is not decode-class: the lock alone admits it, whatever `BEC` is. -/
theorem exec_ltpf_of_lagOk (hl : s.cfglock = true) (h : s.frm.ltpf.active = true → lagOk s.cfg s.frm.ltpf = true) :
    exec .ltpf s = .next (finish (caseNumber (ltpfCase s)) (ltpfApplied Config.env s)) := by
  rw [exec_ltpf, admission_of_locked (i := .ltpf) _ rfl rfl hl, ltpfBody_of_lagOk h]

/-! ### The histories (R37, R262) -/

/-- R24: a valid configuration has at least one block, so the history is the older blocks and the newest one. -/
theorem histLen_eq_older_add {p : Params} {c : CfgRegs} (h : cfgValid p c = true) :
    histLen c = (c.ltpfNblk.toNat - 1) * c.ns.toNat + c.ns.toNat := by
  have hblk : 1 ≤ c.ltpfNblk.toNat := by
    have hnblk := (cfgValid_iff.mp h).nblk
    omega
  rw [histLen, ← Nat.succ_mul, Nat.succ_eq_add_one, Nat.sub_add_cancel hblk]

section history

variable (hlen : histLen s.cfg ≤ 8192) (hyh : Memory.wf 8192 s.yh = true)

include hlen hyh

theorem memRead_yh_ltpfApplied (i : Nat) : memRead (ltpfApplied env s).yh i =
    if i < histLen s.cfg then historyAfter s (ltpfRun env s s.cfg.ns.toNat).y i else memRead s.yh i := by
  rw [ltpfApplied, memRead_memFill hyh 0 _ _ (by omega)]
  simp only [Nat.zero_le, true_and, Nat.zero_add, Nat.sub_zero]

/-- The oldest block is dropped, the others move down by one. -/
theorem memRead_yh_shifted {i : Nat} (hi : i + s.cfg.ns.toNat < histLen s.cfg) :
    memRead (ltpfApplied env s).yh i = memRead s.yh (i + s.cfg.ns.toNat) := by
  rw [memRead_yh_ltpfApplied hlen hyh, if_pos (by omega), historyAfter, Nat.add_comm s.cfg.ns.toNat, if_pos hi]

/-- The newest block is the frame. -/
theorem memRead_yh_newest {k n : Nat} (hk : histLen s.cfg = k + s.cfg.ns.toNat) (hn : n < s.cfg.ns.toNat) :
    memRead (ltpfApplied env s).yh (k + n) = outSample env s n := by
  have hj : s.cfg.ns.toNat + (k + n) = histLen s.cfg + n := by omega
  rw [memRead_yh_ltpfApplied hlen hyh, if_pos (by omega), historyAfter, hj, if_neg (by omega), Nat.add_sub_cancel_left]
  exact ltpfRun_getD _ n hn

end history

/-- The last 10 of the input history followed by the frame's input. -/
theorem vecAt_xt_ltpfApplied {i : Nat} (hi : i < 10) : vecAt (ltpfApplied env s).xt i =
    if i + s.cfg.ns.toNat < 10 then vecAt s.xt (i + s.cfg.ns.toNat) else memRead s.tblk (i + s.cfg.ns.toNat - 10) := by
  rw [ltpfApplied, vecAt_ofFn _ i hi, inputAfter, Nat.add_comm s.cfg.ns.toNat]

/-- R37, R262: after the command `OUT` is the frame just built. -/
theorem outAt_ltpfApplied (hs : MemoryInv s) (hl : s.cfglock = true) (res : Word) {n : Nat} (hn : n < s.cfg.ns.toNat) :
    outAt (finish res (ltpfApplied env s)) n = outSample env s n := by
  have hv := hs.locked hl
  exact (if_pos hn).trans (memRead_yh_newest (histLen_le hv) hs.yh (histLen_eq_older_add hv) hn)

/-! ### The transition case (R261) -/

theorem ltpfCase_inactive (ha : s.frm.ltpf.active = false) (hm : s.ltpfMem.active = false) : ltpfCase s = .inactive := by
  simp [ltpfCase, ha, hm]

theorem ltpfCase_activation (ha : s.frm.ltpf.active = true) (hm : s.ltpfMem.active = false) : ltpfCase s = .activation := by
  simp [ltpfCase, ha, hm]

theorem ltpfCase_deactivation (ha : s.frm.ltpf.active = false) (hm : s.ltpfMem.active = true) :
    ltpfCase s = .deactivation := by
  simp [ltpfCase, ha, hm]

theorem ltpfCase_of_active (ha : s.frm.ltpf.active = true) (hm : s.ltpfMem.active = true) : ltpfCase s =
    if s.frm.ltpf.pint = s.ltpfMem.pint ∧ s.frm.ltpf.pfr = s.ltpfMem.pfr then .samePitch else .pitchChange := by
  simp only [ltpfCase, ha, hm]

/-- The case number as the rule's own tests. -/
theorem caseNumber_ltpfCase : caseNumber (ltpfCase s) =
    if s.frm.ltpf.active = false then (if s.ltpfMem.active = false then 1 else 3)
    else if s.ltpfMem.active = false then 2
    else if s.frm.ltpf.pint = s.ltpfMem.pint ∧ s.frm.ltpf.pfr = s.ltpfMem.pfr then 4 else 5 := by
  cases ha : s.frm.ltpf.active <;> cases hm : s.ltpfMem.active
  · rw [ltpfCase_inactive ha hm]; rfl
  · rw [ltpfCase_deactivation ha hm]; rfl
  · rw [ltpfCase_activation ha hm]; rfl
  · rw [ltpfCase_of_active ha hm, apply_ite caseNumber]; rfl

end command

/-- Settles O53: the histories after an admitted filter, its case number, and the newest block as `OUT`. -/
theorem ltpfAdvancesTheHistory : Obligations.LtpfAdvancesTheHistory := by
  intro s hl hs hlag
  have hv := hs.locked hl
  have hlen := histLen_le hv
  have hk := histLen_eq_older_add hv
  refine ⟨_, exec_ltpf_of_lagOk hl hlag, fun i => memRead_yh_shifted hlen hs.yh, fun n hn => ?_, fun i hi => ?_,
    fun i => vecAt_xt_ltpfApplied (env := Config.env), caseNumber_ltpfCase, rfl⟩
  · rw [outAt_ltpfApplied hs hl _ hn, Nat.sub_eq_of_eq_add hk]
    exact memRead_yh_newest hlen hs.yh hk hn
  · exact (memRead_yh_ltpfApplied hlen hs.yh i).trans (if_neg hi.not_gt)

/-! ### The filter equations (R261, R263) -/

section equations

variable {env : Env} {s : State}

theorem ltpfIn_inputIs (num : Numerics) (s : State) : InputIs s (ltpfIn num s) := by
  refine ⟨fun n _ => ?_, fun k hk hk10 => ?_⟩
  · rw [ltpfIn, if_pos (by omega), Int.toNat_natCast]
  · rw [ltpfIn, if_neg (by omega), if_pos (by omega)]
    congr 1
    omega

theorem outSignal_of_frame (n : Nat) : outSignal env s n = outSample env s n := by
  rw [outSignal, if_neg (by omega), Int.toNat_natCast]

theorem midSignal_of_frame (n : Nat) : midSignal env s n = midSample env s n := by
  rw [midSignal, Int.toNat_natCast]

theorem outSignal_outputIs {t : State} (hout : ∀ n, n < s.cfg.ns.toNat → outAt t n = outSample env s n) :
    OutputIs s t (outSignal env s) := by
  refine ⟨fun n hn => (outSignal_of_frame n).trans (hout n hn).symm, fun k hk hkH => ?_⟩
  rw [outSignal, if_pos (by omega), ltpfHist, if_pos (by omega)]
  congr 1
  omega

theorem rampUp_eq (num : Numerics) (s : State) (n : Nat) :
    rampUp num s n = num.ofRat ((n : Rat) / (s.cfg.ns.toNat / 4 : Nat)) := by
  rw [rampUp, fadeLen, Rat.mkRat_eq_div, Int.cast_natCast]

theorem rampDown_eq (num : Numerics) (s : State) (n : Nat) :
    rampDown num s n = num.ofRat (1 - (n : Rat) / (s.cfg.ns.toNat / 4 : Nat)) := by
  rw [rampDown, fadeLen, Rat.mkRat_eq_div, Int.cast_natCast]

/-- R261, the transition quarter: the whole signals satisfy the equation of the frame's case. -/
theorem fade_equations (hlag : s.frm.ltpf.active = true → lagOk s.cfg s.frm.ltpf = true)
    (hmem : s.ltpfMem.active = true → lagOk s.cfg s.ltpfMem = true) {n : Nat} (hn : n < s.cfg.ns.toNat / 4) :
    (s.frm.ltpf.active = false → s.ltpfMem.active = false → outSignal env s n = ltpfIn env.num s n) ∧
    (s.frm.ltpf.active = true → s.ltpfMem.active = false →
      FadedFilterAt env s s.frm.ltpf ((n : Rat) / (s.cfg.ns.toNat / 4 : Nat)) (ltpfIn env.num s) (ltpfIn env.num s)
        (outSignal env s) (outSignal env s) n) ∧
    (s.frm.ltpf.active = false → s.ltpfMem.active = true →
      FadedFilterAt env s s.ltpfMem (1 - (n : Rat) / (s.cfg.ns.toNat / 4 : Nat)) (ltpfIn env.num s) (ltpfIn env.num s)
        (outSignal env s) (outSignal env s) n) ∧
    (s.frm.ltpf.active = true → s.ltpfMem.active = true →
      s.frm.ltpf.pint = s.ltpfMem.pint ∧ s.frm.ltpf.pfr = s.ltpfMem.pfr →
      FullFilterAt env s s.frm.ltpf (ltpfIn env.num s) (outSignal env s) n) ∧
    (s.frm.ltpf.active = true → s.ltpfMem.active = true →
      ¬(s.frm.ltpf.pint = s.ltpfMem.pint ∧ s.frm.ltpf.pfr = s.ltpfMem.pfr) →
      FadedFilterAt env s s.ltpfMem (1 - (n : Rat) / (s.cfg.ns.toNat / 4 : Nat)) (ltpfIn env.num s) (ltpfIn env.num s)
        (fun i => if i < 0 then outSignal env s i else midSignal env s i) (midSignal env s) n ∧
      FadedFilterAt env s s.frm.ltpf ((n : Rat) / (s.cfg.ns.toNat / 4 : Nat)) (midSignal env s)
        (fun i => if i < 0 then ltpfIn env.num s i else midSignal env s i) (outSignal env s) (outSignal env s) n) := by
  unfold FadedFilterAt FullFilterAt
  rw [outSignal_of_frame, midSignal_of_frame, ← rampUp_eq, ← rampDown_eq]
  refine ⟨fun ha hm => ?_, fun ha hm => ?_, fun ha hm => ?_, fun ha hm hp => ?_, fun ha hm hp => ?_⟩
  · exact outSample_inactive n hn (ltpfCase_inactive ha hm)
  · exact outSample_activation n hn (ltpfCase_activation ha hm) (hlag ha)
  · exact outSample_deactivation n hn (ltpfCase_deactivation ha hm) (hmem hm)
  · exact outSample_samePitch n hn ((ltpfCase_of_active ha hm).trans (if_pos hp)) (hlag ha)
  · exact outSample_pitchChange n hn ((ltpfCase_of_active ha hm).trans (if_neg hp)) (hlag ha) (hmem hm)

/-- R261, the rest of the frame: the full filter, or the input itself. -/
theorem rest_equations (hlag : s.frm.ltpf.active = true → lagOk s.cfg s.frm.ltpf = true) {n : Nat}
    (hn : s.cfg.ns.toNat / 4 ≤ n) :
    (s.frm.ltpf.active = true → FullFilterAt env s s.frm.ltpf (ltpfIn env.num s) (outSignal env s) n) ∧
      (s.frm.ltpf.active = false → outSignal env s n = ltpfIn env.num s n) := by
  unfold FullFilterAt
  rw [outSignal_of_frame, outSample_rest n hn]
  refine ⟨fun ha => ?_, fun ha => ?_⟩
  · rw [if_pos ha, filterFull_eq n (hlag ha)]
  · rw [ha]
    rfl

end equations

/-- Settles O54: the signals are the model's own, each taken as a whole; the two parts of the frame have each its equations. -/
theorem ltpfSolvesTheFilterEquations : Obligations.LtpfSolvesTheFilterEquations := fun s hl hs hpitch hlag =>
  ⟨_, ltpfIn Config.env.num s, outSignal Config.env s, midSignal Config.env s, exec_ltpf_of_lagOk hl hlag,
    ltpfIn_inputIs Config.env.num s, outSignal_outputIs fun _ hn => outAt_ltpfApplied hs hl _ hn,
    fun _ hn => fade_equations hlag (fun hm => (hpitch hm).2) hn, fun _ hn _ => rest_equations hlag hn⟩

/-! ### The memorised lag (R261, R264) -/

section memorised

variable {s t : State}

theorem respected_ltpfMem (env : Env) : Respected env fun s t => t.ltpfMem = s.ltpfMem where
  refl _ := rfl
  trans h h' := h'.trans h
  coder _ _ _ _ _ _ := rfl
  reader _ _ _ _ := rfl
  filter := setTns_ltpfMem

theorem endRan_ltpfMem {α : Type} {cs : List Cause} {r : Ran α Sample} {fin : α → State → State}
    (h : RanRel (fun s t => t.ltpfMem = s.ltpfMem) cs s r) (hfin : ∀ a u, (fin a u).ltpfMem = u.ltpfMem) :
    (endRan fin r).ltpfMem = s.ltpfMem := by
  cases r with
  | ok a u => exact (hfin a u).trans h
  | raised c u => exact h.1

theorem readResult_ltpfMem {n : Nat} (hn : n ≤ 32) : (readResult n s).ltpfMem = s.ltpfMem := by
  rw [readResult_eq_endRan]
  exact endRan_ltpfMem ((respected_ltpfMem Config.env).brRead hn s) fun _ _ => rfl

theorem acdecBody_ltpfMem {m : BitVec 8} (hm : m.toNat < Config.env.rom.nspec + 18) :
    (acdecBody Config.env m s).ltpfMem = s.ltpfMem := by
  rw [acdecBody_eq_endRan]
  exact endRan_ltpfMem ((respected_ltpfMem Config.env).acStep hm s) fun _ _ => rfl

theorem actnsBody_ltpfMem (f : BitVec 1) : (actnsBody Config.env f s).ltpfMem = s.ltpfMem := by
  rw [actnsBody_eq_endRan]
  exact endRan_ltpfMem ((respected_ltpfMem Config.env).actnsRun f s) fun _ _ => rfl

theorem acpairBody_ltpfMem : (acpairBody Config.env s).ltpfMem = s.ltpfMem := by
  by_cases hk : s.frm.specK.toNat % 2 = 1 ∨ s.cfg.ne.toNat < s.frm.specK.toNat + 2
  · rw [acpairBody_of_bad_position hk]
    rfl
  · rw [acpairBody_eq_endRan (by omega) (by omega)]
    refine endRan_ltpfMem ((respected_ltpfMem Config.env).pairDecode (fun _ lev ht => pairModel_lt_all lev ht) s) fun p u => ?_
    unfold pairFinish
    split <;> rfl

/-- A command that is not admitted leaves `LTPF_MEM` alone. -/
theorem admission_ltpfMem {i : Instr} {body : State → State}
    (h : i.wellFormed Config.env.rom.nspec = true → (body s).ltpfMem = s.ltpfMem) :
    (admission Config.env i body s).ltpfMem = s.ltpfMem := by
  rcases admission_outcome Config.env i body s with ⟨_, he⟩ | ⟨_, _, _, he⟩ | ⟨_, _, _, _, he⟩ | ⟨hw, _, _, he⟩ <;> rw [he]
  case inr.inr.inr => exact h hw
  all_goals rfl

/-- R37: `LTPF_MEM` is written by `LTPF` and by the reset only. -/
theorem exec_ltpfMem {i : Instr} (h : exec i s = .next t) (hreset : i ≠ .sreset) (hltpf : i ≠ .ltpf) :
    t.ltpfMem = s.ltpfMem := by
  cases i with
  | sreset => exact absurd rfl hreset
  | ltpf => exact absurd rfl hltpf
  | nop => cases h; exact admission_ltpfMem fun _ => rfl
  | cfglock => cases h; exact admission_ltpfMem fun _ => by unfold cfglockBody; split_ifs <;> rfl
  | finit loss len => cases h; exact admission_ltpfMem fun _ => by unfold finitBody; split <;> rfl
  | brbit => cases h; exact admission_ltpfMem fun _ => readResult_ltpfMem (by decide)
  | bruint n => cases h; exact admission_ltpfMem fun hw => readResult_ltpfMem (by simpa [Instr.wellFormed] using hw)
  | brsync => cases h; exact admission_ltpfMem fun _ => rfl
  | acdec m => cases h; exact admission_ltpfMem fun hw => acdecBody_ltpfMem (by simpa [Instr.wellFormed] using hw)
  | actns f => cases h; exact admission_ltpfMem fun _ => actnsBody_ltpfMem f
  | acpair => cases h; exact admission_ltpfMem fun _ => acpairBody_ltpfMem
  | nfill => cases h; exact admission_ltpfMem fun _ => by unfold nfillBody; split <;> rfl
  | ggain => cases h; exact admission_ltpfMem fun _ => rfl
  | tnssyn => cases h; exact admission_ltpfMem fun _ => by unfold tnssynBody; split_ifs <;> rfl
  | snssyn => cases h; exact admission_ltpfMem fun _ => by unfold snssynBody; split_ifs <;> rfl
  | imdct => cases h; exact admission_ltpfMem fun _ => rfl

/-- A change that keeps `LTPF_MEM`, and on a locked state the lock and the configuration. -/
theorem LtpfInv.of_locked (hs : LtpfInv s) (hmem : t.ltpfMem = s.ltpfMem)
    (hlock : s.cfglock = true → t.cfglock = true ∧ t.cfg = s.cfg) : LtpfInv t := by
  intro ha
  rw [hmem] at ha ⊢
  obtain ⟨hl, hlag⟩ := hs ha
  obtain ⟨hl', hcfg⟩ := hlock hl
  exact ⟨hl', hcfg ▸ hlag⟩

theorem LtpfInv.writePort (hs : LtpfInv s) (p : Port) (v : Word) : LtpfInv (writePort Config.env.num p v s) := by
  refine hs.of_locked ?_ (writePort_locked p v)
  rcases writePort_outcome Config.env.num p v s with
    he | ⟨_, _, he⟩ | ⟨_, c, he⟩ | ⟨r, _, he⟩ | ⟨k, _, he⟩ | ⟨k, _, he⟩ | ⟨k, _, he⟩ <;> rw [he]
  all_goals rfl

/-- R261: what `LTPF` memorises has passed its admission check under the locked configuration. -/
theorem LtpfInv.ltpf (hs : LtpfInv s) (h : exec .ltpf s = .next t) : LtpfInv t := by
  cases h
  rcases admission_outcome Config.env .ltpf (ltpfBody Config.env) s with
    ⟨hw, _⟩ | ⟨_, _, _, he⟩ | ⟨_, _, hd, _⟩ | ⟨_, hl, _, he⟩
  · cases hw
  · exact (congrArg LtpfInv he).mpr hs
  · cases hd
  · refine (congrArg LtpfInv he).mpr ?_
    rcases ltpfBody_outcome Config.env s with hfail | ⟨hlag, hran⟩
    · rw [hfail]
      exact hs
    · rw [hran]
      exact fun ha => ⟨hl rfl, hlag ha⟩

theorem LtpfInv.exec (hs : LtpfInv s) {i : Instr} (h : exec i s = .next t) : LtpfInv t := by
  by_cases hltpf : i = .ltpf
  · subst hltpf
    exact hs.ltpf h
  by_cases hreset : i = .sreset
  · subst hreset
    cases h
    exact nofun
  · exact hs.of_locked (exec_ltpfMem h hreset hltpf) fun hl => ((exec_ends h).locked_immutable hl).resolve_left hreset

end memorised

/-- Settles O58: `LTPF` memorises a checked lag, and nothing changes a locked configuration but a reset, which clears it. -/
theorem stepsKeepTheMemorisedPitch : Obligations.StepsKeepTheMemorisedPitch := fun _ _ hs h =>
  step_keeps (fun _ _ _ _ hs => hs) nofun (fun _ p v _ hs => hs.writePort p v)
    (fun _ e hs => by cases e <;> exact hs) (fun _ _ _ hs hx => hs.exec hx) hs h

end Sys2Proof.Machine
end
